-- ==== Sys2Proof/Word.lean ====
section
/-! DEFINITION. The one word of the part: a byte, as a character on the host link and in a payload (R150, R203). -/

namespace Sys2Proof

/-- Eight data bits of a character; bit 0 is the least significant (R150, chapter 10). -/
abbrev Byte := BitVec 8

end Sys2Proof
end

