-- ==== Sys2Proof/Syntax.lean ====
section
/-! DEFINITION. The steps of the part, one constructor per row of spec/opcode_table.json. A step that comes from
outside the part carries what it brings (the strap levels, a character, an answer word). Every other step works on
what State holds (a timer that runs, an accepted frame, the command that CMP has taken), so it carries nothing:
the arguments of a host command are the payload bytes of the taken command (R173, R205). -/

namespace Sys2Proof

inductive Instr where
  /-- POWER_ON (R207): the straps RATE1 and RATE0 as sampled, set for high (R150). -/
  | powerOn (rate1 rate0 : Bool)
  /-- START_UP_END (R208). -/
  | startUpEnd
  /-- RECEIVED_BYTE (R152): the character taken from HRX. -/
  | receivedByte (b : Byte)
  /-- BREAK (R156). -/
  | lineBreak
  /-- GAP_TIMER_EXPIRY (R155). -/
  | gapTimerExpiry
  /-- COMMAND_FRAME (R174). -/
  | commandFrame
  /-- ACK (R135). -/
  | ack
  /-- COMMAND_TAKE (R175). -/
  | commandTake
  /-- HELLO (R163). -/
  | hello
  /-- BYE (R164). -/
  | bye
  /-- REPLAY (R169). -/
  | replay
  /-- IDENT (R183). -/
  | ident
  /-- STATUS (R184). -/
  | status
  /-- RESET (R185). -/
  | reset
  /-- RESET_TAKES_EFFECT (R172). -/
  | resetTakesEffect
  /-- TCLEAR (R83). -/
  | tclear
  /-- TADD (R82). -/
  | tadd
  /-- TREAD (R84). -/
  | tread
  /-- TCOMMIT (R189). -/
  | tcommit
  /-- RSET (R68). -/
  | rset
  /-- RON (R69). -/
  | ron
  /-- ROFF (R70). -/
  | roff
  /-- RARM (R61). -/
  | rarm
  /-- RREAD (R72). -/
  | rread
  /-- CSET (R193). -/
  | cset
  /-- CREAD (R193). -/
  | cread
  /-- PSET (R105). -/
  | pset
  /-- START (R95). -/
  | start
  /-- STOP (R96). -/
  | stop
  /-- ABORT (R101). -/
  | abort
  /-- FORCE (R112). -/
  | force
  /-- SLIST (R198). -/
  | slist
  /-- SFETCH (R144). -/
  | sfetch
  /-- SDROP (R42). -/
  | sdrop
  /-- TRANSMIT_FRAME_START (R160). -/
  | transmitFrameStart
  /-- FRAME_END (R160). -/
  | frameEnd
  /-- DELIVERY_START (R137). -/
  | deliveryStart
  /-- DELIVERY_QUEUE (R139). -/
  | deliveryQueue
  /-- ACK_TIMER_EXPIRY (R167). -/
  | ackTimerExpiry
  /-- PACE_TICK (R104). -/
  | paceTick
  /-- CONVERTER_ANSWER (R118): the converted value, the over-range indication and the request tag of the answer word. -/
  | converterAnswer (value : Int) (overRange : Bool) (tag : Nat)
  /-- CONVERSION_TIMEOUT (R119). -/
  | conversionTimeout
  /-- TRGIN_RISING_EDGE (R62). -/
  | trginRisingEdge
  /-- TRGOUT_PULSE_EXPIRY (R47). -/
  | trgoutPulseExpiry
  /-- UNKNOWN_COMMAND (R177). -/
  | unknownCommand
  /-- TRGIN_FALLING_EDGE (R62). -/
  | trginFallingEdge
  deriving DecidableEq, Repr

end Sys2Proof
end

