-- ==== Sys2Proof/Decode.lean ====
section
/-! DEFINITION. The command that a word of opcode-table bits spells. No row of spec/opcode_table.json gives bits
(each has an empty list of fields and no fixed bits): a host command reaches the part as a frame of characters, which
RECEIVED_BYTE assembles (R151 to R153), so no word spells a step here. -/

namespace Sys2Proof

/-- No row of the table gives bits, so no word spells a step (log entry 18). -/
def decodeTableWord (_nbits _w : Nat) : Option Instr := none

end Sys2Proof
end

