-- ==== Sys2Proof/Config.lean ====
section
/-! DEFINITION. What every DX416 fixes (the capacities and limits of chapter "Capacities" and of the pin page), and
the one free value of the model. -/

namespace Sys2Proof.Config

/-- Store pages, numbered 0-255. -/
def storePages : Nat := 256
/-- Record slots of one page, numbered 0-31 (R1). -/
def recordsPerPage : Nat := 32
/-- Slots of the segment table (R22). -/
def descriptors : Nat := 32
/-- Entries of one scan-table copy (R81). -/
def scanEntries : Nat := 64
/-- Entries of the secondary firing list (R32). -/
def secondaryEntries : Nat := 4
/-- Places of the pending queue (R129). -/
def pendingPlaces : Nat := 48
/-- Places of the pending queue that segment reports may take (R129). -/
def segmentPlaces : Nat := 40
/-- The outstanding window (R129). -/
def window : Nat := 16
/-- Places of the fetch queue (R143). -/
def fetchPlaces : Nat := 8
/-- Places of the command queue (R173). -/
def queuePlaces : Nat := 4
/-- Places of the reply buffer (R159). -/
def replyPlaces : Nat := 5
/-- The inter-byte gap limit, in µs (R155). -/
def gapLimit : Nat := 2000
/-- The pass counter's modulus: the least common multiple of the dividers 1-16 (R79). -/
def passModulus : Nat := 720720
/-- The largest value of a 16-bit counter that saturates. -/
def counterMax : Nat := 65535

/-- FREE VALUE (DESIGN CHOICE of its form, log entry 2): what a page slot holds after power-on before anything is written to it, which the manual
calls unknown (R20, R209). First argument: which power-on; second: the slot's address, 32 x page + slot. The bits
stand for the stored fields: value 0-15, entry index 16-21, marker 22-23, ERR 24, OVR 25, HOLD 26. -/
opaque unknownSlot : Nat → Nat → BitVec 27

end Sys2Proof.Config
end

