-- ==== Sys2Proof/Machine/State.lean ====
section
/-! DEFINITION. The state of the part as plain data: one structure per block (chapter "The blocks"), the stop reasons,
and the state right after reset. -/

namespace Sys2Proof.Machine

/-! ## Names of the manual (codes in Machine/Flags.lean) -/

/-- Where acquisition stands (R94). -/
inductive AcqState where
  | idle | running | draining | halted
  deriving DecidableEq, Repr

/-- The cause of the last entry into the acquisition state (R94). -/
inductive AcqReason where
  | none | start | stop | drained | singleDone | abort | starved | converter
  deriving DecidableEq, Repr

/-- Whether reports may be sent (R162). -/
inductive Session where
  | closed | open | stalled
  deriving DecidableEq, Repr

/-- The state of a descriptor in use (section 2.3). -/
inductive SegState where
  | filling | complete | sending | sent
  deriving DecidableEq, Repr

/-- The state of a trigger rule (R51). -/
inductive RuleState where
  | off | armed | qualifying | fired
  deriving DecidableEq, Repr

/-- What a rule looks for (R50, R54). -/
inductive Condition where
  | above | below | rising | falling | inside | outside | external
  deriving DecidableEq, Repr

/-- How a fired rule returns to ARMED (R50). -/
inductive Rearm where
  | auto | manual
  deriving DecidableEq, Repr

/-- What a firing does (R50). -/
inductive Action where
  | capture | note
  deriving DecidableEq, Repr

/-- The outcome of a firing (R67). -/
inductive FiringOutcome where
  | opened | secondary | extended | heldOff | noDescriptor | draining | note
  deriving DecidableEq, Repr

/-- Why a segment was discarded (R41). -/
inductive DropReason where
  | dropped | displaced | aborted
  deriving DecidableEq, Repr

/-- The retrigger policy (R25). -/
inductive Retrigger where
  | count | extend
  deriving DecidableEq, Repr

/-- The exhaustion policy (R25). -/
inductive Exhaustion where
  | truncate | halt | displace
  deriving DecidableEq, Repr

/-- The capture mode (R25). -/
inductive CaptureMode where
  | continuous | single
  deriving DecidableEq, Repr

/-- The delivery mode (R25). -/
inductive DeliveryMode where
  | auto | fetch
  deriving DecidableEq, Repr

/-- How a pace tick is spent (R94). -/
inductive PaceMode where
  | step | burst
  deriving DecidableEq, Repr

/-- Where a BURST pass stands (R94). -/
inductive PassState where
  | waiting | converting | paused
  deriving DecidableEq, Repr

/-- The watermark state (R17). -/
inductive Watermark where
  | above | below
  deriving DecidableEq, Repr

/-- Why a notice is raised (R158). -/
inductive NoticeReason where
  | crc | length | kind | gap | badack | dropped
  deriving DecidableEq, Repr

/-- The link rate fixed by the straps (R150): 115,200, 460,800, 921,600 or 2,000,000 bit/s. -/
inductive LinkRate where
  | r115200 | r460800 | r921600 | r2000000
  deriving DecidableEq, Repr

/-- The result codes of replies (section 9.2). -/
inductive Result where
  | ok | unknown | badlen | badarg | state | busy | nospace | noent | indelivery | session
  deriving DecidableEq, Repr

/-- Whether the part is in the 2 ms start-up interval or takes events (R207). -/
inductive Power where
  | startUp | ready
  deriving DecidableEq, Repr

/-! ## The sample store -/

/-- A stored sample record (R2). -/
structure Record where
  value : Int
  entry : Nat
  marker : Nat
  err : Bool
  ovr : Bool
  hold : Bool
  deriving DecidableEq, Repr

/-- The slots of the store that have been written since power-on, by address 32 x page + slot, addresses strictly
rising. An address not listed holds its power-on content, which is unknown (R20). -/
abbrev SlotMem := List (Nat × Record)

/-- The Sample Store (R1 to R21). -/
structure Sst where
  /-- slot contents (R1) -/
  slots : SlotMem
  /-- the free pool, head first (R4) -/
  pool : List Nat
  /-- the history ring, oldest page first (R7) -/
  ring : List Nat
  /-- newest fill, absent when the ring is empty (R7) -/
  ringFill : Option Nat
  /-- the ring's target size in pages (R7) -/
  targetSize : Nat
  /-- the watermark state (R17) -/
  watermark : Watermark
  /-- the history-loss counter (R11) -/
  historyLoss : Nat
  deriving DecidableEq, Repr

/-! ## Segments -/

/-- The flags of a segment (R24). -/
structure SegFlags where
  shortPre : Bool
  truncated : Bool
  extended : Bool
  limited : Bool
  overrun : Bool
  errsamp : Bool
  haltend : Bool
  deriving DecidableEq, Repr

/-- An entry of the secondary firing list (R24). -/
structure Secondary where
  rule : Nat
  offset : Nat
  outcome : FiringOutcome
  deriving DecidableEq, Repr

/-- A descriptor in use (R24). -/
structure Descriptor where
  number : Nat
  run : Nat
  primaryRule : Nat
  primaryPriority : Nat
  triggerTick : Nat
  triggerEntry : Nat
  generation : Nat
  preRequested : Nat
  preTaken : Nat
  postRequested : Nat
  postTaken : Nat
  maxLength : Nat
  state : SegState
  flags : SegFlags
  errCount : Nat
  secondary : List Secondary
  secondaryOverflow : Nat
  pages : List Nat
  firstOffset : Nat
  deriving DecidableEq, Repr

/-- The capture settings (R25). -/
structure CaptureSettings where
  preRequested : Nat
  postRequested : Nat
  maxLength : Nat
  retrigger : Retrigger
  exhaustion : Exhaustion
  captureMode : CaptureMode
  deliveryMode : DeliveryMode
  holdoff : Nat
  pulseWidth : Nat
  lowWatermark : Nat
  deriving DecidableEq, Repr

/-- The Segment Manager (R22 to R49). -/
structure Sgm where
  /-- the segment table, oldest descriptor first (R22) -/
  table : List Descriptor
  /-- the next segment number (R23) -/
  nextNumber : Nat
  /-- the capture settings (R25) -/
  settings : CaptureSettings
  /-- holdoff remaining, in pace ticks (R36) -/
  holdoff : Nat
  /-- the no-descriptor counter (R28) -/
  noDescriptor : Nat
  /-- TRGOUT, set for high (R47) -/
  trgout : Bool
  /-- the trigger output pulse timer: absent when stopped, else the width in µs with which it was last started (R47) -/
  pulseTimer : Option Nat
  deriving DecidableEq, Repr

/-! ## Trigger rules -/

/-- The fields of a rule (R50). -/
structure RuleFields where
  condition : Condition
  /-- absent for EXTERNAL -/
  channel : Option Nat
  thresholdA : Int
  /-- present for INSIDE and OUTSIDE -/
  thresholdB : Option Int
  hysteresis : Nat
  qualify : Nat
  priority : Nat
  rearm : Rearm
  action : Action
  deriving DecidableEq, Repr

/-- A rule with its runtime state (R51). -/
structure Rule where
  fields : RuleFields
  state : RuleState
  progress : Nat
  previous : Option Int
  fireCount : Nat
  deriving DecidableEq, Repr

/-- The Trigger Matcher (R50 to R74). -/
structure Tgm where
  /-- rules 0-15 -/
  rules : Vector Rule 16
  /-- the external edge latch (R62) -/
  latch : Bool
  /-- the level of TRGIN as sampled at the last evaluated record, set for high (R61) -/
  lastLine : Bool
  deriving DecidableEq, Repr

/-! ## The scan table -/

/-- A scan entry (R75). -/
structure ScanEntry where
  channel : Nat
  gain : Nat
  divider : Nat
  phase : Nat
  discard : Bool
  hold : Bool
  /-- 1-3, or absent -/
  marker : Option Nat
  deriving DecidableEq, Repr

/-- The Scan Table block (R75 to R93). -/
structure Sct where
  working : List ScanEntry
  active : List ScanEntry
  generation : Nat
  scheduled : Bool
  deriving DecidableEq, Repr

/-! ## Acquisition and the converter port -/

/-- The Acquisition Sequencer (R94 to R115). -/
structure Aqs where
  state : AcqState
  reason : AcqReason
  run : Nat
  tick : Nat
  pass : Nat
  position : Nat
  passState : PassState
  holdPending : Bool
  forcePending : Bool
  missed : Nat
  mode : PaceMode
  interval : Nat
  /-- the next tick time in µs, counted from the START that began the run; absent when the pacer is stopped (R94, R104) -/
  nextTick : Option Nat
  /-- the tick count that the record of the conversion in flight carries (R103) -/
  convTick : Nat
  /-- the MODEL's own count of the records handed to the store since the last switch, by which a pre window is kept within one
  generation (R90, R92; log entry 19) -/
  sinceSwitch : Nat
  deriving DecidableEq, Repr

/-- The request in flight (R116). -/
structure Request where
  entry : Nat
  channel : Nat
  gain : Nat
  tag : Nat
  deriving DecidableEq, Repr

/-- The Converter Port (R116 to R126). -/
structure Cvp where
  inFlight : Option Request
  nextTag : Nat
  /-- the conversion timer: absent when stopped, else the timeout in µs from its start to its expiry (R117, R124) -/
  timer : Option Nat
  timeout : Nat
  threshold : Nat
  consecutive : Nat
  total : Nat
  late : Nat
  deriving DecidableEq, Repr

/-! ## Reports -/

/-- An event report with its content as it was queued (R128). -/
inductive EventReport where
  | trigger (rule tick entry : Nat) (value : Int) (outcome : FiringOutcome) (segment : Option Nat)
  | segDrop (number : Nat) (reason : DropReason)
  | acqState (state : AcqState) (reason : AcqReason) (run tick : Nat)
  | storeLow (free watermark : Nat)
  | cvFault (channel entry consecutive total : Nat)
  | tableSwitch (generation entries : Nat)
  | lost (count : Nat)
  deriving DecidableEq, Repr

/-- A segment report: a reference, whose content is read at transmission (R128). -/
inductive SegReport where
  | head (segment : Nat)
  | data (segment chunk page first last : Nat)
  | tail (segment : Nat)
  deriving DecidableEq, Repr

/-- A report of either class. -/
inductive Report where
  | event (r : EventReport)
  | segment (r : SegReport)
  deriving DecidableEq, Repr

/-- The delivery position: the next report of the segment in the slot (R127). -/
inductive DeliveryPos where
  | head
  | data (chunk : Nat)
  | tail
  deriving DecidableEq, Repr

/-- The Report Engine (R127 to R148). -/
structure Rpe where
  /-- the pending queue, oldest first -/
  queue : List Report
  /-- the outstanding list with its sequence numbers, oldest first -/
  outstanding : List (Nat × Report)
  nextSeq : Nat
  credit : Nat
  resend : Option Nat
  lost : Nat
  /-- the fetch queue, oldest first -/
  fetch : List Nat
  slot : Option (Nat × DeliveryPos)
  deriving DecidableEq, Repr

/-! ## The link and the command processor -/

/-- A command frame as accepted: its tag and its whole payload (R173). -/
structure CommandFrame where
  tag : Byte
  payload : List Byte
  deriving DecidableEq, Repr

/-- A reply (R179); result fields only with OK. -/
structure Reply where
  tag : Byte
  code : Byte
  result : Result
  fields : List Byte
  deriving DecidableEq, Repr

/-- A notice (R157). -/
structure Notice where
  reason : NoticeReason
  tag : Byte
  deriving DecidableEq, Repr

/-- Where the receiver stands in a frame (R149). -/
inductive RxPhase where
  | kind | tag | length | payload | crc1 | crc2
  deriving DecidableEq, Repr

/-- The receive state (R149). -/
inductive RxState where
  | hunt
  | assembling (phase : RxPhase)
  deriving DecidableEq, Repr

/-- A frame the receiver has accepted, on its way to its owner (R153). -/
inductive Accepted where
  | command (frame : CommandFrame)
  | ack (seq grant : Nat)
  deriving DecidableEq, Repr

/-- What the frame on the line was built from. -/
inductive TxSource where
  | notice (n : Notice)
  | reply (r : Reply)
  | report (seq : Nat) (r : Report)
  deriving DecidableEq, Repr

/-- The frame on the line: what it was built from, and its bytes (R149; DESIGN CHOICE, log entry 15). -/
structure OnLine where
  source : TxSource
  bytes : List Byte
  deriving DecidableEq, Repr

/-- The Link Interface (R149 to R172). -/
structure Lki where
  rate : LinkRate
  rx : RxState
  /-- the bytes of the frame being assembled, from its sync byte on; its kind, tag and length are bytes 1, 2 and 3 -/
  buffer : List Byte
  /-- the gap timer: absent when stopped, else the time in µs from the last byte to its expiry (R155) -/
  gapTimer : Option Nat
  /-- accepted frames whose owner has not taken them yet, oldest first (R153; DESIGN CHOICE, log entry 5) -/
  accepted : List Accepted
  notice : Option Notice
  errors : Nat
  replies : List Reply
  tx : Option OnLine
  /-- set from the last byte of the RESET reply's frame until the reset takes effect (R172; DESIGN CHOICE, log entry 11) -/
  resetDue : Bool
  session : Session
  /-- the ack timeout in ms -/
  ackTimeout : Nat
  /-- the ack timer: absent when stopped, else the time in ms from its last start or restart to its expiry (R166) -/
  ackTimer : Option Nat
  retry : Nat
  deriving DecidableEq, Repr

/-- The Command Processor (R173 to R200). -/
structure Cmp where
  queue : List CommandFrame
  /-- the command CMP has taken; CMP holds a reply place exactly while there is one (R175) -/
  taken : Option CommandFrame
  /-- the reply cache: the tag of the last tagged command answered, and its reply (R176) -/
  cache : Option (Byte × Reply)
  resetHold : Bool
  deriving DecidableEq, Repr

/-! ## The whole part -/

/-- The state of the part. -/
structure State where
  power : Power
  /-- the level of the TRGIN line, set for high (R62) -/
  trgin : Bool
  /-- the MODEL's own counter: which power-on this is, for the unknown slot contents (log entry 2) -/
  powerOns : Nat
  sst : Sst
  sgm : Sgm
  tgm : Tgm
  sct : Sct
  aqs : Aqs
  cvp : Cvp
  rpe : Rpe
  lki : Lki
  cmp : Cmp
  /-- the steps that wait to be taken, first in, first out -/
  pending : List Instr
  deriving DecidableEq, Repr

/-- Why a step stops. Neither reason can arise in a state that a run from reset reaches: each stands for a broken
reference, to which the manual gives no meaning because it says that the reference always holds (DESIGN CHOICE, log entry
14). Both are safe. -/
inductive Fault where
  /-- Raised by TRANSMIT_FRAME_START and FRAME_END: the segment report to be sent names a segment that no descriptor in
  use holds; R128 says such a reference always names a SENDING or SENT segment. Safe. -/
  | danglingReport
  /-- Raised by CONVERTER_ANSWER and CONVERSION_TIMEOUT: the entry of the request in flight is not in the active copy;
  R113 says the copy cannot have changed since the request. Safe. -/
  | entryNotInActiveCopy
  deriving DecidableEq, Repr

/-- Why a step has no meaning. -/
inductive Refusal where
  /-- The instruction has no meaning yet; no arm of exec answers with it. Safe. -/
  | notModelled (mnemonic : String)
  deriving DecidableEq, Repr

/-! ## Updates of one part of the state -/

/-- s with another store. -/
def State.setSst (s : State) (x : Sst) : State := { s with sst := x }
/-- s with another segment manager. -/
def State.setSgm (s : State) (x : Sgm) : State := { s with sgm := x }
/-- s with another trigger matcher. -/
def State.setTgm (s : State) (x : Tgm) : State := { s with tgm := x }
/-- s with another scan table block. -/
def State.setSct (s : State) (x : Sct) : State := { s with sct := x }
/-- s with another sequencer. -/
def State.setAqs (s : State) (x : Aqs) : State := { s with aqs := x }
/-- s with another converter port. -/
def State.setCvp (s : State) (x : Cvp) : State := { s with cvp := x }
/-- s with another report engine. -/
def State.setRpe (s : State) (x : Rpe) : State := { s with rpe := x }
/-- s with another link interface. -/
def State.setLki (s : State) (x : Lki) : State := { s with lki := x }
/-- s with another command processor. -/
def State.setCmp (s : State) (x : Cmp) : State := { s with cmp := x }
/-- s with another queue of waiting steps. -/
def State.setPending (s : State) (x : List Instr) : State := { s with pending := x }

/-! ## The state after reset -/

/-- R20. The slot contents are the caller's: RESET keeps them, power-on makes them unknown. -/
def Sst.reset (slots : SlotMem) : Sst :=
  { slots := slots, pool := List.range 256, ring := [], ringFill := none, targetSize := 9,
    watermark := .above, historyLoss := 0 }

/-- The default capture settings (R25, R49). -/
def CaptureSettings.reset : CaptureSettings :=
  { preRequested := 256, postRequested := 768, maxLength := 1024, retrigger := .count, exhaustion := .truncate,
    captureMode := .continuous, deliveryMode := .auto, holdoff := 0, pulseWidth := 10, lowWatermark := 16 }

/-- R49. -/
def Sgm.reset : Sgm :=
  { table := [], nextNumber := 0, settings := CaptureSettings.reset, holdoff := 0, noDescriptor := 0,
    trgout := false, pulseTimer := none }

/-- The fields of every rule after reset (R74). -/
def RuleFields.reset : RuleFields :=
  { condition := .above, channel := some 0, thresholdA := 0, thresholdB := none, hysteresis := 0, qualify := 1,
    priority := 0, rearm := .auto, action := .capture }

/-- Every rule after reset (R74). -/
def Rule.reset : Rule :=
  { fields := RuleFields.reset, state := .off, progress := 0, previous := none, fireCount := 0 }

/-- R74. -/
def Tgm.reset : Tgm :=
  { rules := Vector.replicate 16 Rule.reset, latch := false, lastLine := false }

/-- R93. -/
def Sct.reset : Sct :=
  { working := [], active := [], generation := 0, scheduled := false }

/-- R115. The tick of a conversion in flight has no value in the manual when none is in flight (DESIGN CHOICE,
log entry 3). -/
def Aqs.reset : Aqs :=
  { state := .idle, reason := .none, run := 0, tick := 0, pass := 0, position := 0, passState := .waiting,
    holdPending := false, forcePending := false, missed := 0, mode := .step, interval := 1000, nextTick := none,
    convTick := 0, sinceSwitch := 0 }

/-- R126. -/
def Cvp.reset : Cvp :=
  { inFlight := none, nextTag := 0, timer := none, timeout := 20, threshold := 3, consecutive := 0, total := 0,
    late := 0 }

/-- R147. -/
def Rpe.reset : Rpe :=
  { queue := [], outstanding := [], nextSeq := 0, credit := 0, resend := none, lost := 0, fetch := [], slot := none }

/-- R172. The link rate is the caller's: power-on samples the straps, RESET keeps it. -/
def Lki.reset (rate : LinkRate) : Lki :=
  { rate := rate, rx := .hunt, buffer := [], gapTimer := none, accepted := [], notice := none, errors := 0,
    replies := [], tx := none, resetDue := false, session := .closed, ackTimeout := 500, ackTimer := none, retry := 0 }

/-- R200. -/
def Cmp.reset : Cmp :=
  { queue := [], taken := none, cache := none, resetHold := false }

/-- The part right after power-on with both straps and TRGIN low (DESIGN CHOICE, log entry 3), before its first event (R207 to R209). -/
def State.reset : State :=
  { power := .ready, trgin := false, powerOns := 0, sst := Sst.reset [], sgm := Sgm.reset, tgm := Tgm.reset,
    sct := Sct.reset, aqs := Aqs.reset, cvp := Cvp.reset, rpe := Rpe.reset, lki := Lki.reset .r115200,
    cmp := Cmp.reset, pending := [] }

end Sys2Proof.Machine
end

