-- ==== Sys2Proof/Machine/Flags.lean ====
section
/-! DEFINITION. The codes of the choice fields, the flag bytes and the field encodings of R203, and the decoding of the
choice codes a command carries. -/

namespace Sys2Proof.Machine

/-! ## Numbers as payload bytes (R203) -/

/-- A number in `k` bytes, least significant byte first. -/
def leBytes : Nat → Nat → List Byte
  | 0, _ => []
  | k + 1, n => BitVec.ofNat 8 n :: leBytes k (n / 256)

/-- The number that bytes hold, least significant byte first. -/
def leNat : List Byte → Nat
  | [] => 0
  | b :: bs => b.toNat + 256 * leNat bs

/-- A number of one byte. -/
def byte1 (n : Nat) : Byte := BitVec.ofNat 8 n

/-- A signed 16-bit number as two bytes, two's complement. -/
def signedBytes (v : Int) : List Byte := leBytes 2 (BitVec.ofInt 16 v).toNat

/-- The signed 16-bit number of two bytes, two's complement. -/
def signedOf (bs : List Byte) : Int := (BitVec.ofNat 16 (leNat bs)).toInt

/-- The value that the 16 value bits of an answer word stand for (R118). -/
def signed16 (v : Int) : Int := (BitVec.ofInt 16 v).toInt

/-- A flag at bit `n` of a byte of flags. -/
def flagBit (b : Bool) (n : Nat) : Nat := if b then 2 ^ n else 0

/-! ## Codes the part sends (R203, sections 7.2, 9.2) -/

def AcqState.code : AcqState → Nat
  | .idle => 0 | .running => 1 | .draining => 2 | .halted => 3

def AcqReason.code : AcqReason → Nat
  | .none => 0 | .start => 1 | .stop => 2 | .drained => 3 | .singleDone => 4 | .abort => 5 | .starved => 6
  | .converter => 7

def Session.code : Session → Nat
  | .closed => 0 | .open => 1 | .stalled => 2

def SegState.code : SegState → Nat
  | .filling => 0 | .complete => 1 | .sending => 2 | .sent => 3

def RuleState.code : RuleState → Nat
  | .off => 0 | .armed => 1 | .qualifying => 2 | .fired => 3

def Condition.code : Condition → Nat
  | .above => 0 | .below => 1 | .rising => 2 | .falling => 3 | .inside => 4 | .outside => 5 | .external => 6

def FiringOutcome.code : FiringOutcome → Nat
  | .opened => 0 | .secondary => 1 | .extended => 2 | .heldOff => 3 | .noDescriptor => 4 | .draining => 5 | .note => 6

def DropReason.code : DropReason → Nat
  | .dropped => 0 | .displaced => 1 | .aborted => 2

def Retrigger.code : Retrigger → Nat
  | .count => 0 | .extend => 1

def Exhaustion.code : Exhaustion → Nat
  | .truncate => 0 | .halt => 1 | .displace => 2

def CaptureMode.code : CaptureMode → Nat
  | .continuous => 0 | .single => 1

def DeliveryMode.code : DeliveryMode → Nat
  | .auto => 0 | .fetch => 1

def NoticeReason.code : NoticeReason → Nat
  | .crc => 1 | .length => 2 | .kind => 3 | .gap => 4 | .badack => 5 | .dropped => 6

def Result.code : Result → Nat
  | .ok => 0 | .unknown => 1 | .badlen => 2 | .badarg => 3 | .state => 4 | .busy => 5 | .nospace => 6 | .noent => 7
  | .indelivery => 8 | .session => 9

/-- The link rate code of IDENT: RATE1 and RATE0 as a two-bit number (R183). -/
def LinkRate.code : LinkRate → Nat
  | .r115200 => 0 | .r460800 => 1 | .r921600 => 2 | .r2000000 => 3

/-- The link rate that the straps fix (the strap table of the introduction, R150). -/
def LinkRate.ofStraps (rate1 rate0 : Bool) : LinkRate :=
  match rate1, rate0 with
  | false, false => .r115200
  | false, true => .r460800
  | true, false => .r921600
  | true, true => .r2000000

/-! ## Codes a command carries (R203): a code that the table does not give is none, which the owner refuses -/

def Condition.ofCode : Nat → Option Condition
  | 0 => some .above | 1 => some .below | 2 => some .rising | 3 => some .falling | 4 => some .inside
  | 5 => some .outside | 6 => some .external | _ => none

def Retrigger.ofCode : Nat → Option Retrigger
  | 0 => some .count | 1 => some .extend | _ => none

def Exhaustion.ofCode : Nat → Option Exhaustion
  | 0 => some .truncate | 1 => some .halt | 2 => some .displace | _ => none

def CaptureMode.ofCode : Nat → Option CaptureMode
  | 0 => some .continuous | 1 => some .single | _ => none

def DeliveryMode.ofCode : Nat → Option DeliveryMode
  | 0 => some .auto | 1 => some .fetch | _ => none

def PaceMode.ofCode : Nat → Option PaceMode
  | 0 => some .step | 1 => some .burst | _ => none

/-! ## Flag bytes (R203, R205, R206) -/

/-- The segment flags byte (R203). -/
def SegFlags.toByte (f : SegFlags) : Byte :=
  byte1 (flagBit f.shortPre 0 + flagBit f.truncated 1 + flagBit f.extended 2 + flagBit f.limited 3 +
    flagBit f.overrun 4 + flagBit f.errsamp 5 + flagBit f.haltend 6)

/-- The options byte of a rule (R205): rearm, action, and whether B is present. -/
def RuleFields.optionsByte (f : RuleFields) : Byte :=
  byte1 (flagBit (decide (f.rearm = .manual)) 0 + flagBit (decide (f.action = .note)) 1 + flagBit f.thresholdB.isSome 2)

/-- The wire form of a stored record (R206). -/
def recordBytes (r : Record) : List Byte :=
  signedBytes r.value ++
    [byte1 (r.entry % 64 + 64 * (r.marker % 4)), byte1 (flagBit r.err 0 + flagBit r.ovr 1 + flagBit r.hold 2)]

/-- A scan entry in its 4-byte form (R205). -/
def entryBytes (e : ScanEntry) : List Byte :=
  [byte1 e.channel, byte1 (e.gain % 16 + 16 * (e.marker.getD 0 % 16)), byte1 e.divider,
    byte1 (e.phase % 32 + flagBit e.discard 5 + flagBit e.hold 6)]

/-- No flag set. -/
def noFlags : SegFlags :=
  { shortPre := false, truncated := false, extended := false, limited := false, overrun := false, errsamp := false,
    haltend := false }

end Sys2Proof.Machine
end

