-- ==== Sys2Proof/Machine/Operands.lean ====
section
/-! DEFINITION. The arguments of the commands: the bytes that carry them (R205) read into the owners' fields, and the
owners' range checks. A reading is none where the owner refuses the command BADARG. -/

namespace Sys2Proof.Machine

/-! ## HELLO (R163) -/

/-- What HELLO carries: FLUSH or KEEP, the ack timeout in 20 ms steps, the initial credit. -/
structure HelloArgs where
  keep : Bool
  steps : Nat
  credit : Nat
  deriving DecidableEq, Repr

/-- R163: a choice other than FLUSH or KEEP, or a step count of 0 or above 250, is refused. -/
def readHello (choice steps credit : Byte) : Option HelloArgs :=
  if choice.toNat ≤ 1 ∧ 1 ≤ steps.toNat ∧ steps.toNat ≤ 250 then
    some { keep := decide (choice.toNat = 1), steps := steps.toNat, credit := credit.toNat }
  else none

/-! ## Scan entries (R75, R82, R205) -/

/-- The fields of an entry are in range, and bit 7 of its last byte is 0 (R82, R205). -/
def entryInRange (channel gainMarker divider last : Nat) : Bool :=
  decide (channel ≤ 15) && decide (gainMarker % 16 ≤ 3) && decide (gainMarker / 16 ≤ 3) &&
    decide (1 ≤ divider) && decide (divider ≤ 16) && decide (last % 32 < divider) && decide (last < 128)

/-- One entry of 4 bytes; none for a field out of range. -/
def readEntry (b0 b1 b2 b3 : Byte) : Option ScanEntry :=
  if entryInRange b0.toNat b1.toNat b2.toNat b3.toNat then
    some
      { channel := b0.toNat, gain := b1.toNat % 16, divider := b2.toNat, phase := b3.toNat % 32,
        discard := b3.getLsbD 5, hold := b3.getLsbD 6,
        marker := if b1.toNat / 16 = 0 then none else some (b1.toNat / 16) }
  else none

/-- The entries of a TADD, 4 bytes each; none when any is out of range. -/
def readEntries : List Byte → Option (List ScanEntry)
  | [] => some []
  | b0 :: b1 :: b2 :: b3 :: rest =>
    match readEntry b0 b1 b2 b3, readEntries rest with
    | some e, some es => some (e :: es)
    | _, _ => none
  | _ => none

/-! ## TREAD (R84) -/

/-- What TREAD carries. -/
structure TreadArgs where
  active : Bool
  first : Nat
  count : Nat
  deriving DecidableEq, Repr

/-- R84: another copy, a first index above 63, or a count of 0 or above 16 is refused. -/
def readTread (copy first count : Byte) : Option TreadArgs :=
  if copy.toNat ≤ 1 ∧ first.toNat ≤ 63 ∧ 1 ≤ count.toNat ∧ count.toNat ≤ 16 then
    some { active := decide (copy.toNat = 1), first := first.toNat, count := count.toNat }
  else none

/-! ## RSET (R50, R68, R205) -/

/-- The B field: present for INSIDE and OUTSIDE only, and then refused when absent or not greater than A (R68). The
outer none is a refusal. -/
def readThresholdB (c : Condition) (a b : Int) (present : Bool) : Option (Option Int) :=
  match c with
  | .inside | .outside => if present && decide (a < b) then some (some b) else none
  | .above | .below | .rising | .falling | .external => some none

/-- The channel field: ignored and absent for EXTERNAL, else 0-15 (R68). The outer none is a refusal. -/
def readChannel (c : Condition) (channel : Nat) : Option (Option Nat) :=
  if c = .external then some none
  else if channel ≤ 15 then some (some channel)
  else none

/-- The scalar checks of R68: H 0-4095, Q 1-255 and 1 for EXTERNAL, priority 0-15, and no unassigned option bit. -/
def ruleScalarsOk (c : Condition) (h q priority options : Nat) : Bool :=
  decide (h ≤ 4095) && decide (1 ≤ q) && (decide (c ≠ .external) || decide (q = 1)) && decide (priority ≤ 15) &&
    decide (options < 8)

/-- The 11 argument bytes of RSET after the index (R190); none where R68 refuses the fields BADARG. -/
def readRule (bs : List Byte) : Option RuleFields :=
  match bs with
  | [cond, chan, a0, a1, b0, b1, h0, h1, q, prio, opts] =>
    match Condition.ofCode cond.toNat with
    | none => none
    | some c =>
      let a := signedOf [a0, a1]
      let h := leNat [h0, h1]
      match readChannel c chan.toNat, readThresholdB c a (signedOf [b0, b1]) (opts.getLsbD 2) with
      | some channel, some b =>
        if ruleScalarsOk c h q.toNat prio.toNat opts.toNat then
          some
            { condition := c, channel := channel, thresholdA := a, thresholdB := b, hysteresis := h,
              qualify := q.toNat, priority := prio.toNat,
              rearm := if opts.getLsbD 0 then .manual else .auto,
              action := if opts.getLsbD 1 then .note else .capture }
        else none
      | _, _ => none
  | _ => none

/-! ## CSET (R25, R193, R205) -/

/-- The ranges of R25, with max length at least pre requested + post requested. -/
def captureRangesOk (c : CaptureSettings) : Bool :=
  decide (c.preRequested ≤ 2048) && decide (1 ≤ c.postRequested) && decide (c.postRequested ≤ 4096) &&
    decide (c.preRequested + c.postRequested ≤ c.maxLength) && decide (c.maxLength ≤ 4096) &&
    decide (c.holdoff ≤ 65535) && decide (1 ≤ c.pulseWidth) && decide (c.pulseWidth ≤ 255) &&
    decide (c.lowWatermark ≤ 255)

/-- The 14 argument bytes of CSET; none where R193 refuses them BADARG. -/
def readCapture (bs : List Byte) : Option CaptureSettings :=
  match bs with
  | [p0, p1, q0, q1, m0, m1, retrig, exh, cap, del, h0, h1, width, low] =>
    match Retrigger.ofCode retrig.toNat, Exhaustion.ofCode exh.toNat, CaptureMode.ofCode cap.toNat,
      DeliveryMode.ofCode del.toNat with
    | some r, some e, some c, some d =>
      let x : CaptureSettings :=
        { preRequested := leNat [p0, p1], postRequested := leNat [q0, q1], maxLength := leNat [m0, m1],
          retrigger := r, exhaustion := e, captureMode := c, deliveryMode := d, holdoff := leNat [h0, h1],
          pulseWidth := width.toNat, lowWatermark := low.toNat }
      if captureRangesOk x then some x else none
    | _, _, _, _ => none
  | _ => none

/-- The settings in the CSET form, as CREAD returns them (R193). -/
def captureBytes (c : CaptureSettings) : List Byte :=
  leBytes 2 c.preRequested ++ leBytes 2 c.postRequested ++ leBytes 2 c.maxLength ++
    [byte1 c.retrigger.code, byte1 c.exhaustion.code, byte1 c.captureMode.code, byte1 c.deliveryMode.code] ++
    leBytes 2 c.holdoff ++ [byte1 c.pulseWidth, byte1 c.lowWatermark]

/-! ## PSET (R105, R124, R205) -/

/-- What PSET carries. -/
structure PsetArgs where
  interval : Nat
  mode : PaceMode
  timeout : Nat
  threshold : Nat
  deriving DecidableEq, Repr

/-- The 7 argument bytes of PSET; none where R194 refuses them BADARG. -/
def readPset (bs : List Byte) : Option PsetArgs :=
  match bs with
  | [i0, i1, i2, i3, mode, timeout, threshold] =>
    match PaceMode.ofCode mode.toNat with
    | none => none
    | some m =>
      let interval := leNat [i0, i1, i2, i3]
      if 4 ≤ interval ∧ interval ≤ 1000000 ∧ 2 ≤ timeout.toNat ∧ 1 ≤ threshold.toNat ∧ threshold.toNat ≤ 15 then
        some { interval := interval, mode := m, timeout := timeout.toNat, threshold := threshold.toNat }
      else none
  | _ => none

end Sys2Proof.Machine
end

