-- ==== Sys2Proof/Machine/Ops.lean ====
section
/-! DEFINITION. The operations that several blocks share: counters, the slots of the store, the queuing of event
reports, the takes and returns of pages, the look-ups of the segment table, and the making of a reply. -/

namespace Sys2Proof.Machine

/-! ## Counters -/

/-- A counter that saturates at `limit` rises by `k`. -/
def satAdd (limit n k : Nat) : Nat := min limit (n + k)

/-- A counter that wraps from `modulus - 1` to 0 rises by 1. -/
def wrapInc (modulus n : Nat) : Nat := (n + 1) % modulus

/-! ## Slots of the store (R1) -/

/-- The address of a slot. -/
def slotAddr (page slot : Nat) : Nat := page * 32 + slot

/-- What is listed at an address. -/
def readCell : SlotMem → Nat → Option Record
  | [], _ => none
  | (b, r) :: m, a => if a = b then some r else readCell m a

/-- Writes a record at an address and keeps the addresses strictly rising. -/
def writeCell : SlotMem → Nat → Record → SlotMem
  | [], a, r => [(a, r)]
  | (b, q) :: m, a, r =>
    if a < b then (a, r) :: (b, q) :: m
    else if a = b then (a, r) :: m
    else (b, q) :: writeCell m a r

/-- The canonical form: addresses strictly rising. -/
def slotsCanonical : SlotMem → Bool
  | [] => true
  | [_] => true
  | (a, _) :: (b, r) :: m => decide (a < b) && slotsCanonical ((b, r) :: m)

/-- The record that 27 bits of an unknown slot stand for (log entry 2). -/
def recordOfBits (w : BitVec 27) : Record :=
  { value := (w.extractLsb' 0 16).toInt, entry := (w.extractLsb' 16 6).toNat, marker := (w.extractLsb' 22 2).toNat,
    err := w.getLsbD 24, ovr := w.getLsbD 25, hold := w.getLsbD 26 }

/-- The content of a slot: the record last written to it since power-on, else the unknown power-on content (R20). -/
def slotRecord (s : State) (addr : Nat) : Record :=
  match readCell s.sst.slots addr with
  | some r => r
  | none => recordOfBits (Config.unknownSlot s.powerOns addr)

/-- Writes one slot (R1). -/
def writeSlot (page slot : Nat) (r : Record) (s : State) : State :=
  s.setSst { s.sst with slots := writeCell s.sst.slots (slotAddr page slot) r }

/-! ## Event reports (R129 to R131) -/

/-- An entry of the pending queue that is a segment report. -/
def isSegmentReport : Report → Bool
  | .segment _ => true
  | .event _ => false

/-- The segment reports in the pending queue. -/
def pendingSegments (r : Rpe) : Nat := (r.queue.filter isSegmentReport).length

/-- The pending queue has room for an event report (R129). -/
def eventFits (r : Rpe) : Bool := decide (r.queue.length < Config.pendingPlaces)

/-- RPE takes an event report: it joins the tail, or is dropped and counted (R130). -/
def rpeQueueEvent (e : EventReport) (r : Rpe) : Rpe :=
  if eventFits r then { r with queue := r.queue ++ [.event e] }
  else { r with lost := satAdd Config.counterMax r.lost 1 }

/-- A LOST report is queued when the lost-event counter is above 0 and an event report fits; the counter becomes 0 (R131). -/
def rpeQueueLost (r : Rpe) : Rpe :=
  if 0 < r.lost ∧ eventFits r then { r with queue := r.queue ++ [.event (.lost r.lost)], lost := 0 } else r

/-- A block queues an event report (R130). -/
def queueEvent (e : EventReport) (s : State) : State := s.setRpe (rpeQueueEvent e s.rpe)

/-! ## Pages (R4, R5, R17) -/

/-- The free count. -/
def freeCount (s : State) : Nat := s.sst.pool.length

/-- The comparison after a take that gave a page (R17). -/
def compareAfterTake (s : State) : State :=
  if s.sst.watermark = .above ∧ freeCount s ≤ s.sgm.settings.lowWatermark then
    queueEvent (.storeLow (freeCount s) s.sgm.settings.lowWatermark) (s.setSst { s.sst with watermark := .below })
  else s

/-- The comparison after a return of one or more pages (R17). -/
def compareAfterReturn (s : State) : State :=
  if s.sst.watermark = .below ∧ s.sgm.settings.lowWatermark < freeCount s then
    s.setSst { s.sst with watermark := .above }
  else s

/-- A take: the page at the head of the pool and the state without it, or none when the pool is empty (R4). -/
def takePage (s : State) : Option (Nat × State) :=
  match s.sst.pool with
  | [] => none
  | page :: rest => some (page, compareAfterTake (s.setSst { s.sst with pool := rest }))

/-- A return of pages to the tail of the pool, in the order given, as one event (R5). -/
def returnPages (pages : List Nat) (s : State) : State :=
  match pages with
  | [] => s
  | p :: ps => compareAfterReturn (s.setSst { s.sst with pool := s.sst.pool ++ (p :: ps) })

/-! ## The segment table (R22) -/

/-- Changes the first element that meets a test. -/
def modifyFirst {α : Type} (p : α → Bool) (f : α → α) : List α → List α
  | [] => []
  | x :: xs => if p x then f x :: xs else x :: modifyFirst p f xs

/-- The descriptor is FILLING. -/
def isFilling (d : Descriptor) : Bool := decide (d.state = .filling)

/-- The descriptor holds this segment number. -/
def hasNumber (n : Nat) (d : Descriptor) : Bool := decide (d.number = n)

/-- The FILLING segment, if there is one (R22, R26). -/
def fillingSegment (s : State) : Option Descriptor := s.sgm.table.find? isFilling

/-- The descriptor in use with this number. -/
def segmentNumbered (n : Nat) (s : State) : Option Descriptor := s.sgm.table.find? (hasNumber n)

/-- Changes the FILLING segment's descriptor. -/
def updateFilling (f : Descriptor → Descriptor) (s : State) : State :=
  s.setSgm { s.sgm with table := modifyFirst isFilling f s.sgm.table }

/-- The descriptor holds this segment number and is in this state. -/
def isSegment (st : SegState) (n : Nat) (d : Descriptor) : Bool := hasNumber n d && decide (d.state = st)

/-- The descriptor in use with this number, if it is in this state. -/
def segmentIn (st : SegState) (n : Nat) (s : State) : Option Descriptor := s.sgm.table.find? (isSegment st n)

/-- Moves the segment with this number from one state to another (R44). -/
def moveSegment (n : Nat) (before after : SegState) (s : State) : State :=
  s.setSgm { s.sgm with table := modifyFirst (isSegment before n) (fun d => { d with state := after }) s.sgm.table }

/-- The records a segment holds: pre taken + post taken (R24). -/
def storedLength (d : Descriptor) : Nat := d.preTaken + d.postTaken

/-! ## Notices (R157) -/

/-- LKI raises a notice: it takes the slot, or is lost when the slot is full; it counts either way. -/
def raiseNotice (reason : NoticeReason) (tag : Byte) (l : Lki) : Lki :=
  { l with
    notice := match l.notice with
      | some n => some n
      | none => some { reason := reason, tag := tag },
    errors := satAdd Config.counterMax l.errors 1 }

/-! ## Places of the reply buffer (R159) -/

/-- The replies held plus the place CMP holds. -/
def placesUsed (s : State) : Nat := s.lki.replies.length + (if s.cmp.taken.isSome then 1 else 0)

end Sys2Proof.Machine
end

