-- ==== Sys2Proof/Machine/Commands.lean ====
section
/-! DEFINITION. The Command Processor (chapter 9): the command queue, the taking of a command, the stages that every
command passes (repeat, code, length, session, owner, reply), and the commands CMP carries out itself. -/

namespace Sys2Proof.Machine

/-! ## COMMAND_FRAME (R174) -/

/-- The link's BUSY refusal of a frame, or notice DROPPED when no reply place is free (R174, R159). -/
def refuseFrame (c : CommandFrame) (s : State) : State :=
  if placesUsed s < Config.replyPlaces then
    s.setLki { s.lki with replies := s.lki.replies ++ [⟨c.tag, c.payload.headD 0, .busy, []⟩] }
  else s.setLki (raiseNotice .dropped c.tag s.lki)

/-- An accepted command frame is offered to the command queue (R174). -/
def offerFrame (c : CommandFrame) (s : State) : State :=
  if s.cmp.queue.length < Config.queuePlaces then s.setCmp { s.cmp with queue := s.cmp.queue ++ [c] }
  else refuseFrame c s

/-- COMMAND_FRAME: the oldest accepted frame, a command, is offered to CMP's queue (R153, R174). -/
def commandFrameStep (s : State) : State :=
  match s.lki.accepted with
  | .command c :: rest => offerFrame c (s.setLki { s.lki with accepted := rest })
  | .ack _ _ :: _ => s
  | [] => s

def execCommandFrame (s : State) : Host.Outcome State Fault Refusal := .next (commandFrameStep s)

/-! ## COMMAND_TAKE (R175) -/

/-- The four conditions of R175. -/
def canTake (s : State) : Bool :=
  !s.cmp.queue.isEmpty && s.cmp.taken.isNone && decide (s.lki.replies.length < Config.replyPlaces) && !s.cmp.resetHold

/-- COMMAND_TAKE: CMP takes the command at the head of its queue and holds a reply place for it (R175). -/
def commandTakeStep (s : State) : State :=
  match s.cmp.queue with
  | [] => s
  | c :: rest => if canTake s then s.setCmp { s.cmp with queue := rest, taken := some c } else s

def execCommandTake (s : State) : Host.Outcome State Fault Refusal := .next (commandTakeStep s)

/-! ## The stages of a command (R176 to R179) -/

/-- What an owner answers: a result code, and with OK its result fields. -/
structure Answer where
  result : Result
  fields : List Byte
  deriving DecidableEq, Repr

/-- OK with result fields. -/
def okWith (fields : List Byte) : Answer := ⟨.ok, fields⟩

/-- A refusal, which carries no result fields (R179). -/
def refuse (r : Result) : Answer := ⟨r, []⟩

/-- The reply joins the reply buffer in CMP's place; the cache takes it, or is emptied for tag 0 (R176, R178). -/
def finishCommand (c : CommandFrame) (code : Byte) (a : Answer) (s : State) : State :=
  let r : Reply := ⟨c.tag, code, a.result, a.fields⟩
  { s with
    lki := { s.lki with replies := s.lki.replies ++ [r] },
    cmp := { s.cmp with taken := none, cache := if c.tag = 0 then none else some (c.tag, r) } }

/-- The cached reply of a repeat: the tag is not 0 and equals the cached tag (R176). -/
def cachedReply (c : CommandFrame) (s : State) : Option Reply :=
  if c.tag = 0 then none
  else
    match s.cmp.cache with
    | none => none
    | some (t, r) => if t = c.tag then some r else none

/-- A repeat is answered with the cached reply, and is not executed (R176). -/
def answerRepeat (r : Reply) (s : State) : State :=
  { s with
    lki := { s.lki with replies := s.lki.replies ++ [r] },
    cmp := { s.cmp with taken := none } }

/-- Stages 3 to 6 for the taken command, when its code is `code` (R173): the repeat, the length, the session, the owner.
With another command taken, or none, the step does not come and nothing changes (DESIGN CHOICE, log entry 4). -/
def dealWith (code : Byte) (lengthOk : List Byte → Bool) (inClosed : Bool)
    (owner : List Byte → State → Answer × State) (s : State) : State :=
  match s.cmp.taken with
  | none => s
  | some c =>
    match c.payload with
    | [] => s
    | k :: args =>
      if k = code then
        match cachedReply c s with
        | some r => answerRepeat r s
        | none =>
          if lengthOk args then
            if s.lki.session = .closed ∧ inClosed = false then finishCommand c k (refuse .session) s
            else finishCommand c k (owner args s).1 (owner args s).2
          else finishCommand c k (refuse .badlen) s
      else s

/-- A fixed number of argument bytes (section 9.3). -/
def argCount (n : Nat) (args : List Byte) : Bool := decide (args.length = n)

/-- The argument bytes of TADD: a count byte c and 4 x c more (R177). -/
def taddLength (args : List Byte) : Bool :=
  match args with
  | [] => false
  | c :: rest => decide (rest.length = 4 * c.toNat)

/-! ## UNKNOWN_COMMAND (R177) -/

/-- The 25 codes of the command table (section 9.3). -/
def commandCodes : List Byte :=
  [0x01, 0x02, 0x03, 0x04, 0x05, 0x10, 0x11, 0x12, 0x13, 0x20, 0x21, 0x22, 0x23, 0x24, 0x30, 0x31, 0x32,
    0x40, 0x41, 0x42, 0x43, 0x50, 0x51, 0x52, 0x60]

/-- UNKNOWN_COMMAND: an empty payload is refused BADLEN with code 0, an unknown code UNKNOWN (R177). -/
def unknownCommandStep (s : State) : State :=
  match s.cmp.taken with
  | none => s
  | some c =>
    match c.payload with
    | [] =>
      match cachedReply c s with
      | some r => answerRepeat r s
      | none => finishCommand c 0 (refuse .badlen) s
    | k :: _ =>
      if commandCodes.contains k then s
      else
        match cachedReply c s with
        | some r => answerRepeat r s
        | none => finishCommand c k (refuse .unknown) s

def execUnknownCommand (s : State) : Host.Outcome State Fault Refusal := .next (unknownCommandStep s)

/-! ## IDENT (R183) -/

/-- The IDENT form (R205). -/
def identFields (rate : LinkRate) : List Byte :=
  leBytes 2 0x2C71 ++ leBytes 2 0x0416 ++ [byte1 1, byte1 rate.code] ++ leBytes 2 Config.storePages ++
    [byte1 Config.recordsPerPage, byte1 Config.descriptors, byte1 16, byte1 Config.scanEntries, byte1 Config.window,
      byte1 Config.pendingPlaces]

def ownIdent (_args : List Byte) (s : State) : Answer × State := (okWith (identFields s.lki.rate), s)

def execIdent (s : State) : Host.Outcome State Fault Refusal := .next (dealWith 0x03 (argCount 0) true ownIdent s)

/-! ## STATUS (R184) -/

/-- The descriptors in use that are in a state. -/
def segmentsIn (st : SegState) (s : State) : Nat := (s.sgm.table.filter (fun d => decide (d.state = st))).length

/-- Acquisition items of the status record. -/
def statusAqs (a : Aqs) : List Byte :=
  [byte1 a.state.code, byte1 a.reason.code] ++ leBytes 2 a.run ++ leBytes 6 a.tick ++ leBytes 2 a.missed ++
    [byte1 (flagBit a.forcePending 0)]

/-- Scan table and converter port items of the status record. -/
def statusTable (t : Sct) (c : Cvp) : List Byte :=
  leBytes 2 t.generation ++ [byte1 t.active.length, byte1 (flagBit t.scheduled 0), byte1 c.consecutive] ++
    leBytes 2 c.total ++ leBytes 2 c.late

/-- Store and segment items of the status record. -/
def statusStore (s : State) : List Byte :=
  leBytes 2 (freeCount s) ++ leBytes 2 s.sst.historyLoss ++
    [byte1 (segmentsIn .filling s), byte1 (segmentsIn .complete s), byte1 (segmentsIn .sending s),
      byte1 (segmentsIn .sent s)] ++
    leBytes 2 s.sgm.noDescriptor

/-- Report engine items of the status record. -/
def statusReports (r : Rpe) : List Byte :=
  [byte1 r.queue.length, byte1 (pendingSegments r), byte1 r.outstanding.length, byte1 r.credit, byte1 r.nextSeq] ++
    leBytes 2 r.lost ++ [byte1 r.fetch.length, byte1 (flagBit r.slot.isSome 0)] ++
    leBytes 2 (match r.slot with
      | some (n, _) => n
      | none => 0)

/-- The STATUS form, 47 bytes (R205). -/
def statusFields (s : State) : List Byte :=
  statusAqs s.aqs ++ statusTable s.sct s.cvp ++ statusStore s ++ statusReports s.rpe ++
    [byte1 s.lki.session.code, byte1 s.lki.retry] ++ leBytes 2 s.lki.errors

def ownStatus (_args : List Byte) (s : State) : Answer × State := (okWith (statusFields s), s)

def execStatus (s : State) : Host.Outcome State Fault Refusal := .next (dealWith 0x04 (argCount 0) true ownStatus s)

/-! ## RESET (R185) -/

/-- RESET's execution changes no state but the reset hold (R185). -/
def ownReset (_args : List Byte) (s : State) : Answer × State :=
  (okWith [], s.setCmp { s.cmp with resetHold := true })

def execReset (s : State) : Host.Outcome State Fault Refusal := .next (dealWith 0x05 (argCount 0) true ownReset s)

end Sys2Proof.Machine
end

