-- ==== Sys2Proof/Machine/ScanTable.lean ====
section
/-! DEFINITION. The Scan Table block (chapter 4): decimation, the switch, and the commands TCLEAR, TADD, TREAD and
TCOMMIT. -/

namespace Sys2Proof.Machine

/-! ## Decimation (R79) -/

/-- An entry is due on a pass (R79). -/
def isDue (pass : Nat) (e : ScanEntry) : Bool := decide (pass % e.divider = e.phase)

/-- The index of the first due entry of a list whose first entry has index `i`. -/
def firstDue (pass : Nat) : Nat → List ScanEntry → Option Nat
  | _, [] => none
  | i, e :: es => if isDue pass e then some i else firstDue pass (i + 1) es

/-- The next entry due on a pass from index `start` on (R109). -/
def nextDue (pass start : Nat) (table : List ScanEntry) : Option Nat := firstDue pass start (table.drop start)

/-! ## The switch (R89, R90) -/

/-- The switch: active copy, generation, flag, pass counter and position, TABLESWITCH (R89). The store is not touched: the ring keeps
its records, and from here on the records made from the new table are counted (log entry 19). -/
def switchTables (s : State) : State :=
  let gen := wrapInc 65536 s.sct.generation
  queueEvent (.tableSwitch gen s.sct.working.length)
    { s with
      sct := { s.sct with active := s.sct.working, generation := gen, scheduled := false },
      aqs := { s.aqs with pass := 0, position := 0, sinceSwitch := 0 } }

/-- A scheduled commit may take effect at a pass boundary: in RUNNING, with no segment FILLING (R90). -/
def switchDue (s : State) : Bool :=
  s.sct.scheduled && decide (s.aqs.state = .running) && (fillingSegment s).isNone

/-- A pass boundary: the pass counter rises, the commit check is made, the position becomes 0 (R80, R90, R106). -/
def passBoundary (s : State) : State :=
  let s1 := s.setAqs { s.aqs with pass := wrapInc Config.passModulus s.aqs.pass, position := 0 }
  if switchDue s1 then switchTables s1 else s1

/-! ## TCLEAR (R83) -/

def ownTclear (_args : List Byte) (s : State) : Answer × State :=
  if s.sct.scheduled then (refuse .busy, s) else (okWith [], s.setSct { s.sct with working := [] })

def execTclear (s : State) : Host.Outcome State Fault Refusal := .next (dealWith 0x10 (argCount 0) false ownTclear s)

/-! ## TADD (R82) -/

/-- The entries of a TADD that has 1-8 of them, each in range; none is a BADARG (R82). -/
def taddEntries (args : List Byte) : Option (List ScanEntry) :=
  match args with
  | [] => none
  | c :: rest => if 1 ≤ c.toNat ∧ c.toNat ≤ 8 then readEntries rest else none

def ownTadd (args : List Byte) (s : State) : Answer × State :=
  if s.sct.scheduled then (refuse .busy, s)
  else
    match taddEntries args with
    | none => (refuse .badarg, s)
    | some es =>
      if Config.scanEntries < s.sct.working.length + es.length then (refuse .nospace, s)
      else
        (okWith [byte1 (s.sct.working.length + es.length)],
          s.setSct { s.sct with working := s.sct.working ++ es })

def execTadd (s : State) : Host.Outcome State Fault Refusal := .next (dealWith 0x11 taddLength false ownTadd s)

/-! ## TREAD (R84) -/

/-- The TREAD form (R205). -/
def treadFields (a : TreadArgs) (t : Sct) : List Byte :=
  let copy := if a.active then t.active else t.working
  let es := (copy.drop a.first).take a.count
  [byte1 copy.length] ++ leBytes 2 t.generation ++ [byte1 (flagBit t.scheduled 0), byte1 es.length] ++
    es.flatMap entryBytes

def ownTread (args : List Byte) (s : State) : Answer × State :=
  match args with
  | [copy, first, count] =>
    match readTread copy first count with
    | some a => (okWith (treadFields a s.sct), s)
    | none => (refuse .badarg, s)
  | _ => (refuse .badlen, s)

def execTread (s : State) : Host.Outcome State Fault Refusal := .next (dealWith 0x12 (argCount 3) false ownTread s)

/-! ## TCOMMIT (R86, R87, R189) -/

/-- The result fields of TCOMMIT: timing and generation (R205). -/
def tcommitFields (scheduled : Bool) (generation : Nat) : List Byte :=
  byte1 (flagBit scheduled 0) :: leBytes 2 generation

def ownTcommit (_args : List Byte) (s : State) : Answer × State :=
  match s.aqs.state with
  | .idle | .halted => (okWith (tcommitFields false (wrapInc 65536 s.sct.generation)), switchTables s)
  | .running | .draining =>
    if s.sct.scheduled then (refuse .busy, s)
    else if s.aqs.state = .running ∧ s.sct.working = [] then (refuse .state, s)
    else (okWith (tcommitFields true s.sct.generation), s.setSct { s.sct with scheduled := true })

def execTcommit (s : State) : Host.Outcome State Fault Refusal := .next (dealWith 0x13 (argCount 0) false ownTcommit s)

end Sys2Proof.Machine
end

