-- ==== Sys2Proof/Machine/Segments.lean ====
section
/-! DEFINITION. The Segment Manager's own operations: numbering, displacement and discard, opening, retriggers,
the count of records, and the ends of a segment that leave acquisition alone (chapter 2). -/

namespace Sys2Proof.Machine

/-! ## Numbering (R23) -/

/-- The first number, counting upward with wrap, that none of `used` holds; at most `fuel` numbers are stepped past. -/
def firstFreeNumber : Nat → Nat → List Nat → Nat
  | 0, n, _ => n
  | fuel + 1, n, used => if used.contains n then firstFreeNumber fuel (wrapInc 65536 n) used else n

/-- The number the next segment gets: with t descriptors in use, a free number lies within t steps (R23). -/
def nextSegmentNumber (s : State) : Nat :=
  firstFreeNumber s.sgm.table.length s.sgm.nextNumber (s.sgm.table.map Descriptor.number)

/-! ## Discard and displacement (R40, R41) -/

/-- Discards the oldest segment that meets a test, as one event: table, pages, fetch queue, SEGDROP (R41). -/
def discardFirst (p : Descriptor → Bool) (reason : DropReason) (s : State) : State :=
  match s.sgm.table.find? p with
  | none => s
  | some d =>
    let s1 := returnPages d.pages (s.setSgm { s.sgm with table := s.sgm.table.eraseP p })
    queueEvent (.segDrop d.number reason)
      (s1.setRpe { s1.rpe with fetch := s1.rpe.fetch.filter (fun n => decide (n ≠ d.number)) })

/-- A segment that may be displaced: COMPLETE and not in the fetch queue (R40). -/
def displaceable (fetch : List Nat) (d : Descriptor) : Bool :=
  decide (d.state = .complete) && !fetch.contains d.number

/-- A candidate for a claimant of this priority; for a page it must hold one (R40). -/
def displaceCandidate (fetch : List Nat) (priority : Nat) (forPage : Bool) (d : Descriptor) : Bool :=
  displaceable fetch d && decide (d.primaryPriority < priority) && (!forPage || !d.pages.isEmpty)

/-- Displaces the oldest candidate; none when there is none (R40). -/
def displaceOne (priority : Nat) (forPage : Bool) (s : State) : Option State :=
  if s.sgm.table.any (displaceCandidate s.rpe.fetch priority forPage) then
    some (discardFirst (displaceCandidate s.rpe.fetch priority forPage) .displaced s)
  else none

/-- A page for a claimant of this priority: from the pool, or under DISPLACE from a displaced segment (R37, R38). -/
def takeOrDisplace (priority : Nat) (s : State) : Option (Nat × State) :=
  match takePage s with
  | some r => some r
  | none =>
    if s.sgm.settings.exhaustion = .displace then
      match displaceOne priority true s with
      | some s1 => takePage s1
      | none => none
    else none

/-! ## Closing (R34) -/

/-- The descriptor of a segment that closes, with the flags its cause adds. -/
def closedDescriptor (truncated haltend : Bool) (d : Descriptor) : Descriptor :=
  { d with
    state := .complete,
    flags := { d.flags with truncated := d.flags.truncated || truncated, haltend := d.flags.haltend || haltend } }

/-- The FILLING segment becomes COMPLETE (R34, step 1). -/
def completeFilling (truncated haltend : Bool) (s : State) : State :=
  updateFilling (closedDescriptor truncated haltend) s

/-! ## Counting (R31) -/

/-- The descriptor after a record placed in the FILLING segment is counted. -/
def countedDescriptor (err : Bool) (d : Descriptor) : Descriptor :=
  { d with
    postTaken := d.postTaken + 1,
    errCount := d.errCount + (if err then 1 else 0),
    flags := { d.flags with errsamp := d.flags.errsamp || err } }

/-! ## Retriggers (R32, R33) -/

/-- The secondary list takes a firing, or its overflow count does (R32). -/
def listSecondary (x : Secondary) (d : Descriptor) : Descriptor :=
  if d.secondary.length < Config.secondaryEntries then { d with secondary := d.secondary ++ [x] }
  else { d with secondaryOverflow := satAdd 255 d.secondaryOverflow 1 }

/-- The post window after an EXTEND retrigger at offset `o` with the settings' post requested `ps` (R33). -/
def extendWindow (o ps : Nat) (d : Descriptor) : Descriptor :=
  { d with
    postRequested := min (o + ps) (d.maxLength - d.preTaken),
    flags := { d.flags with
      extended := true,
      limited := d.flags.limited || decide (d.maxLength - d.preTaken < o + ps) } }

/-- A retrigger of the FILLING segment, and its outcome (R27, R32, R33). -/
def retrigger (rule offset : Nat) (s : State) : FiringOutcome × State :=
  match s.sgm.settings.retrigger with
  | .count => (.secondary, updateFilling (listSecondary ⟨rule, offset, .secondary⟩) s)
  | .extend =>
    (.extended,
      updateFilling
        (fun d => listSecondary ⟨rule, offset, .extended⟩ (extendWindow offset s.sgm.settings.postRequested d)) s)

/-! ## Opening (R28, R29) -/

/-- Where the trigger record of an opening firing stands. -/
inductive TriggerPlace where
  | ring | unplaced
  deriving DecidableEq, Repr

/-- What the trigger record brings to its firings. -/
structure TriggerInfo where
  record : Record
  tick : Nat
  place : TriggerPlace
  deriving DecidableEq, Repr

/-- The ring's record count (R7). -/
def ringCount (x : Sst) : Nat :=
  match x.ringFill with
  | none => 0
  | some fill => 32 * (x.ring.length - 1) + fill

/-- The address of ring record number `j`, counted from the oldest (R7). -/
def ringAddr (ring : List Nat) (j : Nat) : Nat := slotAddr (ring.getD (j / 32) 0) (j % 32)

/-- The ERR records among the ring records from number `f` on, `count` of them (R24). -/
def countErr (s : State) (f count : Nat) : Nat :=
  ((List.range count).filter (fun i => (slotRecord s (ringAddr s.sst.ring (f + i))).err)).length

/-- A descriptor for a segment opened by a firing of `rule` and `priority` on a record, before its pages are known (R24). It names
the generation in force, to which every record of the segment belongs (R90, R92). -/
def freshDescriptor (rule priority : Nat) (t : TriggerInfo) (s : State) : Descriptor :=
  { number := nextSegmentNumber s, run := s.aqs.run, primaryRule := rule, primaryPriority := priority,
    triggerTick := t.tick, triggerEntry := t.record.entry, generation := s.sct.generation,
    preRequested := s.sgm.settings.preRequested, preTaken := 0, postRequested := s.sgm.settings.postRequested,
    postTaken := 0, maxLength := s.sgm.settings.maxLength, state := .filling, flags := noFlags, errCount := 0,
    secondary := [], secondaryOverflow := 0, pages := [], firstOffset := 0 }

/-- Steps 1 and 2 of an open: the number, and the descriptor at the tail of the table (R29). -/
def joinTable (d : Descriptor) (s : State) : State :=
  s.setSgm { s.sgm with table := s.sgm.table ++ [d], nextNumber := wrapInc 65536 d.number }

/-- What an open fixes in the descriptor: the windows, pages and the flags that follow from them (R29, step 4). -/
def openedDescriptor (pre post errs : Nat) (pages : List Nat) (offset : Nat) (truncated haltend : Bool)
    (d : Descriptor) : Descriptor :=
  { d with
    preTaken := pre, postTaken := post, errCount := errs, pages := pages, firstOffset := offset,
    flags := { d.flags with
      shortPre := decide (pre < d.preRequested), errsamp := decide (0 < errs), truncated := truncated,
      haltend := haltend } }

/-- The ring's records that were made from the table in force: the newest ones, as many as were handed to the store since the last
switch (R2, R90, R92). -/
def generationCount (s : State) : Nat := min (ringCount s.sst) s.aqs.sinceSwitch

/-- The pre window the ring can give: min(P, n - 1) (R15), n counting only records of the generation that the descriptor names, as
R2, R90 and R92 have it (DESIGN CHOICE between R15 and those three in a ring that a switch has left with older records, log
entry 19). -/
def handoverPre (s : State) : Nat := min s.sgm.settings.preRequested (generationCount s - 1)

/-- The ring record number of the segment's first record: n - 1 - p (R15). -/
def handoverFirst (s : State) : Nat := ringCount s.sst - 1 - handoverPre s

/-- The handover of the ring to the segment that opens on the ring's newest record (R15). -/
def handover (s : State) : State :=
  let f := handoverFirst s
  let older := s.sst.ring.take (f / 32)
  let pages := s.sst.ring.drop (f / 32)
  let errs := countErr s f (handoverPre s + 1)
  let s1 := updateFilling (openedDescriptor (handoverPre s) 1 errs pages (f % 32) false false) s
  returnPages older (s1.setSst { s1.sst with ring := [], ringFill := none })

/-- The first page of a segment that opens on an unplaced trigger record, or the lost trigger record (R16, R38). -/
def firstPage (priority : Nat) (r : Record) (s : State) : State :=
  match takeOrDisplace priority s with
  | some (page, s1) => writeSlot page 0 r (updateFilling (openedDescriptor 0 1 0 [page] 0 false false) s1)
  | none =>
    let s1 := s.setSst { s.sst with historyLoss := satAdd Config.counterMax s.sst.historyLoss 1 }
    updateFilling (openedDescriptor 0 0 0 [] 0 true (decide (s.sgm.settings.exhaustion = .halt))) s1

/-- The trigger output pulse of an open (R47). -/
def startPulse (s : State) : State :=
  s.setSgm { s.sgm with trgout := true, pulseTimer := some s.sgm.settings.pulseWidth }

/-- Opens a segment on a record, a descriptor slot being free (R29). -/
def openSegment (rule priority : Nat) (t : TriggerInfo) (s : State) : State :=
  let s1 := joinTable (freshDescriptor rule priority t s) s
  match t.place with
  | .ring => startPulse (handover s1)
  | .unplaced => startPulse (firstPage priority t.record s1)

/-- A descriptor slot for a firing of this priority: a free one, or under DISPLACE one gained from a displaced segment (R28). -/
def descriptorSlot (priority : Nat) (s : State) : Option State :=
  if s.sgm.table.length < Config.descriptors then some s
  else if s.sgm.settings.exhaustion = .displace then displaceOne priority false s
  else none

/-- The no-descriptor counter rises (R28). -/
def countNoDescriptor (s : State) : State :=
  s.setSgm { s.sgm with noDescriptor := satAdd Config.counterMax s.sgm.noDescriptor 1 }

/-! ## Capture firings (R27, R30) -/

/-- What became of the earlier capture firings on the same record. -/
inductive CaptureContext where
  /-- none yet -/
  | first
  /-- one opened a segment on the record -/
  | opened
  /-- the first was refused HELD_OFF or NO_DESCRIPTOR -/
  | refused (outcome : FiringOutcome)
  deriving DecidableEq, Repr

/-- What SGM answers to a capture firing. -/
structure FiringAnswer where
  outcome : FiringOutcome
  segment : Option Nat
  context : CaptureContext
  deriving DecidableEq, Repr

/-- The offset of the record being evaluated: 0 for the trigger record, else the post taken before it is counted (R31). -/
def firingOffset (ctx : CaptureContext) (d : Descriptor) : Nat :=
  if ctx = .opened then 0 else d.postTaken

/-- A firing that needs a descriptor (R28, R29). -/
def openOrRefuse (rule priority : Nat) (t : TriggerInfo) (s : State) : FiringAnswer × State :=
  match descriptorSlot priority s with
  | some s1 => (⟨.opened, some (nextSegmentNumber s1), .opened⟩, openSegment rule priority t s1)
  | none => (⟨.noDescriptor, none, .refused .noDescriptor⟩, countNoDescriptor s)

/-- A later capture firing on a record whose first was refused shares the outcome (R30). -/
def shareRefusal (outcome : FiringOutcome) (s : State) : FiringAnswer × State :=
  (⟨outcome, none, .refused outcome⟩, if outcome = .noDescriptor then countNoDescriptor s else s)

/-- SGM takes one capture firing (R27, R30). -/
def captureFiring (rule priority : Nat) (t : TriggerInfo) (ctx : CaptureContext) (s : State) : FiringAnswer × State :=
  if s.aqs.state = .draining then (⟨.draining, none, ctx⟩, s)
  else
    match fillingSegment s with
    | some d =>
      let r := retrigger rule (firingOffset ctx d) s
      (⟨r.1, some d.number, ctx⟩, r.2)
    | none =>
      match ctx with
      | .refused outcome => shareRefusal outcome s
      | .first | .opened =>
        if 0 < s.sgm.holdoff then (⟨.heldOff, none, .refused .heldOff⟩, s)
        else openOrRefuse rule priority t s

/-! ## Missed ticks (R31) -/

/-- A missed tick sets OVERRUN in the FILLING segment. -/
def markOverrun (s : State) : State :=
  updateFilling (fun d => { d with flags := { d.flags with overrun := true } }) s

/-! ## Revert (R46) -/

/-- A SENDING or SENT segment becomes COMPLETE. -/
def revertDescriptor (d : Descriptor) : Descriptor :=
  if d.state = .sending ∨ d.state = .sent then { d with state := .complete } else d

/-- A teardown reverts every SENDING or SENT segment (R46). -/
def revertAll (s : State) : State :=
  s.setSgm { s.sgm with table := s.sgm.table.map revertDescriptor }

/-! ## Release (R45) -/

/-- The SENT segment with this number is released: descriptor and pages are freed. -/
def releaseSegment (n : Nat) (s : State) : State :=
  match segmentIn .sent n s with
  | none => s
  | some d => returnPages d.pages (s.setSgm { s.sgm with table := s.sgm.table.eraseP (isSegment .sent n) })

end Sys2Proof.Machine
end

