-- ==== Sys2Proof/Machine/Triggers.lean ====
section
/-! DEFINITION. The Trigger Matcher (chapter 3): the conditions, the rule state machine, the evaluation of a record and
the dealing with its firings, the commands on rules, and the edges of the trigger input line. -/

namespace Sys2Proof.Machine

/-! ## Conditions (R53, R54) -/

/-- What a rule looks at: the record's value, the latch and the line level of this evaluation. -/
structure Seen where
  value : Int
  latch : Bool
  line : Bool
  deriving DecidableEq, Repr

/-- The level part (R54), on a value and a line level. -/
def levelPart (f : RuleFields) (v : Int) (line : Bool) : Bool :=
  match f.condition with
  | .above | .rising => decide (f.thresholdA ≤ v)
  | .below | .falling => decide (v ≤ f.thresholdA)
  | .inside =>
    match f.thresholdB with
    | some b => decide (f.thresholdA ≤ v) && decide (v ≤ b)
    | none => false
  | .outside =>
    match f.thresholdB with
    | some b => decide (v < f.thresholdA) || decide (b < v)
    | none => false
  | .external => line

/-- The firing part (R54): RISING and FALLING need a previous value on the other side of A; EXTERNAL needs the latch. -/
def firingPart (f : RuleFields) (previous : Option Int) (x : Seen) : Bool :=
  match f.condition with
  | .above | .below | .inside | .outside => levelPart f x.value x.line
  | .rising =>
    match previous with
    | some p => decide (p < f.thresholdA) && decide (f.thresholdA ≤ x.value)
    | none => false
  | .falling =>
    match previous with
    | some p => decide (f.thresholdA < p) && decide (x.value ≤ f.thresholdA)
    | none => false
  | .external => x.latch

/-- The clear part (R54); sums are formed without wrap or saturation (R53). -/
def clearPart (f : RuleFields) (x : Seen) : Bool :=
  match f.condition with
  | .above | .rising => decide (x.value < f.thresholdA - f.hysteresis)
  | .below | .falling => decide (f.thresholdA + f.hysteresis < x.value)
  | .inside =>
    match f.thresholdB with
    | some b => decide (x.value < f.thresholdA - f.hysteresis) || decide (b + f.hysteresis < x.value)
    | none => false
  | .outside =>
    match f.thresholdB with
    | some b => decide (f.thresholdA + f.hysteresis ≤ x.value) && decide (x.value ≤ b - f.hysteresis)
    | none => false
  | .external => !x.line

/-! ## The rule state machine (R56 to R60) -/

/-- The rule sees the record: it is enabled, and EXTERNAL or on the record's channel (R52, step 2). -/
def sees (channel : Nat) (r : Rule) : Bool :=
  decide (r.state ≠ .off) && (decide (r.fields.condition = .external) || decide (r.fields.channel = some channel))

/-- The rule fires on the record (R57, R58, R60). -/
def fires (x : Seen) (r : Rule) : Bool :=
  match r.state with
  | .off | .fired => false
  | .armed => firingPart r.fields r.previous x && decide (r.fields.qualify = 1)
  | .qualifying => levelPart r.fields x.value x.line && decide (r.fields.qualify ≤ r.progress + 1)

/-- The state and progress of a rule that sees a record and does not fire (R57, R58, R60). -/
def moved (x : Seen) (r : Rule) : RuleState × Nat :=
  match r.state with
  | .off => (.off, r.progress)
  | .armed => if firingPart r.fields r.previous x then (.qualifying, 1) else (.armed, r.progress)
  | .qualifying => if levelPart r.fields x.value x.line then (.qualifying, r.progress + 1) else (.armed, 0)
  | .fired => if r.fields.rearm = .auto ∧ clearPart r.fields x then (.armed, 0) else (.fired, r.progress)

/-- The previous value after an evaluated record: a rule with a channel takes the record's value (R52, step 3). -/
def nextPrevious (x : Seen) (r : Rule) : Option Int :=
  if r.fields.condition = .external then r.previous else some x.value

/-- A rule after the evaluation of a record on `channel` (R52, R59). -/
def evaluateRule (channel : Nat) (x : Seen) (r : Rule) : Rule :=
  if sees channel r then
    if fires x r then
      { r with state := .fired, progress := 0, fireCount := satAdd Config.counterMax r.fireCount 1,
               previous := nextPrevious x r }
    else
      { r with state := (moved x r).1, progress := (moved x r).2, previous := nextPrevious x r }
  else r

/-! ## Firings of one record (R59, R64 to R67) -/

/-- A firing: the rule's index (16 for FORCE), its priority and action. -/
structure Firing where
  rule : Nat
  priority : Nat
  action : Action
  deriving DecidableEq, Repr

/-- Puts a firing after every firing of the same or a higher priority. -/
def insertFiring (f : Firing) : List Firing → List Firing
  | [] => [f]
  | g :: gs => if g.priority < f.priority then f :: g :: gs else g :: insertFiring f gs

/-- The firings the rules make on a record, in ascending rule index from `i` on. -/
def ruleFirings (channel : Nat) (x : Seen) : Nat → List Rule → List Firing
  | _, [] => []
  | i, r :: rs =>
    if sees channel r && fires x r then ⟨i, r.fields.priority, r.fields.action⟩ :: ruleFirings channel x (i + 1) rs
    else ruleFirings channel x (i + 1) rs

/-- Firings in descending priority and, within a priority, in the order given (R65). -/
def orderFirings (fs : List Firing) : List Firing := fs.foldl (fun acc f => insertFiring f acc) []

/-- The firings of one record in the order of R65, FORCE among them when the record carries its mark (R64). -/
def firingsOf (channel : Nat) (x : Seen) (force : Bool) (rules : List Rule) : List Firing :=
  orderFirings ((if force then [⟨16, 16, .capture⟩] else []) ++ ruleFirings channel x 0 rules)

/-- Deals with one firing: SGM's outcome or NOTE, then its TRIGGER report (R65, R66). -/
def dealFiring (t : TriggerInfo) (f : Firing) (ctx : CaptureContext) (s : State) : CaptureContext × State :=
  match f.action with
  | .note => (ctx, queueEvent (.trigger f.rule t.tick t.record.entry t.record.value .note none) s)
  | .capture =>
    let r := captureFiring f.rule f.priority t ctx s
    (r.1.context,
      queueEvent (.trigger f.rule t.tick t.record.entry t.record.value r.1.outcome r.1.segment) r.2)

/-- Deals with the firings one at a time, in their order (R65). -/
def dealFirings (t : TriggerInfo) : List Firing → CaptureContext → State → CaptureContext × State
  | [], ctx, s => (ctx, s)
  | f :: fs, ctx, s => dealFirings t fs (dealFiring t f ctx s).1 (dealFiring t f ctx s).2

/-- What the rules see of a record in this state: the latch and the line are read once (R52, step 1). -/
def seenOf (r : Record) (s : State) : Seen := ⟨r.value, s.tgm.latch, s.trgin⟩

/-- Steps 1 to 4 of an evaluation at TGM: line sample, rules, previous values, latch (R52). -/
def evaluateRules (channel : Nat) (r : Record) (s : State) : State :=
  s.setTgm
    { rules := s.tgm.rules.map (evaluateRule channel (seenOf r s)), latch := false, lastLine := s.trgin }

/-- The evaluation of one record as one event (R52); what became of its capture firings, and the state. -/
def evaluateRecord (channel : Nat) (force : Bool) (t : TriggerInfo) (s : State) : CaptureContext × State :=
  dealFirings t (firingsOf channel (seenOf t.record s) force s.tgm.rules.toList) .first
    (evaluateRules channel t.record s)

/-! ## START and ABORT at TGM (R73) -/

/-- An enabled rule enters ARMED with progress 0 and previous value absent (R73). -/
def armEnabled (r : Rule) : Rule :=
  if r.state = .off then r else { r with state := .armed, progress := 0, previous := none }

/-- Every enabled rule is armed and the latch is cleared (R73). -/
def armRules (s : State) : State :=
  s.setTgm { s.tgm with rules := s.tgm.rules.map armEnabled, latch := false }

/-! ## Commands on rules -/

/-- Runs an owner's rule on the rule with index `i`; an index above 15 is refused NOENT (section 3.8). -/
def withRule (i : Nat) (act : Rule → Answer × Rule) (s : State) : Answer × State :=
  if h : i < 16 then
    ((act s.tgm.rules[i]).1, s.setTgm { s.tgm with rules := s.tgm.rules.set i (act s.tgm.rules[i]).2 })
  else (refuse .noent, s)

/-- RSET on one rule, the index being good: BADARG, STATE, or the fields replaced (R68). -/
def rsetRule (fields : Option RuleFields) (r : Rule) : Answer × Rule :=
  match fields with
  | none => (refuse .badarg, r)
  | some f =>
    if r.state = .off then
      (okWith [], { fields := f, state := .off, progress := 0, previous := none, fireCount := 0 })
    else (refuse .state, r)

def ownRset (args : List Byte) (s : State) : Answer × State :=
  match args with
  | [] => (refuse .badlen, s)
  | index :: rest => withRule index.toNat (rsetRule (readRule rest)) s

def execRset (s : State) : Host.Outcome State Fault Refusal := .next (dealWith 0x20 (argCount 12) false ownRset s)

/-- RON on one rule (R69). -/
def ronRule (r : Rule) : Answer × Rule :=
  if r.state = .off then (okWith [byte1 RuleState.armed.code], { r with state := .armed, progress := 0, previous := none })
  else (okWith [byte1 r.state.code], r)

def ownRon (args : List Byte) (s : State) : Answer × State :=
  match args with
  | [index] => withRule index.toNat ronRule s
  | _ => (refuse .badlen, s)

def execRon (s : State) : Host.Outcome State Fault Refusal := .next (dealWith 0x21 (argCount 1) false ownRon s)

/-- ROFF on one rule (R70). -/
def roffRule (r : Rule) : Answer × Rule :=
  (okWith [byte1 RuleState.off.code], { r with state := .off, progress := 0, previous := none })

def ownRoff (args : List Byte) (s : State) : Answer × State :=
  match args with
  | [index] => withRule index.toNat roffRule s
  | _ => (refuse .badlen, s)

def execRoff (s : State) : Host.Outcome State Fault Refusal := .next (dealWith 0x22 (argCount 1) false ownRoff s)

/-- The level part was met at the rule's last evaluated record (R61). -/
def levelAtLast (lastLine : Bool) (r : Rule) : Bool :=
  if r.fields.condition = .external then lastLine
  else
    match r.previous with
    | some p => levelPart r.fields p lastLine
    | none => false

/-- A rule after RARM (R61). -/
def rearmed (lastLine : Bool) (r : Rule) : Rule :=
  if r.state = .fired then
    if levelAtLast lastLine r then { r with state := .qualifying, progress := 1 }
    else { r with state := .armed, progress := 0 }
  else r

/-- RARM on one rule (R61, R71). -/
def rarmRule (lastLine : Bool) (r : Rule) : Answer × Rule :=
  (okWith [byte1 (rearmed lastLine r).state.code, byte1 (rearmed lastLine r).progress], rearmed lastLine r)

def ownRarm (args : List Byte) (s : State) : Answer × State :=
  match args with
  | [index] => withRule index.toNat (rarmRule s.tgm.lastLine) s
  | _ => (refuse .badlen, s)

def execRarm (s : State) : Host.Outcome State Fault Refusal := .next (dealWith 0x23 (argCount 1) false ownRarm s)

/-- The rule report form (R205). -/
def ruleBytes (r : Rule) : List Byte :=
  [byte1 r.fields.condition.code, byte1 (r.fields.channel.getD 255)] ++ signedBytes r.fields.thresholdA ++
    signedBytes (r.fields.thresholdB.getD 0) ++ leBytes 2 r.fields.hysteresis ++
    [byte1 r.fields.qualify, byte1 r.fields.priority, r.fields.optionsByte, byte1 r.state.code, byte1 r.progress,
      byte1 (flagBit r.previous.isSome 0)] ++
    signedBytes (r.previous.getD 0) ++ leBytes 2 r.fireCount

/-- RREAD on one rule (R72). -/
def rreadRule (r : Rule) : Answer × Rule := (okWith (ruleBytes r), r)

def ownRread (args : List Byte) (s : State) : Answer × State :=
  match args with
  | [index] => withRule index.toNat rreadRule s
  | _ => (refuse .badlen, s)

def execRread (s : State) : Host.Outcome State Fault Refusal := .next (dealWith 0x24 (argCount 1) false ownRread s)

/-! ## The trigger input line (R62) -/

/-- TRGIN_RISING_EDGE: the line is high; the latch is set while acquisition is RUNNING (R62; DESIGN CHOICE, log entry 12). -/
def trginRisingStep (s : State) : State :=
  { s with trgin := true, tgm := { s.tgm with latch := s.tgm.latch || decide (s.aqs.state = .running) } }

def execTrginRisingEdge (s : State) : Host.Outcome State Fault Refusal := .next (trginRisingStep s)

/-- TRGIN_FALLING_EDGE: the line is low (R62). -/
def trginFallingStep (s : State) : State := { s with trgin := false }

def execTrginFallingEdge (s : State) : Host.Outcome State Fault Refusal := .next (trginFallingStep s)

end Sys2Proof.Machine
end

