-- ==== Sys2Proof/Machine/Acquisition.lean ====
section
/-! DEFINITION. The Acquisition Sequencer's runs (chapter 5, sections 5.1 and 5.2): the entry into IDLE or HALTED, halts,
closes, and the commands START, STOP, ABORT, FORCE, PSET, with CSET and CREAD, whose taking turns on the acquisition
state. -/

namespace Sys2Proof.Machine

/-! ## Conversions asked and abandoned (R117, R123) -/

/-- AQS asks CVP to convert the entry with this index: tag, request in flight, timer, and the tick its record carries
(R103, R117). -/
def requestConversion (index : Nat) (e : ScanEntry) (s : State) : State :=
  { s with
    cvp := { s.cvp with
      inFlight := some ⟨index, e.channel, e.gain, s.cvp.nextTag⟩,
      nextTag := wrapInc 4 s.cvp.nextTag,
      timer := some s.cvp.timeout },
    aqs := { s.aqs with convTick := s.aqs.tick } }

/-- AQS abandons the conversion in flight (R111, R123). -/
def abandon (s : State) : State := s.setCvp { s.cvp with inFlight := none, timer := none }

/-! ## Entry into IDLE or HALTED (R98) -/

/-- The ring's pages return to the pool tail, oldest first (R12). -/
def freeRing (s : State) : State :=
  returnPages s.sst.ring (s.setSst { s.sst with ring := [], ringFill := none })

/-- An ACQSTATE report of the state as it stands (R102). -/
def reportAcq (s : State) : State := queueEvent (.acqState s.aqs.state s.aqs.reason s.aqs.run s.aqs.tick) s

/-- A scheduled commit is made on entry into IDLE or HALTED (R91). -/
def commitOnEntry (s : State) : State := if s.sct.scheduled then switchTables s else s

/-- AQS and SGM at an entry: pacer, pass, state, reason, FORCE, holdoff (R98, steps 1 and 3 to 6). -/
def setEntry (st : AcqState) (reason : AcqReason) (s : State) : State :=
  { s with
    aqs := { s.aqs with
      nextTick := none, passState := .waiting, holdPending := false, state := st, reason := reason,
      forcePending := false },
    sgm := { s.sgm with holdoff := 0 } }

/-- An entry into IDLE or HALTED, as one event (R98). -/
def enterStopped (st : AcqState) (reason : AcqReason) (s : State) : State :=
  commitOnEntry (reportAcq (freeRing (setEntry st reason (abandon s))))

/-! ## Closes and halts (R35, R99, R100) -/

/-- What a close does to acquisition, in the state and capture mode held (R35, R99). -/
def acquisitionAtClose (s : State) : State :=
  match s.aqs.state, s.sgm.settings.captureMode with
  | .running, .continuous => s.setSgm { s.sgm with holdoff := s.sgm.settings.holdoff }
  | .running, .single => enterStopped .idle .singleDone s
  | .draining, _ => enterStopped .idle .drained s
  | .idle, _ => s
  | .halted, _ => s

/-- A halt: a FILLING segment closes with TRUNCATED and HALTEND, then HALTED is entered; in IDLE or HALTED nothing
changes (R39, R100). -/
def haltWith (reason : AcqReason) (s : State) : State :=
  match s.aqs.state with
  | .running | .draining => enterStopped .halted reason (completeFilling true true s)
  | .idle | .halted => s

/-- The FILLING segment closes, and acquisition takes the close (R34, R35). -/
def closeSegment (truncated : Bool) (s : State) : State := acquisitionAtClose (completeFilling truncated false s)

/-! ## START (R95) -/

/-- The ring's target size for a pre window: ceil(pre / 32) + 1 (R7). -/
def targetFor (pre : Nat) : Nat := (pre + 31) / 32 + 1

/-- The steps of an accepted START (R95). -/
def startRun (s : State) : State :=
  reportAcq
    (armRules
      { s with
        aqs := { s.aqs with
          run := wrapInc 65536 s.aqs.run, tick := 0, pass := 0, position := 0, passState := .waiting,
          holdPending := false, state := .running, reason := .start, nextTick := some s.aqs.interval },
        sst := { s.sst with targetSize := targetFor s.sgm.settings.preRequested },
        sgm := { s.sgm with holdoff := 0 },
        cvp := { s.cvp with consecutive := 0 } })

def ownStart (_args : List Byte) (s : State) : Answer × State :=
  match s.aqs.state with
  | .running | .draining => (refuse .state, s)
  | .idle | .halted =>
    if s.sct.active = [] then (refuse .state, s)
    else if freeCount s < 2 then (refuse .nospace, s)
    else (okWith (leBytes 2 (wrapInc 65536 s.aqs.run)), startRun s)

def execStart (s : State) : Host.Outcome State Fault Refusal := .next (dealWith 0x40 (argCount 0) false ownStart s)

/-! ## STOP (R96) -/

/-- STOP at AQS (R96). -/
def stopRun (s : State) : State :=
  match s.aqs.state with
  | .running =>
    match fillingSegment s with
    | none => enterStopped .idle .stop s
    | some _ => reportAcq (s.setAqs { s.aqs with state := .draining, reason := .stop })
  | .draining | .idle | .halted => s

def ownStop (_args : List Byte) (s : State) : Answer × State :=
  (okWith [byte1 (stopRun s).aqs.state.code], stopRun s)

def execStop (s : State) : Host.Outcome State Fault Refusal := .next (dealWith 0x41 (argCount 0) false ownStop s)

/-! ## ABORT (R101) -/

/-- ABORT at AQS: nothing in IDLE, else abandonment, discard, rules, entry (R43, R101). -/
def abortRun (s : State) : State :=
  match s.aqs.state with
  | .idle => s
  | .running | .draining | .halted =>
    enterStopped .idle .abort (armRules (discardFirst isFilling .aborted (abandon s)))

def ownAbort (_args : List Byte) (s : State) : Answer × State :=
  (okWith [byte1 (abortRun s).aqs.state.code], abortRun s)

def execAbort (s : State) : Host.Outcome State Fault Refusal := .next (dealWith 0x42 (argCount 0) false ownAbort s)

/-! ## FORCE (R112) -/

def ownForce (_args : List Byte) (s : State) : Answer × State :=
  match s.aqs.state with
  | .running =>
    if s.aqs.forcePending then (refuse .busy, s)
    else (okWith [], s.setAqs { s.aqs with forcePending := true })
  | .idle | .draining | .halted => (refuse .state, s)

def execForce (s : State) : Host.Outcome State Fault Refusal := .next (dealWith 0x43 (argCount 0) false ownForce s)

/-! ## PSET (R105, R124, R194) -/

/-- An accepted PSET replaces the pacer and converter settings whole (R105, R124). -/
def takePacer (p : PsetArgs) (s : State) : State :=
  { s with
    aqs := { s.aqs with interval := p.interval, mode := p.mode },
    cvp := { s.cvp with timeout := p.timeout, threshold := p.threshold } }

def ownPset (args : List Byte) (s : State) : Answer × State :=
  match readPset args with
  | none => (refuse .badarg, s)
  | some p =>
    if p.mode ≠ s.aqs.mode ∧ s.aqs.state ≠ .idle then (refuse .state, s) else (okWith [], takePacer p s)

def execPset (s : State) : Host.Outcome State Fault Refusal := .next (dealWith 0x32 (argCount 7) false ownPset s)

/-! ## CSET and CREAD (R25, R193) -/

def ownCset (args : List Byte) (s : State) : Answer × State :=
  match readCapture args with
  | none => (refuse .badarg, s)
  | some c =>
    match s.aqs.state with
    | .running | .draining => (refuse .state, s)
    | .idle | .halted => (okWith [], s.setSgm { s.sgm with settings := c })

def execCset (s : State) : Host.Outcome State Fault Refusal := .next (dealWith 0x30 (argCount 14) false ownCset s)

def ownCread (_args : List Byte) (s : State) : Answer × State := (okWith (captureBytes s.sgm.settings), s)

def execCread (s : State) : Host.Outcome State Fault Refusal := .next (dealWith 0x31 (argCount 0) false ownCread s)

end Sys2Proof.Machine
end

