-- ==== Sys2Proof/Machine/Converter.lean ====
section
/-! DEFINITION. The route of a record (chapter 5, section 5.6; chapter 1, sections 1.4 and 1.5) and the converter port's
two completions (chapter 6), with the look-ahead of BURST pacing that follows a completion. -/

namespace Sys2Proof.Machine

/-! ## Placement (R8 to R10, R13, R14) -/

/-- Where a record came to stand. -/
inductive Placement where
  | ring | segment | unplaced
  /-- it wanted a fill page and none could be had (R14) -/
  | refused
  deriving DecidableEq, Repr

/-- A new page joins the ring with the record in its slot 0 (R8, case 2). -/
def growRing (page : Nat) (r : Record) (s : State) : State :=
  writeSlot page 0 r (s.setSst { s.sst with ring := s.sst.ring ++ [page], ringFill := some 1 })

/-- The ring recycles its oldest page, or the record is unplaced (R8, cases 3 and 4; R9). -/
def recycleRing (r : Record) (s : State) : Placement × State :=
  match s.sst.ring with
  | [] => (.unplaced, s)
  | page :: rest =>
    (.ring, writeSlot page 0 r (s.setSst { s.sst with ring := rest ++ [page], ringFill := some 1 }))

/-- The ring needs a page (R8, cases 2 to 4). -/
def nextRingPage (r : Record) (s : State) : Placement × State :=
  if s.sst.ring.length < s.sst.targetSize then
    match takePage s with
    | some (page, s1) => (.ring, growRing page r s1)
    | none => recycleRing r s
  else recycleRing r s

/-- A record is placed in the ring, or is unplaced (R8). -/
def placeInRing (r : Record) (s : State) : Placement × State :=
  match s.sst.ring.getLast?, s.sst.ringFill with
  | some page, some fill =>
    if fill < 32 then (.ring, writeSlot page fill r (s.setSst { s.sst with ringFill := some (fill + 1) }))
    else nextRingPage r s
  | _, _ => nextRingPage r s

/-- A fill page cannot be had: the record is lost, and the segment closes (R14, R37). -/
def starve (s : State) : State :=
  let s1 := s.setSst { s.sst with historyLoss := satAdd Config.counterMax s.sst.historyLoss 1 }
  if s.sgm.settings.exhaustion = .halt then haltWith .starved (completeFilling true true s1)
  else closeSegment true s1

/-- The position, from slot 0 of the first page, of the next record of a segment (R13). -/
def nextPosition (d : Descriptor) : Nat := d.firstOffset + storedLength d

/-- A fill page joins the page list (R13). -/
def addFillPage (page : Nat) (d : Descriptor) : Descriptor := { d with pages := d.pages ++ [page] }

/-- A record is placed in the FILLING segment, or refused a fill page (R13, R14). -/
def placeInSegment (d : Descriptor) (r : Record) (s : State) : Placement × State :=
  match d.pages[nextPosition d / 32]? with
  | some page => (.segment, writeSlot page (nextPosition d % 32) r s)
  | none =>
    match takeOrDisplace d.primaryPriority s with
    | some (page, s1) => (.segment, writeSlot page 0 r (updateFilling (addFillPage page) s1))
    | none => (.refused, starve s)

/-- SST places a record (R113, step 3). -/
def placeRecord (r : Record) (s : State) : Placement × State :=
  match fillingSegment s with
  | some d => placeInSegment d r s
  | none => placeInRing r s

/-! ## After placement and evaluation (R10, R31, R34) -/

/-- The segment's post window is complete, or its trigger record was lost. -/
def windowDone (d : Descriptor) : Bool := decide (d.postTaken = d.postRequested) || d.pages.isEmpty

/-- The close check on the FILLING segment (R31, step 4; R29; R38: under HALT a lost trigger record halts). -/
def closeCheck (s : State) : State :=
  match fillingSegment s with
  | none => s
  | some d =>
    if windowDone d then
      if d.pages.isEmpty && decide (s.sgm.settings.exhaustion = .halt) then haltWith .starved (completeFilling true true s)
      else closeSegment d.pages.isEmpty s
    else s

/-- SGM counts a record placed in the FILLING segment and makes its close check (R31). -/
def countRecord (err : Bool) (s : State) : State := closeCheck (updateFilling (countedDescriptor err) s)

/-- The history-loss counter rises (R11). -/
def countLoss (s : State) : State :=
  s.setSst { s.sst with historyLoss := satAdd Config.counterMax s.sst.historyLoss 1 }

/-- What follows the evaluation of a record (R10, R31, R113 step 4). -/
def afterEvaluation (p : Placement) (ctx : CaptureContext) (s : State) : State :=
  match p with
  | .segment => countRecord false s
  | .ring => if ctx = .opened then closeCheck s else s
  | .unplaced => if ctx = .opened then closeCheck s else countLoss s
  | .refused => s

/-- What becomes of an ERR record, which is not evaluated (R10, R31). -/
def afterErr (p : Placement) (s : State) : State :=
  match p with
  | .segment => countRecord true s
  | .unplaced => countLoss s
  | .ring => s
  | .refused => s

/-- Where the trigger record stands for an open on it. -/
def triggerPlace (p : Placement) : TriggerPlace :=
  match p with
  | .unplaced => .unplaced
  | .ring | .segment | .refused => .ring

/-- A record with ERR cleared is handed to TGM with its channel, tick and FORCE mark, which clears the flag (R113, step 4). -/
def evaluateStored (channel : Nat) (r : Record) (p : Placement) (s : State) : State :=
  let x := evaluateRecord channel s.aqs.forcePending ⟨r, s.aqs.convTick, triggerPlace p⟩
    (s.setAqs { s.aqs with forcePending := false })
  afterEvaluation p x.1 x.2

/-- Steps 3 and 4 of the route (R113). -/
def storeRecord (channel : Nat) (r : Record) (s : State) : State :=
  let x := placeRecord r s
  if x.1 = .refused then x.2
  else if r.err then afterErr x.1 x.2
  else evaluateStored channel r x.1 x.2

/-! ## The route (R113) -/

/-- What CVP hands over with a completion (R118, R119). -/
structure Completion where
  request : Request
  value : Int
  ovr : Bool
  err : Bool
  fault : Bool
  deriving DecidableEq, Repr

/-- The record that AQS completes (R76, R113 step 1). -/
def completedRecord (c : Completion) (e : ScanEntry) (s : State) : Record :=
  { value := c.value, entry := c.request.entry, marker := e.marker.getD 0, err := c.err, ovr := c.ovr,
    hold := s.aqs.holdPending }

/-- The converter fault: CVFAULT, then the halt (R122). -/
def converterFault (q : Request) (s : State) : State :=
  haltWith .converter (queueEvent (.cvFault q.channel q.entry s.cvp.consecutive s.cvp.total) s)

/-- AQS asks for the entry with this index and moves the entry position past it (R106, R109; DEDUCED in BURST
pacing, log entry 8). -/
def convertAt (index : Nat) (e : ScanEntry) (s : State) : State :=
  requestConversion index e (s.setAqs { s.aqs with position := index + 1 })

/-- The look-ahead of BURST pacing after the record of entry `index` (R109, R110). -/
def lookAhead (index : Nat) (hold : Bool) (s : State) : State :=
  match nextDue s.aqs.pass (index + 1) s.sct.active with
  | none => passBoundary (s.setAqs { s.aqs with passState := .waiting })
  | some j =>
    if hold then s.setAqs { s.aqs with passState := .paused, position := j }
    else
      match s.sct.active[j]? with
      | some e => convertAt j e s
      | none => s

/-- Pacing goes on after a completion, in RUNNING or DRAINING (R113, step 6). -/
def continuePacing (index : Nat) (hold : Bool) (s : State) : State :=
  if (s.aqs.state = .running ∨ s.aqs.state = .draining) ∧ s.aqs.mode = .burst then lookAhead index hold s else s

/-- AQS hands a record to the store, and counts it among those since the last switch (R113, step 3; R92; log entry 19). -/
def handRecord (s : State) : State := s.setAqs { s.aqs with sinceSwitch := s.aqs.sinceSwitch + 1 }

/-- AQS routes a completion whose entry is `e`, as one event (R113). -/
def routeRecord (c : Completion) (e : ScanEntry) (s : State) : State :=
  let s1 := s.setAqs { s.aqs with holdPending := false }
  let s2 := if e.discard then s1 else storeRecord e.channel (completedRecord c e s) (handRecord s1)
  let s3 := if c.fault then converterFault c.request s2 else s2
  continuePacing c.request.entry e.hold s3

/-- The route of a completion; the entry is read from the active copy (R113). -/
def route (c : Completion) (s : State) : Host.Outcome State Fault Refusal :=
  match s.sct.active[c.request.entry]? with
  | none => .fault .entryNotInActiveCopy
  | some e => .next (routeRecord c e s)

/-! ## CONVERTER_ANSWER (R118, R120) -/

/-- A late answer (R120). -/
def lateAnswer (s : State) : State := s.setCvp { s.cvp with late := satAdd Config.counterMax s.cvp.late 1 }

/-- CVP after a matching answer (R118). -/
def answeredPort (c : Cvp) : Cvp := { c with inFlight := none, timer := none, consecutive := 0 }

/-- CONVERTER_ANSWER: a matching answer is routed, any other is late; CVDI is not sampled during start-up (R118, R120,
R207). -/
def execConverterAnswer (value : Int) (overRange : Bool) (tag : Nat) (s : State) : Host.Outcome State Fault Refusal :=
  if s.power = .startUp then .next s
  else
    match s.cvp.inFlight with
    | none => .next (lateAnswer s)
    | some q =>
      if q.tag = tag then
        route ⟨q, signed16 value, overRange, false, false⟩ (s.setCvp (answeredPort s.cvp))
      else .next (lateAnswer s)

/-! ## CONVERSION_TIMEOUT (R119) -/

/-- The consecutive-timeout count after a timeout (R119; DESIGN CHOICE, log entry 16). It stays within 0-15 because the threshold is at most 15 and
a fault ends the conversions of the run (R116). -/
def nextConsecutive (c : Cvp) : Nat := c.consecutive + 1

/-- CVP after its timer expired (R119). -/
def timedOutPort (c : Cvp) : Cvp :=
  { c with
    inFlight := none, timer := none, consecutive := nextConsecutive c,
    total := satAdd Config.counterMax c.total 1 }

/-- CONVERSION_TIMEOUT: an ERR record is made and routed, with the fault mark when the count reaches the threshold
(R119). With no request in flight, or the timer stopped, the expiry does not come (R121). -/
def execConversionTimeout (s : State) : Host.Outcome State Fault Refusal :=
  match s.cvp.inFlight, s.cvp.timer with
  | some q, some _ =>
    route ⟨q, 0, false, true, decide (s.cvp.threshold ≤ nextConsecutive s.cvp)⟩ (s.setCvp (timedOutPort s.cvp))
  | _, _ => .next s

end Sys2Proof.Machine
end

