-- ==== Sys2Proof/Machine/Pacing.lean ====
section
/-! DEFINITION. The pacer (chapter 5, sections 5.3 to 5.5): a pace tick in STEP and in BURST pacing. -/

namespace Sys2Proof.Machine

/-- What every pace tick does first: the next tick time moves on by the interval held, the tick counter rises, and in
RUNNING holdoff remaining falls by 1 if above 0 (R36, R103, R104). -/
def countTick (t : Nat) (s : State) : State :=
  { s with
    aqs := { s.aqs with nextTick := some (t + s.aqs.interval), tick := wrapInc (2 ^ 48) s.aqs.tick },
    sgm := { s.sgm with holdoff := if s.aqs.state = .running then s.sgm.holdoff - 1 else s.sgm.holdoff } }

/-- A missed tick: it is counted, and OVERRUN is set in a FILLING segment (R108). -/
def missedTick (s : State) : State :=
  markOverrun (s.setAqs { s.aqs with missed := satAdd Config.counterMax s.aqs.missed 1 })

/-- The search of a tick in STEP pacing (R106): `left` entries may still be examined; `fuel` bounds the examinations
across a switch. It ends with a conversion, or void (R107). -/
def stepSearch : Nat → Nat → State → State
  | 0, _, s => s
  | fuel + 1, left, s =>
    if left = 0 then s
    else
      let crossed := decide (s.sct.active.length ≤ s.aqs.position)
      let s1 := if crossed then passBoundary s else s
      let left1 := if crossed && switchDue s then s1.sct.active.length else left
      match s1.sct.active[s1.aqs.position]? with
      | none => s1
      | some e =>
        if isDue s1.aqs.pass e then convertAt s1.aqs.position e s1
        else stepSearch fuel (left1 - 1) (s1.setAqs { s1.aqs with position := s1.aqs.position + 1 })

/-- A tick in STEP pacing (R106). -/
def stepTick (s : State) : State :=
  if s.cvp.inFlight.isSome then missedTick s
  else stepSearch (s.sct.active.length + s.sct.working.length + 1) s.sct.active.length s

/-- A tick that starts a BURST pass at entry 0, or is void (R107, R109). -/
def startPass (s : State) : State :=
  match nextDue s.aqs.pass 0 s.sct.active with
  | none => passBoundary s
  | some j =>
    match s.sct.active[j]? with
    | some e => convertAt j e (s.setAqs { s.aqs with passState := .converting })
    | none => s

/-- A tick that resumes a PAUSED pass at the entry position (R110). -/
def resumePass (s : State) : State :=
  match s.sct.active[s.aqs.position]? with
  | some e => convertAt s.aqs.position e (s.setAqs { s.aqs with passState := .converting, holdPending := true })
  | none => s

/-- A tick in BURST pacing (R109). -/
def burstTick (s : State) : State :=
  match s.aqs.passState with
  | .waiting => startPass s
  | .converting => missedTick s
  | .paused => resumePass s

/-- PACE_TICK; with the pacer stopped the tick does not come (R98, R104). -/
def paceTickStep (s : State) : State :=
  match s.aqs.nextTick with
  | none => s
  | some t =>
    match s.aqs.mode with
    | .step => stepTick (countTick t s)
    | .burst => burstTick (countTick t s)

def execPaceTick (s : State) : Host.Outcome State Fault Refusal := .next (paceTickStep s)

end Sys2Proof.Machine
end

