-- ==== Sys2Proof/Machine/Frames.lean ====
section
/-! DEFINITION. Frames and payloads (chapter 10): the CRC, the frame, and the payloads of notices, replies and reports. -/

namespace Sys2Proof.Machine

/-! ## The CRC (R202) -/

/-- One bit enters the register. -/
def crcBit (reg : BitVec 16) (bit : Bool) : BitVec 16 :=
  if xor reg.msb bit then (reg <<< 1) ^^^ 0x1021#16 else reg <<< 1

/-- One byte enters the register, least significant bit first. -/
def crcByte (reg : BitVec 16) (b : Byte) : BitVec 16 :=
  crcBit (crcBit (crcBit (crcBit (crcBit (crcBit (crcBit (crcBit reg (b.getLsbD 0)) (b.getLsbD 1)) (b.getLsbD 2))
    (b.getLsbD 3)) (b.getLsbD 4)) (b.getLsbD 5)) (b.getLsbD 6)) (b.getLsbD 7)

/-- The CRC of the covered bytes. -/
def crc (covered : List Byte) : BitVec 16 := covered.foldl crcByte 0xFFFF#16

/-- The two CRC bytes, high byte first. -/
def crcBytes (c : BitVec 16) : List Byte := [c.extractLsb' 8 8, c.extractLsb' 0 8]

/-! ## Frames (R201) -/

/-- The sync byte. -/
def syncByte : Byte := 0xD7
/-- The kind byte of a COMMAND frame. -/
def kindCommand : Byte := 0x01
/-- The kind byte of an ACK frame. -/
def kindAck : Byte := 0x02
/-- The kind byte of a REPLY frame. -/
def kindReply : Byte := 0x81
/-- The kind byte of a REPORT frame. -/
def kindReport : Byte := 0x82
/-- The kind byte of a NOTICE frame. -/
def kindNotice : Byte := 0x83

/-- A whole frame: sync, kind, tag or sequence, length, payload, CRC. -/
def frameBytes (kind tag : Byte) (payload : List Byte) : List Byte :=
  let covered := kind :: tag :: byte1 payload.length :: payload
  syncByte :: covered ++ crcBytes (crc covered)

/-! ## Payloads (R204 to R206) -/

/-- The payload of a NOTICE frame (R204). -/
def noticePayload (n : Notice) : List Byte := [byte1 n.reason.code, n.tag]

/-- The payload of a REPLY frame (R205). -/
def replyPayload (r : Reply) : List Byte := r.code :: byte1 r.result.code :: r.fields

/-- The payload of an event report (R206). -/
def eventPayload : EventReport → List Byte
  | .trigger rule tick entry value outcome segment =>
    [0x01, byte1 rule, byte1 outcome.code, byte1 entry] ++ leBytes 6 tick ++ signedBytes value ++
      (match segment with
        | some n => leBytes 2 n
        | none => [])
  | .segDrop number reason => [0x05] ++ leBytes 2 number ++ [byte1 reason.code]
  | .acqState state reason run tick =>
    [0x06, byte1 state.code, byte1 reason.code] ++ leBytes 2 run ++ leBytes 6 tick
  | .storeLow free watermark => [0x07, byte1 free, byte1 watermark]
  | .cvFault channel entry consecutive total =>
    [0x08, byte1 channel, byte1 entry, byte1 consecutive] ++ leBytes 2 total
  | .tableSwitch generation entries => [0x09] ++ leBytes 2 generation ++ [byte1 entries]
  | .lost count => [0x0A] ++ leBytes 2 count

/-- A secondary entry in SEGHEAD (R206). -/
def secondaryBytes (x : Secondary) : List Byte := [byte1 x.rule] ++ leBytes 2 x.offset ++ [byte1 x.outcome.code]

/-- The payload of SEGHEAD (R140, R206). -/
def segheadPayload (d : Descriptor) : List Byte :=
  [0x02] ++ leBytes 2 d.number ++ leBytes 2 d.run ++ [byte1 d.primaryRule, byte1 d.primaryPriority] ++
    leBytes 6 d.triggerTick ++ [byte1 d.triggerEntry] ++ leBytes 2 d.generation ++ leBytes 2 d.preRequested ++
    leBytes 2 d.preTaken ++ leBytes 2 d.postRequested ++ leBytes 2 d.postTaken ++ leBytes 2 d.maxLength ++
    [d.flags.toByte] ++ leBytes 2 d.errCount ++
    [byte1 d.firstOffset, byte1 d.pages.length, byte1 d.secondary.length, byte1 d.secondaryOverflow] ++
    d.secondary.flatMap secondaryBytes

/-- The records of a span, as stored, in slot order (R141). -/
def spanRecords (s : State) (page first last : Nat) : List Record :=
  (List.range (last + 1 - first)).map (fun i => slotRecord s (slotAddr page (first + i)))

/-- The payload of SEGDATA (R141, R206). -/
def segdataPayload (s : State) (d : Descriptor) (chunk page first last : Nat) : List Byte :=
  [0x03] ++ leBytes 2 d.number ++ [byte1 chunk, byte1 (last + 1 - first), byte1 d.pages.length] ++
    (spanRecords s page first last).flatMap recordBytes

/-- The payload of SEGEND (R142, R206). -/
def segendPayload (d : Descriptor) : List Byte :=
  [0x04] ++ leBytes 2 d.number ++ leBytes 2 (storedLength d) ++ leBytes 2 d.errCount ++ [d.flags.toByte]

/-- The payload of a report, read now; none when a segment report names no descriptor in use (R128, R133). -/
def reportPayload (s : State) : Report → Option (List Byte)
  | .event e => some (eventPayload e)
  | .segment (.head n) => (segmentNumbered n s).map segheadPayload
  | .segment (.data n chunk page first last) =>
    (segmentNumbered n s).map (fun d => segdataPayload s d chunk page first last)
  | .segment (.tail n) => (segmentNumbered n s).map segendPayload

end Sys2Proof.Machine
end

