-- ==== Sys2Proof/Machine/Reports.lean ====
section
/-! DEFINITION. The Report Engine (chapter 7): teardowns, acknowledgements, the delivery engine, the fetch queue, and the
commands on segments (SLIST, SFETCH, SDROP), with the expiry of the trigger output pulse. -/

namespace Sys2Proof.Machine

/-! ## Teardowns (R145, R146) -/

/-- How many event reports the removal of a pending entry drops: a LOST report counts for what it carried (R145). -/
def droppedBy : Report → Nat
  | .event (.lost n) => n
  | .event _ => 1
  | .segment _ => 0

/-- RPE's part of a flush: queues, numbering, slot, credit, and the event reports dropped (R145, steps 1 to 4 and 6). -/
def rpeFlush (credit : Nat) (r : Rpe) : Rpe :=
  { r with
    queue := [], outstanding := [], nextSeq := 0, credit := credit, resend := none, slot := none,
    lost := satAdd Config.counterMax r.lost ((r.queue.map droppedBy).sum) }

/-- The flush steps of HELLO with FLUSH and of BYE (R145). -/
def flushReports (credit : Nat) (s : State) : State :=
  let s1 := revertAll (s.setRpe (rpeFlush credit s.rpe))
  s1.setRpe (rpeQueueLost s1.rpe)

/-- The sequence number of the oldest outstanding report. -/
def oldestSeq (r : Rpe) : Option Nat := r.outstanding.head?.map Prod.fst

/-- The resend mark is set to the oldest outstanding report (R134). -/
def setResend (r : Rpe) : Rpe := { r with resend := oldestSeq r }

/-! ## Acknowledgements (R135, R136) -/

/-- The class of an ACK (R135). -/
inductive AckClass where
  /-- it removes this many reports -/
  | advancing (count : Nat)
  | bad
  | stale
  deriving DecidableEq, Repr

/-- The base of the classification (R135). -/
def ackBase (r : Rpe) : Nat := (oldestSeq r).getD r.nextSeq

/-- The distance of s from the base, modulo 256 (R135). -/
def ackDistance (r : Rpe) (seq : Nat) : Nat := (seq + (256 - ackBase r % 256)) % 256

/-- R135's table. -/
def classify (r : Rpe) (seq : Nat) : AckClass :=
  if ackDistance r seq < r.outstanding.length then .advancing (ackDistance r seq + 1)
  else if ackDistance r seq ≤ 127 then .bad
  else .stale

/-- The segments whose SEGEND is among these reports, in their order (R136). -/
def acknowledgedSegments : List (Nat × Report) → List Nat
  | [] => []
  | (_, .segment (.tail n)) :: rest => n :: acknowledgedSegments rest
  | (_, .segment (.head _)) :: rest => acknowledgedSegments rest
  | (_, .segment (.data _ _ _ _ _)) :: rest => acknowledgedSegments rest
  | (_, .event _) :: rest => acknowledgedSegments rest

/-- Releases segments one after another (R45). -/
def releaseAll : List Nat → State → State
  | [], s => s
  | n :: ns, s => releaseAll ns (releaseSegment n s)

/-- The resend mark after the removal of the oldest reports: kept if its report is still there, else the oldest (R136). -/
def resendAfter (mark : Option Nat) (left : List (Nat × Report)) : Option Nat :=
  match mark with
  | none => none
  | some m => if left.any (fun x => decide (x.1 = m)) then some m else left.head?.map Prod.fst

/-- The oldest `count` reports leave the outstanding list; their segments are released (R136, steps 1 and 2). -/
def removeAcked (count : Nat) (s : State) : State :=
  releaseAll (acknowledgedSegments (s.rpe.outstanding.take count))
    (s.setRpe { s.rpe with
      outstanding := s.rpe.outstanding.drop count,
      resend := resendAfter s.rpe.resend (s.rpe.outstanding.drop count) })

/-- LKI after an advancing ACK: retry count 0, and in OPEN the timer restarts or stops (R170). -/
def ackAdvanced (outstandingLeft : Bool) (l : Lki) : Lki :=
  match l.session with
  | .open => { l with retry := 0, ackTimer := if outstandingLeft then some l.ackTimeout else none }
  | .closed | .stalled => { l with retry := 0 }

/-- The grant is added to credit (R135). -/
def addGrant (grant : Nat) (s : State) : State := s.setRpe { s.rpe with credit := satAdd 255 s.rpe.credit grant }

/-- RPE and LKI take an ACK (R135, R136, R170). -/
def takeAck (seq grant : Nat) (s : State) : State :=
  let s1 := addGrant grant s
  match classify s1.rpe seq with
  | .stale => s1
  | .bad => s1.setLki (raiseNotice .badack 0 s1.lki)
  | .advancing count =>
    let s2 := removeAcked count s1
    s2.setLki (ackAdvanced (!s2.rpe.outstanding.isEmpty) s2.lki)

/-- ACK: the oldest accepted frame, an ACK, is taken by RPE (R153, R135). -/
def ackStep (s : State) : State :=
  match s.lki.accepted with
  | .ack seq grant :: rest => takeAck seq grant (s.setLki { s.lki with accepted := rest })
  | .command _ :: _ => s
  | [] => s

def execAck (s : State) : Host.Outcome State Fault Refusal := .next (ackStep s)

/-! ## The delivery engine (R137 to R139) -/

/-- The pending queue has room for a segment report (R129). -/
def segmentFits (r : Rpe) : Bool := eventFits r && decide (pendingSegments r < Config.segmentPlaces)

/-- The segment that the engine would deliver next (R138). -/
def chooseSegment (s : State) : Option Nat :=
  match s.rpe.fetch with
  | n :: _ =>
    if s.sgm.table.any (isSegment .complete n) then some n else none
  | [] =>
    match s.sgm.settings.deliveryMode with
    | .auto => (s.sgm.table.find? (fun d => decide (d.state = .complete))).map Descriptor.number
    | .fetch => none

/-- The segment whose delivery can start now: slot free, session OPEN, a segment chosen, room for its SEGHEAD (R137). -/
def startable (s : State) : Option Nat :=
  if s.rpe.slot = none ∧ s.lki.session = .open ∧ segmentFits s.rpe then chooseSegment s else none

/-- Steps 2 and 3 of a delivery start: SENDING, out of the fetch queue, into the slot (R137, R44). -/
def startDelivery (n : Nat) (s : State) : State :=
  let s1 := moveSegment n .complete .sending s
  s1.setRpe { s1.rpe with fetch := s1.rpe.fetch.filter (fun m => decide (m ≠ n)), slot := some (n, .head) }

/-- The first slot of the span of chunk `c` (R1). -/
def spanFirst (d : Descriptor) (c : Nat) : Nat := if c = 0 then d.firstOffset else 0

/-- The last slot of the span of chunk `c` (R1). -/
def spanLast (d : Descriptor) (c : Nat) : Nat :=
  if c + 1 = d.pages.length then (d.firstOffset + storedLength d - 1) % 32 else 31

/-- The report at a delivery position (R139). -/
def reportAt (d : Descriptor) (pos : DeliveryPos) : SegReport :=
  match pos with
  | .head => .head d.number
  | .data c => .data d.number c (d.pages.getD c 0) (spanFirst d c) (spanLast d c)
  | .tail => .tail d.number

/-- The delivery position after one (R139); none after SEGEND. -/
def nextPos (d : Descriptor) (pos : DeliveryPos) : Option DeliveryPos :=
  match pos with
  | .head => if d.pages.isEmpty then some .tail else some (.data 0)
  | .data c => if c + 1 < d.pages.length then some (.data (c + 1)) else some .tail
  | .tail => none

/-- The engine queues the report at the position; after SEGEND the segment is SENT and the slot free (R139). -/
def queueSegmentReport (n : Nat) (pos : DeliveryPos) (d : Descriptor) (s : State) : State :=
  let r := { s.rpe with queue := s.rpe.queue ++ [Report.segment (reportAt d pos)] }
  match nextPos d pos with
  | some next => s.setRpe { r with slot := some (n, next) }
  | none => (moveSegment n .sending .sent s).setRpe { r with slot := none }

/-- The engine goes on while reports fit, and starts the next delivery when the slot becomes free (R137, R139; DEDUCED,
log entry 9). -/
def runEngine : Nat → State → State
  | 0, s => s
  | fuel + 1, s =>
    match s.rpe.slot with
    | some (n, pos) =>
      if segmentFits s.rpe then
        match segmentIn .sending n s with
        | some d => runEngine fuel (queueSegmentReport n pos d s)
        | none => s
      else s
    | none =>
      match startable s with
      | some n => runEngine fuel (startDelivery n s)
      | none => s

/-- As many rounds as the engine can need: each start is followed by a report, and 48 reports fill the queue. -/
def engineFuel : Nat := 100

/-- DELIVERY_START (R137, R138). -/
def deliveryStartStep (s : State) : State :=
  match s.rpe.slot with
  | none => runEngine engineFuel s
  | some _ => s

def execDeliveryStart (s : State) : Host.Outcome State Fault Refusal := .next (deliveryStartStep s)

/-- DELIVERY_QUEUE (R139). -/
def deliveryQueueStep (s : State) : State :=
  match s.rpe.slot with
  | none => s
  | some _ => runEngine engineFuel s

def execDeliveryQueue (s : State) : Host.Outcome State Fault Refusal := .next (deliveryQueueStep s)

/-! ## SFETCH (R144) -/

def ownSfetch (args : List Byte) (s : State) : Answer × State :=
  match segmentNumbered (leNat args) s with
  | none => (refuse .noent, s)
  | some d =>
    if d.state ≠ .complete then (refuse .state, s)
    else if s.rpe.fetch.contains (leNat args) then (okWith [byte1 s.rpe.fetch.length], s)
    else if Config.fetchPlaces ≤ s.rpe.fetch.length then (refuse .busy, s)
    else
      (okWith [byte1 (s.rpe.fetch.length + 1)],
        s.setRpe { s.rpe with fetch := s.rpe.fetch ++ [leNat args] })

def execSfetch (s : State) : Host.Outcome State Fault Refusal := .next (dealWith 0x51 (argCount 2) false ownSfetch s)

/-! ## SDROP (R42) -/

def ownSdrop (args : List Byte) (s : State) : Answer × State :=
  match segmentNumbered (leNat args) s with
  | none => (refuse .noent, s)
  | some d =>
    match d.state with
    | .filling => (refuse .state, s)
    | .complete => (okWith [], discardFirst (hasNumber (leNat args)) .dropped s)
    | .sending | .sent => (refuse .indelivery, s)

def execSdrop (s : State) : Host.Outcome State Fault Refusal := .next (dealWith 0x52 (argCount 2) false ownSdrop s)

/-! ## SLIST (R198) -/

/-- A segment's summary in the SLIST form (R205). -/
def summaryBytes (d : Descriptor) : List Byte :=
  leBytes 2 d.number ++ [byte1 d.state.code, byte1 d.primaryRule] ++ leBytes 2 (storedLength d) ++ [d.flags.toByte]

/-- The SLIST form (R205). -/
def slistFields (table : List Descriptor) : List Byte := byte1 table.length :: table.flatMap summaryBytes

def ownSlist (_args : List Byte) (s : State) : Answer × State := (okWith (slistFields s.sgm.table), s)

def execSlist (s : State) : Host.Outcome State Fault Refusal := .next (dealWith 0x50 (argCount 0) false ownSlist s)

/-! ## TRGOUT_PULSE_EXPIRY (R47) -/

/-- TRGOUT goes low when its timer expires; with the timer stopped the expiry does not come (R47). -/
def pulseExpiryStep (s : State) : State :=
  match s.sgm.pulseTimer with
  | none => s
  | some _ => s.setSgm { s.sgm with trgout := false, pulseTimer := none }

def execTrgoutPulseExpiry (s : State) : Host.Outcome State Fault Refusal := .next (pulseExpiryStep s)

end Sys2Proof.Machine
end

