-- ==== Sys2Proof/Machine/Link.lean ====
section
/-! DEFINITION. The Link Interface (chapter 8): the receiver, the gap timer and the break, the transmitter, the ack timer,
and the session commands HELLO, BYE and REPLAY. -/

namespace Sys2Proof.Machine

/-! ## The receiver (R151 to R154) -/

/-- The receiver returns to HUNT: no frame is being assembled and the gap timer stops. -/
def toHunt (l : Lki) : Lki := { l with rx := .hunt, buffer := [], gapTimer := none }

/-- The receiver goes on with the frame: the byte is in the buffer and the gap timer restarts (R152, R155). -/
def onward (phase : RxPhase) (b : Byte) (l : Lki) : Lki :=
  { l with rx := .assembling phase, buffer := l.buffer ++ [b], gapTimer := some Config.gapLimit }

/-- Byte `i` of the frame being assembled: kind 1, tag 2, length 3 (R201). -/
def frameByte (i : Nat) (l : Lki) : Byte := l.buffer.getD i 0

/-- The tag a notice on the frame being assembled carries: the tag byte of a COMMAND frame if it has arrived, else 0
(R152, R155, R158). -/
def noticeTag (l : Lki) : Byte :=
  match l.buffer[1]?, l.buffer[2]? with
  | some k, some t => if k = kindCommand then t else 0
  | _, _ => 0

/-- A frame is given up with a notice (R152, R153, R155). -/
def giveUp (reason : NoticeReason) (tag : Byte) (l : Lki) : Lki := raiseNotice reason tag (toHunt l)

/-- The payload length is within the range of the frame's kind (R152). -/
def lengthInRange (kind len : Byte) : Bool :=
  if kind = kindCommand then decide (len.toNat ≤ 250) else decide (len.toNat = 2)

/-- The payload of the frame in a buffer of sync, kind, tag, length and payload. -/
def framePayload (buffer : List Byte) : List Byte := (buffer.drop 4).take (buffer.getD 3 0).toNat

/-- What an accepted frame is handed on as (R153): a COMMAND with its tag and payload, an ACK with its two bytes. -/
def acceptedFrame (buffer : List Byte) : Accepted :=
  if buffer.getD 1 0 = kindCommand then .command ⟨buffer.getD 2 0, framePayload buffer⟩
  else .ack (buffer.getD 4 0).toNat (buffer.getD 5 0).toNat

/-- The CRC check of a complete frame, `low` being its last byte (R153, R202). -/
def checkFrame (low : Byte) (l : Lki) : Lki :=
  let n := 4 + (frameByte 3 l).toNat
  if crcBytes (crc ((l.buffer.take n).drop 1)) = [frameByte n l, low] then
    toHunt { l with accepted := l.accepted ++ [acceptedFrame l.buffer] }
  else giveUp .crc (noticeTag l) l

/-- A byte in a phase of ASSEMBLING (R152). -/
def assembleByte (phase : RxPhase) (b : Byte) (l : Lki) : Lki :=
  match phase with
  | .kind => if b = kindCommand ∨ b = kindAck then onward .tag b l else giveUp .kind 0 l
  | .tag => onward .length b l
  | .length =>
    if lengthInRange (frameByte 1 l) b then onward (if b = 0 then .crc1 else .payload) b l
    else giveUp .length (noticeTag l) l
  | .payload =>
    onward (if l.buffer.length + 1 = 4 + (frameByte 3 l).toNat then .crc1 else .payload) b l
  | .crc1 => onward .crc2 b l
  | .crc2 => checkFrame b l

/-- A byte at the receiver (R151, R152). -/
def receiveByte (b : Byte) (l : Lki) : Lki :=
  match l.rx with
  | .hunt => if b = syncByte then { l with rx := .assembling .kind, buffer := [b], gapTimer := some Config.gapLimit } else l
  | .assembling phase => assembleByte phase b l

/-- RECEIVED_BYTE; HRX is not sampled during start-up (R207, R208). -/
def execReceivedByte (b : Byte) (s : State) : Host.Outcome State Fault Refusal :=
  if s.power = .startUp then .next s else .next (s.setLki (receiveByte b s.lki))

/-! ## Break and gap (R155, R156) -/

/-- BREAK: a partial frame is discarded without a notice (R156). -/
def execLineBreak (s : State) : Host.Outcome State Fault Refusal :=
  if s.power = .startUp then .next s
  else
    match s.lki.rx with
    | .hunt => .next s
    | .assembling _ => .next (s.setLki (toHunt s.lki))

/-- GAP_TIMER_EXPIRY: the partial frame is discarded with notice GAP; with the timer stopped it does not come (R155). -/
def gapExpiryStep (s : State) : State :=
  match s.lki.gapTimer with
  | none => s
  | some _ => s.setLki (giveUp .gap (noticeTag s.lki) s.lki)

def execGapTimerExpiry (s : State) : Host.Outcome State Fault Refusal := .next (gapExpiryStep s)

/-! ## The transmitter (R132 to R134, R160, R161) -/

/-- What RPE offers the transmitter (R132). -/
inductive Offer where
  | nothing
  | retransmission (seq : Nat) (r : Report)
  | first (r : Report)
  deriving DecidableEq, Repr

/-- A first transmission is offered: something pending, room in the window, and credit (R132, step 3). -/
def offerFirst (r : Rpe) : Offer :=
  match r.queue with
  | [] => .nothing
  | p :: _ => if r.outstanding.length < Config.window ∧ 1 ≤ r.credit then .first p else .nothing

/-- RPE's offer (R132). -/
def offerReport (session : Session) (r : Rpe) : Offer :=
  match session with
  | .closed | .stalled => .nothing
  | .open =>
    match r.resend with
    | none => offerFirst r
    | some m =>
      match r.outstanding.find? (fun x => decide (x.1 = m)) with
      | some x => .retransmission m x.2
      | none => .nothing

/-- The sequence number of the report after the one numbered `m` (R134). -/
def seqAfter (m : Nat) : List (Nat × Report) → Option Nat
  | [] => none
  | x :: xs => if x.1 = m then xs.head?.map Prod.fst else seqAfter m xs

/-- RPE after a retransmission: the mark moves to the next newer report (R134). -/
def rpeRetransmitted (m : Nat) (r : Rpe) : Rpe := { r with resend := seqAfter m r.outstanding }

/-- RPE after the first transmission of the head of its queue (R133), with the LOST report that the freed entry lets in
(R131). -/
def rpeFirstSent (p : Report) (r : Rpe) : Rpe :=
  rpeQueueLost
    { r with
      queue := r.queue.tail, outstanding := r.outstanding ++ [(r.nextSeq, p)], nextSeq := wrapInc 256 r.nextSeq,
      credit := r.credit - 1 }

/-- A frame begins on the line. -/
def beginFrame (source : TxSource) (bytes : List Byte) (s : State) : State :=
  s.setLki { s.lki with tx := some ⟨source, bytes⟩ }

/-- The ack timer starts when the first transmission makes the outstanding list non-empty (R133, R166). -/
def startAckTimer (wasEmpty : Bool) (s : State) : State :=
  if wasEmpty then s.setLki { s.lki with ackTimer := some s.lki.ackTimeout } else s

/-- The transmitter takes what RPE offers; a segment report's content is read now (R132 to R134, R161). -/
def sendReport (s : State) : Host.Outcome State Fault Refusal :=
  match offerReport s.lki.session s.rpe with
  | .nothing => .next s
  | .retransmission m r =>
    match reportPayload s r with
    | none => .fault .danglingReport
    | some p =>
      .next (beginFrame (.report m r) (frameBytes kindReport (byte1 m) p) (s.setRpe (rpeRetransmitted m s.rpe)))
  | .first r =>
    match reportPayload s r with
    | none => .fault .danglingReport
    | some p =>
      .next (startAckTimer s.rpe.outstanding.isEmpty
        (beginFrame (.report s.rpe.nextSeq r) (frameBytes kindReport (byte1 s.rpe.nextSeq) p)
          (s.setRpe (rpeFirstSent r s.rpe))))

/-- The idle transmitter chooses: a notice, then the oldest reply, then a report; else it stays idle (R160). -/
def chooseFrame (s : State) : Host.Outcome State Fault Refusal :=
  match s.lki.notice with
  | some n =>
    .next (beginFrame (.notice n) (frameBytes kindNotice 0 (noticePayload n)) (s.setLki { s.lki with notice := none }))
  | none =>
    match s.lki.replies with
    | r :: rest =>
      .next (beginFrame (.reply r) (frameBytes kindReply r.tag (replyPayload r)) (s.setLki { s.lki with replies := rest }))
    | [] => sendReport s

/-- TRANSMIT_FRAME_START: the transmitter chooses when it is idle, and not between the RESET reply's last byte and the
reset (R160, R172). -/
def execTransmitFrameStart (s : State) : Host.Outcome State Fault Refusal :=
  if s.lki.tx = none ∧ s.lki.resetDue = false then chooseFrame s else .next s

/-- The frame on the line is the RESET reply whose end brings the reset (R172, R185). -/
def sendingResetReply (s : State) : Bool :=
  s.cmp.resetHold &&
    (match s.lki.tx with
      | some ⟨.reply r, _⟩ => decide (r.code = 0x05) && decide (r.result = .ok)
      | _ => false)

/-- FRAME_END: the frame on the line ends and the transmitter chooses the next; after the RESET reply it waits for the
reset (R160, R172). With the transmitter idle no frame ends. -/
def execFrameEnd (s : State) : Host.Outcome State Fault Refusal :=
  if s.lki.tx = none then .next s
  else if sendingResetReply s then .next (s.setLki { s.lki with tx := none, resetDue := true })
  else chooseFrame (s.setLki { s.lki with tx := none })

/-! ## The ack timer (R166, R167) -/

/-- ACK_TIMER_EXPIRY: the retry count rises; a go-back, or at 4 the stall. With the timer stopped it does not come (R167). -/
def ackTimerExpiryStep (s : State) : State :=
  match s.lki.ackTimer with
  | none => s
  | some _ =>
    if s.lki.retry + 1 < 4 then
      (s.setRpe (setResend s.rpe)).setLki { s.lki with retry := s.lki.retry + 1, ackTimer := some s.lki.ackTimeout }
    else s.setLki { s.lki with retry := 4, ackTimer := none, session := .stalled }

def execAckTimerExpiry (s : State) : Host.Outcome State Fault Refusal := .next (ackTimerExpiryStep s)

/-! ## Sessions (R163, R164, R169) -/

/-- HELLO with FLUSH (R163). -/
def helloFlush (a : HelloArgs) (s : State) : State :=
  flushReports a.credit
    (s.setLki { s.lki with ackTimeout := 20 * a.steps, ackTimer := none, retry := 0, session := .open })

/-- The ack timer after HELLO with KEEP or REPLAY: it starts if reports are outstanding, else it is stopped (R163, R169). -/
def timerIfOutstanding (timeout : Nat) (r : Rpe) : Option Nat := if r.outstanding = [] then none else some timeout

/-- HELLO with KEEP (R146, R163). -/
def helloKeep (a : HelloArgs) (s : State) : State :=
  { s with
    rpe := { setResend s.rpe with credit := a.credit },
    lki := { s.lki with
      ackTimeout := 20 * a.steps, retry := 0, session := .open,
      ackTimer := timerIfOutstanding (20 * a.steps) s.rpe } }

/-- The result fields of HELLO: outstanding count and next sequence number (R180). -/
def helloFields (r : Rpe) : List Byte := [byte1 r.outstanding.length, byte1 r.nextSeq]

def ownHello (args : List Byte) (s : State) : Answer × State :=
  match args with
  | [choice, steps, credit] =>
    match readHello choice steps credit with
    | none => (refuse .badarg, s)
    | some a =>
      let s1 := if a.keep then helloKeep a s else helloFlush a s
      (okWith (helloFields s1.rpe), s1)
  | _ => (refuse .badlen, s)

def execHello (s : State) : Host.Outcome State Fault Refusal := .next (dealWith 0x01 (argCount 3) true ownHello s)

/-- BYE in OPEN or STALLED (R164). -/
def ownBye (_args : List Byte) (s : State) : Answer × State :=
  (okWith [], flushReports 0 (s.setLki { s.lki with ackTimer := none, retry := 0, session := .closed }))

def execBye (s : State) : Host.Outcome State Fault Refusal := .next (dealWith 0x02 (argCount 0) false ownBye s)

/-- REPLAY in OPEN or STALLED (R169); the reply carries the outstanding count (R182). -/
def ownReplay (_args : List Byte) (s : State) : Answer × State :=
  (okWith [byte1 s.rpe.outstanding.length],
    { s with
      rpe := setResend s.rpe,
      lki := { s.lki with
        session := .open, retry := 0, ackTimer := timerIfOutstanding s.lki.ackTimeout s.rpe } })

def execReplay (s : State) : Host.Outcome State Fault Refusal := .next (dealWith 0x60 (argCount 0) false ownReplay s)

end Sys2Proof.Machine
end

