-- ==== Sys2Proof/Machine/Power.lean ====
section
/-! DEFINITION. Power-on, the end of start-up, and the reset that follows the RESET reply (R172, R185, R207 to R209). -/

namespace Sys2Proof.Machine

/-- Every block at its power-on state (R20, R49, R74, R93, R115, R126, R147, R172, R200), with the link rate and slot
contents given. The TRGIN line and the waiting steps are not the part's to reset. -/
def resetBlocks (power : Power) (rate : LinkRate) (slots : SlotMem) (s : State) : State :=
  { power := power, trgin := s.trgin, powerOns := s.powerOns, sst := Sst.reset slots, sgm := Sgm.reset,
    tgm := Tgm.reset, sct := Sct.reset, aqs := Aqs.reset, cvp := Cvp.reset, rpe := Rpe.reset, lki := Lki.reset rate,
    cmp := Cmp.reset, pending := s.pending }

/-- POWER_ON: the straps fix the link rate, the slots are unknown, and start-up begins (R150, R207, R209). That the
blocks hold their power-on state from here on is DEDUCED (log entry 10). -/
def powerOnStep (rate1 rate0 : Bool) (s : State) : State :=
  resetBlocks .startUp (LinkRate.ofStraps rate1 rate0) [] { s with powerOns := s.powerOns + 1 }

def execPowerOn (rate1 rate0 : Bool) (s : State) : Host.Outcome State Fault Refusal :=
  .next (powerOnStep rate1 rate0 s)

/-- START_UP_END: every block holds its power-on state and the part takes events; outside start-up no interval ends
(R207, R208). -/
def startUpEndStep (s : State) : State :=
  match s.power with
  | .startUp => resetBlocks .ready s.lki.rate s.sst.slots s
  | .ready => s

def execStartUpEnd (s : State) : Host.Outcome State Fault Refusal := .next (startUpEndStep s)

/-- The last byte of the RESET reply's frame has been sent, or is sent with this step (R172; DESIGN CHOICE, log entry
11). -/
def resetDueNow (s : State) : Bool := s.lki.resetDue || sendingResetReply s

/-- RESET_TAKES_EFFECT: every block takes its power-on state but for the link rate; slot contents stay (R20, R172, R185,
R209). With no RESET reply sent it does not come. -/
def resetTakesEffectStep (s : State) : State :=
  if resetDueNow s then resetBlocks s.power s.lki.rate s.sst.slots s else s

def execResetTakesEffect (s : State) : Host.Outcome State Fault Refusal := .next (resetTakesEffectStep s)

end Sys2Proof.Machine
end

