-- ==== Sys2Proof/Machine/Dispatch.lean ====
section
/-! DEFINITION. The meaning of every step of the part, one arm per row of spec/opcode_table.json. -/

namespace Sys2Proof.Machine

def exec (i : Instr) (s : State) : Host.Outcome State Fault Refusal :=
  match i with
  | .powerOn rate1 rate0 => Sys2Proof.Machine.execPowerOn rate1 rate0 s
  | .startUpEnd => Sys2Proof.Machine.execStartUpEnd s
  | .receivedByte b => Sys2Proof.Machine.execReceivedByte b s
  | .lineBreak => Sys2Proof.Machine.execLineBreak s
  | .gapTimerExpiry => Sys2Proof.Machine.execGapTimerExpiry s
  | .commandFrame => Sys2Proof.Machine.execCommandFrame s
  | .ack => Sys2Proof.Machine.execAck s
  | .commandTake => Sys2Proof.Machine.execCommandTake s
  | .hello => Sys2Proof.Machine.execHello s
  | .bye => Sys2Proof.Machine.execBye s
  | .replay => Sys2Proof.Machine.execReplay s
  | .ident => Sys2Proof.Machine.execIdent s
  | .status => Sys2Proof.Machine.execStatus s
  | .reset => Sys2Proof.Machine.execReset s
  | .resetTakesEffect => Sys2Proof.Machine.execResetTakesEffect s
  | .tclear => Sys2Proof.Machine.execTclear s
  | .tadd => Sys2Proof.Machine.execTadd s
  | .tread => Sys2Proof.Machine.execTread s
  | .tcommit => Sys2Proof.Machine.execTcommit s
  | .rset => Sys2Proof.Machine.execRset s
  | .ron => Sys2Proof.Machine.execRon s
  | .roff => Sys2Proof.Machine.execRoff s
  | .rarm => Sys2Proof.Machine.execRarm s
  | .rread => Sys2Proof.Machine.execRread s
  | .cset => Sys2Proof.Machine.execCset s
  | .cread => Sys2Proof.Machine.execCread s
  | .pset => Sys2Proof.Machine.execPset s
  | .start => Sys2Proof.Machine.execStart s
  | .stop => Sys2Proof.Machine.execStop s
  | .abort => Sys2Proof.Machine.execAbort s
  | .force => Sys2Proof.Machine.execForce s
  | .slist => Sys2Proof.Machine.execSlist s
  | .sfetch => Sys2Proof.Machine.execSfetch s
  | .sdrop => Sys2Proof.Machine.execSdrop s
  | .transmitFrameStart => Sys2Proof.Machine.execTransmitFrameStart s
  | .frameEnd => Sys2Proof.Machine.execFrameEnd s
  | .deliveryStart => Sys2Proof.Machine.execDeliveryStart s
  | .deliveryQueue => Sys2Proof.Machine.execDeliveryQueue s
  | .ackTimerExpiry => Sys2Proof.Machine.execAckTimerExpiry s
  | .paceTick => Sys2Proof.Machine.execPaceTick s
  | .converterAnswer value overRange tag => Sys2Proof.Machine.execConverterAnswer value overRange tag s
  | .conversionTimeout => Sys2Proof.Machine.execConversionTimeout s
  | .trginRisingEdge => Sys2Proof.Machine.execTrginRisingEdge s
  | .trgoutPulseExpiry => Sys2Proof.Machine.execTrgoutPulseExpiry s
  | .unknownCommand => Sys2Proof.Machine.execUnknownCommand s
  | .trginFallingEdge => Sys2Proof.Machine.execTrginFallingEdge s

end Sys2Proof.Machine
end

