-- ==== Sys2Proof/Machine/Step.lean ====
section
/-! DEFINITION. One step of the part: the step at the front of the waiting queue is taken (log entry 1). -/

namespace Sys2Proof.Machine

/-- Takes the step at the front of the waiting queue on the state with the rest of the queue; with nothing waiting the
part idles (DESIGN CHOICE, log entry 1). -/
def step (s : State) : Host.Outcome State Fault Refusal :=
  match s.pending with
  | [] => .next s
  | c :: rest => exec c (s.setPending rest)

/-- The step that a word of table bits spells goes to the front of the waiting queue; no word spells one (Decode, log
entry 18). -/
def State.withFetchWord (s : State) (nbits w : Nat) : State :=
  match decodeTableWord nbits w with
  | none => s
  | some c => s.setPending (c :: s.pending)

end Sys2Proof.Machine
end

