-- ==== Sys2Proof/Safety.lean ====
section
/-! DEFINITION. What a sound state of the part is: the invariants that the manual states of the whole part, each a
predicate on one state, and the words that the statements use (a command taken and no repeat, the values of a power-on,
the commands of the table, the reports of a segment). -/

namespace Sys2Proof.Machine

/-! ## Runs and invariants -/

/-- The steps of a list, one after another, stopping at the first that does not answer a next state. -/
def runAll : List Instr → State → Host.Outcome State Fault Refusal
  | [], s => .next s
  | c :: cs, s =>
    match exec c s with
    | .next t => runAll cs t
    | .fault r => .fault r
    | .refused r => .refused r

/-- `P` holds after every step from a state in which `Q` and `P` hold. -/
def StepKeeps (Q P : State → Prop) : Prop := ∀ s t, Q s → P s → step s = .next t → P t

/-- No premise beside the invariant itself. -/
def anyState (_s : State) : Prop := True

/-! ## The store (R3, R7, log entry 2) -/

/-- Every page is in exactly one of the pool, the ring and the page lists of the segments in use (R3). -/
def PagesPartitioned (s : State) : Prop :=
  (s.sst.pool ++ s.sst.ring ++ s.sgm.table.flatMap Descriptor.pages).Perm (List.range Config.storePages)

/-- The slot contents are held in their one form: addresses strictly rising. -/
def SlotsInForm (s : State) : Prop := slotsCanonical s.sst.slots = true

/-- The newest fill is absent exactly when the ring is empty, and else 1-32 (R7). -/
def ringFillOk (x : Sst) : Bool :=
  match x.ringFill with
  | none => x.ring.isEmpty
  | some fill => !x.ring.isEmpty && decide (1 ≤ fill) && decide (fill ≤ 32)

/-- The ring's fill count is as R7 has it. -/
def RingInForm (s : State) : Prop := ringFillOk s.sst = true

/-! ## A run of acquisition (chapters 2, 4, 5, 6) -/

/-- Acquisition is RUNNING or DRAINING. -/
def acquiring (s : State) : Bool := decide (s.aqs.state = .running) || decide (s.aqs.state = .draining)

/-- The pacer and the conversion in flight in their relation to the acquisition state (R94, R110, R116, R122). -/
structure PacingShape (s : State) : Prop where
  /-- the pacer runs in RUNNING and DRAINING and is stopped in IDLE and HALTED (R94) -/
  pacer : s.aqs.nextTick.isSome = acquiring s
  /-- no request is in flight outside RUNNING and DRAINING (R122) -/
  flight : s.cvp.inFlight.isSome = true → acquiring s = true
  /-- the conversion timer runs exactly while a request is in flight (R116) -/
  timer : s.cvp.timer.isSome = s.cvp.inFlight.isSome
  /-- the entry of the request in flight is in the active copy (R113) -/
  entry : ∀ q, s.cvp.inFlight = some q → q.entry < s.sct.active.length
  /-- in RUNNING and DRAINING the active copy is never empty (R94) -/
  table : acquiring s = true → s.sct.active ≠ []
  /-- HOLD pending waits for the record of the conversion in flight (R110) -/
  hold : s.aqs.holdPending = true → s.cvp.inFlight.isSome = true
  /-- STEP pacing knows no pass state (R94) -/
  stepPass : s.aqs.mode = .step → s.aqs.passState = .waiting ∧ s.aqs.holdPending = false
  /-- in BURST pacing a pass is CONVERTING exactly while a request is in flight (R109, R110) -/
  burstPass : s.aqs.mode = .burst → (s.aqs.passState = .converting ↔ s.cvp.inFlight.isSome = true)
  /-- between runs the pass state is WAITING (R98) -/
  idlePass : acquiring s = false → s.aqs.passState = .waiting

/-- The FILLING segment, the ring, the flags and holdoff in their relation to the acquisition state (R7, R26, R36, R86,
R87, R97). -/
structure RunShape (s : State) : Prop where
  /-- at most one segment is FILLING (R26) -/
  oneFilling : (s.sgm.table.filter isFilling).length ≤ 1
  /-- a segment is FILLING in RUNNING or DRAINING only (R43, R97) -/
  fillingRuns : (fillingSegment s).isSome = true → acquiring s = true
  /-- a segment is FILLING throughout DRAINING (R97) -/
  drainingFills : s.aqs.state = .draining → (fillingSegment s).isSome = true
  /-- the ring is empty in IDLE and HALTED and while a segment is FILLING (R7) -/
  ringRuns : s.sst.ring ≠ [] → s.aqs.state = .running ∧ fillingSegment s = none
  /-- a commit is scheduled in RUNNING and DRAINING only (R86) -/
  scheduled : s.sct.scheduled = true → acquiring s = true
  /-- a commit scheduled in RUNNING has entries to switch in (R87) -/
  schedulable : s.sct.scheduled = true → s.aqs.state = .running → s.sct.working ≠ []
  /-- FORCE is pending in RUNNING and DRAINING only (R64) -/
  force : s.aqs.forcePending = true → acquiring s = true
  /-- holdoff runs in RUNNING with no segment FILLING only (R36) -/
  holdoff : 0 < s.sgm.holdoff → s.aqs.state = .running ∧ fillingSegment s = none

/-! ## The windows of the segments (R24, R25, R31) -/

/-- The windows, counts, flags and pages of one descriptor (R24, R31, R34). -/
def descriptorOk (d : Descriptor) : Bool :=
  decide (d.preTaken ≤ d.preRequested) && decide (d.preTaken + d.postRequested ≤ d.maxLength) &&
    decide (d.maxLength ≤ 4096) && decide (d.postTaken ≤ d.postRequested) &&
    decide (d.firstOffset < 32) && decide (d.pages.length = (d.firstOffset + storedLength d + 31) / 32) &&
    decide (d.flags.shortPre = decide (d.preTaken < d.preRequested)) &&
    decide (d.flags.errsamp = decide (0 < d.errCount)) && decide (d.errCount ≤ storedLength d) &&
    decide (d.secondary.length ≤ Config.secondaryEntries) && decide (d.secondaryOverflow ≤ 255) &&
    (!isFilling d || (decide (d.postTaken < d.postRequested) && !d.flags.truncated)) &&
    (isFilling d || d.flags.truncated || decide (d.postTaken = d.postRequested)) &&
    (!d.flags.haltend || d.flags.truncated) && (!d.flags.limited || d.flags.extended)

/-- The capture settings are within their ranges (R25), and every segment in use is as R24 and R31 have it. -/
structure WindowsHold (s : State) : Prop where
  settings : captureRangesOk s.sgm.settings = true
  segments : ∀ d ∈ s.sgm.table, descriptorOk d = true

/-! ## The rules (R50, R51, R56) -/

/-- The fields of a rule are in their ranges, and absent where R50 says so. -/
def fieldsLegal (f : RuleFields) : Bool :=
  (match f.condition, f.channel with
    | .external, c => c.isNone
    | _, none => false
    | _, some c => decide (c ≤ 15)) &&
  (match f.condition, f.thresholdB with
    | .inside, some b | .outside, some b => decide (f.thresholdA < b) && decide (b ≤ 32767)
    | .inside, none | .outside, none => false
    | _, b => b.isNone) &&
  decide (-32768 ≤ f.thresholdA) && decide (f.thresholdA ≤ 32767) && decide (f.hysteresis ≤ 4095) &&
  decide (1 ≤ f.qualify) && decide (f.qualify ≤ 255) && (decide (f.condition ≠ .external) || decide (f.qualify = 1)) &&
  decide (f.priority ≤ 15)

/-- The runtime state of a rule: progress is 0 outside QUALIFYING, and in it below Q unless the rule is due; the previous
value is absent in OFF and for EXTERNAL (R51, R56, R58). -/
def runtimeLegal (r : Rule) : Bool :=
  (match r.state with
    | .off => decide (r.progress = 0) && r.previous.isNone
    | .armed | .fired => decide (r.progress = 0)
    | .qualifying =>
      decide (1 ≤ r.progress) && (decide (r.progress < r.fields.qualify) || decide (r.progress = 1 ∧ r.fields.qualify = 1))) &&
  (decide (r.fields.condition ≠ .external) || r.previous.isNone) &&
  (match r.previous with
    | none => true
    | some v => decide (-32768 ≤ v) && decide (v ≤ 32767)) &&
  decide (r.fireCount ≤ 65535)

/-- Every rule is as R50 and R51 have it. -/
def RulesLegal (s : State) : Prop := ∀ r ∈ s.tgm.rules.toList, fieldsLegal r.fields = true ∧ runtimeLegal r = true

/-! ## The report engine (R127, R129, R133, R143, R166) -/

/-- The sequence numbers of a list are consecutive modulo 256 and end one below `next` (R133). -/
def numberedUpTo (next : Nat) : List (Nat × Report) → Bool
  | [] => true
  | [x] => decide (x.1 < 256) && decide ((x.1 + 1) % 256 = next)
  | x :: y :: rest => decide (x.1 < 256) && decide ((x.1 + 1) % 256 = y.1) && numberedUpTo next (y :: rest)

/-- The queues within their bounds, and the numbering of the outstanding list (R127, R129, R133, R134). -/
structure ReportShape (s : State) : Prop where
  pending : s.rpe.queue.length ≤ Config.pendingPlaces
  share : pendingSegments s.rpe ≤ Config.segmentPlaces
  window : s.rpe.outstanding.length ≤ Config.window
  next : s.rpe.nextSeq < 256
  numbers : numberedUpTo s.rpe.nextSeq s.rpe.outstanding = true
  resend : ∀ m, s.rpe.resend = some m → m ∈ s.rpe.outstanding.map Prod.fst
  credit : s.rpe.credit ≤ 255
  lost : s.rpe.lost ≤ Config.counterMax

/-- The session, the ack timer and the retry count (R149, R162, R165, R166, R167). -/
structure SessionShape (s : State) : Prop where
  /-- the ack timer runs exactly while the session is OPEN and the outstanding list is not empty (R166) -/
  timer : s.lki.ackTimer.isSome = (decide (s.lki.session = .open) && !s.rpe.outstanding.isEmpty)
  /-- in CLOSED nothing is outstanding and no delivery is in progress (R137, R165) -/
  closed : s.lki.session = .closed → s.rpe.outstanding = [] ∧ s.rpe.slot = none
  /-- the retry count is below 4 but for a stalled session (R167) -/
  retry : s.lki.retry ≤ 4 ∧ (s.lki.retry = 4 → s.lki.session = .stalled)
  /-- the ack timeout is 20-5000 ms in steps of 20 ms (R149) -/
  timeout : 20 ≤ s.lki.ackTimeout ∧ s.lki.ackTimeout ≤ 5000 ∧ s.lki.ackTimeout % 20 = 0

/-- The fetch queue holds at most 8 numbers, distinct, each naming a COMPLETE segment (R143). -/
structure FetchShape (s : State) : Prop where
  bound : s.rpe.fetch.length ≤ Config.fetchPlaces
  distinct : s.rpe.fetch.Nodup
  complete : ∀ n ∈ s.rpe.fetch, ∃ d ∈ s.sgm.table, d.number = n ∧ d.state = .complete

/-! ## References to segments (R23, R128, R136, R137) -/

/-- The segment that a report refers to. -/
def refOf : Report → Option Nat
  | .event _ => none
  | .segment (.head n) => some n
  | .segment (.data n _ _ _ _) => some n
  | .segment (.tail n) => some n

/-- The reports of both queues, outstanding first: the order in which they leave. -/
def allReports (s : State) : List Report := s.rpe.outstanding.map Prod.snd ++ s.rpe.queue

/-- The segment with this number is in use and SENDING or SENT. -/
def InDelivery (s : State) (n : Nat) : Prop :=
  ∃ d ∈ s.sgm.table, d.number = n ∧ (d.state = .sending ∨ d.state = .sent)

/-- Segment numbers and the references to segments (R22, R23, R128, R136, R137). -/
structure ReferencesHold (s : State) : Prop where
  /-- at most 32 descriptors (R22) -/
  slots : s.sgm.table.length ≤ Config.descriptors
  /-- the numbers in use are distinct (R23) -/
  distinct : (s.sgm.table.map Descriptor.number).Nodup
  /-- the numbers and the counter are 16-bit numbers (R23) -/
  range : s.sgm.nextNumber < 65536 ∧ ∀ d ∈ s.sgm.table, d.number < 65536
  /-- a reference in either queue names a segment that is SENDING or SENT (R128) -/
  named : ∀ r ∈ allReports s, ∀ n, refOf r = some n → InDelivery s n
  /-- no report of a segment stands behind its SEGEND (R139) -/
  endLast : (allReports s).Pairwise (fun a b => ∀ n, a = .segment (.tail n) → refOf b ≠ some n)
  /-- the slot holds the SENDING segment, whose SEGEND has not been queued (R137) -/
  slot : ∀ n pos, s.rpe.slot = some (n, pos) →
    (∃ d ∈ s.sgm.table, d.number = n ∧ d.state = .sending) ∧ .segment (.tail n) ∉ allReports s
  /-- every SENDING segment is in the slot (R137) -/
  sending : ∀ d ∈ s.sgm.table, d.state = .sending → ∃ pos, s.rpe.slot = some (d.number, pos)

/-! ## The link and the command processor (R149, R159, R173) -/

/-- The assembly buffer in a phase: its sync byte, its length, and a kind and length that passed their checks (R152). -/
def assemblyOk (phase : RxPhase) (buffer : List Byte) : Bool :=
  let len := buffer.length
  let kindOk := decide (buffer.getD 1 0 = kindCommand) || decide (buffer.getD 1 0 = kindAck)
  let payload := (buffer.getD 3 0).toNat
  decide (buffer.getD 0 0 = syncByte) &&
  (match phase with
    | .kind => decide (len = 1)
    | .tag => decide (len = 2) && kindOk
    | .length => decide (len = 3) && kindOk
    | .payload =>
      decide (4 ≤ len) && decide (len < 4 + payload) && kindOk && lengthInRange (buffer.getD 1 0) (buffer.getD 3 0)
    | .crc1 => decide (len = 4 + payload) && kindOk && lengthInRange (buffer.getD 1 0) (buffer.getD 3 0)
    | .crc2 => decide (len = 5 + payload) && kindOk && lengthInRange (buffer.getD 1 0) (buffer.getD 3 0))

/-- The receiver: the gap timer runs exactly in ASSEMBLING, and the buffer fits the phase (R149, R151, R152, R155). -/
def receiverOk (l : Lki) : Bool :=
  match l.rx with
  | .hunt => l.buffer.isEmpty && l.gapTimer.isNone
  | .assembling phase => decide (l.gapTimer = some Config.gapLimit) && assemblyOk phase l.buffer

/-- The receiver, the reply buffer, the command queue and the reply cache (R149, R159, R173, R176). -/
structure LinkShape (s : State) : Prop where
  receiver : receiverOk s.lki = true
  errors : s.lki.errors ≤ Config.counterMax
  places : placesUsed s ≤ Config.replyPlaces
  queue : s.cmp.queue.length ≤ Config.queuePlaces
  cache : ∀ tag r, s.cmp.cache = some (tag, r) → tag ≠ 0 ∧ r.tag = tag

/-! ## The values of a power-on and of RESET -/

/-- What the reset tables of the manual list, but for the link rate and the slot contents: store (R20), segments (R49),
rules (R74), scan table (R93), sequencer (R115), converter port (R126), reports (R147), link (R172), commands (R200). -/
structure PowerOnValues (s : State) : Prop where
  store : s.sst.pool = List.range 256 ∧ s.sst.ring = [] ∧ s.sst.ringFill = none ∧ s.sst.targetSize = 9 ∧
    s.sst.watermark = .above ∧ s.sst.historyLoss = 0
  segments : s.sgm.table = [] ∧ s.sgm.nextNumber = 0 ∧ s.sgm.holdoff = 0 ∧ s.sgm.noDescriptor = 0 ∧
    s.sgm.trgout = false ∧ s.sgm.pulseTimer = none
  settings : s.sgm.settings =
    { preRequested := 256, postRequested := 768, maxLength := 1024, retrigger := .count, exhaustion := .truncate,
      captureMode := .continuous, deliveryMode := .auto, holdoff := 0, pulseWidth := 10, lowWatermark := 16 }
  rules : ∀ r ∈ s.tgm.rules.toList,
    r.fields =
      { condition := .above, channel := some 0, thresholdA := 0, thresholdB := none, hysteresis := 0, qualify := 1,
        priority := 0, rearm := .auto, action := .capture } ∧
      r.state = .off ∧ r.progress = 0 ∧ r.previous = none ∧ r.fireCount = 0
  latch : s.tgm.latch = false ∧ s.tgm.lastLine = false
  scanTable : s.sct.working = [] ∧ s.sct.active = [] ∧ s.sct.generation = 0 ∧ s.sct.scheduled = false
  sequencer : s.aqs.state = .idle ∧ s.aqs.reason = .none ∧ s.aqs.run = 0 ∧ s.aqs.tick = 0 ∧ s.aqs.pass = 0 ∧
    s.aqs.position = 0 ∧ s.aqs.passState = .waiting ∧ s.aqs.holdPending = false ∧ s.aqs.forcePending = false ∧
    s.aqs.missed = 0 ∧ s.aqs.mode = .step ∧ s.aqs.interval = 1000 ∧ s.aqs.nextTick = none
  converter : s.cvp.inFlight = none ∧ s.cvp.nextTag = 0 ∧ s.cvp.timer = none ∧ s.cvp.timeout = 20 ∧
    s.cvp.threshold = 3 ∧ s.cvp.consecutive = 0 ∧ s.cvp.total = 0 ∧ s.cvp.late = 0
  reports : s.rpe.queue = [] ∧ s.rpe.outstanding = [] ∧ s.rpe.nextSeq = 0 ∧ s.rpe.credit = 0 ∧ s.rpe.resend = none ∧
    s.rpe.lost = 0 ∧ s.rpe.fetch = [] ∧ s.rpe.slot = none
  link : s.lki.rx = .hunt ∧ s.lki.buffer = [] ∧ s.lki.gapTimer = none ∧ s.lki.notice = none ∧ s.lki.errors = 0 ∧
    s.lki.replies = [] ∧ s.lki.tx = none ∧ s.lki.session = .closed ∧ s.lki.ackTimeout = 500 ∧ s.lki.ackTimer = none ∧
    s.lki.retry = 0
  commands : s.cmp.queue = [] ∧ s.cmp.taken = none ∧ s.cmp.cache = none ∧ s.cmp.resetHold = false

/-! ## Commands -/

/-- CMP has taken the command `c`, with this code and these argument bytes, and it is no repeat (R175, R176). -/
structure Taken (c : CommandFrame) (code : Byte) (args : List Byte) (s : State) : Prop where
  held : s.cmp.taken = some c
  payload : c.payload = code :: args
  fresh : cachedReply c s = none

/-- The code of a host command (the command table, section 9.3); none for the steps that are no host command. -/
def commandCode : Instr → Option Byte
  | .hello => some 0x01
  | .bye => some 0x02
  | .ident => some 0x03
  | .status => some 0x04
  | .reset => some 0x05
  | .tclear => some 0x10
  | .tadd => some 0x11
  | .tread => some 0x12
  | .tcommit => some 0x13
  | .rset => some 0x20
  | .ron => some 0x21
  | .roff => some 0x22
  | .rarm => some 0x23
  | .rread => some 0x24
  | .cset => some 0x30
  | .cread => some 0x31
  | .pset => some 0x32
  | .start => some 0x40
  | .stop => some 0x41
  | .abort => some 0x42
  | .force => some 0x43
  | .slist => some 0x50
  | .sfetch => some 0x51
  | .sdrop => some 0x52
  | .replay => some 0x60
  | .powerOn _ _ | .startUpEnd | .receivedByte _ | .lineBreak | .gapTimerExpiry | .commandFrame | .ack | .commandTake
  | .resetTakesEffect | .transmitFrameStart | .frameEnd | .deliveryStart | .deliveryQueue | .ackTimerExpiry | .paceTick
  | .converterAnswer _ _ _ | .conversionTimeout | .trginRisingEdge | .trgoutPulseExpiry | .unknownCommand
  | .trginFallingEdge => none

/-- The number of argument bytes a code must have (the command table; for TADD 1 + 4 x c, c its count byte, R177). -/
def argumentCount (code : Byte) (args : List Byte) : Nat :=
  if code = 0x11 then 1 + 4 * (args.headD 0).toNat
  else if code = 0x30 then 14
  else if code = 0x20 then 12
  else if code = 0x32 then 7
  else if code = 0x01 ∨ code = 0x12 then 3
  else if code = 0x51 ∨ code = 0x52 then 2
  else if code = 0x21 ∨ code = 0x22 ∨ code = 0x23 ∨ code = 0x24 then 1
  else 0

/-- The codes of HELLO, IDENT, STATUS and RESET, which CLOSED does not refuse (R177). -/
def takenInClosed (code : Byte) : Bool := [0x01, 0x03, 0x04, 0x05].contains code

/-! ## Forms the host sends -/

/-- The fields of a scan entry are in their ranges (R75). -/
def entryLegal (e : ScanEntry) : Bool :=
  decide (e.channel ≤ 15) && decide (e.gain ≤ 3) && decide (1 ≤ e.divider) && decide (e.divider ≤ 16) &&
    decide (e.phase < e.divider) &&
    (match e.marker with
      | none => true
      | some m => decide (1 ≤ m) && decide (m ≤ 3))

/-- The argument bytes of an RSET of these fields (R205). `chan` stands in the channel byte for EXTERNAL, and `b0`, `b1` and
the B-present bit `withB` stand in the B field for a condition without B: the rule has the part ignore them (R68). -/
def rsetArguments (index : Nat) (f : RuleFields) (chan b0 b1 : Byte) (withB : Bool) : List Byte :=
  [byte1 index, byte1 f.condition.code, (f.channel.map byte1).getD chan] ++ signedBytes f.thresholdA ++
    (f.thresholdB.map signedBytes).getD [b0, b1] ++ leBytes 2 f.hysteresis ++
    [byte1 f.qualify, byte1 f.priority, f.optionsByte ||| (if withB then 4 else 0)]

/-- The pace mode's code (R203). -/
def PaceMode.code : PaceMode → Nat
  | .step => 0 | .burst => 1

/-- The argument bytes of a PSET (R205). -/
def psetArguments (p : PsetArgs) : List Byte :=
  leBytes 4 p.interval ++ [byte1 p.mode.code, byte1 p.timeout, byte1 p.threshold]

/-! ## Delivery -/

/-- The reports of a segment in their order: SEGHEAD, SEGDATA by ascending chunk index, SEGEND (R139). -/
def segmentReports (d : Descriptor) : List Report :=
  .segment (.head d.number) ::
    ((List.range d.pages.length).map
      (fun c => .segment (.data d.number c (d.pages.getD c 0) (spanFirst d c) (spanLast d c))) ++
      [.segment (.tail d.number)])

/-- How many segment reports still fit in the pending queue (R129). -/
def segmentRoom (r : Rpe) : Nat := min (48 - r.queue.length) (40 - pendingSegments r)

/-- How many reports of the segment stand before the one at a delivery position (R139). -/
def reportsBefore (d : Descriptor) (pos : DeliveryPos) : Nat :=
  match pos with
  | .head => 0
  | .data c => c + 1
  | .tail => d.pages.length + 1

/-- The delivery position with `k` reports of the segment queued (R139). -/
def positionAfter (d : Descriptor) (k : Nat) : DeliveryPos :=
  if k = 0 then .head else if k ≤ d.pages.length then .data (k - 1) else .tail

/-- The segment manager with the segment of this number in the state `st`. -/
def withSegmentState (n : Nat) (st : SegState) (g : Sgm) : Sgm :=
  { g with table := g.table.map (fun x => if x.number = n then { x with state := st } else x) }

/-- `s` with these reports queued, and the segment with this number in the state `st`, the slot and fetch queue as given. -/
def withQueued (n : Nat) (st : SegState) (reports : List Report) (fetch : List Nat) (slot : Option (Nat × DeliveryPos))
    (s : State) : State :=
  { s with
    rpe := { s.rpe with queue := s.rpe.queue ++ reports, fetch := fetch, slot := slot },
    sgm := withSegmentState n st s.sgm }

/-- The delivery engine takes the reports of `d` from number `k` on in one step from `s` to `t` (R129, R137, R139). When they do
not all fit, as many as fit are queued, the segment is SENDING and the slot holds it with the next position. When they
all fit, they are queued, the segment is SENT and the slot is free, and the engine goes on as at a delivery start. -/
structure Delivers (d : Descriptor) (k : Nat) (fetch : List Nat) (s t : State) : Prop where
  part : segmentRoom s.rpe < d.pages.length + 2 - k →
    t = withQueued d.number .sending (((segmentReports d).drop k).take (segmentRoom s.rpe)) fetch
      (some (d.number, positionAfter d (k + segmentRoom s.rpe))) s
  whole : d.pages.length + 2 - k ≤ segmentRoom s.rpe →
    exec .deliveryStart (withQueued d.number .sent ((segmentReports d).drop k) fetch none s) = .next t ∧
      (∃ more, t.rpe.queue = s.rpe.queue ++ (segmentReports d).drop k ++ more) ∧
      { d with state := .sent } ∈ t.sgm.table
  others : ∃ table queue queued slot,
    t = { s with
      sgm := { s.sgm with table := table },
      rpe := { s.rpe with queue := queue, fetch := queued, slot := slot } }
  bounds : t.rpe.queue.length ≤ 48 ∧ pendingSegments t.rpe ≤ 40

/-! ## Replies and events, field by field -/

/-- The reply of a taken command on a state whose other effects are done: the reply joins the buffer, CMP's place is
given up, and the cache holds the reply of a tagged command and nothing after an untagged one (R176, R178, R179). -/
def replied (c : CommandFrame) (code : Byte) (result : Result) (fields : List Byte) (u : State) : State :=
  { u with
    lki := { u.lki with replies := u.lki.replies ++ [{ tag := c.tag, code := code, result := result, fields := fields }] },
    cmp := { u.cmp with
      taken := none,
      cache := if c.tag = 0 then none
        else some (c.tag, { tag := c.tag, code := code, result := result, fields := fields }) } }

/-- An event report joins the tail of the pending queue, or is counted as lost when all 48 places are taken (R129, R130). -/
def withEvent (e : EventReport) (r : Rpe) : Rpe :=
  if r.queue.length < 48 then { r with queue := r.queue ++ [.event e] } else { r with lost := min 65535 (r.lost + 1) }

/-- The store after these pages joined the pool as one return: above the low watermark the state is ABOVE again (R5, R17). -/
def withReturn (low : Nat) (pages : List Nat) (x : Sst) : Sst :=
  { x with
    pool := x.pool ++ pages,
    watermark := if pages ≠ [] ∧ low < (x.pool ++ pages).length then .above else x.watermark }

/-- The store after one page was taken (R4, R17). -/
def withTake (low : Nat) (x : Sst) : Sst :=
  { x with pool := x.pool.tail, watermark := if x.pool.tail.length ≤ low then .below else x.watermark }

/-- The report engine after one page was taken: STORELOW is queued when the take brings the state to BELOW (R17). -/
def withTakeReport (low : Nat) (x : Sst) (r : Rpe) : Rpe :=
  if x.watermark = .above ∧ x.pool.tail.length ≤ low then withEvent (.storeLow x.pool.tail.length low) r else r

/-- The entry into IDLE or HALTED from `s`, field by field (R98, R12, R91). A scheduled commit is made by it, with which the model's
count of records since a switch starts anew (log entry 19). -/
structure Entered (st : AcqState) (reason : AcqReason) (s u : State) : Prop where
  sequencer : u.aqs =
    { s.aqs with
      state := st, reason := reason, nextTick := none, passState := .waiting, holdPending := false, forcePending := false,
      pass := if s.sct.scheduled then 0 else s.aqs.pass, position := if s.sct.scheduled then 0 else s.aqs.position,
      sinceSwitch := if s.sct.scheduled then 0 else s.aqs.sinceSwitch }
  converter : u.cvp = { s.cvp with inFlight := none, timer := none }
  segments : u.sgm = { s.sgm with holdoff := 0 }
  store : u.sst = withReturn s.sgm.settings.lowWatermark s.sst.ring { s.sst with ring := [], ringFill := none }
  scanTable : u.sct =
    if s.sct.scheduled then
      { s.sct with active := s.sct.working, generation := (s.sct.generation + 1) % 65536, scheduled := false }
    else s.sct
  reports : u.rpe =
    if s.sct.scheduled then
      withEvent (.tableSwitch ((s.sct.generation + 1) % 65536) s.sct.working.length)
        (withEvent (.acqState st reason s.aqs.run s.aqs.tick) s.rpe)
    else withEvent (.acqState st reason s.aqs.run s.aqs.tick) s.rpe
  others : u.power = s.power ∧ u.trgin = s.trgin ∧ u.powerOns = s.powerOns ∧ u.tgm = s.tgm ∧ u.lki = s.lki ∧
    u.cmp = s.cmp ∧ u.pending = s.pending

/-- The discard of the segment `d` from `s`, field by field (R41): it leaves the table, its pages return to the pool
tail, its number leaves the fetch queue, and SEGDROP is queued. -/
structure Discarded (d : Descriptor) (reason : DropReason) (s u : State) : Prop where
  segments : ∃ before after, s.sgm.table = before ++ d :: after ∧ u.sgm = { s.sgm with table := before ++ after }
  store : u.sst = withReturn s.sgm.settings.lowWatermark d.pages s.sst
  reports : u.rpe =
    withEvent (.segDrop d.number reason) { s.rpe with fetch := s.rpe.fetch.filter (fun n => decide (n ≠ d.number)) }
  others : u.power = s.power ∧ u.trgin = s.trgin ∧ u.powerOns = s.powerOns ∧ u.tgm = s.tgm ∧ u.sct = s.sct ∧
    u.aqs = s.aqs ∧ u.cvp = s.cvp ∧ u.lki = s.lki ∧ u.cmp = s.cmp ∧ u.pending = s.pending

/-- A rule that START or ABORT arms afresh: enabled rules only (R73). -/
def armedAfresh (r : Rule) : Rule :=
  if r.state = .off then r else { r with state := .armed, progress := 0, previous := none }

/-- `s` with every enabled rule armed afresh and the external edge latch cleared (R73). -/
def withRulesArmed (s : State) : State :=
  { s with tgm := { s.tgm with rules := s.tgm.rules.map armedAfresh, latch := false } }

/-- The reports in this list that a flush counts: each event report 1, a LOST report what it carried (R145). -/
def flushedEvents : List Report → Nat
  | [] => 0
  | .event (.lost n) :: rest => n + flushedEvents rest
  | .event _ :: rest => 1 + flushedEvents rest
  | .segment _ :: rest => flushedEvents rest

/-- The report engine after a flush with this credit (R145): a LOST report with the whole count waits if it is above 0. -/
def flushed (credit : Nat) (r : Rpe) : Rpe :=
  { r with
    queue := if 0 < min 65535 (r.lost + flushedEvents r.queue) then
        [.event (.lost (min 65535 (r.lost + flushedEvents r.queue)))]
      else [],
    outstanding := [], nextSeq := 0, credit := credit, resend := none, slot := none, lost := 0 }

/-- The segment manager after a teardown: SENDING and SENT segments are COMPLETE again (R46). -/
def reverted (g : Sgm) : Sgm :=
  { g with
    table := g.table.map (fun d => if d.state = .sending ∨ d.state = .sent then { d with state := .complete } else d) }

/-- The items of the status record, each with its offset, size and value (R205). -/
def statusItems (s : State) : List (Nat × Nat × Nat) :=
  [(0, 1, s.aqs.state.code), (1, 1, s.aqs.reason.code), (2, 2, s.aqs.run), (4, 6, s.aqs.tick), (10, 2, s.aqs.missed),
    (12, 1, if s.aqs.forcePending then 1 else 0), (13, 2, s.sct.generation), (15, 1, s.sct.active.length),
    (16, 1, if s.sct.scheduled then 1 else 0), (17, 1, s.cvp.consecutive), (18, 2, s.cvp.total), (20, 2, s.cvp.late),
    (22, 2, s.sst.pool.length), (24, 2, s.sst.historyLoss)] ++
  [(26, 1, (s.sgm.table.filter (fun d => decide (d.state = .filling))).length),
    (27, 1, (s.sgm.table.filter (fun d => decide (d.state = .complete))).length),
    (28, 1, (s.sgm.table.filter (fun d => decide (d.state = .sending))).length),
    (29, 1, (s.sgm.table.filter (fun d => decide (d.state = .sent))).length), (30, 2, s.sgm.noDescriptor)] ++
  [(32, 1, s.rpe.queue.length), (33, 1, (s.rpe.queue.filter isSegmentReport).length),
    (34, 1, s.rpe.outstanding.length), (35, 1, s.rpe.credit), (36, 1, s.rpe.nextSeq), (37, 2, s.rpe.lost),
    (39, 1, s.rpe.fetch.length), (40, 1, if s.rpe.slot.isSome then 1 else 0), (41, 2, (s.rpe.slot.map Prod.fst).getD 0),
    (43, 1, s.lki.session.code), (44, 1, s.lki.retry), (45, 2, s.lki.errors)]

/-- Every item, given by its offset, size and value, can be read back from the bytes; a value too large for its field
is not claimed. -/
def ReadsBack (bytes : List Byte) (items : List (Nat × Nat × Nat)) : Prop :=
  ∀ item ∈ items, item.2.2 < 256 ^ item.2.1 → leNat ((bytes.drop item.1).take item.2.1) = item.2.2

/-- The fields of an event report, the report code first, each with its offset, size and value (R206). The value of
TRIGGER, which is signed, stands at offset 10. -/
def eventItems : EventReport → List (Nat × Nat × Nat)
  | .trigger rule tick entry _ outcome segment =>
    [(0, 1, 0x01), (1, 1, rule), (2, 1, outcome.code), (3, 1, entry), (4, 6, tick)] ++
      (segment.map (fun n => (12, 2, n))).toList
  | .segDrop number reason => [(0, 1, 0x05), (1, 2, number), (3, 1, reason.code)]
  | .acqState state reason run tick => [(0, 1, 0x06), (1, 1, state.code), (2, 1, reason.code), (3, 2, run), (5, 6, tick)]
  | .storeLow free watermark => [(0, 1, 0x07), (1, 1, free), (2, 1, watermark)]
  | .cvFault channel entry consecutive total =>
    [(0, 1, 0x08), (1, 1, channel), (2, 1, entry), (3, 1, consecutive), (4, 2, total)]
  | .tableSwitch generation entries => [(0, 1, 0x09), (1, 2, generation), (3, 1, entries)]
  | .lost count => [(0, 1, 0x0A), (1, 2, count)]

/-- The fields of SEGHEAD but for the flags and the secondary entries (R140, R206). -/
def headItems (d : Descriptor) : List (Nat × Nat × Nat) :=
  [(0, 1, 0x02), (1, 2, d.number), (3, 2, d.run), (5, 1, d.primaryRule), (6, 1, d.primaryPriority), (7, 6, d.triggerTick),
    (13, 1, d.triggerEntry), (14, 2, d.generation), (16, 2, d.preRequested), (18, 2, d.preTaken), (20, 2, d.postRequested),
    (22, 2, d.postTaken), (24, 2, d.maxLength), (27, 2, d.errCount), (29, 1, d.firstOffset), (30, 1, d.pages.length),
    (31, 1, d.secondary.length), (32, 1, d.secondaryOverflow)]

/-- The fields of entry `i` of the secondary firing list in SEGHEAD (R206). -/
def secondaryItems (i : Nat) (x : Secondary) : List (Nat × Nat × Nat) :=
  [(33 + 4 * i, 1, x.rule), (34 + 4 * i, 2, x.offset), (36 + 4 * i, 1, x.outcome.code)]

/-- The fields of SEGDATA before its records (R141, R206). -/
def dataItems (d : Descriptor) (chunk count : Nat) : List (Nat × Nat × Nat) :=
  [(0, 1, 0x03), (1, 2, d.number), (3, 1, chunk), (4, 1, count), (5, 1, d.pages.length)]

/-- The fields of SEGEND but for the flags (R142, R206). -/
def tailItems (d : Descriptor) : List (Nat × Nat × Nat) :=
  [(0, 1, 0x04), (1, 2, d.number), (3, 2, d.preTaken + d.postTaken), (5, 2, d.errCount)]

/-- The segment flags as the bits of one byte (R203). -/
def segmentFlagBits (f : SegFlags) : List Bool :=
  [f.shortPre, f.truncated, f.extended, f.limited, f.overrun, f.errsamp, f.haltend, false]

/-! ## Ticks -/

/-- What every pace tick does: the next tick time moves on by the interval, the tick counter rises, and in RUNNING holdoff
remaining falls (R36, R103, R104). -/
def ticked (t : Nat) (s : State) : State :=
  { s with
    aqs := { s.aqs with nextTick := some (t + s.aqs.interval), tick := (s.aqs.tick + 1) % 2 ^ 48 },
    sgm := { s.sgm with holdoff := if s.aqs.state = .running then s.sgm.holdoff - 1 else s.sgm.holdoff } }

/-- A conversion of the entry `e` with index `i` has been asked for, and the entry position is past it (R103, R106, R117). -/
def asked (i : Nat) (e : ScanEntry) (s : State) : State :=
  { s with
    cvp := { s.cvp with
      inFlight := some { entry := i, channel := e.channel, gain := e.gain, tag := s.cvp.nextTag },
      nextTag := (s.cvp.nextTag + 1) % 4, timer := some s.cvp.timeout },
    aqs := { s.aqs with convTick := s.aqs.tick, position := i + 1 } }

/-- A missed tick: the count rises, and OVERRUN is set in the FILLING segment (R31, R108). -/
def missed (s : State) : State :=
  { s with
    aqs := { s.aqs with missed := min 65535 (s.aqs.missed + 1) },
    sgm := { s.sgm with
      table := modifyFirst isFilling (fun d => { d with flags := { d.flags with overrun := true } }) s.sgm.table } }

/-- The pass counter after one pass boundary (R79, R80). -/
def passAfter (s : State) : Nat := (s.aqs.pass + 1) % 720720

/-- A scheduled commit takes effect at a pass boundary: in RUNNING with no segment FILLING (R90). -/
def CommitDue (s : State) : Prop := s.sct.scheduled = true ∧ s.aqs.state = .running ∧ fillingSegment s = none

/-- `s` after the switch (R89); the model's count of records since it starts anew (log entry 19). -/
def switched (s : State) : State :=
  { s with
    sct := { s.sct with active := s.sct.working, generation := (s.sct.generation + 1) % 65536, scheduled := false },
    aqs := { s.aqs with pass := 0, position := 0, sinceSwitch := 0 },
    rpe := withEvent (.tableSwitch ((s.sct.generation + 1) % 65536) s.sct.working.length) s.rpe }

/-- `t` is `s` after a pass boundary: the switch is made when a scheduled commit takes effect, and else the pass counter rises,
a scheduled commit waiting on (R80, R90). -/
structure AtBoundary (s t : State) : Prop where
  switches : CommitDue s → t = switched s
  waits : ¬ CommitDue s → t = { s with aqs := { s.aqs with pass := passAfter s, position := 0 } }

/-- The first entry from index `start` on that is due on the pass is `e`, at index `j` (R79, R109). -/
def NextDue (s : State) (start j : Nat) (e : ScanEntry) : Prop :=
  start ≤ j ∧ s.sct.active[j]? = some e ∧ s.aqs.pass % e.divider = e.phase ∧
    ∀ i f, start ≤ i → i < j → s.sct.active[i]? = some f → s.aqs.pass % f.divider ≠ f.phase

/-- Pacing goes on from `s` to `t` after the record of entry `index`, which has HOLD as given (R99, R109, R110, R113): not at all
in STEP pacing or when the record has ended the run; in BURST pacing with the next due entry, with a pause before it, or
with the end of the pass. -/
structure PacingGoesOn (index : Nat) (hold : Bool) (s t : State) : Prop where
  step : s.aqs.mode = .step → t = s
  ended : acquiring s = false → t = s
  converts : s.aqs.mode = .burst → acquiring s = true → hold = false →
    ∀ j e, NextDue s (index + 1) j e → t = asked j e s
  pauses : s.aqs.mode = .burst → acquiring s = true → hold = true →
    ∀ j e, NextDue s (index + 1) j e → t = { s with aqs := { s.aqs with passState := .paused, position := j } }
  passEnds : s.aqs.mode = .burst → acquiring s = true → (∀ j e, ¬ NextDue s (index + 1) j e) →
    AtBoundary { s with aqs := { s.aqs with passState := .waiting } } t

/-- The `k`-th entry that a search in STEP pacing from the entry position examines: its index in a table of `n` entries. -/
def examinedIndex (s : State) (n k : Nat) : Nat :=
  if s.aqs.position + k < n then s.aqs.position + k else s.aqs.position + k - n

/-- The pass counter against which the `k`-th entry is examined: past the last entry the next pass has begun (R106). -/
def examinedPass (s : State) (n k : Nat) : Nat := if s.aqs.position + k < n then s.aqs.pass else passAfter s

/-- The transmitter chooses the next frame at this step: it is idle and no reset is due, or a frame ends that is not the RESET
reply's (R160, R172). -/
def CanChoose (i : Instr) (s : State) : Prop :=
  (i = .transmitFrameStart ∧ s.lki.tx = none ∧ s.lki.resetDue = false) ∨
    (i = .frameEnd ∧ ∃ frame, s.lki.tx = some frame ∧
      (s.cmp.resetHold = true → ∀ tag fields, frame.source ≠ .reply ⟨tag, 0x05, .ok, fields⟩))

/-! ## Records -/

/-- What the rules see of a record with this value in this state (R52). -/
def seen (v : Int) (s : State) : Seen := { value := v, latch := s.tgm.latch, line := s.trgin }

/-- The record that an answer with the value `v` and the over-range indication `o` completes for the entry `e` (R2, R113, R118). -/
def answerRecord (q : Request) (e : ScanEntry) (v : Int) (o : Bool) (s : State) : Record :=
  { value := v, entry := q.entry, marker := e.marker.getD 0, err := false, ovr := o, hold := s.aqs.holdPending }

/-- The record that a timeout completes for the entry `e` (R119). -/
def errRecord (q : Request) (e : ScanEntry) (s : State) : Record :=
  { value := 0, entry := q.entry, marker := e.marker.getD 0, err := true, ovr := false, hold := s.aqs.holdPending }

/-- `s` after a matching answer, before its record is placed: no request, no timer, no consecutive timeout (R118), and
HOLD pending given to the record (R110). -/
def answered (s : State) : State :=
  { s with
    cvp := { s.cvp with inFlight := none, timer := none, consecutive := 0 }, aqs := { s.aqs with holdPending := false } }

/-- `s` after a timeout, before its record is placed (R119). -/
def timedOut (s : State) : State :=
  { s with
    cvp := { s.cvp with
      inFlight := none, timer := none, consecutive := s.cvp.consecutive + 1, total := min 65535 (s.cvp.total + 1) },
    aqs := { s.aqs with holdPending := false } }

/-- `s` with one more record handed to the store since the last switch (R113, step 3; log entry 19). -/
def handed (s : State) : State := { s with aqs := { s.aqs with sinceSwitch := s.aqs.sinceSwitch + 1 } }

/-- `s` after its rules have evaluated a record with the value `v` on this channel: every rule has moved, the latch is
cleared, the line is sampled, and the FORCE mark is given (R52, R113). -/
def evaluated (channel : Nat) (v : Int) (s : State) : State :=
  { s with
    tgm := { rules := s.tgm.rules.map (evaluateRule channel (seen v s)), latch := false, lastLine := s.trgin },
    aqs := { s.aqs with forcePending := false } }

/-- No rule fires on a record with the value `v` on this channel, and no FORCE is pending. -/
def NothingFires (channel : Nat) (v : Int) (s : State) : Prop :=
  s.aqs.forcePending = false ∧ ∀ r ∈ s.tgm.rules.toList, sees channel r = true → fires (seen v s) r = false

/-- The converter answers `v` for the request `q` in flight, which the scan entry `e` asked for; the part is past start-up
and `v` is a signed 16-bit number. -/
structure Answered (q : Request) (e : ScanEntry) (v : Int) (s : State) : Prop where
  ready : s.power = .ready
  flight : s.cvp.inFlight = some q
  entry : s.sct.active[q.entry]? = some e
  value : -32768 ≤ v ∧ v ≤ 32767

/-- The slots of `t` are those of `s` with the record `r` written at one address. -/
def SlotWritten (page slot : Nat) (r : Record) (s t : State) : Prop :=
  ∀ a, slotRecord t a = if a = page * 32 + slot then r else slotRecord s a

/-- `t` is `u` but for the contents of slots. -/
def SameButSlots (t u : State) : Prop := { t with sst := { t.sst with slots := u.sst.slots } } = u

/-- The segment manager with the FILLING segment changed by `f`. -/
def withFilling (f : Descriptor → Descriptor) (g : Sgm) : Sgm := { g with table := modifyFirst isFilling f g.table }

/-! ## Numbers, descriptors and pages for a segment -/

/-- `n` is the first number, counting upward with wrap from the counter, that no descriptor in use holds (R23). -/
def FirstFree (s : State) (n : Nat) : Prop :=
  (∀ d ∈ s.sgm.table, d.number ≠ n) ∧
    ∃ k, n = (s.sgm.nextNumber + k) % 65536 ∧
      ∀ j, j < k → ∃ d ∈ s.sgm.table, d.number = (s.sgm.nextNumber + j) % 65536

/-- A segment that a claimant of this priority may displace; for a page it must hold one (R40). -/
def MayBeDisplaced (priority : Nat) (forPage : Bool) (s : State) (d : Descriptor) : Prop :=
  d.state = .complete ∧ d.number ∉ s.rpe.fetch ∧ d.primaryPriority < priority ∧ (forPage = true → d.pages ≠ [])

/-- The oldest segment that may be displaced is discarded, from `s` to `u` (R40, R41). -/
def Displaced (priority : Nat) (forPage : Bool) (s u : State) : Prop :=
  ∃ before d after, s.sgm.table = before ++ d :: after ∧ MayBeDisplaced priority forPage s d ∧
    (∀ x ∈ before, ¬ MayBeDisplaced priority forPage s x) ∧ Discarded d .displaced s u ∧
    u.sgm = { s.sgm with table := before ++ after }

/-- A firing of this priority gains a descriptor, from `s` to `u`: a free one, or under DISPLACE that of a displaced segment
(R28). -/
def DescriptorGained (priority : Nat) (s u : State) : Prop :=
  (s.sgm.table.length < 32 ∧ u = s) ∨
    (32 ≤ s.sgm.table.length ∧ s.sgm.settings.exhaustion = .displace ∧ Displaced priority false s u)

/-- A claimant of this priority gains a page, from `s` to `u`: the page at the pool head, under DISPLACE after a displacement if
the pool is empty (R4, R14, R16, R17). -/
def PageGained (priority page : Nat) (s u : State) : Prop :=
  ∃ v,
    ((s.sst.pool ≠ [] ∧ v = s) ∨
      (s.sst.pool = [] ∧ s.sgm.settings.exhaustion = .displace ∧ Displaced priority true s v)) ∧
    v.sst.pool.head? = some page ∧
    u = { v with
      sst := withTake s.sgm.settings.lowWatermark v.sst,
      rpe := withTakeReport s.sgm.settings.lowWatermark v.sst v.rpe }

/-- No page can be had for a claimant of this priority: the pool is empty, and no segment may be displaced for one (R14, R38). -/
def NoPageFor (priority : Nat) (s : State) : Prop :=
  s.sst.pool = [] ∧
    (s.sgm.settings.exhaustion ≠ .displace ∨ ∀ d ∈ s.sgm.table, ¬ MayBeDisplaced priority true s d)

/-! ## The place of a record, closes and faults -/

/-- A record comes to the slot `slot` of a ring page by the first case of R8 that applies: room in the newest page, a page from
the pool, or the recycled oldest page (R9); `t` is `s` after it, but for the slot itself. -/
def RingPlaced (page slot : Nat) (s t : State) : Prop :=
  (∃ older, s.sst.ring = older ++ [page] ∧ s.sst.ringFill = some slot ∧ slot < 32 ∧
    t = { s with sst := { s.sst with ringFill := some (slot + 1) } }) ∨
  (slot = 0 ∧ (s.sst.ring = [] ∨ s.sst.ringFill = some 32) ∧ s.sst.ring.length < s.sst.targetSize ∧
    s.sst.pool.head? = some page ∧
    t = { s with
      sst := { withTake s.sgm.settings.lowWatermark s.sst with ring := s.sst.ring ++ [page], ringFill := some 1 },
      rpe := withTakeReport s.sgm.settings.lowWatermark s.sst s.rpe }) ∨
  (slot = 0 ∧ s.sst.ringFill = some 32 ∧ (s.sst.targetSize ≤ s.sst.ring.length ∨ s.sst.pool = []) ∧
    ∃ rest, s.sst.ring = page :: rest ∧ t = { s with sst := { s.sst with ring := rest ++ [page], ringFill := some 1 } })

/-- The position of the next record of a segment, counted from slot 0 of its first page (R13). -/
def placeIn (d : Descriptor) : Nat := d.firstOffset + d.preTaken + d.postTaken

/-- A record comes to the slot `slot` of a page of the FILLING segment `d`: behind its last record, or in slot 0 of a fill page
that joins the page list (R13, R14, R37); `t` is `s` after it, but for the slot itself. -/
def SegmentPlaced (d : Descriptor) (page slot : Nat) (s t : State) : Prop :=
  (d.pages[placeIn d / 32]? = some page ∧ slot = placeIn d % 32 ∧ t = s) ∨
  (d.pages.length ≤ placeIn d / 32 ∧ slot = 0 ∧
    ∃ y, PageGained d.primaryPriority page s y ∧
      t = { y with sgm := withFilling (fun x => { x with pages := x.pages ++ [page] }) y.sgm })

/-- The segment manager with the FILLING segment COMPLETE, TRUNCATED and HALTEND as a halt leaves it (R39). -/
def withHaltEnd (g : Sgm) : Sgm :=
  withFilling (fun x => { x with state := .complete, flags := { x.flags with truncated := true, haltend := true } }) g

/-- The segment manager with the FILLING segment COMPLETE, and TRUNCATED if the close is for want of a page (R34, R37). -/
def withClosed (truncated : Bool) (g : Sgm) : Sgm :=
  withFilling
    (fun x => { x with state := .complete, flags := { x.flags with truncated := x.flags.truncated || truncated } }) g

/-- The FILLING segment closes, from `s` to `t`: in RUNNING and CONTINUOUS holdoff starts; in SINGLE and in DRAINING IDLE is entered
(R34, R35, R36, R99). -/
structure Closes (truncated : Bool) (s t : State) : Prop where
  goesOn : s.aqs.state = .running → s.sgm.settings.captureMode = .continuous →
    t = { s with sgm := { withClosed truncated s.sgm with holdoff := s.sgm.settings.holdoff } }
  single : s.aqs.state = .running → s.sgm.settings.captureMode = .single →
    Entered .idle .singleDone { s with sgm := withClosed truncated s.sgm } t
  drained : s.aqs.state = .draining → Entered .idle .drained { s with sgm := withClosed truncated s.sgm } t

/-- The close check on the FILLING segment, from `s` to `t`: it closes when its post window is complete, and with TRUNCATED when it
holds no page, its trigger record being lost; under HALT that is a halt (R31, R34, R38). -/
structure CloseChecked (s t : State) : Prop where
  none : fillingSegment s = none → t = s
  fills : ∀ d, fillingSegment s = some d → d.pages ≠ [] → d.postTaken ≠ d.postRequested → t = s
  done : ∀ d, fillingSegment s = some d → d.pages ≠ [] → d.postTaken = d.postRequested → Closes false s t
  lost : ∀ d, fillingSegment s = some d → d.pages = [] → s.sgm.settings.exhaustion ≠ .halt → Closes true s t
  lostHalt : ∀ d, fillingSegment s = some d → d.pages = [] → s.sgm.settings.exhaustion = .halt → acquiring s = true →
    (s.sgm.table.filter isFilling).length ≤ 1 →
    Entered .halted .starved { s with sgm := withHaltEnd s.sgm } t

/-- `s` with the CVFAULT report of the request `q` queued (R122, step 2). -/
def withFaultReport (q : Request) (s : State) : State :=
  { s with rpe := withEvent (.cvFault q.channel q.entry s.cvp.consecutive s.cvp.total) s.rpe }

/-- The converter fault once its ERR record is stored, from `s` to `t`: CVFAULT, and then the halt, which changes nothing when the
record has ended the run (R122, R39, R100). -/
structure Faulted (q : Request) (s t : State) : Prop where
  halts : acquiring s = true →
    Entered .halted .converter { withFaultReport q s with sgm := withHaltEnd s.sgm } t
  ended : acquiring s = false → t = withFaultReport q s

/-- What follows a timeout of the entry `e` once its ERR record is stored or dropped, from `x` to `t`: the converter fault when the
consecutive count of `s` has come to the threshold, else pacing (R113, R119, R122). -/
structure TimeoutEnds (q : Request) (e : ScanEntry) (s x t : State) : Prop where
  below : s.cvp.consecutive + 1 < s.cvp.threshold → PacingGoesOn q.entry e.hold x t
  atThreshold : s.cvp.threshold ≤ s.cvp.consecutive + 1 → Faulted q x t

/-- A FILLING segment names the generation in force, and every record of it was made from that table: they are no more than were
handed to the store since the last switch (R24, R90, R92). -/
def GenerationNamed (s : State) : Prop :=
  ∀ d ∈ s.sgm.table, d.state = .filling →
    d.generation = s.sct.generation ∧ d.preTaken + d.postTaken ≤ s.aqs.sinceSwitch

/-- The segment that a SEGEND report names. -/
def segendOf : Report → Option Nat
  | .segment (.tail n) => some n
  | .segment (.head _) | .segment (.data _ _ _ _ _) | .event _ => none

end Sys2Proof.Machine
end

