-- ==== Sys2Proof/Certificates/Slice0/Obligations.lean ====
section
/-! DEFINITION. The statements about the part, in the order of the manual's chapters: the queue of steps and the resets,
the command processor, the commands of each block, the link, the report engine, acquisition, the trigger rules, and the
invariants that every step keeps. -/

section

open Sys2Proof Sys2Proof.Machine

/-! ## Steps, power-on and reset -/

/-- One step runs the command at the front of the queue on the state with the queue's rest; with an empty queue the part
idles (the model's choice, log entry 1). -/
def Obligations.StepRunsFrontCommand : Prop :=
  (∀ (s : State) (c : Instr) (rest : List Instr), s.pending = c :: rest → step s = exec c (s.setPending rest)) ∧
  ∀ s : State, s.pending = [] → step s = .next s

/-- No command touches the queue of waiting commands (the queue is the model's choice, log entry 1); only the edges move the
TRGIN line (that power-on and RESET leave it is log entry 12); only POWER_ON fixes the link rate (R150) and makes slot
contents unknown (R209; the count of power-ons is log entry 2); only POWER_ON and START_UP_END move the start-up state
(R207); and only the two completions of a conversion and POWER_ON change the contents of a slot (R1, R20). -/
def Obligations.CommandsKeepWhatIsNotTheirs : Prop :=
  ∀ (i : Instr) (s t : State), exec i s = .next t →
    t.pending = s.pending ∧
    (i ≠ .trginRisingEdge → i ≠ .trginFallingEdge → t.trgin = s.trgin) ∧
    ((∀ r1 r0, i ≠ .powerOn r1 r0) → t.powerOns = s.powerOns ∧ t.lki.rate = s.lki.rate) ∧
    ((∀ r1 r0, i ≠ .powerOn r1 r0) → i ≠ .startUpEnd → t.power = s.power) ∧
    ((∀ r1 r0, i ≠ .powerOn r1 r0) → (∀ v o g, i ≠ .converterAnswer v o g) → i ≠ .conversionTimeout →
      t.sst.slots = s.sst.slots)

/-- POWER_ON and START_UP_END complete: every block holds its power-on values, the straps fix the link rate, every slot
holds an unknown content of this power-on, and a character, a break or an answer word in start-up changes nothing (R150,
R207, R208, R209). The model's choices: that the blocks hold these values already in start-up (log entry 10), that START_UP_END
past start-up changes nothing (log entry 4), the unknown content as a free value of the power-on and the address (log entry
2), that the TRGIN line keeps its level (log entry 12), and that the waiting commands stay (log entry 1). -/
def Obligations.PowerOnGivesPowerOnValues : Prop :=
  (∀ (rate1 rate0 : Bool) (s : State), ∃ t, exec (.powerOn rate1 rate0) s = .next t ∧ PowerOnValues t ∧
    t.power = .startUp ∧ t.trgin = s.trgin ∧ t.pending = s.pending ∧
    t.lki.rate =
      (if rate1 then (if rate0 then .r2000000 else .r921600) else if rate0 then .r460800 else .r115200) ∧
    ∀ a, slotRecord t a = recordOfBits (Config.unknownSlot (s.powerOns + 1) a)) ∧
  (∀ s : State, s.power = .startUp → ∃ t, exec .startUpEnd s = .next t ∧ PowerOnValues t ∧ t.power = .ready ∧
    t.trgin = s.trgin ∧ t.pending = s.pending ∧ t.lki.rate = s.lki.rate ∧ ∀ a, slotRecord t a = slotRecord s a) ∧
  (∀ s : State, s.power = .ready → exec .startUpEnd s = .next s) ∧
  ∀ (s : State) (b : Byte) (v : Int) (o : Bool) (g : Nat), s.power = .startUp →
    exec (.receivedByte b) s = .next s ∧ exec .lineBreak s = .next s ∧ exec (.converterAnswer v o g) s = .next s

/-- The state after reset has the power-on values and meets every invariant stated below (R20, R49, R74, R93, R115, R126,
R147, R172, R200). That the slot contents are a list with rising addresses (SlotsInForm) is the model's choice (log entry
2), as is the count of records since the last switch that GenerationNamed reads (log entry 19); the reset tables say nothing
of either. -/
def Obligations.ResetMeetsTheInvariants : Prop :=
  PowerOnValues State.reset ∧ PagesPartitioned State.reset ∧ SlotsInForm State.reset ∧ RingInForm State.reset ∧
  PacingShape State.reset ∧ RunShape State.reset ∧ WindowsHold State.reset ∧ RulesLegal State.reset ∧
  ReportShape State.reset ∧ SessionShape State.reset ∧ FetchShape State.reset ∧ ReferencesHold State.reset ∧
  LinkShape State.reset ∧ GenerationNamed State.reset

/-! ## The command processor (chapter 9) -/

/-- COMMAND_FRAME completes: the oldest accepted frame, a command, joins CMP's queue while it holds fewer than 4; else it is
refused BUSY in a free reply place, with the code as received or 0; else notice DROPPED carries its tag (R174, R157, R159).
COMMAND_TAKE completes: under the four conditions of R175 CMP takes the oldest command; when one fails nothing changes.
Nothing else changes. With no accepted command at the front COMMAND_FRAME changes nothing (the model's choice, log entry 4). -/
def Obligations.AcceptedCommandsAreQueuedAndTaken : Prop :=
  ((∀ (s : State) (c : CommandFrame) (rest : List Accepted), s.lki.accepted = .command c :: rest →
     (s.cmp.queue.length < 4 →
       exec .commandFrame s =
         .next { s with lki := { s.lki with accepted := rest }, cmp := { s.cmp with queue := s.cmp.queue ++ [c] } }) ∧
     (4 ≤ s.cmp.queue.length → placesUsed s < 5 →
       exec .commandFrame s =
         .next { s with
           lki := { s.lki with
             accepted := rest,
             replies := s.lki.replies ++ [{ tag := c.tag, code := c.payload.headD 0, result := .busy, fields := [] }] } }) ∧
     (4 ≤ s.cmp.queue.length → 5 ≤ placesUsed s →
       exec .commandFrame s =
         .next { s with
           lki := { s.lki with
             accepted := rest,
             notice := some (s.lki.notice.getD { reason := .dropped, tag := c.tag }),
             errors := min 65535 (s.lki.errors + 1) } })) ∧
   ∀ s : State, (∀ c rest, s.lki.accepted ≠ .command c :: rest) → exec .commandFrame s = .next s) ∧
  ((∀ (s : State) (c : CommandFrame) (rest : List CommandFrame), s.cmp.queue = c :: rest → s.cmp.taken = none →
     s.lki.replies.length < 5 → s.cmp.resetHold = false →
     exec .commandTake s = .next { s with cmp := { s.cmp with queue := rest, taken := some c } }) ∧
   ∀ s : State, s.cmp.queue = [] ∨ s.cmp.taken ≠ none ∨ 5 ≤ s.lki.replies.length ∨ s.cmp.resetHold = true →
     exec .commandTake s = .next s)

/-- Every host command that CMP has taken completes with one reply that carries its tag and code, and nothing of the part
changes but by the owner's effect when the result is OK (R173, R178, R179). -/
def Obligations.EveryTakenCommandIsAnswered : Prop :=
  ∀ (i : Instr) (code : Byte) (c : CommandFrame) (args : List Byte) (s : State), commandCode i = some code →
    Taken c code args s → ∃ (result : Result) (fields : List Byte) (u : State),
      exec i s = .next (replied c code result fields u) ∧ (result ≠ .ok → fields = [] ∧ u = s) ∧
      u.lki.replies = s.lki.replies ∧ u.cmp.queue = s.cmp.queue

/-- The stages before the owner. A repeat, a tag other than 0 that equals the cached tag, is answered with the cached reply and is
not executed, whatever its code (R176). Then a wrong number of argument bytes is BADLEN, and in CLOSED every command but
HELLO, IDENT, STATUS and RESET is SESSION; nothing else changes (R177, R205). UNKNOWN_COMMAND completes: a code that is none
of the 25 of the command table is UNKNOWN, whatever the length and the session, and an empty payload is BADLEN with code 0
(R177). The steps for the known codes are exactly the host commands. -/
def Obligations.CommonChecksAnswerFirst : Prop :=
  (∀ (i : Instr) (c : CommandFrame) (r : Reply) (s : State), s.cmp.taken = some c → c.tag ≠ 0 →
     s.cmp.cache = some (c.tag, r) →
     ((∃ code args, commandCode i = some code ∧ c.payload = code :: args) ∨
       (i = .unknownCommand ∧ ∀ code args, c.payload = code :: args → code ∉ commandCodes)) →
     exec i s =
       .next { s with lki := { s.lki with replies := s.lki.replies ++ [r] }, cmp := { s.cmp with taken := none } }) ∧
  (∀ (i : Instr) (code : Byte) (c : CommandFrame) (args : List Byte) (s : State), commandCode i = some code →
     Taken c code args s →
     (args.length ≠ argumentCount code args → exec i s = .next (replied c code .badlen [] s)) ∧
     (args.length = argumentCount code args → s.lki.session = .closed → takenInClosed code = false →
       exec i s = .next (replied c code .session [] s))) ∧
  ((∀ (c : CommandFrame) (code : Byte) (args : List Byte) (s : State), Taken c code args s → code ∉ commandCodes →
     exec .unknownCommand s = .next (replied c code .unknown [] s)) ∧
   (∀ (c : CommandFrame) (s : State), s.cmp.taken = some c → c.payload = [] → cachedReply c s = none →
     exec .unknownCommand s = .next (replied c 0 .badlen [] s)) ∧
   (∀ code : Byte, code ∈ commandCodes ↔ ∃ i, commandCode i = some code) ∧ commandCodes.length = 25)

/-- IDENT completes in every session and acquisition state, changes nothing, and returns the fields of R183, the link rate
code following the straps with RATE1 the higher bit; with arguments it is refused BADLEN. -/
def Obligations.IdentNamesThePart : Prop :=
  (∀ (c : CommandFrame) (s : State), Taken c 0x03 [] s →
    exec .ident s =
      .next (replied c 0x03 .ok
        [0x71, 0x2C, 0x16, 0x04, 1,
          (match s.lki.rate with
            | .r115200 => 0
            | .r460800 => 1
            | .r921600 => 2
            | .r2000000 => 3),
          0, 1, 32, 32, 16, 64, 16, 48] s)) ∧
  (∀ (c : CommandFrame) (args : List Byte) (s : State), Taken c 0x03 args s → args ≠ [] →
    exec .ident s = .next (replied c 0x03 .badlen [] s)) ∧
  ∀ (rate1 rate0 : Bool) (s t : State), exec (.powerOn rate1 rate0) s = .next t →
    t.lki.rate.code = 2 * rate1.toNat + rate0.toNat

/-- STATUS completes in every session and acquisition state, changes nothing, and returns 47 bytes in which every item of the
status record can be read back at its offset (R184, R205). -/
def Obligations.StatusShowsOneMoment : Prop :=
  ∀ (c : CommandFrame) (s : State), Taken c 0x04 [] s → ∃ fields : List Byte,
    exec .status s = .next (replied c 0x04 .ok fields s) ∧ fields.length = 47 ∧
    ∀ item ∈ statusItems s, item.2.2 < 256 ^ item.2.1 →
      leNat ((fields.drop item.1).take item.2.1) = item.2.2

/-- RESET completes in every session and acquisition state: the reply is OK, the reset hold is set and nothing else changes;
then no command is taken, and the RESET reply is the last frame: at its end the transmitter starts no other (R172, R185,
R186). RESET_TAKES_EFFECT completes: when that frame has ended, or ends with this step, every block takes its power-on values,
the queue of the command processor among it, which is emptied (R186, R200), while the link rate, the slot contents and the
TRGIN level stay; before the reply is on the line, with no frame or any other frame there, it changes nothing (R172, R185,
R209). The model's choices: that FRAME_END sets a flag of the model's own by which the transmitter is held, and that
RESET_TAKES_EFFECT acts also with the reply's frame still on the line (log entry 11), that the TRGIN line keeps its level (log
entry 12), that a step whose event cannot come changes nothing (log entry 4), and that the model's own queue of waiting steps,
which is no queue of the part, keeps its steps (log entry 1). -/
def Obligations.ResetFollowsItsReply : Prop :=
  ((∀ (c : CommandFrame) (s : State), Taken c 0x05 [] s →
     exec .reset s = .next (replied c 0x05 .ok [] { s with cmp := { s.cmp with resetHold := true } })) ∧
   (∀ s : State, s.cmp.resetHold = true → exec .commandTake s = .next s) ∧
   (∀ (s : State) (r : Reply) (bytes : List Byte), s.cmp.resetHold = true → s.lki.tx = some ⟨.reply r, bytes⟩ →
     r.code = 0x05 → r.result = .ok →
     exec .frameEnd s = .next { s with lki := { s.lki with tx := none, resetDue := true } }) ∧
   ∀ s : State, s.lki.resetDue = true → exec .transmitFrameStart s = .next s) ∧
  ((∀ s : State, (s.lki.resetDue = true ∨
       (s.cmp.resetHold = true ∧ ∃ tag fields bytes, s.lki.tx = some ⟨.reply ⟨tag, 0x05, .ok, fields⟩, bytes⟩)) →
     ∃ t, exec .resetTakesEffect s = .next t ∧ PowerOnValues t ∧
     t.lki.resetDue = false ∧ t.lki.rate = s.lki.rate ∧ t.sst.slots = s.sst.slots ∧ t.powerOns = s.powerOns ∧
     t.trgin = s.trgin ∧ t.power = s.power ∧ t.pending = s.pending) ∧
   ∀ s : State, s.lki.resetDue = false →
     s.cmp.resetHold = false ∨ (∀ tag fields bytes, s.lki.tx ≠ some ⟨.reply ⟨tag, 0x05, .ok, fields⟩, bytes⟩) →
     exec .resetTakesEffect s = .next s)

/-! ## The scan table (chapter 4) -/

/-- TCLEAR completes in every acquisition state: BUSY while a commit is scheduled, else every entry leaves the working copy
and the reply is OK; the active copy, the generation and everything else stay (R83). -/
def Obligations.TclearEmptiesTheWorkingCopy : Prop :=
  ∀ (c : CommandFrame) (s : State), Taken c 0x10 [] s → s.lki.session ≠ .closed →
    (s.sct.scheduled = true → exec .tclear s = .next (replied c 0x10 .busy [] s)) ∧
    (s.sct.scheduled = false →
      exec .tclear s = .next (replied c 0x10 .ok [] { s with sct := { s.sct with working := [] } })) ∧
    (s.sct.scheduled = false → s.sct.working = [] → exec .tclear s = .next (replied c 0x10 .ok [] s))

/-- TADD completes: 1-8 entries in range join the tail of the working copy in their order, and the reply carries the new
count; nothing else changes (R82, R205). BUSY while a commit is scheduled comes first, then BADARG for a count or a field
out of range, then NOSPACE above 64 entries. -/
def Obligations.TaddAppendsEntries : Prop :=
  (∀ (c : CommandFrame) (es : List ScanEntry) (s : State),
    Taken c 0x11 (byte1 es.length :: es.flatMap entryBytes) s → s.lki.session ≠ .closed → s.sct.scheduled = false →
    1 ≤ es.length → es.length ≤ 8 → (∀ e ∈ es, entryLegal e = true) →
    (s.sct.working.length + es.length ≤ 64 →
      exec .tadd s =
        .next (replied c 0x11 .ok [byte1 (s.sct.working.length + es.length)]
          { s with sct := { s.sct with working := s.sct.working ++ es } })) ∧
    (64 < s.sct.working.length + es.length → exec .tadd s = .next (replied c 0x11 .nospace [] s))) ∧
  (∀ (c : CommandFrame) (count : Byte) (args : List Byte) (s : State), Taken c 0x11 (count :: args) s →
    s.lki.session ≠ .closed → args.length = 4 * count.toNat →
    (s.sct.scheduled = true → exec .tadd s = .next (replied c 0x11 .busy [] s)) ∧
    (s.sct.scheduled = false → count.toNat = 0 ∨ 8 < count.toNat →
      exec .tadd s = .next (replied c 0x11 .badarg [] s))) ∧
  ∀ (c : CommandFrame) (count b0 b1 b2 b3 : Byte) (before after : List Byte) (s : State),
    Taken c 0x11 (count :: (before ++ [b0, b1, b2, b3] ++ after)) s → s.lki.session ≠ .closed →
    s.sct.scheduled = false → before.length % 4 = 0 → before.length + 4 + after.length = 4 * count.toNat →
    15 < b0.toNat ∨ 3 < b1.toNat % 16 ∨ 3 < b1.toNat / 16 ∨ b2.toNat = 0 ∨ 16 < b2.toNat ∨ b2.toNat ≤ b3.toNat % 32 ∨
      128 ≤ b3.toNat →
    exec .tadd s = .next (replied c 0x11 .badarg [] s)

/-- TREAD completes, changes nothing, and returns the entry count of the named copy, the generation, the scheduled flag and
the entries from the first index on, as many as the count asks and the copy has; another copy, a first index above 63 or a
count outside 1-16 is BADARG (R84, R205). -/
def Obligations.TreadReturnsEntries : Prop :=
  (∀ (c : CommandFrame) (first count : Nat) (active : Bool) (s : State),
    Taken c 0x12 [if active then 1 else 0, byte1 first, byte1 count] s → s.lki.session ≠ .closed → first ≤ 63 →
    1 ≤ count → count ≤ 16 →
    ∃ es : List ScanEntry,
      es = (((if active then s.sct.active else s.sct.working).drop first).take count) ∧
      es.length = min count ((if active then s.sct.active else s.sct.working).length - first) ∧
      exec .tread s =
        .next (replied c 0x12 .ok
          ([byte1 (if active then s.sct.active else s.sct.working).length] ++ leBytes 2 s.sct.generation ++
            [if s.sct.scheduled then 1 else 0, byte1 es.length] ++ es.flatMap entryBytes) s)) ∧
  ∀ (c : CommandFrame) (copy first count : Byte) (s : State), Taken c 0x12 [copy, first, count] s →
    s.lki.session ≠ .closed → 1 < copy.toNat ∨ 63 < first.toNat ∨ count.toNat = 0 ∨ 16 < count.toNat →
    exec .tread s = .next (replied c 0x12 .badarg [] s)

/-- TCOMMIT completes. In IDLE or HALTED the switch is made at once: the working copy becomes the active one, the generation
rises with wrap, the pass counter and the entry position become 0, TABLESWITCH is queued, and the reply carries NOW and the
new generation (R86, R89). In RUNNING or DRAINING it is BUSY if a commit is scheduled, STATE in RUNNING with an empty working
copy, and else scheduled, with the generation in force in the reply (R87, R189).
The count of records since a switch that goes with it is the model's own (log entry 19). -/
def Obligations.TcommitSwitchesOrSchedules : Prop :=
  ∀ (c : CommandFrame) (s : State), Taken c 0x13 [] s → s.lki.session ≠ .closed →
    (s.aqs.state = .idle ∨ s.aqs.state = .halted →
      exec .tcommit s =
        .next (replied c 0x13 .ok (0 :: leBytes 2 ((s.sct.generation + 1) % 65536))
          { s with
            sct := { s.sct with
              active := s.sct.working, generation := (s.sct.generation + 1) % 65536, scheduled := false },
            aqs := { s.aqs with pass := 0, position := 0, sinceSwitch := 0 },
            rpe := withEvent (.tableSwitch ((s.sct.generation + 1) % 65536) s.sct.working.length) s.rpe })) ∧
    (s.aqs.state = .running ∨ s.aqs.state = .draining → s.sct.scheduled = true →
      exec .tcommit s = .next (replied c 0x13 .busy [] s)) ∧
    (s.aqs.state = .running → s.sct.scheduled = false → s.sct.working = [] →
      exec .tcommit s = .next (replied c 0x13 .state [] s)) ∧
    (s.aqs.state = .draining ∨ (s.aqs.state = .running ∧ s.sct.working ≠ []) → s.sct.scheduled = false →
      exec .tcommit s =
        .next (replied c 0x13 .ok (1 :: leBytes 2 s.sct.generation) { s with sct := { s.sct with scheduled := true } }))

/-! ## The commands on trigger rules (chapter 3) -/

/-- RSET completes: fields in range replace those of a rule in OFF whole, which stays OFF with progress 0, no previous value
and fire count 0; no other rule and nothing else changes (R68, R190, R205). The channel argument of EXTERNAL and the B
argument of a condition without B are ignored, whatever they hold. NOENT above index 15 comes first, then BADARG, then STATE
for a rule not in OFF. -/
def Obligations.RsetReplacesARuleInOff : Prop :=
  (∀ (c : CommandFrame) (i : Fin 16) (f : RuleFields) (chan b0 b1 : Byte) (withB : Bool) (s : State),
    Taken c 0x20 (rsetArguments i.val f chan b0 b1 withB) s → s.lki.session ≠ .closed → fieldsLegal f = true →
    (s.tgm.rules[i].state = .off →
      exec .rset s =
        .next (replied c 0x20 .ok []
          { s with tgm := { s.tgm with
              rules := s.tgm.rules.set i.val { fields := f, state := .off, progress := 0, previous := none, fireCount := 0 } } })) ∧
    (s.tgm.rules[i].state ≠ .off → exec .rset s = .next (replied c 0x20 .state [] s))) ∧
  (∀ (c : CommandFrame) (index : Byte) (args : List Byte) (s : State), Taken c 0x20 (index :: args) s →
    s.lki.session ≠ .closed → args.length = 11 → 15 < index.toNat → exec .rset s = .next (replied c 0x20 .noent [] s)) ∧
  ∀ (c : CommandFrame) (index cond chan a0 a1 b0 b1 h0 h1 q prio opts : Byte) (s : State),
    Taken c 0x20 [index, cond, chan, a0, a1, b0, b1, h0, h1, q, prio, opts] s → s.lki.session ≠ .closed →
    index.toNat ≤ 15 →
    6 < cond.toNat ∨ (cond.toNat ≠ 6 ∧ 15 < chan.toNat) ∨ 4095 < leNat [h0, h1] ∨ q.toNat = 0 ∨
      (cond.toNat = 6 ∧ q.toNat ≠ 1) ∨ 15 < prio.toNat ∨ 8 ≤ opts.toNat ∨
      ((cond.toNat = 4 ∨ cond.toNat = 5) ∧ (opts.getLsbD 2 = false ∨ signedOf [b0, b1] ≤ signedOf [a0, a1])) →
    exec .rset s = .next (replied c 0x20 .badarg [] s)

/-- RON, ROFF and RARM complete as the table of R191 has it, each on the named rule alone, in every acquisition state: RON arms
a rule in OFF and leaves any other; ROFF turns any rule OFF; RARM takes a FIRED rule to QUALIFYING with progress 1 if its
level part was met at its last evaluated record, else to ARMED, and leaves any other. Fields and fire count stay, and RARM
keeps the previous value. An index above 15 is NOENT. -/
def Obligations.RonRoffRarmMoveARule : Prop :=
  (∀ (c : CommandFrame) (i : Fin 16) (s : State), s.lki.session ≠ .closed →
    (Taken c 0x21 [byte1 i.val] s →
      (s.tgm.rules[i].state = .off →
        exec .ron s =
          .next (replied c 0x21 .ok [1]
            { s with tgm := { s.tgm with
                rules := s.tgm.rules.set i.val
                  { s.tgm.rules[i] with state := .armed, progress := 0, previous := none } } })) ∧
      (s.tgm.rules[i].state ≠ .off →
        exec .ron s = .next (replied c 0x21 .ok [byte1 s.tgm.rules[i].state.code] s))) ∧
    (Taken c 0x22 [byte1 i.val] s →
      exec .roff s =
        .next (replied c 0x22 .ok [0]
          { s with tgm := { s.tgm with
              rules := s.tgm.rules.set i.val
                { s.tgm.rules[i] with state := .off, progress := 0, previous := none } } })) ∧
    (Taken c 0x23 [byte1 i.val] s →
      (s.tgm.rules[i].state = .fired → levelAtLast s.tgm.lastLine s.tgm.rules[i] = true →
        exec .rarm s =
          .next (replied c 0x23 .ok [2, 1]
            { s with tgm := { s.tgm with
                rules := s.tgm.rules.set i.val { s.tgm.rules[i] with state := .qualifying, progress := 1 } } })) ∧
      (s.tgm.rules[i].state = .fired → levelAtLast s.tgm.lastLine s.tgm.rules[i] = false →
        exec .rarm s =
          .next (replied c 0x23 .ok [1, 0]
            { s with tgm := { s.tgm with
                rules := s.tgm.rules.set i.val { s.tgm.rules[i] with state := .armed, progress := 0 } } })) ∧
      (s.tgm.rules[i].state ≠ .fired →
        exec .rarm s =
          .next (replied c 0x23 .ok [byte1 s.tgm.rules[i].state.code, byte1 s.tgm.rules[i].progress] s)))) ∧
  ∀ (c : CommandFrame) (index : Byte) (s : State), s.lki.session ≠ .closed → 15 < index.toNat →
    (Taken c 0x21 [index] s → exec .ron s = .next (replied c 0x21 .noent [] s)) ∧
    (Taken c 0x22 [index] s → exec .roff s = .next (replied c 0x22 .noent [] s)) ∧
    (Taken c 0x23 [index] s → exec .rarm s = .next (replied c 0x23 .noent [] s))

/-- RREAD completes, changes nothing, and returns 18 bytes: the fields in the form RSET takes (reading them as RSET does gives
the rule's fields back), FF for the channel of EXTERNAL, 0 for the threshold B of a condition other than INSIDE and OUTSIDE, the
options with the B bit set for those two only and the unassigned bits 0, then state, progress, previous value and fire count
(R72, R192, R205). -/
def Obligations.RreadReturnsTheRule : Prop :=
  (∀ (c : CommandFrame) (i : Fin 16) (s : State), Taken c 0x24 [byte1 i.val] s → s.lki.session ≠ .closed →
    fieldsLegal s.tgm.rules[i].fields = true → runtimeLegal s.tgm.rules[i] = true →
    ∃ fields : List Byte,
      exec .rread s = .next (replied c 0x24 .ok fields s) ∧ fields.length = 18 ∧
      readRule (fields.take 11) = some s.tgm.rules[i].fields ∧
      (fields[1]? = some 0xFF ↔ s.tgm.rules[i].fields.condition = .external) ∧
      (s.tgm.rules[i].fields.condition ≠ .inside → s.tgm.rules[i].fields.condition ≠ .outside →
        (fields.drop 4).take 2 = [0, 0]) ∧
      fields[10]? =
        some (byte1
          ((if s.tgm.rules[i].fields.rearm = .manual then 1 else 0) + (if s.tgm.rules[i].fields.action = .note then 2 else 0) +
            (if s.tgm.rules[i].fields.condition = .inside ∨ s.tgm.rules[i].fields.condition = .outside then 4 else 0))) ∧
      (fields.drop 11).take 3 =
        [byte1 s.tgm.rules[i].state.code, byte1 s.tgm.rules[i].progress,
          if s.tgm.rules[i].previous = none then 0 else 1] ∧
      signedOf ((fields.drop 14).take 2) = s.tgm.rules[i].previous.getD 0 ∧
      leNat (fields.drop 16) = s.tgm.rules[i].fireCount) ∧
  ∀ (c : CommandFrame) (index : Byte) (s : State), Taken c 0x24 [index] s → s.lki.session ≠ .closed →
    15 < index.toNat → exec .rread s = .next (replied c 0x24 .noent [] s)

/-! ## Settings (chapters 2, 5 and 6) -/

/-- CSET completes: settings in the ranges of R25, with max length at least pre plus post requested, replace all the settings
at once outside RUNNING and DRAINING; BADARG for a value out of range comes first, then STATE (R25, R193, R205). CREAD
completes, changes nothing, and returns the settings in the 14 bytes that CSET would take them from (R193). PSET completes:
interval 4-1,000,000, timeout 2-255 and threshold 1-15 are taken whole with the mode; nothing else changes, the running tick
time and conversion timer among it (R105, R124, R194); BADARG for a value out of range comes first, then STATE for a change of
mode outside IDLE. -/
def Obligations.SettingsCommandsReplaceAndReturn : Prop :=
  ((∀ (c : CommandFrame) (x : CaptureSettings) (s : State), Taken c 0x30 (captureBytes x) s → s.lki.session ≠ .closed →
     captureRangesOk x = true →
     (s.aqs.state = .idle ∨ s.aqs.state = .halted →
       exec .cset s = .next (replied c 0x30 .ok [] { s with sgm := { s.sgm with settings := x } })) ∧
     (s.aqs.state = .running ∨ s.aqs.state = .draining → exec .cset s = .next (replied c 0x30 .state [] s))) ∧
   ∀ (c : CommandFrame) (p0 p1 q0 q1 m0 m1 retrig exh cap del h0 h1 width low : Byte) (s : State),
     Taken c 0x30 [p0, p1, q0, q1, m0, m1, retrig, exh, cap, del, h0, h1, width, low] s → s.lki.session ≠ .closed →
     2048 < leNat [p0, p1] ∨ leNat [q0, q1] = 0 ∨ 4096 < leNat [q0, q1] ∨ 4096 < leNat [m0, m1] ∨
       leNat [m0, m1] < leNat [p0, p1] + leNat [q0, q1] ∨ 1 < retrig.toNat ∨ 2 < exh.toNat ∨ 1 < cap.toNat ∨
       1 < del.toNat ∨ width.toNat = 0 →
     exec .cset s = .next (replied c 0x30 .badarg [] s)) ∧
  (∀ (c : CommandFrame) (s : State), Taken c 0x31 [] s → s.lki.session ≠ .closed →
     captureRangesOk s.sgm.settings = true → ∃ fields : List Byte,
       exec .cread s = .next (replied c 0x31 .ok fields s) ∧ fields.length = 14 ∧
       readCapture fields = some s.sgm.settings) ∧
  ((∀ (c : CommandFrame) (p : PsetArgs) (s : State), Taken c 0x32 (psetArguments p) s → s.lki.session ≠ .closed →
     4 ≤ p.interval → p.interval ≤ 1000000 → 2 ≤ p.timeout → p.timeout ≤ 255 → 1 ≤ p.threshold → p.threshold ≤ 15 →
     (p.mode = s.aqs.mode ∨ s.aqs.state = .idle →
       exec .pset s =
         .next (replied c 0x32 .ok []
           { s with
             aqs := { s.aqs with interval := p.interval, mode := p.mode },
             cvp := { s.cvp with timeout := p.timeout, threshold := p.threshold } })) ∧
     (p.mode ≠ s.aqs.mode → s.aqs.state ≠ .idle → exec .pset s = .next (replied c 0x32 .state [] s))) ∧
   ∀ (c : CommandFrame) (i0 i1 i2 i3 mode timeout threshold : Byte) (s : State),
     Taken c 0x32 [i0, i1, i2, i3, mode, timeout, threshold] s → s.lki.session ≠ .closed →
     leNat [i0, i1, i2, i3] < 4 ∨ 1000000 < leNat [i0, i1, i2, i3] ∨ 1 < mode.toNat ∨ timeout.toNat < 2 ∨
       threshold.toNat = 0 ∨ 15 < threshold.toNat →
     exec .pset s = .next (replied c 0x32 .badarg [] s))

/-! ## Runs (chapter 5) -/

/-- START completes in IDLE and HALTED: the run number rises with wrap, the tick and pass counters and the entry position
become 0, the target size becomes ceil(pre / 32) + 1, the enabled rules are armed afresh and the latch cleared, holdoff and
the consecutive-timeout count become 0, acquisition is RUNNING for START, ACQSTATE is queued and the pacer starts with one
interval (R95, R73, R7, R104, R195). STATE in RUNNING and DRAINING and for an empty active copy, then NOSPACE below 2 free
pages; a refusal changes nothing. -/
def Obligations.StartBeginsARun : Prop :=
  ∀ (c : CommandFrame) (s : State), Taken c 0x40 [] s → s.lki.session ≠ .closed →
    (s.aqs.state = .idle ∨ s.aqs.state = .halted → s.sct.active ≠ [] → 2 ≤ s.sst.pool.length →
      exec .start s =
        .next (replied c 0x40 .ok (leBytes 2 ((s.aqs.run + 1) % 65536))
          { withRulesArmed s with
            aqs := { s.aqs with
              run := (s.aqs.run + 1) % 65536, tick := 0, pass := 0, position := 0, passState := .waiting,
              holdPending := false, state := .running, reason := .start, nextTick := some s.aqs.interval },
            sst := { s.sst with targetSize := (s.sgm.settings.preRequested + 31) / 32 + 1 },
            sgm := { s.sgm with holdoff := 0 },
            cvp := { s.cvp with consecutive := 0 },
            rpe := withEvent (.acqState .running .start ((s.aqs.run + 1) % 65536) 0) s.rpe })) ∧
    (s.aqs.state = .running ∨ s.aqs.state = .draining ∨ s.sct.active = [] →
      exec .start s = .next (replied c 0x40 .state [] s)) ∧
    (s.aqs.state = .idle ∨ s.aqs.state = .halted → s.sct.active ≠ [] → s.sst.pool.length < 2 →
      exec .start s = .next (replied c 0x40 .nospace [] s))

/-- STOP completes in every acquisition state and returns the state after it (R96, R196): RUNNING with no segment FILLING
enters IDLE; RUNNING with a segment FILLING becomes DRAINING with reason STOP and ACQSTATE, the pacer running on; in
DRAINING, IDLE and HALTED nothing changes. ABORT completes in every acquisition state (R101, R43, R196): in IDLE nothing
changes; else the FILLING segment, if there is one, is discarded with reason ABORTED, the enabled rules are armed afresh with
the latch cleared, and IDLE is entered, in that order; the reply carries IDLE.
The count of records since a switch that goes with it is the model's own (log entry 19). -/
def Obligations.StopAndAbortEndARun : Prop :=
  (∀ (c : CommandFrame) (s : State), Taken c 0x41 [] s → s.lki.session ≠ .closed →
     (s.aqs.state = .running → (∀ d ∈ s.sgm.table, d.state ≠ .filling) →
       ∃ u, Entered .idle .stop s u ∧ exec .stop s = .next (replied c 0x41 .ok [0] u)) ∧
     (s.aqs.state = .running → (∃ d ∈ s.sgm.table, d.state = .filling) →
       exec .stop s =
         .next (replied c 0x41 .ok [2]
           { s with
             aqs := { s.aqs with state := .draining, reason := .stop },
             rpe := withEvent (.acqState .draining .stop s.aqs.run s.aqs.tick) s.rpe })) ∧
     (s.aqs.state ≠ .running → exec .stop s = .next (replied c 0x41 .ok [byte1 s.aqs.state.code] s))) ∧
  (∀ (c : CommandFrame) (s : State), Taken c 0x42 [] s → s.lki.session ≠ .closed →
     (s.aqs.state = .idle → exec .abort s = .next (replied c 0x42 .ok [0] s)) ∧
     (s.aqs.state ≠ .idle → (∀ d ∈ s.sgm.table, d.state ≠ .filling) →
       ∃ u, Entered .idle .abort (withRulesArmed s) u ∧ exec .abort s = .next (replied c 0x42 .ok [0] u)) ∧
     (s.aqs.state ≠ .idle → ∀ d, fillingSegment s = some d →
       ∃ v u, Discarded d .aborted s v ∧ Entered .idle .abort (withRulesArmed v) u ∧
         exec .abort s = .next (replied c 0x42 .ok [0] u)))

/-- FORCE completes: in RUNNING it sets FORCE pending, and is BUSY if it is set already; in any other state it is STATE
(R112, R197). Nothing else changes. -/
def Obligations.ForceIsPendingInRunning : Prop :=
  ∀ (c : CommandFrame) (s : State), Taken c 0x43 [] s → s.lki.session ≠ .closed →
    (s.aqs.state = .running → s.aqs.forcePending = false →
      exec .force s = .next (replied c 0x43 .ok [] { s with aqs := { s.aqs with forcePending := true } })) ∧
    (s.aqs.state = .running → s.aqs.forcePending = true → exec .force s = .next (replied c 0x43 .busy [] s)) ∧
    (s.aqs.state ≠ .running → exec .force s = .next (replied c 0x43 .state [] s))

/-! ## The commands on segments (chapters 2 and 7) -/

/-- SLIST completes, changes nothing, and returns the number of descriptors and for each, oldest first, its number, state,
primary rule, stored length and flags in 7 bytes, the flags one per bit (R48, R198, R203, R205). SFETCH completes, by the
cases of R144 in their order: NOENT, STATE for a segment that is not COMPLETE, OK with no change for a number already in the
fetch queue, BUSY with 8 numbers there, else the number joins the tail; the reply carries the count (R199). SDROP completes,
by the table of R42: NOENT, STATE for a FILLING segment, INDELIVERY for one that is SENDING or SENT, and a COMPLETE segment is
discarded with reason DROPPED (R41, R199). -/
def Obligations.SegmentCommandsListFetchAndDrop : Prop :=
  ((∀ (c : CommandFrame) (s : State), Taken c 0x50 [] s → s.lki.session ≠ .closed →
     exec .slist s =
       .next (replied c 0x50 .ok
         (byte1 s.sgm.table.length ::
           s.sgm.table.flatMap (fun d =>
             leBytes 2 d.number ++ [byte1 d.state.code, byte1 d.primaryRule] ++ leBytes 2 (d.preTaken + d.postTaken) ++
               [d.flags.toByte])) s)) ∧
   ∀ f : SegFlags, (List.range 8).map (fun n => f.toByte.getLsbD n) = segmentFlagBits f) ∧
  (∀ (c : CommandFrame) (b0 b1 : Byte) (s : State), Taken c 0x51 [b0, b1] s → s.lki.session ≠ .closed →
     ((∀ d ∈ s.sgm.table, d.number ≠ b0.toNat + 256 * b1.toNat) →
       exec .sfetch s = .next (replied c 0x51 .noent [] s)) ∧
     (∀ d, segmentNumbered (b0.toNat + 256 * b1.toNat) s = some d →
       (d.state ≠ .complete → exec .sfetch s = .next (replied c 0x51 .state [] s)) ∧
       (d.state = .complete → b0.toNat + 256 * b1.toNat ∈ s.rpe.fetch →
         exec .sfetch s = .next (replied c 0x51 .ok [byte1 s.rpe.fetch.length] s)) ∧
       (d.state = .complete → b0.toNat + 256 * b1.toNat ∉ s.rpe.fetch → 8 ≤ s.rpe.fetch.length →
         exec .sfetch s = .next (replied c 0x51 .busy [] s)) ∧
       (d.state = .complete → b0.toNat + 256 * b1.toNat ∉ s.rpe.fetch → s.rpe.fetch.length < 8 →
         exec .sfetch s =
           .next (replied c 0x51 .ok [byte1 (s.rpe.fetch.length + 1)]
             { s with rpe := { s.rpe with fetch := s.rpe.fetch ++ [b0.toNat + 256 * b1.toNat] } })))) ∧
  (∀ (c : CommandFrame) (b0 b1 : Byte) (s : State), Taken c 0x52 [b0, b1] s → s.lki.session ≠ .closed →
     ((∀ d ∈ s.sgm.table, d.number ≠ b0.toNat + 256 * b1.toNat) →
       exec .sdrop s = .next (replied c 0x52 .noent [] s)) ∧
     (∀ d, segmentNumbered (b0.toNat + 256 * b1.toNat) s = some d →
       (d.state = .filling → exec .sdrop s = .next (replied c 0x52 .state [] s)) ∧
       (d.state = .sending ∨ d.state = .sent → exec .sdrop s = .next (replied c 0x52 .indelivery [] s)) ∧
       (d.state = .complete →
         ∃ u, Discarded d .dropped s u ∧ exec .sdrop s = .next (replied c 0x52 .ok [] u))))

/-! ## Sessions (chapter 8) -/

/-- HELLO with FLUSH completes in every session state, and BYE in OPEN and STALLED, as one event: queues and numbering start
afresh with the credit given (0 for BYE), the event reports removed are counted and a LOST report with the whole count waits,
SENDING and SENT segments are COMPLETE again, the ack timer is stopped, the retry count is 0, and the session is OPEN with
the timeout carried, or CLOSED (R145, R146, R163, R164). Another choice, or a step count outside 1-250, is BADARG. -/
def Obligations.HelloFlushAndByeTearDown : Prop :=
  (∀ (c : CommandFrame) (steps credit : Byte) (s : State), Taken c 0x01 [0, steps, credit] s → 1 ≤ steps.toNat →
    steps.toNat ≤ 250 →
    exec .hello s =
      .next (replied c 0x01 .ok [0, 0]
        { s with
          rpe := flushed credit.toNat s.rpe,
          sgm := reverted s.sgm,
          lki := { s.lki with
            ackTimeout := 20 * steps.toNat, ackTimer := none, retry := 0, session := .open } })) ∧
  (∀ (c : CommandFrame) (s : State), Taken c 0x02 [] s → s.lki.session ≠ .closed →
    exec .bye s =
      .next (replied c 0x02 .ok []
        { s with
          rpe := flushed 0 s.rpe,
          sgm := reverted s.sgm,
          lki := { s.lki with ackTimer := none, retry := 0, session := .closed } })) ∧
  ∀ (c : CommandFrame) (choice steps credit : Byte) (s : State), Taken c 0x01 [choice, steps, credit] s →
    1 < choice.toNat ∨ steps.toNat = 0 ∨ 250 < steps.toNat →
    exec .hello s = .next (replied c 0x01 .badarg [] s)

/-- HELLO with KEEP completes in every session state, and REPLAY in OPEN and STALLED: queues, numbering and segments stay, the
resend mark goes to the oldest outstanding report, the retry count is 0, the session is OPEN, and the ack timer runs exactly
if a report is outstanding; HELLO also sets the ack timeout and the credit (R163, R169, R134, R180, R182). -/
def Obligations.HelloKeepAndReplayGoBack : Prop :=
  (∀ (c : CommandFrame) (steps credit : Byte) (s : State), Taken c 0x01 [1, steps, credit] s → 1 ≤ steps.toNat →
    steps.toNat ≤ 250 →
    exec .hello s =
      .next (replied c 0x01 .ok [byte1 s.rpe.outstanding.length, byte1 s.rpe.nextSeq]
        { s with
          rpe := { s.rpe with resend := s.rpe.outstanding.head?.map Prod.fst, credit := credit.toNat },
          lki := { s.lki with
            ackTimeout := 20 * steps.toNat, retry := 0, session := .open,
            ackTimer := if s.rpe.outstanding = [] then none else some (20 * steps.toNat) } })) ∧
  ∀ (c : CommandFrame) (s : State), Taken c 0x60 [] s → s.lki.session ≠ .closed →
    exec .replay s =
      .next (replied c 0x60 .ok [byte1 s.rpe.outstanding.length]
        { s with
          rpe := { s.rpe with resend := s.rpe.outstanding.head?.map Prod.fst },
          lki := { s.lki with
            session := .open, retry := 0,
            ackTimer := if s.rpe.outstanding = [] then none else some s.lki.ackTimeout } })

/-- ACK_TIMER_EXPIRY completes: the retry count rises; below 4 the resend mark goes to the oldest outstanding report and the
timer restarts; at 4 the timer stops and the session is STALLED (R166, R167, R134). With the timer stopped nothing changes
(the model's choice, log entry 4). -/
def Obligations.AckTimerExpiryGoesBackOrStalls : Prop :=
  (∀ (s : State) (t : Nat), s.lki.ackTimer = some t →
    (s.lki.retry < 3 →
      exec .ackTimerExpiry s =
        .next { s with
          rpe := { s.rpe with resend := s.rpe.outstanding.head?.map Prod.fst },
          lki := { s.lki with retry := s.lki.retry + 1, ackTimer := some s.lki.ackTimeout } }) ∧
    (s.lki.retry = 3 →
      exec .ackTimerExpiry s =
        .next { s with lki := { s.lki with retry := 4, ackTimer := none, session := .stalled } })) ∧
  ∀ s : State, s.lki.ackTimer = none → exec .ackTimerExpiry s = .next s

/-- A session command and the ack timer touch no acquisition, converter, rule, scan table or store state, and no segment that
is FILLING or COMPLETE (R162). The steps of acquisition leave the link, the command processor, the outstanding list, the
credit, the resend mark and the slot alone, and only add reports to the end of the pending queue (R129, R130, R161). -/
def Obligations.SessionAndAcquisitionKeepApart : Prop :=
  (∀ (i : Instr) (s t : State), i = .hello ∨ i = .bye ∨ i = .replay ∨ i = .ackTimerExpiry → exec i s = .next t →
     t.aqs = s.aqs ∧ t.cvp = s.cvp ∧ t.tgm = s.tgm ∧ t.sct = s.sct ∧ t.sst = s.sst ∧ t.rpe.fetch = s.rpe.fetch ∧
     (∃ table, t.sgm = { s.sgm with table := table }) ∧ t.sgm.table.length = s.sgm.table.length ∧
     ∀ (n : Nat) (d : Descriptor), s.sgm.table[n]? = some d → d.state = .filling ∨ d.state = .complete → t.sgm.table[n]? = some d) ∧
  (∀ (i : Instr) (s t : State),
     i = .paceTick ∨ i = .conversionTimeout ∨ (∃ v o g, i = .converterAnswer v o g) ∨ i = .trginRisingEdge ∨
       i = .trginFallingEdge ∨ i = .trgoutPulseExpiry →
     exec i s = .next t →
     t.lki = s.lki ∧ t.cmp = s.cmp ∧ t.rpe.outstanding = s.rpe.outstanding ∧ t.rpe.nextSeq = s.rpe.nextSeq ∧
     t.rpe.credit = s.rpe.credit ∧ t.rpe.resend = s.rpe.resend ∧ t.rpe.slot = s.rpe.slot ∧ s.rpe.queue <+: t.rpe.queue)

/-! ## The receiver (chapter 8) -/

/-- In HUNT the sync byte is the first byte of the assembly buffer, the receiver is ASSEMBLING with phase KIND and the gap timer
starts; any other byte is passed over and changes nothing; and the gap timer is stopped throughout HUNT: every step that
leaves the receiver in HUNT leaves the timer stopped (R151). The part is past start-up (R207). -/
def Obligations.HuntWaitsForTheSyncByte : Prop :=
  (∀ (b : Byte) (s : State), s.power = .ready → s.lki.rx = .hunt →
    (b = 0xD7 →
      exec (.receivedByte b) s =
        .next { s with lki := { s.lki with rx := .assembling .kind, buffer := [b], gapTimer := some 2000 } }) ∧
    (b ≠ 0xD7 → exec (.receivedByte b) s = .next s)) ∧
  ∀ (i : Instr) (s t : State), (s.lki.rx = .hunt → s.lki.gapTimer = none) → exec i s = .next t → t.lki.rx = .hunt →
    t.lki.gapTimer = none

/-- BREAK completes: in ASSEMBLING it discards the partial frame, the gap timer stops and the receiver is in HUNT, with no
notice, no count and nothing else changed; in HUNT it changes nothing. After the final CRC byte or after a gap expiry, the
break finds HUNT; before them, it discards the frame, and the byte is then tested in HUNT, where a byte other than the sync byte
changes nothing (R151, R156; for the sync byte see HuntWaitsForTheSyncByte). After the break the expiry does not come (R156); that
its step then changes nothing is the model's choice (log entry 4). -/
def Obligations.BreakReturnsToHunt : Prop :=
  (∀ (s : State) (phase : RxPhase), s.power = .ready → s.lki.rx = .assembling phase →
    exec .lineBreak s = .next { s with lki := { s.lki with rx := .hunt, buffer := [], gapTimer := none } }) ∧
  (∀ s : State, s.power = .ready → s.lki.rx = .hunt → exec .lineBreak s = .next s) ∧
  (∀ (s t : State) (b : Byte), s.power = .ready → s.lki.rx = .assembling .crc2 →
    exec (.receivedByte b) s = .next t → t.lki.rx = .hunt ∧ exec .lineBreak t = .next t) ∧
  (∀ (s t : State) (g : Nat), s.power = .ready → s.lki.gapTimer = some g →
    exec .gapTimerExpiry s = .next t →
    t.lki.rx = .hunt ∧ (∃ tag, t.lki.notice = some (s.lki.notice.getD ⟨.gap, tag⟩)) ∧ exec .lineBreak t = .next t) ∧
  ∀ (s : State) (phase : RxPhase) (b : Byte), s.power = .ready → s.lki.rx = .assembling phase → b ≠ 0xD7 → ∃ t,
    exec .lineBreak s = .next t ∧ t.lki.notice = s.lki.notice ∧ t.lki.accepted = s.lki.accepted ∧
    exec (.receivedByte b) t = .next t ∧ exec .gapTimerExpiry t = .next t

/-- A whole frame reaches its owner: from HUNT, the bytes of a COMMAND frame with a payload of 0-250 bytes, or of an ACK frame,
as R201 lays a frame out and with the CRC of R202, bring the receiver back to HUNT with that frame accepted after those
before it, and change nothing else (R151, R152, R153, R154). The list of accepted frames is the model's choice (log entry 5). The
CRC is named through the model's own `crc`, which the test test_crc pins to the published check value. -/
def Obligations.FrameIsReceivedWhole : Prop :=
  (∀ (s : State) (tag : Byte) (payload : List Byte), s.power = .ready → s.lki.rx = .hunt → s.lki.buffer = [] →
    s.lki.gapTimer = none → payload.length ≤ 250 →
    runAll ((frameBytes 0x01 tag payload).map Instr.receivedByte) s =
      .next { s with lki := { s.lki with accepted := s.lki.accepted ++ [.command ⟨tag, payload⟩] } }) ∧
  ∀ (s : State) (tag seq grant : Byte), s.power = .ready → s.lki.rx = .hunt → s.lki.buffer = [] →
    s.lki.gapTimer = none →
    runAll ((frameBytes 0x02 tag [seq, grant]).map Instr.receivedByte) s =
      .next { s with lki := { s.lki with accepted := s.lki.accepted ++ [.ack seq.toNat grant.toNat] } }

/-- A damaged frame is given up (R152, R153, R157, R158): a kind other than COMMAND and ACK raises KIND with tag 0; a length
above 250 for COMMAND or other than 2 for ACK raises LENGTH; a wrong CRC raises CRC; the last two with the tag of a COMMAND
frame and with 0 for an ACK frame. GAP_TIMER_EXPIRY completes: notice GAP carries the tag byte of a COMMAND frame if it has
arrived, else 0 (R155). In each case the receiver is in HUNT, a notice waiting before is kept, the count rises, and nothing
else changes. With the gap timer stopped nothing changes (the model's choice, log entry 4). -/
def Obligations.DamagedOrStalledFrameIsGivenUp : Prop :=
  ((∀ (s : State) (kind : Byte), s.power = .ready → s.lki.rx = .assembling .kind → kind ≠ 0x01 → kind ≠ 0x02 →
     exec (.receivedByte kind) s =
       .next { s with lki := { s.lki with
           rx := .hunt, buffer := [], gapTimer := none, notice := some (s.lki.notice.getD ⟨.kind, 0⟩),
           errors := min 65535 (s.lki.errors + 1) } }) ∧
   (∀ (s : State) (kind tag length : Byte), s.power = .ready → s.lki.rx = .assembling .length →
     s.lki.buffer = [0xD7, kind, tag] →
     (kind = 0x01 ∧ 250 < length.toNat) ∨ (kind = 0x02 ∧ length.toNat ≠ 2) →
     exec (.receivedByte length) s =
       .next { s with lki := { s.lki with
           rx := .hunt, buffer := [], gapTimer := none,
           notice := some (s.lki.notice.getD ⟨.length, if kind = 0x01 then tag else 0⟩),
           errors := min 65535 (s.lki.errors + 1) } }) ∧
   ∀ (s : State) (kind tag high low : Byte) (payload : List Byte), s.power = .ready → s.lki.rx = .assembling .crc2 →
     payload.length ≤ 250 → s.lki.buffer = [0xD7, kind, tag, byte1 payload.length] ++ payload ++ [high] →
     [high, low] ≠ crcBytes (crc ([kind, tag, byte1 payload.length] ++ payload)) →
     exec (.receivedByte low) s =
       .next { s with lki := { s.lki with
           rx := .hunt, buffer := [], gapTimer := none,
           notice := some (s.lki.notice.getD ⟨.crc, if kind = 0x01 then tag else 0⟩),
           errors := min 65535 (s.lki.errors + 1) } }) ∧
  ((∀ (s : State) (g : Nat), s.lki.gapTimer = some g → ∃ tag : Byte,
     exec .gapTimerExpiry s =
       .next { s with lki := { s.lki with
           rx := .hunt, buffer := [], gapTimer := none, notice := some (s.lki.notice.getD ⟨.gap, tag⟩),
           errors := min 65535 (s.lki.errors + 1) } } ∧
     (∀ t, s.lki.buffer[1]? = some 0x01 → s.lki.buffer[2]? = some t → tag = t) ∧
     (s.lki.buffer[1]? ≠ some 0x01 ∨ s.lki.buffer[2]? = none → tag = 0)) ∧
   ∀ s : State, s.lki.gapTimer = none → exec .gapTimerExpiry s = .next s)

/-! ## Acknowledgements (chapter 7) -/

/-- ACK completes for an ACK that does not advance: the grant is added to credit, up to 255; at a distance from the base of n to
127 notice BADACK is raised with tag 0, and from 128 on nothing else changes (R135, R157). With no accepted ACK at the front
the step changes nothing (the model's choice, log entry 4). -/
def Obligations.BadAndStaleAcksOnlyGrant : Prop :=
  (∀ (s : State) (seq grant base d : Nat) (rest : List Accepted), s.lki.accepted = .ack seq grant :: rest → seq < 256 →
    base < 256 → base = (s.rpe.outstanding.head?.map Prod.fst).getD s.rpe.nextSeq → d < 256 → seq = (base + d) % 256 →
    s.rpe.outstanding.length ≤ d →
    (d ≤ 127 →
      exec .ack s =
        .next { s with
          rpe := { s.rpe with credit := min 255 (s.rpe.credit + grant) },
          lki := { s.lki with
            accepted := rest, notice := some (s.lki.notice.getD ⟨.badack, 0⟩),
            errors := min 65535 (s.lki.errors + 1) } }) ∧
    (128 ≤ d →
      exec .ack s =
        .next { s with
          rpe := { s.rpe with credit := min 255 (s.rpe.credit + grant) }, lki := { s.lki with accepted := rest } })) ∧
  ∀ s : State, (∀ seq grant rest, s.lki.accepted ≠ .ack seq grant :: rest) → exec .ack s = .next s

/-- An ACK that advances by d + 1 reports completes: they leave the outstanding list, the grant is added, the retry count is 0,
the timer restarts or stops in OPEN, a resend mark on a removed report moves to the oldest left; every SENT segment whose
SEGEND is among them leaves the table, the others close up and keep their order, and no other segment and nothing of
acquisition changes; the released segments return
their pages to the pool tail one after another, in the order of their SEGEND reports, each as one return in page-list order
with one watermark comparison (R135, R136, R22, R45, R5, R17, R170). -/
def Obligations.AdvancingAckReleasesSegments : Prop :=
  ∀ (s : State) (seq grant base d : Nat) (rest : List Accepted), ReportShape s → ReferencesHold s →
    s.lki.accepted = .ack seq grant :: rest → seq < 256 → s.rpe.outstanding.head?.map Prod.fst = some base → d < 256 →
    seq = (base + d) % 256 → d < s.rpe.outstanding.length →
    ∃ t, exec .ack s = .next t ∧ t.rpe.outstanding = s.rpe.outstanding.drop (d + 1) ∧
      t.rpe.credit = min 255 (s.rpe.credit + grant) ∧ t.rpe.queue = s.rpe.queue ∧ t.rpe.nextSeq = s.rpe.nextSeq ∧
      t.rpe.slot = s.rpe.slot ∧ t.rpe.fetch = s.rpe.fetch ∧ t.rpe.lost = s.rpe.lost ∧
      (∀ m, s.rpe.resend = some m →
        t.rpe.resend =
          if m ∈ (s.rpe.outstanding.drop (d + 1)).map Prod.fst then some m
          else (s.rpe.outstanding.drop (d + 1)).head?.map Prod.fst) ∧
      (s.rpe.resend = none → t.rpe.resend = none) ∧
      t.lki =
        { s.lki with
          accepted := rest, retry := 0,
          ackTimer :=
            if s.lki.session = .open then
              (if s.rpe.outstanding.length = d + 1 then none else some s.lki.ackTimeout)
            else s.lki.ackTimer } ∧
      t.sgm =
        { s.sgm with
          table := s.sgm.table.filter
            (fun x => decide (Report.segment (.tail x.number) ∉ (s.rpe.outstanding.take (d + 1)).map Prod.snd)) } ∧
      (∃ released : List Descriptor,
        released.map Descriptor.number = (s.rpe.outstanding.take (d + 1)).filterMap (fun x => segendOf x.2) ∧
        (∀ x ∈ released, x ∈ s.sgm.table) ∧
        t.sst =
          released.foldl (fun store x => withReturn s.sgm.settings.lowWatermark x.pages store) s.sst) ∧
      t.aqs = s.aqs ∧ t.cvp = s.cvp ∧ t.tgm = s.tgm ∧
      t.sct = s.sct ∧ t.cmp = s.cmp

/-! ## The transmitter (chapters 7 and 8) -/

/-- TRANSMIT_FRAME_START completes: the idle transmitter sends a waiting notice first, then the oldest reply, each leaving its
place as its frame begins (R160, R161, R201, R204, R205); with neither and nothing to report it stays idle. While a frame is
on the line it does nothing: a frame is never cut. FRAME_END completes with the same choice for the next frame. That FRAME_END
with no frame on the line changes nothing is the model's choice (log entry 4), as is the flag of a reset due, which
CanChoose reads (log entry 11). -/
def Obligations.TransmitterChoosesByClass : Prop :=
  (∀ s : State, s.lki.tx ≠ none → exec .transmitFrameStart s = .next s) ∧
  (∀ s : State, s.lki.tx = none → exec .frameEnd s = .next s) ∧
  ∀ (i : Instr) (s : State),
    CanChoose i s →
    (∀ n, s.lki.notice = some n →
      exec i s =
        .next { s with lki := { s.lki with
            notice := none, tx := some ⟨.notice n, frameBytes 0x83 0 [byte1 n.reason.code, n.tag]⟩ } }) ∧
    (∀ r rest, s.lki.notice = none → s.lki.replies = r :: rest →
      exec i s =
        .next { s with lki := { s.lki with
            replies := rest, tx := some ⟨.reply r, frameBytes 0x81 r.tag (r.code :: byte1 r.result.code :: r.fields)⟩ } }) ∧
    (s.lki.notice = none → s.lki.replies = [] →
      s.lki.session ≠ .open ∨
        (s.rpe.resend = none ∧ (s.rpe.queue = [] ∨ 16 ≤ s.rpe.outstanding.length ∨ s.rpe.credit = 0)) →
      exec i s = .next { s with lki := { s.lki with tx := none } })

/-- A report is sent for the first time when the session is OPEN, nothing else waits, no go-back is due, the window has room and
there is credit: it leaves the head of the queue and joins the outstanding list with the next number, which rises with wrap,
credit falls by 1, the ack timer starts if nothing was outstanding, and a LOST report takes the freed place if reports were
lost; nothing else changes. The payload is read at this moment (R131, R132, R133, R161, R166). The report that the resend mark
names is sent again with its number, without window or credit; it keeps its place in the outstanding list, and the mark
moves to the next newer report, or is absent after the newest (R132, R134). -/
def Obligations.ReportsAreSentAndSentAgain : Prop :=
  (∀ (i : Instr) (s : State) (r : Report) (rest : List Report), ReferencesHold s → s.rpe.queue.length ≤ 48 →
     CanChoose i s →
     s.lki.notice = none → s.lki.replies = [] → s.lki.session = .open → s.rpe.resend = none → s.rpe.queue = r :: rest →
     s.rpe.outstanding.length < 16 → 1 ≤ s.rpe.credit →
     ∃ payload, reportPayload s r = some payload ∧
       exec i s =
         .next { s with
           rpe := { s.rpe with
             queue := if 0 < s.rpe.lost then rest ++ [.event (.lost s.rpe.lost)] else rest,
             lost := 0, outstanding := s.rpe.outstanding ++ [(s.rpe.nextSeq, r)],
             nextSeq := (s.rpe.nextSeq + 1) % 256, credit := s.rpe.credit - 1 },
           lki := { s.lki with
             tx := some ⟨.report s.rpe.nextSeq r, frameBytes 0x82 (byte1 s.rpe.nextSeq) payload⟩,
             ackTimer := if s.rpe.outstanding = [] then some s.lki.ackTimeout else s.lki.ackTimer } }) ∧
  (∀ (i : Instr) (s : State) (m : Nat) (r : Report) (before after : List (Nat × Report)), ReferencesHold s →
     CanChoose i s →
     s.lki.notice = none → s.lki.replies = [] → s.lki.session = .open → s.rpe.resend = some m →
     s.rpe.outstanding = before ++ (m, r) :: after → (∀ x ∈ before, x.1 ≠ m) →
     ∃ payload, reportPayload s r = some payload ∧
       exec i s =
         .next { s with
           rpe := { s.rpe with resend := after.head?.map Prod.fst },
           lki := { s.lki with tx := some ⟨.report m r, frameBytes 0x82 (byte1 m) payload⟩ } })

/-- The payloads have the forms of R206 (and R140 to R142). Of each of the seven event reports the length, the report code first
and every field, which can be read back at its offset, TRIGGER with its signed value and, where it has one, its segment
number. Of SEGHEAD, 33 bytes and 4 per secondary entry, every field, the flags one per bit, and each secondary entry; of
SEGDATA, 6 bytes and 4 per record of the span, its header fields and each record of the span in slot order; of SEGEND, 8
bytes, every field and the flags. Every record can be read back from its 4 bytes. -/
def Obligations.ReportPayloadsHaveTheirForms : Prop :=
  (∀ (s : State) (e : EventReport), ∃ p,
    reportPayload s (.event e) = some p ∧ ReadsBack p (eventItems e) ∧
    p.length =
      (match e with
        | .trigger _ _ _ _ _ none => 12
        | .trigger _ _ _ _ _ (some _) => 14
        | .segDrop _ _ => 4
        | .acqState _ _ _ _ => 11
        | .storeLow _ _ => 3
        | .cvFault _ _ _ _ => 6
        | .tableSwitch _ _ => 4
        | .lost _ => 3) ∧
    ∀ rule tick entry value outcome segment, e = .trigger rule tick entry value outcome segment →
      -32768 ≤ value → value ≤ 32767 → signedOf ((p.drop 10).take 2) = value) ∧
  (∀ (s : State) (n : Nat) (d : Descriptor), segmentNumbered n s = some d →
    (∃ p, reportPayload s (.segment (.head n)) = some p ∧ p.length = 33 + 4 * d.secondary.length ∧
      ReadsBack p (headItems d) ∧ (List.range 8).map (p.getD 26 0).getLsbD = segmentFlagBits d.flags ∧
      ∀ i x, d.secondary[i]? = some x → ReadsBack p (secondaryItems i x)) ∧
    (∃ p, reportPayload s (.segment (.tail n)) = some p ∧ p.length = 8 ∧ ReadsBack p (tailItems d) ∧
      (List.range 8).map (p.getD 7 0).getLsbD = segmentFlagBits d.flags) ∧
    ∀ chunk page first last, first ≤ last → last < 32 →
      ∃ p, reportPayload s (.segment (.data n chunk page first last)) = some p ∧
        ReadsBack p (dataItems d chunk (last + 1 - first)) ∧ p.length = 6 + 4 * (last + 1 - first) ∧
        ∀ k, k < last + 1 - first →
          (p.drop (6 + 4 * k)).take 4 = recordBytes (slotRecord s (page * 32 + (first + k)))) ∧
  ∀ r : Record, -32768 ≤ r.value → r.value ≤ 32767 → r.entry < 64 → r.marker < 4 →
    ∃ b0 b1 b2 b3, recordBytes r = [b0, b1, b2, b3] ∧ signedOf [b0, b1] = r.value ∧ b2.toNat % 64 = r.entry ∧
      b2.toNat / 64 = r.marker ∧ b3.getLsbD 0 = r.err ∧ b3.getLsbD 1 = r.ovr ∧ b3.getLsbD 2 = r.hold ∧ b3.toNat < 8

/-! ## Delivery (chapter 7) -/

/-- DELIVERY_START completes: with the slot free, the session OPEN, room for a segment report and a segment to choose (the head
of the fetch queue, else in AUTO the oldest COMPLETE segment), that segment's number leaves the fetch queue and its reports
SEGHEAD, SEGDATA by chunk, SEGEND join the queue in their order (R129, R137, R138, R139). When they do not all fit, as many as
fit are queued, the segment is SENDING and the slot holds it with the next position. When they all fit, the segment is SENT,
the slot is free, and the engine goes on as at a delivery start. DELIVERY_QUEUE completes in the same way from the delivery
position on. The span of each chunk holds exactly the slots of its page in which records of the segment stand (R1, R141).
The model's choices: that the next delivery follows in the same step (log entry 9), and that the two steps change nothing
when a delivery cannot start or go on (log entry 4). -/
def Obligations.DeliveryQueuesTheSegmentInOrder : Prop :=
  ((∀ (s : State) (d : Descriptor), ReferencesHold s → FetchShape s → s.rpe.slot = none → s.lki.session = .open →
     s.rpe.queue.length < 48 → pendingSegments s.rpe < 40 → d ∈ s.sgm.table → d.state = .complete →
     (s.rpe.fetch.head? = some d.number ∨
       (s.rpe.fetch = [] ∧ s.sgm.settings.deliveryMode = .auto ∧
         s.sgm.table.find? (fun x => decide (x.state = .complete)) = some d)) →
     ∃ t, exec .deliveryStart s = .next t ∧
       Delivers d 0 (s.rpe.fetch.filter (fun m => decide (m ≠ d.number))) s t ∧ d.number ∉ t.rpe.fetch) ∧
   ∀ s : State, s.rpe.slot ≠ none ∨ s.lki.session ≠ .open ∨ 48 ≤ s.rpe.queue.length ∨ 40 ≤ pendingSegments s.rpe ∨
       (∀ d ∈ s.sgm.table, d.state ≠ .complete) ∨ (s.rpe.fetch = [] ∧ s.sgm.settings.deliveryMode = .fetch) →
     exec .deliveryStart s = .next s) ∧
  ((∀ (s : State) (d : Descriptor) (pos : DeliveryPos), ReferencesHold s → d ∈ s.sgm.table → d.state = .sending →
     s.rpe.slot = some (d.number, pos) → s.rpe.queue.length < 48 → pendingSegments s.rpe < 40 →
     (∀ c, pos = .data c → c < d.pages.length) →
     ∃ t, exec .deliveryQueue s = .next t ∧ Delivers d (reportsBefore d pos) s.rpe.fetch s t) ∧
   ∀ s : State, s.rpe.slot = none ∨ 48 ≤ s.rpe.queue.length ∨ 40 ≤ pendingSegments s.rpe →
     exec .deliveryQueue s = .next s) ∧
  ∀ d : Descriptor, descriptorOk d = true → ∀ c, c < d.pages.length →
    (∀ k, k < 32 →
      ((spanFirst d c ≤ k ∧ k ≤ spanLast d c) ↔
        (d.firstOffset ≤ 32 * c + k ∧ 32 * c + k < d.firstOffset + (d.preTaken + d.postTaken)))) ∧
    (0 < d.preTaken + d.postTaken → spanFirst d c ≤ spanLast d c ∧ spanLast d c < 32)

/-! ## Pacing (chapter 5) -/

/-- PACE_TICK completes in STEP pacing (R103, R104, R106, R107, R108): every tick moves the next tick time on, raises the tick
counter and lowers holdoff in RUNNING; with a conversion in flight it is missed; else the first entry due of the `n` that
the search examines from the entry position on, in the next pass once past the last entry, is converted; with none due the
tick is void. A scheduled commit takes effect only when the search crosses the boundary in RUNNING with no segment FILLING;
while a segment is FILLING, and in DRAINING, it waits and the search goes on in the old table (R90). When it takes effect the
search goes on from entry 0 of the new table on pass 0, and with none due there the tick is void. With the pacer stopped
the tick changes nothing (the model's choice, log entry 4).
The count of records since a switch that goes with it is the model's own (log entry 19). -/
def Obligations.StepTickConvertsTheNextDueEntry : Prop :=
  (∀ s : State, s.aqs.nextTick = none → exec .paceTick s = .next s) ∧
  ∀ (s : State) (t n : Nat), s.aqs.nextTick = some t → s.aqs.mode = .step → n = s.sct.active.length →
    (s.cvp.inFlight ≠ none → exec .paceTick s = .next (missed (ticked t s))) ∧
    (s.cvp.inFlight = none → s.aqs.position ≤ n →
      (∀ (k : Nat) (e : ScanEntry), k < n → ¬ CommitDue s ∨ s.aqs.position + k < n →
        (∀ j f, j < k → s.sct.active[examinedIndex s n j]? = some f → examinedPass s n j % f.divider ≠ f.phase) →
        s.sct.active[examinedIndex s n k]? = some e → examinedPass s n k % e.divider = e.phase →
        exec .paceTick s =
          .next (asked (examinedIndex s n k) e
            { ticked t s with aqs := { (ticked t s).aqs with pass := examinedPass s n k } })) ∧
      (0 < n → ¬ CommitDue s ∨ s.aqs.position = 0 →
        (∀ j f, j < n → s.sct.active[examinedIndex s n j]? = some f → examinedPass s n j % f.divider ≠ f.phase) →
        exec .paceTick s =
          .next { ticked t s with
            aqs := { (ticked t s).aqs with
              pass := if s.aqs.position = 0 then s.aqs.pass else passAfter s,
              position := if s.aqs.position = 0 then n else s.aqs.position } })) ∧
    (s.cvp.inFlight = none → CommitDue s → 0 < s.aqs.position → s.aqs.position ≤ n →
      (∀ j f, s.aqs.position ≤ j → s.sct.active[j]? = some f → s.aqs.pass % f.divider ≠ f.phase) →
      (∀ j e, s.sct.working[j]? = some e → e.phase = 0 → (∀ i f, i < j → s.sct.working[i]? = some f → f.phase ≠ 0) →
        exec .paceTick s = .next (asked j e (switched (ticked t s)))) ∧
      ((∀ f ∈ s.sct.working, f.phase ≠ 0) →
        ∃ u, u = switched (ticked t s) ∧
          exec .paceTick s = .next { u with aqs := { u.aqs with position := s.sct.working.length } }))

/-- PACE_TICK completes in BURST pacing (R109, R110, R107, R108): WAITING, it starts a pass with the first entry due from entry 0
on, and with none due the pass ends at once at a boundary, at which a scheduled commit takes effect in RUNNING with no
segment FILLING and else waits (R90); CONVERTING, it is missed; PAUSED, it resumes the pass at the entry position with HOLD
pending. The entry position inside a pass, which `asked` sets, is the model's choice (log entry 8).
The count of records since a switch that goes with it is the model's own (log entry 19). -/
def Obligations.BurstTickStartsOrResumesAPass : Prop :=
  ∀ (s : State) (t : Nat), s.aqs.nextTick = some t → s.aqs.mode = .burst →
    (s.aqs.passState = .waiting →
      (∀ (i : Nat) (e : ScanEntry), NextDue s 0 i e →
        exec .paceTick s =
          .next (asked i e { ticked t s with aqs := { (ticked t s).aqs with passState := .converting } })) ∧
      ((∀ i e, ¬ NextDue s 0 i e) → ∃ u, exec .paceTick s = .next u ∧ AtBoundary (ticked t s) u)) ∧
    (s.aqs.passState = .converting → exec .paceTick s = .next (missed (ticked t s))) ∧
    (s.aqs.passState = .paused → ∀ e, s.sct.active[s.aqs.position]? = some e →
      exec .paceTick s =
        .next (asked s.aqs.position e
          { ticked t s with aqs := { (ticked t s).aqs with passState := .converting, holdPending := true } }))

/-! ## The converter port and the route of a record (chapters 1, 5 and 6) -/

/-- CONVERTER_ANSWER completes for an answer with no request in flight or another tag: it is late, the late-answer count rises
up to 65535, and nothing else changes (R120). It completes for a DISCARD entry: the record is dropped with its HOLD
indication, is not placed and not evaluated, and the FORCE mark stays (R77, R110, R113, R118). In STEP pacing that is all. In
BURST pacing the look-ahead converts the next entry due on the pass, or pauses before it after a HOLD entry, or ends the pass
at a boundary, where a scheduled commit takes effect in RUNNING with no segment FILLING and else waits (R109, R110, R90). The
entry position inside a pass, which `asked` sets, is the model's choice (log entry 8).
The count of records since a switch that goes with it is the model's own (log entry 19). -/
def Obligations.LateAndDiscardedAnswersMakeNoRecord : Prop :=
  (∀ (v : Int) (o : Bool) (g : Nat) (s : State), s.power = .ready → (∀ q, s.cvp.inFlight = some q → q.tag ≠ g) →
     exec (.converterAnswer v o g) s = .next { s with cvp := { s.cvp with late := min 65535 (s.cvp.late + 1) } }) ∧
  ∀ (q : Request) (e : ScanEntry) (v : Int) (o : Bool) (s : State), Answered q e v s → e.discard = true →
    ∃ t, exec (.converterAnswer v o q.tag) s = .next t ∧ PacingGoesOn q.entry e.hold (answered s) t

/-- A record that comes with no segment FILLING and on which nothing fires goes to the ring by the first case of R8 that
applies: room in the newest page; a page from the pool below the target size; the recycled oldest page; else it is unplaced
and counted as lost (R8, R9, R10, R11). The rules evaluate it (R52). No other slot changes, and nothing else, but that pacing
goes on in BURST pacing with the next due entry, a pause or the end of the pass (R109, R110, R113; log entry 8).
The count of records since a switch that goes with it is the model's own (log entry 19). -/
def Obligations.RecordGoesToTheRing : Prop :=
  ∀ (q : Request) (e : ScanEntry) (v : Int) (o : Bool) (s : State), Answered q e v s → e.discard = false →
    fillingSegment s = none → NothingFires e.channel v s →
    ∃ t u, exec (.converterAnswer v o q.tag) s = .next t ∧ PacingGoesOn q.entry e.hold u t ∧
    (∀ page fill older, s.sst.ring = older ++ [page] → s.sst.ringFill = some fill → fill < 32 →
      SlotWritten page fill (answerRecord q e v o s) s u ∧
      SameButSlots u
        { evaluated e.channel v (handed (answered s)) with sst := { s.sst with ringFill := some (fill + 1) } }) ∧
    (∀ page rest, s.sst.ring = [] ∨ s.sst.ringFill = some 32 → s.sst.ring.length < s.sst.targetSize →
      s.sst.pool = page :: rest →
      SlotWritten page 0 (answerRecord q e v o s) s u ∧
      SameButSlots u
        { evaluated e.channel v (handed (answered s)) with
          sst := { withTake s.sgm.settings.lowWatermark s.sst with
            ring := s.sst.ring ++ [page], ringFill := some 1 },
          rpe := withTakeReport s.sgm.settings.lowWatermark s.sst s.rpe }) ∧
    (∀ page rest, s.sst.ring = page :: rest → s.sst.ringFill = some 32 →
      s.sst.targetSize ≤ s.sst.ring.length ∨ s.sst.pool = [] →
      SlotWritten page 0 (answerRecord q e v o s) s u ∧
      SameButSlots u
        { evaluated e.channel v (handed (answered s)) with
          sst := { s.sst with ring := rest ++ [page], ringFill := some 1 } }) ∧
    (s.sst.ring = [] → s.sst.pool = [] →
      u = { evaluated e.channel v (handed (answered s)) with
        sst := { s.sst with historyLoss := min 65535 (s.sst.historyLoss + 1) } })

/-- A record that comes while a segment is FILLING and on which nothing fires is written behind the segment's last record, in a
fill page when the last page is full, and post taken rises; the fill page is the pool head, under DISPLACE and with an empty
pool that of the oldest segment of lower priority that may be displaced, which is discarded for it (R13, R14, R31, R37, R40).
When the post window is complete the segment is COMPLETE: in RUNNING and CONTINUOUS holdoff starts and the run goes on; in
SINGLE and in DRAINING IDLE is entered (R34, R35, R36, R99). No other slot changes, and nothing else, but that pacing goes on
in BURST pacing with the next due entry, a pause or the end of the pass, and not at all when the run has ended (R109, R110,
R113; log entry 8).
The count of records since a switch that goes with it is the model's own (log entry 19). -/
def Obligations.RecordGoesToTheFillingSegment : Prop :=
  ∀ (q : Request) (e : ScanEntry) (v : Int) (o : Bool) (s w : State) (d : Descriptor) (page place : Nat),
    Answered q e v s → e.discard = false → s.aqs.state = .running ∨ s.aqs.state = .draining →
    fillingSegment s = some d → descriptorOk d = true → d.pages ≠ [] → NothingFires e.channel v s →
    place = d.firstOffset + d.preTaken + d.postTaken →
    (d.pages[place / 32]? = some page ∧
        w = { evaluated e.channel v (handed (answered s)) with
          sgm := withFilling (fun x => { x with postTaken := x.postTaken + 1 }) s.sgm }) ∨
      (place / 32 = d.pages.length ∧
        ∃ y, PageGained d.primaryPriority page (evaluated e.channel v (handed (answered s))) y ∧
          w = { y with
            sgm := withFilling (fun x => { x with postTaken := x.postTaken + 1, pages := x.pages ++ [page] }) y.sgm }) →
    ∃ t u, exec (.converterAnswer v o q.tag) s = .next t ∧ PacingGoesOn q.entry e.hold u t ∧
      SlotWritten page (place % 32) (answerRecord q e v o s) s u ∧
      (d.postTaken + 1 < d.postRequested → SameButSlots u w) ∧
      (d.postTaken + 1 = d.postRequested → s.aqs.state = .running → s.sgm.settings.captureMode = .continuous →
        SameButSlots u
          { w with
            sgm := { withFilling (fun x => { x with state := .complete }) w.sgm with
              holdoff := s.sgm.settings.holdoff } }) ∧
      (d.postTaken + 1 = d.postRequested → s.aqs.state = .draining ∨ s.sgm.settings.captureMode = .single →
        ∃ z, Entered .idle (if s.aqs.state = .draining then .drained else .singleDone)
          { w with sgm := withFilling (fun x => { x with state := .complete }) w.sgm } z ∧ SameButSlots u z)

/-- A FILLING segment for which no fill page can be had: the pool is empty and the policy is TRUNCATE or HALT, or DISPLACE with no
segment that may be displaced. The record is lost and counted, is not evaluated, and the segment is COMPLETE with
TRUNCATED; under TRUNCATE and DISPLACE the run goes on with holdoff in RUNNING and CONTINUOUS, and IDLE is entered in SINGLE
and in DRAINING; under HALT the segment has HALTEND too and HALTED is entered for STARVED (R14, R35, R37, R39, R40, R100). In
BURST pacing the look-ahead follows only when the run goes on (R109, R113; log entry 8).
The count of records since a switch that goes with it is the model's own (log entry 19). -/
def Obligations.StarvedSegmentCloses : Prop :=
  ∀ (q : Request) (e : ScanEntry) (v : Int) (o : Bool) (s w : State) (d : Descriptor), Answered q e v s →
    e.discard = false → s.aqs.state = .running ∨ s.aqs.state = .draining → RunShape s →
    fillingSegment s = some d → (d.firstOffset + d.preTaken + d.postTaken) / 32 = d.pages.length →
    NoPageFor d.primaryPriority s →
    w = { handed (answered s) with sst := { s.sst with historyLoss := min 65535 (s.sst.historyLoss + 1) } } →
    (s.sgm.settings.exhaustion ≠ .halt → s.aqs.state = .running → s.sgm.settings.captureMode = .continuous →
      ∃ t, exec (.converterAnswer v o q.tag) s = .next t ∧
        PacingGoesOn q.entry e.hold
          { w with
            sgm := { withFilling (fun x => { x with
                state := .complete, flags := { x.flags with truncated := true } }) s.sgm with
              holdoff := s.sgm.settings.holdoff } } t) ∧
    (s.sgm.settings.exhaustion ≠ .halt → s.aqs.state = .draining ∨ s.sgm.settings.captureMode = .single →
      ∃ u, exec (.converterAnswer v o q.tag) s = .next u ∧
        Entered .idle (if s.aqs.state = .draining then .drained else .singleDone)
          { w with
            sgm := withFilling (fun x => { x with
              state := .complete, flags := { x.flags with truncated := true } }) s.sgm } u) ∧
    (s.sgm.settings.exhaustion = .halt →
      ∃ u, exec (.converterAnswer v o q.tag) s = .next u ∧
        Entered .halted .starved
          { w with
            sgm := withFilling (fun x => { x with
              state := .complete, flags := { x.flags with truncated := true, haltend := true } }) s.sgm } u)

/-- A capture firing with no segment FILLING, no holdoff and a free descriptor slot opens a segment on its record, FORCE as rule 16
with priority 16 (the record in the ring's newest page, which becomes the trigger record): the descriptor holds the settings,
the history and the ring's pages from the first record on; its number is the first that no descriptor in
use holds, counting from the counter, which comes to stand one beyond it; the older pages join the pool, the ring is empty,
TRGOUT goes high with its timer, and TRIGGER with outcome OPENED is queued (R15, R23, R24, R28, R29, R47, R64, R66). In BURST
pacing the look-ahead follows (R109, R113; log entry 8). The history is min(P, n - 1) records, n the ring's records made since
the last switch, so that all of the segment is of the generation its descriptor names (R15, R90, R92); where a switch has left
older records in the ring, that these are not counted is the model's choice (log entry 19). -/
def Obligations.FiringOpensASegmentOnTheRing : Prop :=
  ∀ (q : Request) (e : ScanEntry) (v : Int) (o : Bool) (s : State) (rule priority number fill n p f page : Nat)
    (older : List Nat), Answered q e v s → e.discard = false → s.aqs.state = .running →
    fillingSegment s = none → s.sgm.holdoff = 0 → s.sgm.table.length < 32 → s.sgm.nextNumber < 65536 →
    FirstFree s number →
    firingsOf e.channel (seen v s) s.aqs.forcePending s.tgm.rules.toList = [⟨rule, priority, .capture⟩] →
    s.sst.ring = older ++ [page] → s.sst.ringFill = some fill → fill < 32 → 2 ≤ s.sgm.settings.postRequested →
    n = 32 * older.length + fill + 1 →
    p = min s.sgm.settings.preRequested (min n (s.aqs.sinceSwitch + 1) - 1) → f = n - 1 - p →
    ∃ (t u : State) (errors : Nat), exec (.converterAnswer v o q.tag) s = .next t ∧
      PacingGoesOn q.entry e.hold u t ∧ SlotWritten page fill (answerRecord q e v o s) s u ∧
      errors = ((List.range (p + 1)).filter (fun i =>
        (slotRecord u (s.sst.ring.getD ((f + i) / 32) 0 * 32 + (f + i) % 32)).err)).length ∧
      SameButSlots u
        { evaluated e.channel v (handed (answered s)) with
          sgm := { s.sgm with
            table := s.sgm.table ++ [
              { number := number, run := s.aqs.run, primaryRule := rule, primaryPriority := priority,
                triggerTick := s.aqs.convTick, triggerEntry := q.entry, generation := s.sct.generation,
                preRequested := s.sgm.settings.preRequested, preTaken := p,
                postRequested := s.sgm.settings.postRequested, postTaken := 1,
                maxLength := s.sgm.settings.maxLength, state := .filling,
                flags := { noFlags with
                  shortPre := decide (p < s.sgm.settings.preRequested), errsamp := decide (0 < errors) },
                errCount := errors, secondary := [], secondaryOverflow := 0, pages := s.sst.ring.drop (f / 32),
                firstOffset := f % 32 }],
            nextNumber := (number + 1) % 65536, trgout := true,
            pulseTimer := some s.sgm.settings.pulseWidth },
          sst := withReturn s.sgm.settings.lowWatermark (s.sst.ring.take (f / 32))
            { s.sst with ring := [], ringFill := none },
          rpe := withEvent
            (.trigger rule s.aqs.convTick q.entry v .opened (some number)) s.rpe }

/-- CONVERSION_TIMEOUT completes: the consecutive and total counts rise, and the ERR record, with value 0, is dropped for a DISCARD
entry, or stored: in the ring by the cases of R8, unplaced and counted as lost, or in the FILLING segment, where it is counted
as an error record and may complete the window; with no page to be had it is lost and the segment closes as the policy has it
(R119, R113, R8, R10, R13, R31, R34, R37). It is not evaluated, so no rule moves and the latch and FORCE stay (R52). Then,
below the threshold, pacing goes on (R109, R113; log entries 8 and 16); at it, CVFAULT with the counts is queued, a FILLING
segment closes with TRUNCATED and HALTEND, and HALTED is entered for CONVERTER, the pacer stopped with it, unless the record
has ended the run, when CVFAULT alone follows (R122, R39, R98, R100). With no request in flight or the timer stopped nothing
changes (the model's choice, log entry 4).
The count of records since a switch that goes with it is the model's own (log entry 19). -/
def Obligations.TimeoutMakesAnErrRecordOrHalts : Prop :=
  (∀ (q : Request) (e : ScanEntry) (tm : Nat) (s : State), s.cvp.inFlight = some q → s.cvp.timer = some tm →
     s.sct.active[q.entry]? = some e →
     (e.discard = true → ∃ t, exec .conversionTimeout s = .next t ∧ TimeoutEnds q e s (timedOut s) t) ∧
     (e.discard = false → fillingSegment s = none → ∀ page slot w, RingPlaced page slot (handed (timedOut s)) w →
       ∃ x t, exec .conversionTimeout s = .next t ∧ SlotWritten page slot (errRecord q e s) s x ∧ SameButSlots x w ∧
         TimeoutEnds q e s x t) ∧
     (e.discard = false → fillingSegment s = none → s.sst.ring = [] → s.sst.pool = [] →
       ∃ t, exec .conversionTimeout s = .next t ∧
         TimeoutEnds q e s
           { handed (timedOut s) with sst := { s.sst with historyLoss := min 65535 (s.sst.historyLoss + 1) } } t) ∧
     (∀ d, e.discard = false → fillingSegment s = some d →
       (∀ page slot w v, SegmentPlaced d page slot (handed (timedOut s)) w →
         v = { w with
           sgm := withFilling (fun x => { x with
             postTaken := x.postTaken + 1, errCount := x.errCount + 1, flags := { x.flags with errsamp := true } }) w.sgm } →
         (d.postTaken + 1 ≠ d.postRequested →
           ∃ x t, exec .conversionTimeout s = .next t ∧ SlotWritten page slot (errRecord q e s) s x ∧ SameButSlots x v ∧
             TimeoutEnds q e s x t) ∧
         (d.postTaken + 1 = d.postRequested →
           ∃ x z t, SlotWritten page slot (errRecord q e s) s x ∧ SameButSlots x v ∧ Closes false x z ∧
             exec .conversionTimeout s = .next t ∧ TimeoutEnds q e s z t)) ∧
       (d.pages.length ≤ placeIn d / 32 → NoPageFor d.primaryPriority s →
         ∀ w, w = { handed (timedOut s) with sst := { s.sst with historyLoss := min 65535 (s.sst.historyLoss + 1) } } →
         (s.sgm.settings.exhaustion ≠ .halt →
           ∃ z t, Closes true w z ∧ exec .conversionTimeout s = .next t ∧ TimeoutEnds q e s z t) ∧
         (s.sgm.settings.exhaustion = .halt → acquiring s = true → RunShape s →
           ∃ z t, Entered .halted .starved { w with sgm := withHaltEnd s.sgm } z ∧ exec .conversionTimeout s = .next t ∧
             TimeoutEnds q e s z t)))) ∧
  ∀ s : State, s.cvp.inFlight = none ∨ s.cvp.timer = none → exec .conversionTimeout s = .next s

/-! ## Triggers (chapter 3) and firings (chapter 2) -/

/-- The lines complete: a rising edge of TRGIN makes the line high and sets the latch in RUNNING only (R62); a falling edge makes
it low and keeps the latch; TRGOUT goes low when its pulse timer expires (R47), and with that timer stopped nothing changes
(the model's choice, log entry 4). That a rising edge sets the latch whatever level the line held is the model's choice (log
entry 12). -/
def Obligations.TriggerLinesMoveLatchAndPulse : Prop :=
  (∀ s : State, s.aqs.state = .running →
    exec .trginRisingEdge s = .next { s with trgin := true, tgm := { s.tgm with latch := true } }) ∧
  (∀ s : State, s.aqs.state ≠ .running → exec .trginRisingEdge s = .next { s with trgin := true }) ∧
  (∀ s : State, exec .trginFallingEdge s = .next { s with trgin := false }) ∧
  (∀ (s : State) (w : Nat), s.sgm.pulseTimer = some w →
    exec .trgoutPulseExpiry s = .next { s with sgm := { s.sgm with trgout := false, pulseTimer := none } }) ∧
  ∀ s : State, s.sgm.pulseTimer = none → exec .trgoutPulseExpiry s = .next s

/-- How one evaluated record moves a rule (R52, R56 to R60): a rule in OFF or on another channel is left; ARMED fires at once
with Q = 1 and else qualifies; QUALIFYING counts while the level part holds, fires at Q, and is ARMED when the level part
fails; FIRED returns to ARMED under AUTO on the clear part. A firing counts up to 65535. The previous value is the record's,
but for EXTERNAL. -/
def Obligations.RuleMovesOnARecord : Prop :=
  ∀ (channel : Nat) (x : Seen) (r after : Rule),
    after = evaluateRule channel x r →
    (r.state = .off ∨ (r.fields.condition ≠ .external ∧ r.fields.channel ≠ some channel) → after = r) ∧
    (r.state ≠ .off → r.fields.condition = .external ∨ r.fields.channel = some channel →
      after.fields = r.fields ∧
      after.previous = (if r.fields.condition = .external then r.previous else some x.value) ∧
      (r.state = .armed → firingPart r.fields r.previous x = true →
        (r.fields.qualify = 1 →
          after.state = .fired ∧ after.progress = 0 ∧ after.fireCount = min 65535 (r.fireCount + 1)) ∧
        (r.fields.qualify ≠ 1 →
          after.state = .qualifying ∧ after.progress = 1 ∧ after.fireCount = r.fireCount)) ∧
      (r.state = .armed → firingPart r.fields r.previous x = false →
        after.state = .armed ∧ after.progress = r.progress ∧ after.fireCount = r.fireCount) ∧
      (r.state = .qualifying → levelPart r.fields x.value x.line = true →
        (r.fields.qualify ≤ r.progress + 1 →
          after.state = .fired ∧ after.progress = 0 ∧ after.fireCount = min 65535 (r.fireCount + 1)) ∧
        (r.progress + 1 < r.fields.qualify →
          after.state = .qualifying ∧ after.progress = r.progress + 1 ∧ after.fireCount = r.fireCount)) ∧
      (r.state = .qualifying → levelPart r.fields x.value x.line = false →
        after.state = .armed ∧ after.progress = 0 ∧ after.fireCount = r.fireCount) ∧
      (r.state = .fired →
        after.fireCount = r.fireCount ∧
        (r.fields.rearm = .auto → clearPart r.fields x = true → after.state = .armed ∧ after.progress = 0) ∧
        (r.fields.rearm = .manual ∨ clearPart r.fields x = false →
          after.state = .fired ∧ after.progress = r.progress)))

/-- The table of R54, part by part, for legal fields, with sums formed without wrap (R53): the firing, level and clear part of each
of the seven conditions. The parts agree: a met firing part of a condition with a channel is a met level part; the clear part
is never met with the level part; RISING and FALLING never fire without a previous value, and never twice on values that
stay on one side of A. The test of RARM (R61): for EXTERNAL the line as sampled at the last evaluated record, for a rule with
a channel the level part on the previous value, not met when that is absent. -/
def Obligations.ConditionPartsAgree : Prop :=
  (∀ (f : RuleFields) (previous : Option Int) (x : Seen) (a h : Int), fieldsLegal f = true → a = f.thresholdA →
    h = (f.hysteresis : Int) →
    (f.condition = .above ∨ f.condition = .rising →
      (levelPart f x.value x.line = true ↔ a ≤ x.value) ∧ (clearPart f x = true ↔ x.value < a - h)) ∧
    (f.condition = .below ∨ f.condition = .falling →
      (levelPart f x.value x.line = true ↔ x.value ≤ a) ∧ (clearPart f x = true ↔ a + h < x.value)) ∧
    (f.condition = .above ∨ f.condition = .below ∨ f.condition = .inside ∨ f.condition = .outside →
      (firingPart f previous x = true ↔ levelPart f x.value x.line = true)) ∧
    (f.condition = .rising →
      (firingPart f previous x = true ↔ (∃ p, previous = some p ∧ p < a) ∧ a ≤ x.value)) ∧
    (f.condition = .falling →
      (firingPart f previous x = true ↔ (∃ p, previous = some p ∧ a < p) ∧ x.value ≤ a)) ∧
    (f.condition = .inside → ∃ b, f.thresholdB = some b ∧
      (levelPart f x.value x.line = true ↔ a ≤ x.value ∧ x.value ≤ b) ∧
      (clearPart f x = true ↔ x.value < a - h ∨ b + h < x.value)) ∧
    (f.condition = .outside → ∃ b, f.thresholdB = some b ∧
      (levelPart f x.value x.line = true ↔ x.value < a ∨ b < x.value) ∧
      (clearPart f x = true ↔ a + h ≤ x.value ∧ x.value ≤ b - h)) ∧
    (f.condition = .external →
      (firingPart f previous x = true ↔ x.latch = true) ∧ (levelPart f x.value x.line = true ↔ x.line = true) ∧
      (clearPart f x = true ↔ x.line = false))) ∧
  (∀ (f : RuleFields) (previous : Option Int) (x : Seen), fieldsLegal f = true →
    (f.condition ≠ .external → firingPart f previous x = true → levelPart f x.value x.line = true) ∧
    (clearPart f x = true → levelPart f x.value x.line = false) ∧
    (f.condition = .rising ∨ f.condition = .falling → firingPart f none x = false) ∧
    ∀ p, previous = some p → f.condition = .rising ∨ f.condition = .falling →
      levelPart f p x.line = true → firingPart f previous x = false) ∧
  ∀ (line : Bool) (r : Rule),
    (r.fields.condition = .external → levelAtLast line r = line) ∧
    (r.fields.condition ≠ .external → r.previous = none → levelAtLast line r = false) ∧
    (r.fields.condition ≠ .external → ∀ p, r.previous = some p → levelAtLast line r = levelPart r.fields p line)

/-- The firings of one record are those of the rules that see it and fire on it, with FORCE as rule 16 and priority 16 when the
record carries the mark, in descending priority and within a priority by ascending rule index (R59, R64, R65). CONVERTER_ANSWER
places the record, in the ring by R8, in the FILLING segment by R13, or not at all (R10), and deals with its firings one after
another in that order before anything else comes of it (R52, R65, R113). Only then a FILLING segment counts it and makes its
close check, a segment opened on it makes its close check, and an unplaced record on which none opened is counted as lost
(R10, R29, R31). Then pacing goes on (R109, R113; log entry 8).
The count of records since a switch that goes with it is the model's own (log entry 19). -/
def Obligations.FiringsAreOrderedByPriority : Prop :=
  (∀ (channel : Nat) (x : Seen) (force : Bool) (rules : List Rule), (∀ r ∈ rules, r.fields.priority ≤ 15) →
    (firingsOf channel x force rules).Pairwise
      (fun a b => b.priority < a.priority ∨ (a.priority = b.priority ∧ a.rule < b.rule)) ∧
    ∀ g : Firing, g ∈ firingsOf channel x force rules ↔
      (force = true ∧ g = ⟨16, 16, .capture⟩) ∨
        ∃ r, rules[g.rule]? = some r ∧ sees channel r = true ∧ fires x r = true ∧
          g = ⟨g.rule, r.fields.priority, r.fields.action⟩) ∧
  ∀ (q : Request) (e : ScanEntry) (v : Int) (o : Bool) (s : State) (r : Record) (fs : List Firing), Answered q e v s →
    e.discard = false → r = answerRecord q e v o s →
    fs = firingsOf e.channel (seen v s) s.aqs.forcePending s.tgm.rules.toList →
    (fillingSegment s = none → ∀ page slot w, RingPlaced page slot (handed (answered s)) w →
      ∃ x ctx u z t, SlotWritten page slot r s x ∧ SameButSlots x (evaluated e.channel v w) ∧
        dealFirings ⟨r, s.aqs.convTick, .ring⟩ fs .first x = (ctx, u) ∧
        (ctx ≠ .opened → z = u) ∧ (ctx = .opened → CloseChecked u z) ∧
        exec (.converterAnswer v o q.tag) s = .next t ∧ PacingGoesOn q.entry e.hold z t) ∧
    (fillingSegment s = none → s.sst.ring = [] → s.sst.pool = [] →
      ∃ ctx u z t, dealFirings ⟨r, s.aqs.convTick, .unplaced⟩ fs .first (evaluated e.channel v (handed (answered s))) = (ctx, u) ∧
        (ctx ≠ .opened → z = { u with sst := { u.sst with historyLoss := min 65535 (u.sst.historyLoss + 1) } }) ∧
        (ctx = .opened → CloseChecked u z) ∧
        exec (.converterAnswer v o q.tag) s = .next t ∧ PacingGoesOn q.entry e.hold z t) ∧
    (∀ d page slot w, fillingSegment s = some d → SegmentPlaced d page slot (handed (answered s)) w →
      ∃ x ctx u z t, SlotWritten page slot r s x ∧ SameButSlots x (evaluated e.channel v w) ∧
        dealFirings ⟨r, s.aqs.convTick, .ring⟩ fs .first x = (ctx, u) ∧
        CloseChecked { u with sgm := withFilling (fun y => { y with postTaken := y.postTaken + 1 }) u.sgm } z ∧
        exec (.converterAnswer v o q.tag) s = .next t ∧ PacingGoesOn q.entry e.hold z t)

/-- What the segment manager makes of a capture firing, and the whole state it leaves (R27, R28, R29, R30, R32, R33, R67): DRAINING
in DRAINING; SECONDARY or EXTENDED with the segment's number while one is FILLING, listed or, with 4 entries listed, counted in
the overflow count; the shared refusal of an earlier firing on the record; HELD_OFF during holdoff; NO_DESCRIPTOR, counted,
when 32 descriptors are in use and none may be displaced; else OPENED, in a free descriptor or a displaced one, on the ring
by handover, on a page had for an unplaced record, or with no page (R15, R16, R38, R47). That the handover counts the ring's
records since the last switch only is the model's choice (R90, R92; log entry 19). The firings of a record are dealt with one
after another, each with the context the one before it left: a capture firing by these outcomes, a NOTE firing with outcome
NOTE, and each queues one TRIGGER report after what its outcome queued (R65, R66). -/
def Obligations.CaptureFiringOutcomes : Prop :=
  (∀ (rule priority : Nat) (t : TriggerInfo) (ctx : CaptureContext) (s : State),
    (s.aqs.state = .draining → captureFiring rule priority t ctx s = (⟨.draining, none, ctx⟩, s)) ∧
    (s.aqs.state ≠ .draining → ∀ d, fillingSegment s = some d → ∀ offset,
      offset = (if ctx = .opened then 0 else d.postTaken) →
      (s.sgm.settings.retrigger = .count →
        captureFiring rule priority t ctx s =
          (⟨.secondary, some d.number, ctx⟩,
            { s with sgm := withFilling (fun _ => { d with
                secondary :=
                  if d.secondary.length < 4 then d.secondary ++ [⟨rule, offset, .secondary⟩] else d.secondary,
                secondaryOverflow :=
                  if d.secondary.length < 4 then d.secondaryOverflow else min 255 (d.secondaryOverflow + 1) }) s.sgm })) ∧
      (s.sgm.settings.retrigger = .extend →
        captureFiring rule priority t ctx s =
          (⟨.extended, some d.number, ctx⟩,
            { s with sgm := withFilling (fun _ => { d with
                postRequested := min (offset + s.sgm.settings.postRequested) (d.maxLength - d.preTaken),
                flags := { d.flags with
                  extended := true,
                  limited :=
                    d.flags.limited || decide (d.maxLength - d.preTaken < offset + s.sgm.settings.postRequested) },
                secondary :=
                  if d.secondary.length < 4 then d.secondary ++ [⟨rule, offset, .extended⟩] else d.secondary,
                secondaryOverflow :=
                  if d.secondary.length < 4 then d.secondaryOverflow else min 255 (d.secondaryOverflow + 1) }) s.sgm }))) ∧
    (s.aqs.state ≠ .draining → fillingSegment s = none →
      (ctx = .refused .heldOff → captureFiring rule priority t ctx s = (⟨.heldOff, none, ctx⟩, s)) ∧
      (ctx = .refused .noDescriptor →
        captureFiring rule priority t ctx s =
          (⟨.noDescriptor, none, ctx⟩,
            { s with sgm := { s.sgm with noDescriptor := min 65535 (s.sgm.noDescriptor + 1) } })) ∧
      (ctx = .first → 0 < s.sgm.holdoff →
        captureFiring rule priority t ctx s = (⟨.heldOff, none, .refused .heldOff⟩, s)) ∧
      (ctx = .first → s.sgm.holdoff = 0 → 32 ≤ s.sgm.table.length →
        s.sgm.settings.exhaustion ≠ .displace ∨ (∀ d ∈ s.sgm.table, ¬ MayBeDisplaced priority false s d) →
        captureFiring rule priority t ctx s =
          (⟨.noDescriptor, none, .refused .noDescriptor⟩,
            { s with sgm := { s.sgm with noDescriptor := min 65535 (s.sgm.noDescriptor + 1) } })) ∧
      (ctx = .first → s.sgm.holdoff = 0 → ∀ (y : State) (number : Nat) (d : Descriptor),
        DescriptorGained priority s y → y.sgm.nextNumber < 65536 → FirstFree y number →
        d =
          { number := number, run := s.aqs.run, primaryRule := rule, primaryPriority := priority, triggerTick := t.tick,
            triggerEntry := t.record.entry, generation := s.sct.generation,
            preRequested := s.sgm.settings.preRequested, preTaken := 0, postRequested := s.sgm.settings.postRequested,
            postTaken := 0, maxLength := s.sgm.settings.maxLength, state := .filling,
            flags := { noFlags with shortPre := decide (0 < s.sgm.settings.preRequested) }, errCount := 0,
            secondary := [], secondaryOverflow := 0, pages := [], firstOffset := 0 } →
        ∃ u, captureFiring rule priority t ctx s = (⟨.opened, some number, .opened⟩, u) ∧
          (t.place = .ring → ∀ older newest fill n p f errors, s.sst.ring = older ++ [newest] →
            s.sst.ringFill = some fill → n = 32 * older.length + fill →
            p = min s.sgm.settings.preRequested (min n s.aqs.sinceSwitch - 1) → f = n - 1 - p →
            errors = ((List.range (p + 1)).filter (fun i =>
              (slotRecord s (s.sst.ring.getD ((f + i) / 32) 0 * 32 + (f + i) % 32)).err)).length →
            u = { y with
              sgm := { y.sgm with
                table := y.sgm.table ++ [{ d with
                  preTaken := p, postTaken := 1,
                  flags := { noFlags with
                    shortPre := decide (p < s.sgm.settings.preRequested), errsamp := decide (0 < errors) },
                  errCount := errors, pages := s.sst.ring.drop (f / 32), firstOffset := f % 32 }],
                nextNumber := (number + 1) % 65536, trgout := true, pulseTimer := some s.sgm.settings.pulseWidth },
              sst := withReturn s.sgm.settings.lowWatermark (s.sst.ring.take (f / 32))
                { y.sst with ring := [], ringFill := none } }) ∧
          (t.place = .unplaced → ∀ page z, PageGained priority page y z →
            SlotWritten page 0 t.record s u ∧
            SameButSlots u { z with
              sgm := { z.sgm with
                table := z.sgm.table ++ [{ d with postTaken := 1, pages := [page] }],
                nextNumber := (number + 1) % 65536, trgout := true,
                pulseTimer := some s.sgm.settings.pulseWidth } }) ∧
          (t.place = .unplaced → NoPageFor priority y →
            u = { y with
              sgm := { y.sgm with
                table := y.sgm.table ++ [{ d with
                  flags := { d.flags with
                    truncated := true, haltend := decide (s.sgm.settings.exhaustion = .halt) } }],
                nextNumber := (number + 1) % 65536, trgout := true,
                pulseTimer := some s.sgm.settings.pulseWidth },
              sst := { y.sst with historyLoss := min 65535 (y.sst.historyLoss + 1) } })))) ∧
  ∀ (t : TriggerInfo) (ctx : CaptureContext) (s : State),
    dealFirings t [] ctx s = (ctx, s) ∧
    ∀ (f : Firing) (fs : List Firing),
      (f.action = .note →
        dealFirings t (f :: fs) ctx s =
          dealFirings t fs ctx
            { s with rpe := withEvent (.trigger f.rule t.tick t.record.entry t.record.value .note none) s.rpe }) ∧
      (f.action = .capture → ∀ a u, captureFiring f.rule f.priority t ctx s = (a, u) →
        dealFirings t (f :: fs) ctx s =
          dealFirings t fs a.context
            { u with rpe := withEvent (.trigger f.rule t.tick t.record.entry t.record.value a.outcome a.segment) u.rpe })

/-- Displacement takes the oldest COMPLETE segment of lower priority that is not in the fetch queue, and for a page one that holds
a page; with none, none is displaced (R40, R41). -/
def Obligations.DisplacementTakesTheOldest : Prop :=
  ∀ (priority : Nat) (forPage : Bool) (s : State),
    (∀ before d after, s.sgm.table = before ++ d :: after →
      d.state = .complete → d.number ∉ s.rpe.fetch → d.primaryPriority < priority → (forPage = true → d.pages ≠ []) →
      (∀ x ∈ before, x.state ≠ .complete ∨ x.number ∈ s.rpe.fetch ∨ priority ≤ x.primaryPriority ∨
        (forPage = true ∧ x.pages = [])) →
      ∃ u, displaceOne priority forPage s = some u ∧ Discarded d .displaced s u ∧
        u.sgm = { s.sgm with table := before ++ after }) ∧
    ((∀ x ∈ s.sgm.table, x.state ≠ .complete ∨ x.number ∈ s.rpe.fetch ∨ priority ≤ x.primaryPriority ∨
        (forPage = true ∧ x.pages = [])) →
      displaceOne priority forPage s = none)

/-! ## Rules of the whole machine -/

/-- Only START begins a run: no other step brings acquisition into RUNNING or changes the run number, but for POWER_ON,
START_UP_END and RESET_TAKES_EFFECT, which set it to 0 (START_UP_END by log entry 10); and only STOP in RUNNING brings it into
DRAINING (R95, R97). The active table is fixed while a segment fills: a step after which a segment is still FILLING leaves the
active copy and the generation, in a state that meets the run invariant. Every record of a segment belongs to the one
generation named in its descriptor: every step keeps it that a FILLING segment names the generation in force and holds no
more records than were handed to the store since the last switch (R24, R90, R92). The count of these is the model's own, as is
that the handover follows it (log entry 19). -/
def Obligations.RunsBeginAndTablesSwitchOnlyWhereAllowed : Prop :=
  (∀ (i : Instr) (s t : State), exec i s = .next t →
     (t.aqs.state = .running → s.aqs.state ≠ .running → i = .start) ∧
     (t.aqs.run ≠ s.aqs.run →
       i = .start ∨
         (t.aqs.run = 0 ∧ ((∃ r1 r0, i = .powerOn r1 r0) ∨ i = .startUpEnd ∨ i = .resetTakesEffect))) ∧
     (t.aqs.state = .draining → s.aqs.state ≠ .draining → i = .stop ∧ s.aqs.state = .running)) ∧
  (∀ (i : Instr) (s t : State), RunShape s → PacingShape s → (fillingSegment s).isSome = true → exec i s = .next t →
     (fillingSegment t).isSome = true → t.sct.active = s.sct.active ∧ t.sct.generation = s.sct.generation) ∧
  StepKeeps (fun s => PacingShape s ∧ RunShape s) GenerationNamed

/-- No command stops the part in a state that meets the invariants: every step answers a next state. The two faults of the model
stand for references that R113 and R128 say always hold. -/
def Obligations.NoStepStops : Prop :=
  ∀ s : State, PacingShape s → ReferencesHold s → ∃ t, step s = .next t

/-! ## Invariants that every step keeps -/

/-- Every page is in exactly one of the pool, the ring and the page lists, so that together they always hold 256 pages (R3), and
the slot contents keep their one form, a list with rising addresses (the form is the model's choice, log entry 2). -/
def Obligations.StepKeepsEveryPageOwnedOnce : Prop :=
  StepKeeps anyState PagesPartitioned ∧ StepKeeps anyState SlotsInForm ∧
  ∀ s, PagesPartitioned s →
    s.sst.pool.length + s.sst.ring.length + (s.sgm.table.map (fun d => d.pages.length)).sum = 256

/-- The pacer, the conversion in flight, the pass, the FILLING segment, the ring, the scheduled commit, FORCE and holdoff stay in
their relation to the acquisition state (R7, R26, R36, R64, R86, R87, R94, R97, R109, R113, R116, R122). -/
def Obligations.StepKeepsTheRunShape : Prop :=
  StepKeeps anyState (fun s => PacingShape s ∧ RunShape s)

/-- The ring's fill count, the capture settings' ranges and the windows, counts, flags and pages of every segment stay as R7, R24,
R25, R31 and R34 have them. -/
def Obligations.StepKeepsTheWindows : Prop :=
  StepKeeps (fun s => PacingShape s ∧ RunShape s) (fun s => RingInForm s ∧ WindowsHold s)

/-- Every rule's fields stay in their ranges and its runtime state as R51, R56 and R58 have it. -/
def Obligations.StepKeepsTheRulesLegal : Prop := StepKeeps anyState RulesLegal

/-- The queues stay within their bounds and the outstanding reports consecutively numbered (R129, R133, R134). The ack timer runs
exactly in OPEN with reports outstanding; CLOSED has nothing outstanding and no delivery; the retry count is below 4 but in a
stall (R149, R165, R166, R167). The fetch queue keeps at most 8 distinct numbers of COMPLETE segments (R143). -/
def Obligations.StepKeepsTheReportEngine : Prop :=
  (StepKeeps anyState ReportShape) ∧
  (StepKeeps anyState SessionShape) ∧
  (StepKeeps anyState FetchShape)

/-- Segment numbers stay distinct, every reference in either queue names a segment that is SENDING or SENT, no report of a segment
stands behind its SEGEND, and the slot holds the one SENDING segment (R22, R23, R128, R136, R137, R139). -/
def Obligations.StepKeepsTheReferences : Prop := StepKeeps anyState ReferencesHold

/-- The receiver's buffer fits its phase and the gap timer runs exactly in ASSEMBLING; the reply buffer with CMP's place, the
command queue and the cache stay within their bounds (R149, R151, R152, R155, R159, R173, R176). -/
def Obligations.StepKeepsTheLink : Prop := StepKeeps anyState LinkShape

/-! ## Openings on an unplaced trigger record -/

/-- A capture firing on an unplaced record (ring and pool empty) with no segment FILLING and no holdoff opens a segment with no
history, in a free descriptor or, under DISPLACE with all 32 in use, in that of the oldest segment that may be displaced; its
number is the first that no descriptor in use holds (R16, R23, R28, R29, R38, R40). Its first page is the pool head, which a
displacement for the descriptor may have filled, or under DISPLACE comes from a segment displaced for it; the record stands in
its slot 0. With no page to be had the record is lost and counted, the outcome is still OPENED, and the segment, with no page,
is COMPLETE with TRUNCATED: the run goes on with holdoff in CONTINUOUS and ends in SINGLE; under HALT the segment has HALTEND
and HALTED is entered for STARVED. TRGOUT pulses in every case (R47), and pacing goes on (R109, R113; log entry 8).
The count of records since a switch that goes with it is the model's own (log entry 19). -/
def Obligations.UnplacedTriggerRecordOpensASegment : Prop :=
  ∀ (q : Request) (e : ScanEntry) (v : Int) (o : Bool) (s y : State) (rule priority number : Nat) (d : Descriptor),
    Answered q e v s → e.discard = false → s.aqs.state = .running → fillingSegment s = none → s.sgm.holdoff = 0 →
    s.sgm.nextNumber < 65536 → s.sst.ring = [] → s.sst.pool = [] →
    firingsOf e.channel (seen v s) s.aqs.forcePending s.tgm.rules.toList = [⟨rule, priority, .capture⟩] →
    DescriptorGained priority (evaluated e.channel v (handed (answered s))) y → FirstFree y number →
    d =
      { number := number, run := s.aqs.run, primaryRule := rule, primaryPriority := priority,
        triggerTick := s.aqs.convTick, triggerEntry := q.entry, generation := s.sct.generation,
        preRequested := s.sgm.settings.preRequested, preTaken := 0, postRequested := s.sgm.settings.postRequested,
        postTaken := 0, maxLength := s.sgm.settings.maxLength, state := .filling,
        flags := { noFlags with shortPre := decide (0 < s.sgm.settings.preRequested) }, errCount := 0, secondary := [],
        secondaryOverflow := 0, pages := [], firstOffset := 0 } →
    (∀ page z, PageGained priority page y z → 2 ≤ s.sgm.settings.postRequested →
      ∃ t u, exec (.converterAnswer v o q.tag) s = .next t ∧ PacingGoesOn q.entry e.hold u t ∧
        SlotWritten page 0 (answerRecord q e v o s) s u ∧
        SameButSlots u
          { z with
            sgm := { z.sgm with
              table := z.sgm.table ++ [{ d with postTaken := 1, pages := [page] }], nextNumber := (number + 1) % 65536,
              trgout := true, pulseTimer := some s.sgm.settings.pulseWidth },
            rpe := withEvent (.trigger rule s.aqs.convTick q.entry v .opened (some number)) z.rpe }) ∧
    (NoPageFor priority y →
      ∀ w,
        w = { y with
          sgm := { y.sgm with
            table := y.sgm.table ++ [{ d with
              state := .complete,
              flags := { d.flags with truncated := true, haltend := decide (s.sgm.settings.exhaustion = .halt) } }],
            nextNumber := (number + 1) % 65536, trgout := true, pulseTimer := some s.sgm.settings.pulseWidth },
          sst := { y.sst with historyLoss := min 65535 (y.sst.historyLoss + 1) },
          rpe := withEvent (.trigger rule s.aqs.convTick q.entry v .opened (some number)) y.rpe } →
        ∃ t, exec (.converterAnswer v o q.tag) s = .next t ∧
          (s.sgm.settings.exhaustion ≠ .halt → s.sgm.settings.captureMode = .continuous →
            PacingGoesOn q.entry e.hold { w with sgm := { w.sgm with holdoff := s.sgm.settings.holdoff } } t) ∧
          (s.sgm.settings.exhaustion ≠ .halt → s.sgm.settings.captureMode = .single → Entered .idle .singleDone w t) ∧
          (s.sgm.settings.exhaustion = .halt → Entered .halted .starved w t))

end
end

