-- ==== Sys2Proof/Laws/State.lean ====
section
/-! SUPPORT. What each update of one part of the state leaves and sets, one lemma per field per update. -/

namespace Sys2Proof.Machine

@[simp] theorem State.setSst_power (s : State) (x : Sst) : (s.setSst x).power = s.power := rfl
@[simp] theorem State.setSst_trgin (s : State) (x : Sst) : (s.setSst x).trgin = s.trgin := rfl
@[simp] theorem State.setSst_powerOns (s : State) (x : Sst) : (s.setSst x).powerOns = s.powerOns := rfl
@[simp] theorem State.setSst_sst (s : State) (x : Sst) : (s.setSst x).sst = x := rfl
@[simp] theorem State.setSst_sgm (s : State) (x : Sst) : (s.setSst x).sgm = s.sgm := rfl
@[simp] theorem State.setSst_tgm (s : State) (x : Sst) : (s.setSst x).tgm = s.tgm := rfl
@[simp] theorem State.setSst_sct (s : State) (x : Sst) : (s.setSst x).sct = s.sct := rfl
@[simp] theorem State.setSst_aqs (s : State) (x : Sst) : (s.setSst x).aqs = s.aqs := rfl
@[simp] theorem State.setSst_cvp (s : State) (x : Sst) : (s.setSst x).cvp = s.cvp := rfl
@[simp] theorem State.setSst_rpe (s : State) (x : Sst) : (s.setSst x).rpe = s.rpe := rfl
@[simp] theorem State.setSst_lki (s : State) (x : Sst) : (s.setSst x).lki = s.lki := rfl
@[simp] theorem State.setSst_cmp (s : State) (x : Sst) : (s.setSst x).cmp = s.cmp := rfl
@[simp] theorem State.setSst_pending (s : State) (x : Sst) : (s.setSst x).pending = s.pending := rfl

@[simp] theorem State.setSgm_power (s : State) (x : Sgm) : (s.setSgm x).power = s.power := rfl
@[simp] theorem State.setSgm_trgin (s : State) (x : Sgm) : (s.setSgm x).trgin = s.trgin := rfl
@[simp] theorem State.setSgm_powerOns (s : State) (x : Sgm) : (s.setSgm x).powerOns = s.powerOns := rfl
@[simp] theorem State.setSgm_sst (s : State) (x : Sgm) : (s.setSgm x).sst = s.sst := rfl
@[simp] theorem State.setSgm_sgm (s : State) (x : Sgm) : (s.setSgm x).sgm = x := rfl
@[simp] theorem State.setSgm_tgm (s : State) (x : Sgm) : (s.setSgm x).tgm = s.tgm := rfl
@[simp] theorem State.setSgm_sct (s : State) (x : Sgm) : (s.setSgm x).sct = s.sct := rfl
@[simp] theorem State.setSgm_aqs (s : State) (x : Sgm) : (s.setSgm x).aqs = s.aqs := rfl
@[simp] theorem State.setSgm_cvp (s : State) (x : Sgm) : (s.setSgm x).cvp = s.cvp := rfl
@[simp] theorem State.setSgm_rpe (s : State) (x : Sgm) : (s.setSgm x).rpe = s.rpe := rfl
@[simp] theorem State.setSgm_lki (s : State) (x : Sgm) : (s.setSgm x).lki = s.lki := rfl
@[simp] theorem State.setSgm_cmp (s : State) (x : Sgm) : (s.setSgm x).cmp = s.cmp := rfl
@[simp] theorem State.setSgm_pending (s : State) (x : Sgm) : (s.setSgm x).pending = s.pending := rfl

@[simp] theorem State.setTgm_power (s : State) (x : Tgm) : (s.setTgm x).power = s.power := rfl
@[simp] theorem State.setTgm_trgin (s : State) (x : Tgm) : (s.setTgm x).trgin = s.trgin := rfl
@[simp] theorem State.setTgm_powerOns (s : State) (x : Tgm) : (s.setTgm x).powerOns = s.powerOns := rfl
@[simp] theorem State.setTgm_sst (s : State) (x : Tgm) : (s.setTgm x).sst = s.sst := rfl
@[simp] theorem State.setTgm_sgm (s : State) (x : Tgm) : (s.setTgm x).sgm = s.sgm := rfl
@[simp] theorem State.setTgm_tgm (s : State) (x : Tgm) : (s.setTgm x).tgm = x := rfl
@[simp] theorem State.setTgm_sct (s : State) (x : Tgm) : (s.setTgm x).sct = s.sct := rfl
@[simp] theorem State.setTgm_aqs (s : State) (x : Tgm) : (s.setTgm x).aqs = s.aqs := rfl
@[simp] theorem State.setTgm_cvp (s : State) (x : Tgm) : (s.setTgm x).cvp = s.cvp := rfl
@[simp] theorem State.setTgm_rpe (s : State) (x : Tgm) : (s.setTgm x).rpe = s.rpe := rfl
@[simp] theorem State.setTgm_lki (s : State) (x : Tgm) : (s.setTgm x).lki = s.lki := rfl
@[simp] theorem State.setTgm_cmp (s : State) (x : Tgm) : (s.setTgm x).cmp = s.cmp := rfl
@[simp] theorem State.setTgm_pending (s : State) (x : Tgm) : (s.setTgm x).pending = s.pending := rfl

@[simp] theorem State.setSct_power (s : State) (x : Sct) : (s.setSct x).power = s.power := rfl
@[simp] theorem State.setSct_trgin (s : State) (x : Sct) : (s.setSct x).trgin = s.trgin := rfl
@[simp] theorem State.setSct_powerOns (s : State) (x : Sct) : (s.setSct x).powerOns = s.powerOns := rfl
@[simp] theorem State.setSct_sst (s : State) (x : Sct) : (s.setSct x).sst = s.sst := rfl
@[simp] theorem State.setSct_sgm (s : State) (x : Sct) : (s.setSct x).sgm = s.sgm := rfl
@[simp] theorem State.setSct_tgm (s : State) (x : Sct) : (s.setSct x).tgm = s.tgm := rfl
@[simp] theorem State.setSct_sct (s : State) (x : Sct) : (s.setSct x).sct = x := rfl
@[simp] theorem State.setSct_aqs (s : State) (x : Sct) : (s.setSct x).aqs = s.aqs := rfl
@[simp] theorem State.setSct_cvp (s : State) (x : Sct) : (s.setSct x).cvp = s.cvp := rfl
@[simp] theorem State.setSct_rpe (s : State) (x : Sct) : (s.setSct x).rpe = s.rpe := rfl
@[simp] theorem State.setSct_lki (s : State) (x : Sct) : (s.setSct x).lki = s.lki := rfl
@[simp] theorem State.setSct_cmp (s : State) (x : Sct) : (s.setSct x).cmp = s.cmp := rfl
@[simp] theorem State.setSct_pending (s : State) (x : Sct) : (s.setSct x).pending = s.pending := rfl

@[simp] theorem State.setAqs_power (s : State) (x : Aqs) : (s.setAqs x).power = s.power := rfl
@[simp] theorem State.setAqs_trgin (s : State) (x : Aqs) : (s.setAqs x).trgin = s.trgin := rfl
@[simp] theorem State.setAqs_powerOns (s : State) (x : Aqs) : (s.setAqs x).powerOns = s.powerOns := rfl
@[simp] theorem State.setAqs_sst (s : State) (x : Aqs) : (s.setAqs x).sst = s.sst := rfl
@[simp] theorem State.setAqs_sgm (s : State) (x : Aqs) : (s.setAqs x).sgm = s.sgm := rfl
@[simp] theorem State.setAqs_tgm (s : State) (x : Aqs) : (s.setAqs x).tgm = s.tgm := rfl
@[simp] theorem State.setAqs_sct (s : State) (x : Aqs) : (s.setAqs x).sct = s.sct := rfl
@[simp] theorem State.setAqs_aqs (s : State) (x : Aqs) : (s.setAqs x).aqs = x := rfl
@[simp] theorem State.setAqs_cvp (s : State) (x : Aqs) : (s.setAqs x).cvp = s.cvp := rfl
@[simp] theorem State.setAqs_rpe (s : State) (x : Aqs) : (s.setAqs x).rpe = s.rpe := rfl
@[simp] theorem State.setAqs_lki (s : State) (x : Aqs) : (s.setAqs x).lki = s.lki := rfl
@[simp] theorem State.setAqs_cmp (s : State) (x : Aqs) : (s.setAqs x).cmp = s.cmp := rfl
@[simp] theorem State.setAqs_pending (s : State) (x : Aqs) : (s.setAqs x).pending = s.pending := rfl

@[simp] theorem State.setCvp_power (s : State) (x : Cvp) : (s.setCvp x).power = s.power := rfl
@[simp] theorem State.setCvp_trgin (s : State) (x : Cvp) : (s.setCvp x).trgin = s.trgin := rfl
@[simp] theorem State.setCvp_powerOns (s : State) (x : Cvp) : (s.setCvp x).powerOns = s.powerOns := rfl
@[simp] theorem State.setCvp_sst (s : State) (x : Cvp) : (s.setCvp x).sst = s.sst := rfl
@[simp] theorem State.setCvp_sgm (s : State) (x : Cvp) : (s.setCvp x).sgm = s.sgm := rfl
@[simp] theorem State.setCvp_tgm (s : State) (x : Cvp) : (s.setCvp x).tgm = s.tgm := rfl
@[simp] theorem State.setCvp_sct (s : State) (x : Cvp) : (s.setCvp x).sct = s.sct := rfl
@[simp] theorem State.setCvp_aqs (s : State) (x : Cvp) : (s.setCvp x).aqs = s.aqs := rfl
@[simp] theorem State.setCvp_cvp (s : State) (x : Cvp) : (s.setCvp x).cvp = x := rfl
@[simp] theorem State.setCvp_rpe (s : State) (x : Cvp) : (s.setCvp x).rpe = s.rpe := rfl
@[simp] theorem State.setCvp_lki (s : State) (x : Cvp) : (s.setCvp x).lki = s.lki := rfl
@[simp] theorem State.setCvp_cmp (s : State) (x : Cvp) : (s.setCvp x).cmp = s.cmp := rfl
@[simp] theorem State.setCvp_pending (s : State) (x : Cvp) : (s.setCvp x).pending = s.pending := rfl

@[simp] theorem State.setRpe_power (s : State) (x : Rpe) : (s.setRpe x).power = s.power := rfl
@[simp] theorem State.setRpe_trgin (s : State) (x : Rpe) : (s.setRpe x).trgin = s.trgin := rfl
@[simp] theorem State.setRpe_powerOns (s : State) (x : Rpe) : (s.setRpe x).powerOns = s.powerOns := rfl
@[simp] theorem State.setRpe_sst (s : State) (x : Rpe) : (s.setRpe x).sst = s.sst := rfl
@[simp] theorem State.setRpe_sgm (s : State) (x : Rpe) : (s.setRpe x).sgm = s.sgm := rfl
@[simp] theorem State.setRpe_tgm (s : State) (x : Rpe) : (s.setRpe x).tgm = s.tgm := rfl
@[simp] theorem State.setRpe_sct (s : State) (x : Rpe) : (s.setRpe x).sct = s.sct := rfl
@[simp] theorem State.setRpe_aqs (s : State) (x : Rpe) : (s.setRpe x).aqs = s.aqs := rfl
@[simp] theorem State.setRpe_cvp (s : State) (x : Rpe) : (s.setRpe x).cvp = s.cvp := rfl
@[simp] theorem State.setRpe_rpe (s : State) (x : Rpe) : (s.setRpe x).rpe = x := rfl
@[simp] theorem State.setRpe_lki (s : State) (x : Rpe) : (s.setRpe x).lki = s.lki := rfl
@[simp] theorem State.setRpe_cmp (s : State) (x : Rpe) : (s.setRpe x).cmp = s.cmp := rfl
@[simp] theorem State.setRpe_pending (s : State) (x : Rpe) : (s.setRpe x).pending = s.pending := rfl

@[simp] theorem State.setLki_power (s : State) (x : Lki) : (s.setLki x).power = s.power := rfl
@[simp] theorem State.setLki_trgin (s : State) (x : Lki) : (s.setLki x).trgin = s.trgin := rfl
@[simp] theorem State.setLki_powerOns (s : State) (x : Lki) : (s.setLki x).powerOns = s.powerOns := rfl
@[simp] theorem State.setLki_sst (s : State) (x : Lki) : (s.setLki x).sst = s.sst := rfl
@[simp] theorem State.setLki_sgm (s : State) (x : Lki) : (s.setLki x).sgm = s.sgm := rfl
@[simp] theorem State.setLki_tgm (s : State) (x : Lki) : (s.setLki x).tgm = s.tgm := rfl
@[simp] theorem State.setLki_sct (s : State) (x : Lki) : (s.setLki x).sct = s.sct := rfl
@[simp] theorem State.setLki_aqs (s : State) (x : Lki) : (s.setLki x).aqs = s.aqs := rfl
@[simp] theorem State.setLki_cvp (s : State) (x : Lki) : (s.setLki x).cvp = s.cvp := rfl
@[simp] theorem State.setLki_rpe (s : State) (x : Lki) : (s.setLki x).rpe = s.rpe := rfl
@[simp] theorem State.setLki_lki (s : State) (x : Lki) : (s.setLki x).lki = x := rfl
@[simp] theorem State.setLki_cmp (s : State) (x : Lki) : (s.setLki x).cmp = s.cmp := rfl
@[simp] theorem State.setLki_pending (s : State) (x : Lki) : (s.setLki x).pending = s.pending := rfl

@[simp] theorem State.setCmp_power (s : State) (x : Cmp) : (s.setCmp x).power = s.power := rfl
@[simp] theorem State.setCmp_trgin (s : State) (x : Cmp) : (s.setCmp x).trgin = s.trgin := rfl
@[simp] theorem State.setCmp_powerOns (s : State) (x : Cmp) : (s.setCmp x).powerOns = s.powerOns := rfl
@[simp] theorem State.setCmp_sst (s : State) (x : Cmp) : (s.setCmp x).sst = s.sst := rfl
@[simp] theorem State.setCmp_sgm (s : State) (x : Cmp) : (s.setCmp x).sgm = s.sgm := rfl
@[simp] theorem State.setCmp_tgm (s : State) (x : Cmp) : (s.setCmp x).tgm = s.tgm := rfl
@[simp] theorem State.setCmp_sct (s : State) (x : Cmp) : (s.setCmp x).sct = s.sct := rfl
@[simp] theorem State.setCmp_aqs (s : State) (x : Cmp) : (s.setCmp x).aqs = s.aqs := rfl
@[simp] theorem State.setCmp_cvp (s : State) (x : Cmp) : (s.setCmp x).cvp = s.cvp := rfl
@[simp] theorem State.setCmp_rpe (s : State) (x : Cmp) : (s.setCmp x).rpe = s.rpe := rfl
@[simp] theorem State.setCmp_lki (s : State) (x : Cmp) : (s.setCmp x).lki = s.lki := rfl
@[simp] theorem State.setCmp_cmp (s : State) (x : Cmp) : (s.setCmp x).cmp = x := rfl
@[simp] theorem State.setCmp_pending (s : State) (x : Cmp) : (s.setCmp x).pending = s.pending := rfl

@[simp] theorem State.setPending_power (s : State) (x : List Instr) : (s.setPending x).power = s.power := rfl
@[simp] theorem State.setPending_trgin (s : State) (x : List Instr) : (s.setPending x).trgin = s.trgin := rfl
@[simp] theorem State.setPending_powerOns (s : State) (x : List Instr) : (s.setPending x).powerOns = s.powerOns := rfl
@[simp] theorem State.setPending_sst (s : State) (x : List Instr) : (s.setPending x).sst = s.sst := rfl
@[simp] theorem State.setPending_sgm (s : State) (x : List Instr) : (s.setPending x).sgm = s.sgm := rfl
@[simp] theorem State.setPending_tgm (s : State) (x : List Instr) : (s.setPending x).tgm = s.tgm := rfl
@[simp] theorem State.setPending_sct (s : State) (x : List Instr) : (s.setPending x).sct = s.sct := rfl
@[simp] theorem State.setPending_aqs (s : State) (x : List Instr) : (s.setPending x).aqs = s.aqs := rfl
@[simp] theorem State.setPending_cvp (s : State) (x : List Instr) : (s.setPending x).cvp = s.cvp := rfl
@[simp] theorem State.setPending_rpe (s : State) (x : List Instr) : (s.setPending x).rpe = s.rpe := rfl
@[simp] theorem State.setPending_lki (s : State) (x : List Instr) : (s.setPending x).lki = s.lki := rfl
@[simp] theorem State.setPending_cmp (s : State) (x : List Instr) : (s.setPending x).cmp = s.cmp := rfl
@[simp] theorem State.setPending_pending (s : State) (x : List Instr) : (s.setPending x).pending = x := rfl

end Sys2Proof.Machine
end

