-- ==== Sys2Proof/Laws/Commands.lean ====
section
/-! SUPPORT. What the stages of a command do (R173, R176 to R179), said once: each lemma takes one way through
`dealWith`. -/

namespace Sys2Proof.Machine

variable {c : CommandFrame} {code : Byte} {args : List Byte} {s : State}

theorem finishCommand_eq (a : Answer) : finishCommand c code a s = replied c code a.result a.fields s := rfl

/-- A command that passes the length and session checks is its owner's. -/
theorem dealWith_owner {lengthOk : List Byte → Bool} {inClosed : Bool} {owner : List Byte → State → Answer × State}
    (h : Taken c code args s) (hl : lengthOk args = true) (hs : s.lki.session ≠ .closed ∨ inClosed = true) :
    dealWith code lengthOk inClosed owner s =
      replied c code (owner args s).1.result (owner args s).1.fields (owner args s).2 := by
  have hc : ¬(s.lki.session = .closed ∧ inClosed = false) := by
    rintro ⟨h1, h2⟩
    rcases hs with h3 | h3
    · exact h3 h1
    · simp [h2] at h3
  simp only [dealWith, h.held, h.payload, h.fresh, hl, if_true, if_neg hc, finishCommand_eq]

/-- A wrong number of argument bytes. -/
theorem dealWith_badlen {lengthOk : List Byte → Bool} {inClosed : Bool} {owner : List Byte → State → Answer × State}
    (h : Taken c code args s) (hl : lengthOk args = false) :
    dealWith code lengthOk inClosed owner s = replied c code .badlen [] s := by
  simp [dealWith, h.held, h.payload, h.fresh, hl, finishCommand_eq, refuse]

/-- A command that CLOSED refuses. -/
theorem dealWith_session {lengthOk : List Byte → Bool} {owner : List Byte → State → Answer × State}
    (h : Taken c code args s) (hl : lengthOk args = true) (hs : s.lki.session = .closed) :
    dealWith code lengthOk false owner s = replied c code .session [] s := by
  simp [dealWith, h.held, h.payload, h.fresh, hl, hs, finishCommand_eq, refuse]

/-- A repeat. -/
theorem dealWith_repeat {lengthOk : List Byte → Bool} {inClosed : Bool} {owner : List Byte → State → Answer × State}
    {r : Reply} (h : s.cmp.taken = some c) (hp : c.payload = code :: args) (hr : cachedReply c s = some r) :
    dealWith code lengthOk inClosed owner s = answerRepeat r s := by
  simp [dealWith, h, hp, hr]

/-- The cached reply of a tagged command whose tag is cached. -/
theorem cachedReply_same {r : Reply} (ht : c.tag ≠ 0) (hc : s.cmp.cache = some (c.tag, r)) : cachedReply c s = some r := by
  simpa [cachedReply, hc] using ht

/-- What a command's step can leave: the state as it was, a repeat's answer, or a reply on the owner's state or on this one. -/
theorem dealWith_cases {lengthOk : List Byte → Bool} {inClosed : Bool} (owner : List Byte → State → Answer × State) :
    dealWith code lengthOk inClosed owner s = s ∨
    (∃ r, dealWith code lengthOk inClosed owner s = answerRepeat r s) ∨
    (∃ c args r, s.cmp.taken = some c ∧ dealWith code lengthOk inClosed owner s = replied c code r [] s ∧
      c.payload = code :: args) ∨
    ∃ c args, s.cmp.taken = some c ∧ c.payload = code :: args ∧ lengthOk args = true ∧
      (s.lki.session ≠ .closed ∨ inClosed = true) ∧
      dealWith code lengthOk inClosed owner s =
        replied c code (owner args s).1.result (owner args s).1.fields (owner args s).2 := by
  unfold dealWith
  split
  · exact .inl rfl
  · next c hc =>
    split
    · exact .inl rfl
    · next k args hp =>
      split
      · next hk =>
        subst hk
        split
        · next r hr => exact .inr (.inl ⟨r, rfl⟩)
        · split
          · next hl =>
            split
            · exact .inr (.inr (.inl ⟨c, args, .session, hc, rfl, hp⟩))
            · next hs =>
              refine .inr (.inr (.inr ⟨c, args, hc, hp, hl, ?_, rfl⟩))
              by_cases h1 : s.lki.session = .closed
              · refine .inr ?_
                cases inClosed with
                | true => rfl
                | false => exact absurd ⟨h1, rfl⟩ hs
              · exact .inl h1
          · exact .inr (.inr (.inl ⟨c, args, .badlen, hc, rfl, hp⟩))
      · exact .inl rfl

end Sys2Proof.Machine
end

