-- ==== Sys2Proof/Laws/Frame.lean ====
section
/-! SUPPORT. The inner frame: what the acquisition side of the part (store, segments, rules, scan table, sequencer,
converter port) can do to the rest. It leaves the link and the command processor alone, and it touches the report
engine only by queuing event reports and by taking numbers out of the fetch queue. One lemma per shared operation. -/

namespace Sys2Proof.Machine

/-- The changes that another block can make to the report engine: event reports are queued, numbers leave the fetch
queue. -/
inductive RpeInner : Rpe → Rpe → Prop
  | refl (r : Rpe) : RpeInner r r
  | event {r q : Rpe} (e : EventReport) (h : RpeInner r q) : RpeInner r (rpeQueueEvent e q)
  | unfetch {r q : Rpe} (p : Nat → Bool) (h : RpeInner r q) : RpeInner r { q with fetch := q.fetch.filter p }

theorem RpeInner.trans {a b c : Rpe} (h : RpeInner a b) (k : RpeInner b c) : RpeInner a c := by
  induction k with
  | refl => exact h
  | event e _ ih => exact .event e ih
  | unfetch p _ ih => exact .unfetch p ih

/-- Queuing an event report leaves everything but the queue and the lost-event counter. -/
theorem rpeQueueEvent_frame (e : EventReport) (r : Rpe) :
    (rpeQueueEvent e r).outstanding = r.outstanding ∧ (rpeQueueEvent e r).nextSeq = r.nextSeq ∧
      (rpeQueueEvent e r).credit = r.credit ∧ (rpeQueueEvent e r).resend = r.resend ∧
      (rpeQueueEvent e r).fetch = r.fetch ∧ (rpeQueueEvent e r).slot = r.slot := by
  unfold rpeQueueEvent
  split <;> simp

/-- Another block changes no list of transmitted reports, no number, no credit and no slot. -/
theorem RpeInner.frame {r q : Rpe} (h : RpeInner r q) :
    q.outstanding = r.outstanding ∧ q.nextSeq = r.nextSeq ∧ q.credit = r.credit ∧ q.resend = r.resend ∧
      q.slot = r.slot := by
  induction h with
  | refl => simp
  | @event q e _ ih =>
    have k := rpeQueueEvent_frame e q
    simp [k, ih]
  | unfetch p _ ih => simpa using ih

/-- What the acquisition side leaves alone. -/
structure InnerFrame (s t : State) : Prop where
  power : t.power = s.power
  trgin : t.trgin = s.trgin
  powerOns : t.powerOns = s.powerOns
  lki : t.lki = s.lki
  cmp : t.cmp = s.cmp
  pending : t.pending = s.pending
  rpe : RpeInner s.rpe t.rpe

theorem InnerFrame.refl (s : State) : InnerFrame s s := ⟨rfl, rfl, rfl, rfl, rfl, rfl, .refl _⟩

theorem InnerFrame.trans {s t u : State} (h : InnerFrame s t) (k : InnerFrame t u) : InnerFrame s u :=
  ⟨k.power.trans h.power, k.trgin.trans h.trgin, k.powerOns.trans h.powerOns, k.lki.trans h.lki, k.cmp.trans h.cmp,
    k.pending.trans h.pending, h.rpe.trans k.rpe⟩

/-- A change of the acquisition side's own blocks only. -/
theorem InnerFrame.own (s : State) (a : Sst) (b : Sgm) (c : Tgm) (d : Sct) (e : Aqs) (f : Cvp) :
    InnerFrame s { s with sst := a, sgm := b, tgm := c, sct := d, aqs := e, cvp := f } :=
  ⟨rfl, rfl, rfl, rfl, rfl, rfl, .refl _⟩

variable (s : State)

theorem setSst_inner (x : Sst) : InnerFrame s (s.setSst x) := ⟨rfl, rfl, rfl, rfl, rfl, rfl, .refl _⟩
theorem setSgm_inner (x : Sgm) : InnerFrame s (s.setSgm x) := ⟨rfl, rfl, rfl, rfl, rfl, rfl, .refl _⟩
theorem setTgm_inner (x : Tgm) : InnerFrame s (s.setTgm x) := ⟨rfl, rfl, rfl, rfl, rfl, rfl, .refl _⟩
theorem setSct_inner (x : Sct) : InnerFrame s (s.setSct x) := ⟨rfl, rfl, rfl, rfl, rfl, rfl, .refl _⟩
theorem setAqs_inner (x : Aqs) : InnerFrame s (s.setAqs x) := ⟨rfl, rfl, rfl, rfl, rfl, rfl, .refl _⟩
theorem setCvp_inner (x : Cvp) : InnerFrame s (s.setCvp x) := ⟨rfl, rfl, rfl, rfl, rfl, rfl, .refl _⟩

theorem queueEvent_inner (e : EventReport) : InnerFrame s (queueEvent e s) :=
  ⟨rfl, rfl, rfl, rfl, rfl, rfl, .event e (.refl _)⟩

theorem writeSlot_inner (page slot : Nat) (r : Record) : InnerFrame s (writeSlot page slot r s) := setSst_inner s _

theorem updateFilling_inner (f : Descriptor → Descriptor) : InnerFrame s (updateFilling f s) := setSgm_inner s _

theorem compareAfterTake_inner : InnerFrame s (compareAfterTake s) := by
  unfold compareAfterTake
  split
  · exact (setSst_inner s _).trans (queueEvent_inner _ _)
  · exact .refl s

theorem compareAfterReturn_inner : InnerFrame s (compareAfterReturn s) := by
  unfold compareAfterReturn
  split
  · exact setSst_inner s _
  · exact .refl s

theorem takePage_inner {s t : State} {page : Nat} (h : takePage s = some (page, t)) : InnerFrame s t := by
  unfold takePage at h
  split at h
  · cases h
  · cases h
    exact (setSst_inner s _).trans (compareAfterTake_inner _)

theorem returnPages_inner (pages : List Nat) : InnerFrame s (returnPages pages s) := by
  unfold returnPages
  split
  · exact .refl s
  · exact (setSst_inner s _).trans (compareAfterReturn_inner _)

theorem setFetch_inner (p : Nat → Bool) : InnerFrame s (s.setRpe { s.rpe with fetch := s.rpe.fetch.filter p }) :=
  ⟨rfl, rfl, rfl, rfl, rfl, rfl, .unfetch p (.refl _)⟩

theorem discardFirst_inner (p : Descriptor → Bool) (reason : DropReason) : InnerFrame s (discardFirst p reason s) := by
  unfold discardFirst
  split
  · exact .refl s
  · exact (((setSgm_inner s _).trans (returnPages_inner _ _)).trans (setFetch_inner _ _)).trans (queueEvent_inner _ _)

theorem displaceOne_inner {s t : State} {priority : Nat} {forPage : Bool} (h : displaceOne priority forPage s = some t) :
    InnerFrame s t := by
  unfold displaceOne at h
  split at h
  · cases h
    exact discardFirst_inner s _ _
  · cases h

theorem takeOrDisplace_inner {s t : State} {priority page : Nat} (h : takeOrDisplace priority s = some (page, t)) :
    InnerFrame s t := by
  unfold takeOrDisplace at h
  split at h
  · rename_i r hr
    cases h
    exact takePage_inner hr
  · split at h
    · split at h
      · rename_i s1 h1
        exact (displaceOne_inner h1).trans (takePage_inner h)
      · cases h
    · cases h

theorem completeFilling_inner (a b : Bool) : InnerFrame s (completeFilling a b s) := updateFilling_inner s _

theorem retrigger_inner (rule offset : Nat) : InnerFrame s (retrigger rule offset s).2 := by
  unfold retrigger
  split <;> exact updateFilling_inner s _

theorem joinTable_inner (d : Descriptor) : InnerFrame s (joinTable d s) := setSgm_inner s _

theorem handover_inner : InnerFrame s (handover s) := by
  unfold handover
  exact ((updateFilling_inner s _).trans (setSst_inner _ _)).trans (returnPages_inner _ _)

theorem firstPage_inner (priority : Nat) (r : Record) : InnerFrame s (firstPage priority r s) := by
  unfold firstPage
  split
  · rename_i page s1 h
    exact ((takeOrDisplace_inner h).trans (updateFilling_inner _ _)).trans (writeSlot_inner _ _ _ _)
  · exact (setSst_inner s _).trans (updateFilling_inner _ _)

theorem startPulse_inner : InnerFrame s (startPulse s) := setSgm_inner s _

theorem openSegment_inner (rule priority : Nat) (t : TriggerInfo) : InnerFrame s (openSegment rule priority t s) := by
  unfold openSegment
  split
  · exact ((joinTable_inner s _).trans (handover_inner _)).trans (startPulse_inner _)
  · exact ((joinTable_inner s _).trans (firstPage_inner _ _ _)).trans (startPulse_inner _)

theorem descriptorSlot_inner {s t : State} {priority : Nat} (h : descriptorSlot priority s = some t) : InnerFrame s t := by
  unfold descriptorSlot at h
  split at h
  · cases h
    exact .refl s
  · split at h
    · exact displaceOne_inner h
    · cases h

theorem countNoDescriptor_inner : InnerFrame s (countNoDescriptor s) := setSgm_inner s _

theorem openOrRefuse_inner (rule priority : Nat) (t : TriggerInfo) : InnerFrame s (openOrRefuse rule priority t s).2 := by
  unfold openOrRefuse
  split
  · rename_i s1 h
    exact (descriptorSlot_inner h).trans (openSegment_inner _ _ _ _)
  · exact countNoDescriptor_inner s

theorem shareRefusal_inner (o : FiringOutcome) : InnerFrame s (shareRefusal o s).2 := by
  simp only [shareRefusal]
  split
  · exact countNoDescriptor_inner s
  · exact .refl s

theorem captureFiring_inner (rule priority : Nat) (t : TriggerInfo) (ctx : CaptureContext) :
    InnerFrame s (captureFiring rule priority t ctx s).2 := by
  unfold captureFiring
  split
  · exact .refl s
  · split
    · exact retrigger_inner s _ _
    · split
      · exact shareRefusal_inner s _
      · split
        · exact .refl s
        · exact openOrRefuse_inner s _ _ _
      · split
        · exact .refl s
        · exact openOrRefuse_inner s _ _ _

theorem dealFiring_inner (t : TriggerInfo) (f : Firing) (ctx : CaptureContext) : InnerFrame s (dealFiring t f ctx s).2 := by
  unfold dealFiring
  split
  · exact queueEvent_inner s _
  · exact (captureFiring_inner s _ _ _ _).trans (queueEvent_inner _ _)

theorem dealFirings_inner (t : TriggerInfo) (fs : List Firing) (ctx : CaptureContext) :
    InnerFrame s (dealFirings t fs ctx s).2 := by
  induction fs generalizing ctx s with
  | nil => exact .refl s
  | cons f fs ih => exact (dealFiring_inner s t f ctx).trans (ih _ _)

theorem evaluateRecord_inner (channel : Nat) (force : Bool) (t : TriggerInfo) :
    InnerFrame s (evaluateRecord channel force t s).2 :=
  (setTgm_inner s _).trans (dealFirings_inner _ _ _ _)

theorem armRules_inner : InnerFrame s (armRules s) := setTgm_inner s _

theorem switchTables_inner : InnerFrame s (switchTables s) :=
  (InnerFrame.own s _ _ _ _ _ _).trans (queueEvent_inner _ _)

theorem passBoundary_inner : InnerFrame s (passBoundary s) := by
  simp only [passBoundary]
  split
  · exact (setAqs_inner s _).trans (switchTables_inner _)
  · exact setAqs_inner s _

theorem requestConversion_inner (i : Nat) (e : ScanEntry) : InnerFrame s (requestConversion i e s) :=
  ⟨rfl, rfl, rfl, rfl, rfl, rfl, .refl _⟩

theorem convertAt_inner (i : Nat) (e : ScanEntry) : InnerFrame s (convertAt i e s) :=
  (setAqs_inner s _).trans (requestConversion_inner _ _ _)

theorem abandon_inner : InnerFrame s (abandon s) := setCvp_inner s _

theorem freeRing_inner : InnerFrame s (freeRing s) := (setSst_inner s _).trans (returnPages_inner _ _)

theorem setEntry_inner (st : AcqState) (r : AcqReason) : InnerFrame s (setEntry st r s) :=
  ⟨rfl, rfl, rfl, rfl, rfl, rfl, .refl _⟩

theorem reportAcq_inner : InnerFrame s (reportAcq s) := queueEvent_inner s _

theorem commitOnEntry_inner : InnerFrame s (commitOnEntry s) := by
  unfold commitOnEntry
  split
  · exact switchTables_inner s
  · exact .refl s

theorem enterStopped_inner (st : AcqState) (r : AcqReason) : InnerFrame s (enterStopped st r s) :=
  ((((abandon_inner s).trans (setEntry_inner _ _ _)).trans (freeRing_inner _)).trans (reportAcq_inner _)).trans
    (commitOnEntry_inner _)

theorem acquisitionAtClose_inner : InnerFrame s (acquisitionAtClose s) := by
  unfold acquisitionAtClose
  split
  · exact setSgm_inner s _
  · exact enterStopped_inner s _ _
  · exact enterStopped_inner s _ _
  · exact .refl s
  · exact .refl s

theorem haltWith_inner (r : AcqReason) : InnerFrame s (haltWith r s) := by
  unfold haltWith
  split
  · exact (completeFilling_inner s _ _).trans (enterStopped_inner _ _ _)
  · exact (completeFilling_inner s _ _).trans (enterStopped_inner _ _ _)
  · exact .refl s
  · exact .refl s

theorem closeSegment_inner (b : Bool) : InnerFrame s (closeSegment b s) :=
  (completeFilling_inner s _ _).trans (acquisitionAtClose_inner _)

theorem startRun_inner : InnerFrame s (startRun s) :=
  ((InnerFrame.own s _ _ _ _ _ _).trans (armRules_inner _)).trans (reportAcq_inner _)

theorem stopRun_inner : InnerFrame s (stopRun s) := by
  unfold stopRun
  split
  · split
    · exact enterStopped_inner s _ _
    · exact (setAqs_inner s _).trans (reportAcq_inner _)
  all_goals exact .refl s

theorem abortRun_inner : InnerFrame s (abortRun s) := by
  unfold abortRun
  split
  · exact .refl s
  all_goals
    exact (((abandon_inner s).trans (discardFirst_inner _ _ _)).trans (armRules_inner _)).trans (enterStopped_inner _ _ _)

theorem growRing_inner (page : Nat) (r : Record) : InnerFrame s (growRing page r s) :=
  (setSst_inner s _).trans (writeSlot_inner _ _ _ _)

theorem recycleRing_inner (r : Record) : InnerFrame s (recycleRing r s).2 := by
  unfold recycleRing
  split
  · exact .refl s
  · exact (setSst_inner s _).trans (writeSlot_inner _ _ _ _)

theorem nextRingPage_inner (r : Record) : InnerFrame s (nextRingPage r s).2 := by
  unfold nextRingPage
  split
  · split
    · rename_i page s1 h
      exact (takePage_inner h).trans (growRing_inner _ _ _)
    · exact recycleRing_inner s r
  · exact recycleRing_inner s r

theorem placeInRing_inner (r : Record) : InnerFrame s (placeInRing r s).2 := by
  unfold placeInRing
  split
  · split
    · exact (setSst_inner s _).trans (writeSlot_inner _ _ _ _)
    · exact nextRingPage_inner s r
  · exact nextRingPage_inner s r

theorem starve_inner : InnerFrame s (starve s) := by
  simp only [starve]
  split
  · exact ((setSst_inner s _).trans (completeFilling_inner _ _ _)).trans (haltWith_inner _ _)
  · exact (setSst_inner s _).trans (closeSegment_inner _ _)

theorem placeInSegment_inner (d : Descriptor) (r : Record) : InnerFrame s (placeInSegment d r s).2 := by
  unfold placeInSegment
  split
  · exact writeSlot_inner s _ _ _
  · split
    · rename_i page s1 h
      exact ((takeOrDisplace_inner h).trans (updateFilling_inner _ _)).trans (writeSlot_inner _ _ _ _)
    · exact starve_inner s

theorem placeRecord_inner (r : Record) : InnerFrame s (placeRecord r s).2 := by
  unfold placeRecord
  split
  · exact placeInSegment_inner s _ _
  · exact placeInRing_inner s r

theorem closeCheck_inner : InnerFrame s (closeCheck s) := by
  unfold closeCheck
  split
  · exact .refl s
  · split
    · split
      · exact (completeFilling_inner s _ _).trans (haltWith_inner _ _)
      · exact closeSegment_inner s _
    · exact .refl s

theorem countRecord_inner (b : Bool) : InnerFrame s (countRecord b s) :=
  (updateFilling_inner s _).trans (closeCheck_inner _)

theorem countLoss_inner : InnerFrame s (countLoss s) := setSst_inner s _

theorem afterEvaluation_inner (p : Placement) (ctx : CaptureContext) : InnerFrame s (afterEvaluation p ctx s) := by
  unfold afterEvaluation
  split
  · exact countRecord_inner s _
  · split
    · exact closeCheck_inner s
    · exact .refl s
  · split
    · exact closeCheck_inner s
    · exact countLoss_inner s
  · exact .refl s

theorem afterErr_inner (p : Placement) : InnerFrame s (afterErr p s) := by
  unfold afterErr
  split
  · exact countRecord_inner s _
  · exact countLoss_inner s
  · exact .refl s
  · exact .refl s

theorem evaluateStored_inner (channel : Nat) (r : Record) (p : Placement) :
    InnerFrame s (evaluateStored channel r p s) :=
  ((setAqs_inner s _).trans (evaluateRecord_inner _ _ _ _)).trans (afterEvaluation_inner _ _ _)

theorem storeRecord_inner (channel : Nat) (r : Record) : InnerFrame s (storeRecord channel r s) := by
  simp only [storeRecord]
  split
  · exact placeRecord_inner s r
  · split
    · exact (placeRecord_inner s r).trans (afterErr_inner _ _)
    · exact (placeRecord_inner s r).trans (evaluateStored_inner _ _ _ _)

theorem converterFault_inner (q : Request) : InnerFrame s (converterFault q s) :=
  (queueEvent_inner s _).trans (haltWith_inner _ _)

theorem lookAhead_inner (i : Nat) (hold : Bool) : InnerFrame s (lookAhead i hold s) := by
  unfold lookAhead
  split
  · exact (setAqs_inner s _).trans (passBoundary_inner _)
  · split
    · exact setAqs_inner s _
    · split
      · exact convertAt_inner s _ _
      · exact .refl s

theorem continuePacing_inner (i : Nat) (hold : Bool) : InnerFrame s (continuePacing i hold s) := by
  unfold continuePacing
  split
  · exact lookAhead_inner s i hold
  · exact .refl s

/-- The route of a record touches nothing outside the acquisition side. -/
theorem routeRecord_inner (c : Completion) (e : ScanEntry) : InnerFrame s (routeRecord c e s) := by
  simp only [routeRecord]
  refine InnerFrame.trans ?_ (continuePacing_inner _ _ _)
  have h1 : InnerFrame s (s.setAqs { s.aqs with holdPending := false }) := setAqs_inner s _
  have h2 : InnerFrame s (handRecord (s.setAqs { s.aqs with holdPending := false })) := h1.trans (setAqs_inner _ _)
  split
  · split
    · exact h1.trans (converterFault_inner _ _)
    · exact (h2.trans (storeRecord_inner _ _ _)).trans (converterFault_inner _ _)
  · split
    · exact h1
    · exact h2.trans (storeRecord_inner _ _ _)

theorem countTick_inner (t : Nat) : InnerFrame s (countTick t s) := ⟨rfl, rfl, rfl, rfl, rfl, rfl, .refl _⟩

theorem missedTick_inner : InnerFrame s (missedTick s) := (setAqs_inner s _).trans (updateFilling_inner _ _)

theorem stepSearch_inner (fuel left : Nat) : InnerFrame s (stepSearch fuel left s) := by
  induction fuel generalizing left s with
  | zero => exact .refl s
  | succ fuel ih =>
    have hb : InnerFrame s (if decide (s.sct.active.length ≤ s.aqs.position) then passBoundary s else s) := by
      split
      · exact passBoundary_inner s
      · exact .refl s
    unfold stepSearch
    split
    · exact .refl s
    · dsimp only
      generalize (if decide (s.sct.active.length ≤ s.aqs.position) then passBoundary s else s) = s1 at hb ⊢
      split
      · exact hb
      · split
        · exact hb.trans (convertAt_inner _ _ _)
        · exact (hb.trans (setAqs_inner _ _)).trans (ih _ _)

theorem stepTick_inner : InnerFrame s (stepTick s) := by
  unfold stepTick
  split
  · exact missedTick_inner s
  · exact stepSearch_inner s _ _

theorem burstTick_inner : InnerFrame s (burstTick s) := by
  unfold burstTick
  split
  · unfold startPass
    split
    · exact passBoundary_inner s
    · split
      · exact (setAqs_inner s _).trans (convertAt_inner _ _ _)
      · exact .refl s
  · exact missedTick_inner s
  · unfold resumePass
    split
    · exact (setAqs_inner s _).trans (convertAt_inner _ _ _)
    · exact .refl s

/-- A pace tick touches nothing outside the acquisition side. -/
theorem paceTickStep_inner : InnerFrame s (paceTickStep s) := by
  unfold paceTickStep
  split
  · exact .refl s
  · split
    · exact (countTick_inner s _).trans (stepTick_inner _)
    · exact (countTick_inner s _).trans (burstTick_inner _)

end Sys2Proof.Machine
end

