-- ==== Sys2Proof/Laws/Moves.lean ====
section
/-! SUPPORT. The page and segment moves: every change that the acquisition side of the part makes to the pool, the ring,
the segment table, the next segment number and the fetch queue is a chain of the eight moves below (R5, R8, R9, R12 to R16,
R22, R23, R41). One lemma per shared operation says which chain; an invariant of pages, numbers or the fetch queue is then
proved once per move. -/

namespace Sys2Proof.Machine

/-- What the moves are about. -/
structure Held where
  pool : List Nat
  ring : List Nat
  table : List Descriptor
  next : Nat
  fetch : List Nat

/-- The pages, segments and fetch queue of a state. -/
def held (s : State) : Held := ⟨s.sst.pool, s.sst.ring, s.sgm.table, s.sgm.nextNumber, s.rpe.fetch⟩

/-- One move. -/
inductive Move : Held → Held → Prop
  /-- a page leaves the pool's head for the ring (R8) -/
  | ringTake (h : Held) (page : Nat) (rest : List Nat) (hp : h.pool = page :: rest) :
      Move h { h with pool := rest, ring := h.ring ++ [page] }
  /-- the ring's oldest page becomes its newest (R9) -/
  | ringTurn (h : Held) (page : Nat) (rest : List Nat) (hr : h.ring = page :: rest) :
      Move h { h with ring := rest ++ [page] }
  /-- the ring returns to the pool (R12) -/
  | ringFree (h : Held) : Move h { h with pool := h.pool ++ h.ring, ring := [] }
  /-- a segment that is COMPLETE or FILLING is discarded (R41) -/
  | drop (h : Held) (p : Descriptor → Bool) (d : Descriptor) (hd : h.table.find? p = some d)
      (hs : d.state = .complete ∨ d.state = .filling) :
      Move h
        { h with
          table := h.table.eraseP p, pool := h.pool ++ d.pages,
          fetch := h.fetch.filter (fun n => decide (n ≠ d.number)) }
  /-- the FILLING segment changes, keeping number and pages; it may become COMPLETE (R31 to R34) -/
  | fill (h : Held) (f : Descriptor → Descriptor) (hn : ∀ d, (f d).number = d.number) (hp : ∀ d, (f d).pages = d.pages)
      (hs : ∀ d, d.state = .filling → (f d).state = .filling ∨ (f d).state = .complete) :
      Move h { h with table := modifyFirst isFilling f h.table }
  /-- a page leaves the pool's head for the FILLING segment (R13, R16) -/
  | fillTake (h : Held) (f : Descriptor → Descriptor) (d : Descriptor) (page : Nat) (rest : List Nat)
      (hp : h.pool = page :: rest) (hd : h.table.find? isFilling = some d) (hf : (f d).pages = d.pages ++ [page])
      (hn : ∀ d, (f d).number = d.number) (hs : ∀ d, (f d).state = d.state) :
      Move h { h with pool := rest, table := modifyFirst isFilling f h.table }
  /-- a FILLING descriptor with no pages and a number that is not in use joins the table (R22, R23) -/
  | join (h : Held) (d : Descriptor) (hd : h.table.find? isFilling = none) (hs : d.state = .filling) (hp : d.pages = [])
      (hn : h.table.length < 65535 → h.next < 65536 → d.number ∉ h.table.map Descriptor.number)
      (hr : h.next < 65536 → d.number < 65536) :
      Move h { h with table := h.table ++ [d], next := wrapInc 65536 d.number }
  /-- the ring is handed over to the FILLING segment, which has no pages yet (R15) -/
  | give (h : Held) (f : Descriptor → Descriptor) (d : Descriptor) (k : Nat)
      (hd : h.table.find? isFilling = some d) (he : d.pages = []) (hf : (f d).pages = h.ring.drop k)
      (hn : ∀ d, (f d).number = d.number) (hs : ∀ d, (f d).state = d.state) :
      Move h { h with pool := h.pool ++ h.ring.take k, ring := [], table := modifyFirst isFilling f h.table }

/-- A chain of moves. -/
inductive Moves : Held → Held → Prop
  | done (h : Held) : Moves h h
  | step {a b c : Held} (m : Moves a b) (k : Move b c) : Moves a c

theorem Moves.one {a b : Held} (k : Move a b) : Moves a b := .step (.done a) k

theorem Moves.trans {a b c : Held} (h : Moves a b) (k : Moves b c) : Moves a c := by
  induction k with
  | done => exact h
  | step _ m ih => exact .step ih m

/-- Nothing that the moves are about changes. -/
theorem Moves.same {s t : State} (h : held t = held s) : Moves (held s) (held t) := h ▸ .done _

/-- A chain that starts in a state which holds the same. -/
theorem Moves.onward {s t : State} {h : Held} (e : held t = held s) (k : Moves (held t) h) : Moves (held s) h := e ▸ k

/-- An invariant that every move keeps holds after every chain. -/
theorem Moves.keep {P : Held → Prop} (hm : ∀ a b, Move a b → P a → P b) {a b : Held} (h : Moves a b) (ha : P a) : P b := by
  induction h with
  | done => exact ha
  | step _ m ih => exact hm _ _ m ih

/-! ## Lists -/

theorem find?_modifyFirst {f : Descriptor → Descriptor} (hs : ∀ d, (f d).state = d.state) (t : List Descriptor) :
    (modifyFirst isFilling f t).find? isFilling = (t.find? isFilling).map f := by
  induction t with
  | nil => rfl
  | cons x t ih =>
    by_cases hx : isFilling x = true
    · have : isFilling (f x) = true := by simpa [isFilling, hs] using hx
      simp [modifyFirst, hx, this]
    · simp [modifyFirst, hx, ih]

theorem find?_eraseP_of_not {p q : Descriptor → Bool} (t : List Descriptor) (h : ∀ d, p d = true → q d = false) :
    (t.eraseP p).find? q = t.find? q := by
  induction t with
  | nil => rfl
  | cons x t ih =>
    by_cases hx : p x = true
    · simp [hx, h x hx]
    · simp only [List.eraseP_cons, hx, cond_false, List.find?_cons, ih]

/-! ## The shared operations as moves -/

variable (s : State)

@[simp] theorem held_setTgm (x : Tgm) : held (s.setTgm x) = held s := rfl
@[simp] theorem held_setSct (x : Sct) : held (s.setSct x) = held s := rfl
@[simp] theorem held_setAqs (x : Aqs) : held (s.setAqs x) = held s := rfl
@[simp] theorem held_setCvp (x : Cvp) : held (s.setCvp x) = held s := rfl
@[simp] theorem held_setLki (x : Lki) : held (s.setLki x) = held s := rfl
@[simp] theorem held_setCmp (x : Cmp) : held (s.setCmp x) = held s := rfl

@[simp] theorem held_queueEvent (e : EventReport) : held (queueEvent e s) = held s := by
  unfold queueEvent rpeQueueEvent
  split <;> rfl

@[simp] theorem held_writeSlot (page slot : Nat) (r : Record) : held (writeSlot page slot r s) = held s := rfl

@[simp] theorem held_compareAfterTake : held (compareAfterTake s) = held s := by
  unfold compareAfterTake
  split
  · rw [held_queueEvent]
    rfl
  · rfl

@[simp] theorem held_compareAfterReturn : held (compareAfterReturn s) = held s := by
  unfold compareAfterReturn
  split <;> rfl

/-- What a return does: the pages join the pool's tail (R5). -/
theorem held_returnPages (pages : List Nat) : held (returnPages pages s) = { held s with pool := s.sst.pool ++ pages } := by
  unfold returnPages
  split
  · simp [held]
  · rw [held_compareAfterReturn]
    rfl

/-- What a take does: the pool's head leaves it (R4). -/
theorem held_takePage {t : State} {page : Nat} (h : takePage s = some (page, t)) :
    ∃ rest, s.sst.pool = page :: rest ∧ held t = { held s with pool := rest } := by
  unfold takePage at h
  split at h
  · cases h
  · rename_i p rest hp
    cases h
    exact ⟨rest, hp, by rw [held_compareAfterTake]; rfl⟩

/-- What a discard does (R41). -/
theorem held_discardFirst {p : Descriptor → Bool} {reason : DropReason} {d : Descriptor}
    (h : s.sgm.table.find? p = some d) :
    held (discardFirst p reason s) =
      { held s with
        table := s.sgm.table.eraseP p, pool := s.sst.pool ++ d.pages,
        fetch := s.rpe.fetch.filter (fun n => decide (n ≠ d.number)) } := by
  unfold discardFirst
  simp only [h]
  rw [held_queueEvent]
  have k := held_returnPages (s.setSgm { s.sgm with table := s.sgm.table.eraseP p }) d.pages
  simp only [held, Held.mk.injEq, State.setSgm_sst, State.setSgm_sgm, State.setSgm_rpe] at k
  simp [held, k]

theorem discardFirst_moves {p : Descriptor → Bool} {reason : DropReason}
    (hp : ∀ d, p d = true → d.state = .complete ∨ d.state = .filling) :
    Moves (held s) (held (discardFirst p reason s)) := by
  cases h : s.sgm.table.find? p with
  | none =>
    unfold discardFirst
    simp only [h]
    exact .done _
  | some d =>
    rw [held_discardFirst s h]
    exact .one (.drop (held s) p d h (hp d (List.find?_some h)))

/-- A displaced segment was COMPLETE (R40). -/
theorem displaceCandidate_complete {fetch : List Nat} {priority : Nat} {forPage : Bool} {d : Descriptor}
    (h : displaceCandidate fetch priority forPage d = true) : d.state = .complete := by
  simp only [displaceCandidate, displaceable, Bool.and_eq_true, decide_eq_true_eq] at h
  exact h.1.1.1

theorem displaceOne_eq {t : State} {priority : Nat} {forPage : Bool} (h : displaceOne priority forPage s = some t) :
    t = discardFirst (displaceCandidate s.rpe.fetch priority forPage) .displaced s := by
  unfold displaceOne at h
  split at h
  · exact (Option.some.inj h).symm
  · cases h

theorem displaceOne_moves {t : State} {priority : Nat} {forPage : Bool} (h : displaceOne priority forPage s = some t) :
    Moves (held s) (held t) := by
  rw [displaceOne_eq s h]
  exact discardFirst_moves s (fun d hd => .inl (displaceCandidate_complete hd))

/-- A displacement discards no FILLING segment. -/
theorem displaceOne_filling {t : State} {priority : Nat} {forPage : Bool} (h : displaceOne priority forPage s = some t) :
    fillingSegment t = fillingSegment s := by
  rw [displaceOne_eq s h]
  cases hd : s.sgm.table.find? (displaceCandidate s.rpe.fetch priority forPage) with
  | none =>
    unfold discardFirst
    simp only [hd]
  | some d =>
    have k := held_discardFirst (reason := .displaced) s hd
    have e : (held (discardFirst (displaceCandidate s.rpe.fetch priority forPage) .displaced s)).table =
        s.sgm.table.eraseP (displaceCandidate s.rpe.fetch priority forPage) := by rw [k]
    simp only [held] at e
    simp only [fillingSegment, e]
    exact find?_eraseP_of_not _ (fun d hd => by simp [isFilling, displaceCandidate_complete hd])

/-- What a take with displacement does: moves that keep the FILLING segment, then the pool's head leaves it (R37, R38). -/
theorem takeOrDisplace_spec {t : State} {priority page : Nat} (h : takeOrDisplace priority s = some (page, t)) :
    ∃ u rest, Moves (held s) (held u) ∧ fillingSegment u = fillingSegment s ∧ u.sst.pool = page :: rest ∧
      held t = { held u with pool := rest } := by
  unfold takeOrDisplace at h
  split at h
  · rename_i r hr
    cases h
    obtain ⟨rest, h1, h2⟩ := held_takePage s hr
    exact ⟨s, rest, .done _, rfl, h1, h2⟩
  · split at h
    · split at h
      · rename_i s1 h1
        obtain ⟨rest, h3, h4⟩ := held_takePage s1 h
        exact ⟨s1, rest, displaceOne_moves s h1, displaceOne_filling s h1, h3, h4⟩
      · cases h
    · cases h

/-- The table of a state as `held` has it. -/
theorem held_table {t : State} {h : Held} (e : held t = h) : t.sgm.table = h.table := by rw [← e]; rfl

theorem held_updateFilling (f : Descriptor → Descriptor) :
    held (updateFilling f s) = { held s with table := modifyFirst isFilling f s.sgm.table } := rfl

theorem updateFilling_moves (f : Descriptor → Descriptor) (hn : ∀ d, (f d).number = d.number)
    (hp : ∀ d, (f d).pages = d.pages)
    (hs : ∀ d, d.state = .filling → (f d).state = .filling ∨ (f d).state = .complete) :
    Moves (held s) (held (updateFilling f s)) := by
  rw [held_updateFilling]
  exact .one (.fill (held s) f hn hp hs)

theorem completeFilling_moves (a b : Bool) : Moves (held s) (held (completeFilling a b s)) :=
  updateFilling_moves s _ (fun _ => rfl) (fun _ => rfl) (fun _ _ => .inr rfl)

theorem markOverrun_moves : Moves (held s) (held (markOverrun s)) :=
  updateFilling_moves s _ (fun _ => rfl) (fun _ => rfl) (fun _ h => .inl h)

theorem listSecondary_keeps (x : Secondary) (d : Descriptor) :
    (listSecondary x d).number = d.number ∧ (listSecondary x d).pages = d.pages ∧ (listSecondary x d).state = d.state := by
  unfold listSecondary
  split <;> simp

theorem retrigger_moves (rule offset : Nat) : Moves (held s) (held (retrigger rule offset s).2) := by
  unfold retrigger
  split
  · exact updateFilling_moves s _ (fun d => (listSecondary_keeps _ d).1) (fun d => (listSecondary_keeps _ d).2.1)
      (fun d h => .inl ((listSecondary_keeps _ d).2.2.trans h))
  · exact updateFilling_moves s _ (fun d => (listSecondary_keeps _ _).1) (fun d => (listSecondary_keeps _ _).2.1)
      (fun d h => .inl ((listSecondary_keeps _ _).2.2.trans h))

/-! ### Numbering (R23) -/

theorem firstFreeNumber_lt (fuel n : Nat) (used : List Nat) (h : n < 65536) : firstFreeNumber fuel n used < 65536 := by
  induction fuel generalizing n with
  | zero => exact h
  | succ fuel ih =>
    unfold firstFreeNumber
    split
    · exact ih _ (Nat.mod_lt _ (by decide))
    · exact h

/-- Unless a free number was found, the search stepped past `fuel` numbers in use. -/
theorem firstFreeNumber_free (fuel n : Nat) (used : List Nat) :
    firstFreeNumber fuel n used ∉ used ∨
      (∀ i, i < fuel → (n + i) % 65536 ∈ used ∨ i = 0 ∧ n ∈ used) ∧ (fuel = 0 ∨ n ∈ used) ∧
        (0 < fuel → firstFreeNumber fuel n used = (n + fuel) % 65536) := by
  induction fuel generalizing n with
  | zero => right; simp
  | succ fuel ih =>
    unfold firstFreeNumber
    split
    · rename_i hn
      have hn : n ∈ used := by simpa using hn
      rcases ih (wrapInc 65536 n) with h | ⟨h1, h2, h3⟩
      · exact .inl h
      · right
        refine ⟨fun i hi => ?_, .inr hn, fun _ => ?_⟩
        · cases i with
          | zero => exact .inr ⟨rfl, hn⟩
          | succ i =>
            left
            rcases h1 i (by omega) with h | ⟨rfl, h⟩
            · have e : (wrapInc 65536 n + i) % 65536 = (n + (i + 1)) % 65536 := by simp only [wrapInc]; omega
              rwa [e] at h
            · have e : wrapInc 65536 n = (n + (0 + 1)) % 65536 := by simp [wrapInc]
              rwa [e] at h
        · cases fuel with
          | zero => simp [firstFreeNumber, wrapInc]
          | succ fuel =>
            rw [h3 (by omega)]
            simp only [wrapInc]
            omega
    · rename_i hn
      exact .inl (by simpa using hn)

/-- The number of the next segment is not in use (R23). -/
theorem firstFreeNumber_not_mem (n : Nat) (used : List Nat) (hu : used.length < 65535) (hn : n < 65536) :
    firstFreeNumber used.length n used ∉ used := by
  rcases firstFreeNumber_free used.length n used with h | ⟨h1, h2, h3⟩
  · exact h
  · intro hm
    cases hl : used with
    | nil => simp [hl] at hm
    | cons x xs =>
      have hpos : 0 < used.length := by simp [hl]
      rw [h3 hpos] at hm
      have hall : ∀ i ∈ List.range (used.length + 1), (n + i) % 65536 ∈ used := by
        intro i hi
        rcases Nat.lt_or_ge i used.length with hi2 | hi2
        · rcases h1 i hi2 with h | ⟨rfl, h⟩
          · exact h
          · rwa [Nat.add_zero, Nat.mod_eq_of_lt hn]
        · have : i = used.length := by simp at hi; omega
          rwa [this]
      have hnd : ((List.range (used.length + 1)).map (fun i => (n + i) % 65536)).Nodup := by
        refine List.Nodup.map_on ?_ List.nodup_range
        intro a ha b hb hab
        simp at ha hb
        omega
      have hsub : (List.range (used.length + 1)).map (fun i => (n + i) % 65536) ⊆ used := by
        intro y hy
        obtain ⟨i, hi, rfl⟩ := List.mem_map.mp hy
        exact hall i hi
      have := hnd.subperm hsub
      have := this.length_le
      simp at this

/-! ### Opening (R15, R16, R29) -/

/-- A descriptor at the table's tail is the FILLING segment when none was FILLING before. -/
theorem find?_append_fresh {t : List Descriptor} {d : Descriptor} (h : t.find? isFilling = none) (hd : d.state = .filling) :
    (t ++ [d]).find? isFilling = some d := by
  simp [List.find?_append, h, isFilling, hd]

theorem joinTable_moves {d : Descriptor} (h : fillingSegment s = none) (hs : d.state = .filling) (hp : d.pages = [])
    (hn : s.sgm.table.length < 65535 → s.sgm.nextNumber < 65536 → d.number ∉ s.sgm.table.map Descriptor.number)
    (hr : s.sgm.nextNumber < 65536 → d.number < 65536) :
    Moves (held s) (held (joinTable d s)) :=
  .one (.join (held s) d h hs hp hn hr)

/-- R15 to the letter, p = min(P, n - 1), exactly where that window and its trigger record were all handed to the store since the
last switch, as R2, R90 and R92 have it of every segment. So the model departs from R15 only where R15's own p would break those. -/
theorem handoverPre_eq_iff (h : 0 < s.aqs.sinceSwitch) :
    handoverPre s = min s.sgm.settings.preRequested (ringCount s.sst - 1) ↔
      min s.sgm.settings.preRequested (ringCount s.sst - 1) + 1 ≤ s.aqs.sinceSwitch := by
  simp only [handoverPre, generationCount]
  omega

/-- The pre window and the trigger record together are no more than the records handed to the store since the last switch, of
which the trigger record is one (R90, R92). -/
theorem handoverPre_lt (h : 0 < s.aqs.sinceSwitch) : handoverPre s + 1 ≤ s.aqs.sinceSwitch := by
  simp only [handoverPre, generationCount]
  omega

theorem handover_moves {d : Descriptor} (h : fillingSegment s = some d) (he : d.pages = []) :
    Moves (held s) (held (handover s)) := by
  have k : held (handover s) =
      { held s with
        pool := s.sst.pool ++ s.sst.ring.take (handoverFirst s / 32), ring := [],
        table := modifyFirst isFilling
          (openedDescriptor (handoverPre s) 1 (countErr s (handoverFirst s) (handoverPre s + 1))
            (s.sst.ring.drop (handoverFirst s / 32)) (handoverFirst s % 32) false false) s.sgm.table } := by
    unfold handover
    rw [held_returnPages]
    rfl
  rw [k]
  exact .one (.give (held s) _ d _ h he rfl (fun _ => rfl) (fun _ => rfl))

theorem firstPage_moves {d : Descriptor} (priority : Nat) (r : Record) (h : fillingSegment s = some d) (he : d.pages = []) :
    Moves (held s) (held (firstPage priority r s)) := by
  unfold firstPage
  split
  · rename_i page s1 h1
    obtain ⟨u, rest, hm, hf, hp, ht⟩ := takeOrDisplace_spec s h1
    have k : held (writeSlot page 0 r (updateFilling (openedDescriptor 0 1 0 [page] 0 false false) s1)) =
        { held u with
          pool := rest, table := modifyFirst isFilling (openedDescriptor 0 1 0 [page] 0 false false) u.sgm.table } := by
      rw [held_writeSlot, held_updateFilling, ht, held_table ht]
      rfl
    rw [k]
    exact .step hm (.fillTake (held u) _ d page rest hp (hf.trans h) (by simp [openedDescriptor, he]) (fun _ => rfl)
      (fun _ => rfl))
  · have k : held (updateFilling
          (openedDescriptor 0 0 0 [] 0 true (decide (s.sgm.settings.exhaustion = .halt)))
          (s.setSst { s.sst with historyLoss := satAdd Config.counterMax s.sst.historyLoss 1 })) =
        { held s with
          pool := s.sst.pool ++ ([] : List Nat),
          table := modifyFirst isFilling (openedDescriptor 0 0 0 [] 0 true (decide (s.sgm.settings.exhaustion = .halt)))
            s.sgm.table } := by
      simp [held, updateFilling]
    rw [k]
    have e : modifyFirst isFilling (openedDescriptor 0 0 0 [] 0 true (decide (s.sgm.settings.exhaustion = .halt)))
          s.sgm.table =
        modifyFirst isFilling
          (fun x => { openedDescriptor 0 0 0 [] 0 true (decide (s.sgm.settings.exhaustion = .halt)) x with pages := x.pages })
          s.sgm.table := by
      have hfind : s.sgm.table.find? isFilling = some d := h
      clear k
      revert hfind
      generalize s.sgm.table = t
      intro hfind
      induction t with
      | nil => rfl
      | cons x t ih =>
        by_cases hx : isFilling x = true
        · have : x = d := by simpa [hx] using hfind
          subst this
          simp [modifyFirst, hx, openedDescriptor, he]
        · simp only [List.find?_cons, hx] at hfind
          simp only [modifyFirst, hx, Bool.false_eq_true, if_false, ih hfind]
    rw [List.append_nil, e]
    exact .one (.fill (held s) _ (fun _ => rfl) (fun _ => rfl) (fun _ hx => .inl hx))

@[simp] theorem held_startPulse : held (startPulse s) = held s := rfl

theorem openSegment_moves (rule priority : Nat) (t : TriggerInfo) (h : fillingSegment s = none) :
    Moves (held s) (held (openSegment rule priority t s)) := by
  have hlen : (s.sgm.table.map Descriptor.number).length = s.sgm.table.length := by simp
  have hj : Moves (held s) (held (joinTable (freshDescriptor rule priority t s) s)) := by
    refine joinTable_moves s h rfl rfl (fun hl hr => ?_) (fun hr => firstFreeNumber_lt _ _ _ hr)
    show firstFreeNumber s.sgm.table.length s.sgm.nextNumber (s.sgm.table.map Descriptor.number) ∉ _
    rw [← hlen]
    exact firstFreeNumber_not_mem _ _ (by omega) hr
  have hf : fillingSegment (joinTable (freshDescriptor rule priority t s) s) = some (freshDescriptor rule priority t s) :=
    find?_append_fresh h rfl
  unfold openSegment
  split
  · exact hj.trans (handover_moves _ hf rfl)
  · exact hj.trans (firstPage_moves _ _ _ hf rfl)

theorem descriptorSlot_moves {t : State} {priority : Nat} (h : descriptorSlot priority s = some t) :
    Moves (held s) (held t) ∧ fillingSegment t = fillingSegment s := by
  unfold descriptorSlot at h
  split at h
  · cases h
    exact ⟨.done _, rfl⟩
  · split at h
    · exact ⟨displaceOne_moves s h, displaceOne_filling s h⟩
    · cases h

theorem openOrRefuse_moves (rule priority : Nat) (t : TriggerInfo) (h : fillingSegment s = none) :
    Moves (held s) (held (openOrRefuse rule priority t s).2) := by
  unfold openOrRefuse
  split
  · rename_i s1 h1
    obtain ⟨hm, hf⟩ := descriptorSlot_moves s h1
    exact hm.trans (openSegment_moves _ _ _ _ (hf.trans h))
  · exact .done _

theorem shareRefusal_moves (o : FiringOutcome) : Moves (held s) (held (shareRefusal o s).2) := by
  simp only [shareRefusal]
  split <;> exact .done _

theorem captureFiring_moves (rule priority : Nat) (t : TriggerInfo) (ctx : CaptureContext) :
    Moves (held s) (held (captureFiring rule priority t ctx s).2) := by
  unfold captureFiring
  split
  · exact .done _
  · split
    · exact retrigger_moves s _ _
    · rename_i hf
      split
      · exact shareRefusal_moves s _
      · split
        · exact .done _
        · exact openOrRefuse_moves s _ _ _ hf
      · split
        · exact .done _
        · exact openOrRefuse_moves s _ _ _ hf

theorem dealFiring_moves (t : TriggerInfo) (f : Firing) (ctx : CaptureContext) :
    Moves (held s) (held (dealFiring t f ctx s).2) := by
  unfold dealFiring
  split
  · rw [held_queueEvent]
    exact .done _
  · rw [held_queueEvent]
    exact captureFiring_moves s _ _ _ _

theorem dealFirings_moves (t : TriggerInfo) (fs : List Firing) (ctx : CaptureContext) :
    Moves (held s) (held (dealFirings t fs ctx s).2) := by
  induction fs generalizing ctx s with
  | nil => exact .done _
  | cons f fs ih => exact (dealFiring_moves s t f ctx).trans (ih _ _)

theorem evaluateRecord_moves (channel : Nat) (force : Bool) (t : TriggerInfo) :
    Moves (held s) (held (evaluateRecord channel force t s).2) := by
  unfold evaluateRecord
  exact Moves.onward rfl (dealFirings_moves (evaluateRules channel t.record s) _ _ _)

/-! ### Entries into IDLE and HALTED, closes and halts -/

theorem switchTables_held : held (switchTables s) = held s := by
  unfold switchTables
  rw [held_queueEvent]
  rfl

theorem passBoundary_held : held (passBoundary s) = held s := by
  simp only [passBoundary]
  split
  · rw [switchTables_held]
    rfl
  · rfl

theorem freeRing_moves : Moves (held s) (held (freeRing s)) := by
  have k : held (freeRing s) = { held s with pool := s.sst.pool ++ s.sst.ring, ring := [] } := by
    unfold freeRing
    rw [held_returnPages]
    rfl
  rw [k]
  exact .one (.ringFree (held s))

theorem commitOnEntry_held : held (commitOnEntry s) = held s := by
  unfold commitOnEntry
  split
  · exact switchTables_held s
  · rfl

theorem enterStopped_moves (st : AcqState) (r : AcqReason) : Moves (held s) (held (enterStopped st r s)) := by
  unfold enterStopped
  rw [commitOnEntry_held]
  unfold reportAcq
  rw [held_queueEvent]
  exact freeRing_moves (setEntry st r (abandon s))

theorem acquisitionAtClose_moves : Moves (held s) (held (acquisitionAtClose s)) := by
  unfold acquisitionAtClose
  split
  · exact .done _
  · exact enterStopped_moves s _ _
  · exact enterStopped_moves s _ _
  · exact .done _
  · exact .done _

theorem haltWith_moves (r : AcqReason) : Moves (held s) (held (haltWith r s)) := by
  unfold haltWith
  split
  · exact (completeFilling_moves s _ _).trans (enterStopped_moves _ _ _)
  · exact (completeFilling_moves s _ _).trans (enterStopped_moves _ _ _)
  · exact .done _
  · exact .done _

theorem closeSegment_moves (b : Bool) : Moves (held s) (held (closeSegment b s)) :=
  (completeFilling_moves s _ _).trans (acquisitionAtClose_moves _)

theorem startRun_held : held (startRun s) = held s := by
  unfold startRun reportAcq
  rw [held_queueEvent]
  rfl

theorem stopRun_moves : Moves (held s) (held (stopRun s)) := by
  unfold stopRun
  split
  · split
    · exact enterStopped_moves s _ _
    · unfold reportAcq
      rw [held_queueEvent]
      exact .done _
  all_goals exact .done _

theorem isFilling_state {d : Descriptor} (h : isFilling d = true) : d.state = .filling := by simpa [isFilling] using h

theorem abortRun_moves : Moves (held s) (held (abortRun s)) := by
  unfold abortRun
  split
  · exact .done _
  all_goals
    have h := discardFirst_moves (reason := .aborted) (abandon s) (fun d hd => .inr (isFilling_state hd))
    have e : held (armRules (discardFirst isFilling .aborted (abandon s))) =
        held (discardFirst isFilling .aborted (abandon s)) := held_setTgm _ _
    rw [← e] at h
    exact Moves.trans (Moves.onward (held_setCvp s _) h) (enterStopped_moves _ _ _)

/-! ### The route of a record -/

theorem growRing_held (page : Nat) (r : Record) :
    held (growRing page r s) = { held s with ring := s.sst.ring ++ [page] } := rfl

theorem recycleRing_moves (r : Record) : Moves (held s) (held (recycleRing r s).2) := by
  unfold recycleRing
  split
  · exact .done _
  · rename_i page rest h
    exact .one (.ringTurn (held s) page rest h)

theorem nextRingPage_moves (r : Record) : Moves (held s) (held (nextRingPage r s).2) := by
  unfold nextRingPage
  split
  · split
    · rename_i page s1 h
      obtain ⟨rest, hp, ht⟩ := held_takePage s h
      have hr : s1.sst.ring = s.sst.ring := by
        have : (held s1).ring = (held s).ring := by rw [ht]
        exact this
      show Moves (held s) (held (growRing page r s1))
      rw [growRing_held, ht, hr]
      exact .one (.ringTake (held s) page rest hp)
    · exact recycleRing_moves s r
  · exact recycleRing_moves s r

theorem placeInRing_moves (r : Record) : Moves (held s) (held (placeInRing r s).2) := by
  unfold placeInRing
  split
  · split
    · exact .done _
    · exact nextRingPage_moves s r
  · exact nextRingPage_moves s r

theorem starve_moves : Moves (held s) (held (starve s)) := by
  simp only [starve]
  have e : held (s.setSst { s.sst with historyLoss := satAdd Config.counterMax s.sst.historyLoss 1 }) = held s := rfl
  generalize s.setSst { s.sst with historyLoss := satAdd Config.counterMax s.sst.historyLoss 1 } = u at e
  split
  · exact Moves.onward e ((completeFilling_moves u _ _).trans (haltWith_moves _ _))
  · exact Moves.onward e (closeSegment_moves u _)

theorem placeInSegment_moves {d : Descriptor} (r : Record) (h : fillingSegment s = some d) :
    Moves (held s) (held (placeInSegment d r s).2) := by
  unfold placeInSegment
  split
  · exact .done _
  · split
    · rename_i page s1 h1
      obtain ⟨u, rest, hm, hf, hp, ht⟩ := takeOrDisplace_spec s h1
      have k : held (writeSlot page 0 r (updateFilling (addFillPage page) s1)) =
          { held u with pool := rest, table := modifyFirst isFilling (addFillPage page) u.sgm.table } := by
        rw [held_writeSlot, held_updateFilling, ht, held_table ht]
        rfl
      show Moves (held s) (held (writeSlot page 0 r (updateFilling (addFillPage page) s1)))
      rw [k]
      exact .step hm (.fillTake (held u) _ d page rest hp (hf.trans h) rfl (fun _ => rfl) (fun _ => rfl))
    · exact starve_moves s

theorem placeRecord_moves (r : Record) : Moves (held s) (held (placeRecord r s).2) := by
  unfold placeRecord
  split
  · rename_i d h
    exact placeInSegment_moves s r h
  · exact placeInRing_moves s r

theorem closeCheck_moves : Moves (held s) (held (closeCheck s)) := by
  unfold closeCheck
  split
  · exact .done _
  · split
    · split
      · exact (completeFilling_moves s _ _).trans (haltWith_moves _ _)
      · exact closeSegment_moves s _
    · exact .done _

theorem countRecord_moves (b : Bool) : Moves (held s) (held (countRecord b s)) :=
  (updateFilling_moves s (countedDescriptor b) (fun _ => rfl) (fun _ => rfl) (fun _ h => .inl h)).trans (closeCheck_moves _)

theorem afterEvaluation_moves (p : Placement) (ctx : CaptureContext) : Moves (held s) (held (afterEvaluation p ctx s)) := by
  unfold afterEvaluation
  split
  · exact countRecord_moves s _
  · split
    · exact closeCheck_moves s
    · exact .done _
  · split
    · exact closeCheck_moves s
    · exact .done _
  · exact .done _

theorem afterErr_moves (p : Placement) : Moves (held s) (held (afterErr p s)) := by
  unfold afterErr
  split
  · exact countRecord_moves s _
  all_goals exact .done _

theorem evaluateStored_moves (channel : Nat) (r : Record) (p : Placement) :
    Moves (held s) (held (evaluateStored channel r p s)) := by
  unfold evaluateStored
  exact Moves.onward (held_setAqs s _) ((evaluateRecord_moves _ _ _ _).trans (afterEvaluation_moves _ _ _))

theorem storeRecord_moves (channel : Nat) (r : Record) : Moves (held s) (held (storeRecord channel r s)) := by
  simp only [storeRecord]
  split
  · exact placeRecord_moves s r
  · split
    · exact (placeRecord_moves s r).trans (afterErr_moves _ _)
    · exact (placeRecord_moves s r).trans (evaluateStored_moves _ _ _ _)

theorem converterFault_moves (q : Request) : Moves (held s) (held (converterFault q s)) := by
  unfold converterFault
  have h := haltWith_moves (queueEvent (.cvFault q.channel q.entry s.cvp.consecutive s.cvp.total) s) .converter
  rwa [held_queueEvent] at h

theorem lookAhead_held (i : Nat) (hold : Bool) : held (lookAhead i hold s) = held s := by
  unfold lookAhead
  split
  · rw [passBoundary_held]
    rfl
  · split
    · rfl
    · split <;> rfl

theorem continuePacing_held (i : Nat) (hold : Bool) : held (continuePacing i hold s) = held s := by
  unfold continuePacing
  split
  · exact lookAhead_held s i hold
  · rfl

/-- The route of a record is a chain of moves. -/
theorem routeRecord_moves (c : Completion) (e : ScanEntry) : Moves (held s) (held (routeRecord c e s)) := by
  simp only [routeRecord]
  rw [continuePacing_held]
  have h : held (s.setAqs { s.aqs with holdPending := false }) = held s := held_setAqs s _
  generalize s.setAqs { s.aqs with holdPending := false } = u at h
  refine Moves.onward h ?_
  have hs : ∀ r, Moves (held u) (held (storeRecord e.channel r (handRecord u))) := fun r =>
    Moves.onward (held_setAqs u _) (storeRecord_moves _ _ _)
  split
  · split
    · exact converterFault_moves u _
    · exact (hs _).trans (converterFault_moves _ _)
  · split
    · exact .done _
    · exact hs _

theorem missedTick_moves : Moves (held s) (held (missedTick s)) :=
  Moves.onward (held_setAqs s _) (markOverrun_moves _)

theorem convertAt_held (i : Nat) (e : ScanEntry) : held (convertAt i e s) = held s := rfl

theorem stepSearch_held (fuel left : Nat) : held (stepSearch fuel left s) = held s := by
  induction fuel generalizing left s with
  | zero => rfl
  | succ fuel ih =>
    have hb : held (if decide (s.sct.active.length ≤ s.aqs.position) then passBoundary s else s) = held s := by
      split
      · exact passBoundary_held s
      · rfl
    unfold stepSearch
    split
    · rfl
    · dsimp only
      generalize (if decide (s.sct.active.length ≤ s.aqs.position) then passBoundary s else s) = s1 at hb ⊢
      split
      · exact hb
      · split
        · exact hb
        · exact (ih _ _).trans hb

theorem stepTick_moves : Moves (held s) (held (stepTick s)) := by
  unfold stepTick
  split
  · exact missedTick_moves s
  · exact Moves.same (stepSearch_held s _ _)

theorem startPass_held : held (startPass s) = held s := by
  unfold startPass
  split
  · exact passBoundary_held s
  · split <;> rfl

theorem resumePass_held : held (resumePass s) = held s := by
  unfold resumePass
  split <;> rfl

theorem burstTick_moves : Moves (held s) (held (burstTick s)) := by
  unfold burstTick
  split
  · exact Moves.same (startPass_held s)
  · exact missedTick_moves s
  · exact Moves.same (resumePass_held s)

/-- A pace tick moves no page; it can set OVERRUN in the FILLING segment (R108). -/
theorem paceTickStep_moves : Moves (held s) (held (paceTickStep s)) := by
  unfold paceTickStep
  split
  · exact .done _
  · split
    · exact Moves.onward rfl (stepTick_moves (countTick _ s))
    · exact Moves.onward rfl (burstTick_moves (countTick _ s))

end Sys2Proof.Machine
end

