-- ==== Sys2Proof/Laws/Operations.lean ====
section
/-! SUPPORT. What the shared operations do, said once in the words of Safety: the queuing of event reports, the return of
pages, an entry into IDLE or HALTED, a discard, a flush, a tick, the search for the next due entry, a pass boundary, the
look-ahead, the numbering, a displacement, a page or descriptor gained, the rounds of the delivery engine, and the numbers in
payload bytes. -/

namespace Sys2Proof.Machine

/-! ## Numbers in payload bytes (R203) -/

theorem byte1_toNat {n : Nat} (h : n < 256) : (byte1 n).toNat = n := by
  simp [byte1, BitVec.toNat_ofNat]
  omega

/-- The bytes of a number hold it. -/
theorem leNat_leBytes (k n : Nat) (h : n < 256 ^ k) : leNat (leBytes k n) = n := by
  induction k generalizing n with
  | zero =>
    simp at h
    simp [leBytes, leNat, h]
  | succ k ih =>
    have : n / 256 < 256 ^ k := by
      rw [Nat.div_lt_iff_lt_mul (by norm_num)]
      rw [pow_succ] at h
      omega
    simp [leBytes, leNat, ih _ this]
    omega

@[simp] theorem leBytes_length (k n : Nat) : (leBytes k n).length = k := by
  induction k generalizing n with
  | zero => rfl
  | succ k ih => simp [leBytes, ih]

/-! ## Event reports and pages -/

theorem rpeQueueEvent_eq (e : EventReport) (r : Rpe) : rpeQueueEvent e r = withEvent e r := by
  by_cases h : r.queue.length < 48 <;>
    simp [rpeQueueEvent, withEvent, eventFits, Config.pendingPlaces, satAdd, Config.counterMax, h]

theorem returnPages_eq (pages : List Nat) (s : State) :
    returnPages pages s = s.setSst (withReturn s.sgm.settings.lowWatermark pages s.sst) := by
  unfold returnPages
  split
  · simp [withReturn, State.setSst]
  · next p ps =>
    cases hw : s.sst.watermark <;>
      by_cases hl : s.sgm.settings.lowWatermark < s.sst.pool.length + (ps.length + 1) <;>
      simp [compareAfterReturn, freeCount, withReturn, State.setSst, hw, hl]

/-! ## Entries, discards and flushes -/

theorem enterStopped_entered (st : AcqState) (r : AcqReason) (s : State) : Entered st r s (enterStopped st r s) := by
  have h1 : freeRing (setEntry st r (abandon s)) =
      (setEntry st r (abandon s)).setSst
        (withReturn s.sgm.settings.lowWatermark s.sst.ring { s.sst with ring := [], ringFill := none }) := by
    unfold freeRing
    rw [returnPages_eq]
    rfl
  unfold enterStopped
  rw [h1]
  cases hsch : s.sct.scheduled <;>
    constructor <;>
    simp [commitOnEntry, hsch, reportAcq, queueEvent, rpeQueueEvent_eq, State.setSst, State.setRpe, setEntry, abandon,
      State.setCvp, switchTables, wrapInc]

theorem discardFirst_discarded {p : Descriptor → Bool} {d : Descriptor} (r : DropReason) {s : State}
    (h : s.sgm.table.find? p = some d) : Discarded d r s (discardFirst p r s) := by
  obtain ⟨hd, bef, aft, ht, hb⟩ := List.find?_eq_some_iff_append.mp h
  have he : s.sgm.table.eraseP p = bef ++ aft := by
    rw [ht, List.eraseP_append_right _ (fun x hx => by simpa using hb x hx), List.eraseP_cons_of_pos hd]
  constructor
  · exact ⟨bef, aft, ht, by
      simp [discardFirst, h, returnPages_eq, queueEvent, State.setRpe, State.setSst, State.setSgm, he]⟩
  · simp [discardFirst, h, returnPages_eq, queueEvent, State.setRpe, State.setSst, State.setSgm]
  · simp [discardFirst, h, returnPages_eq, queueEvent, State.setRpe, State.setSst, State.setSgm, rpeQueueEvent_eq]
  · simp [discardFirst, h, returnPages_eq, queueEvent, State.setRpe, State.setSst, State.setSgm]

theorem droppedBy_sum (q : List Report) : (q.map droppedBy).sum = flushedEvents q := by
  induction q with
  | nil => rfl
  | cons x xs ih =>
    cases x with
    | segment r => simp [droppedBy, flushedEvents, ih]
    | event r => cases r <;> simp [droppedBy, flushedEvents, ih]

theorem flushReports_eq (credit : Nat) (s : State) :
    flushReports credit s = { s with rpe := flushed credit s.rpe, sgm := reverted s.sgm } := by
  by_cases h : 0 < min 65535 (s.rpe.lost + flushedEvents s.rpe.queue)
  · simp [flushReports, revertAll, State.setRpe, State.setSgm, rpeQueueLost, eventFits, Config.pendingPlaces, rpeFlush,
      flushed, satAdd, Config.counterMax, droppedBy_sum, reverted, h]
    intro a _
    rfl
  · have h' : min 65535 (s.rpe.lost + flushedEvents s.rpe.queue) = 0 := by omega
    simp [flushReports, revertAll, State.setRpe, State.setSgm, rpeQueueLost, eventFits, Config.pendingPlaces, rpeFlush,
      flushed, satAdd, Config.counterMax, droppedBy_sum, reverted, h']
    intro a _
    rfl

/-! ## The FILLING segment -/

theorem fillingSegment_none {s : State} (h : ∀ d ∈ s.sgm.table, d.state ≠ .filling) : fillingSegment s = none := by
  simp only [fillingSegment, List.find?_eq_none, isFilling, decide_eq_true_eq]
  exact h

theorem fillingSegment_some {s : State} (h : ∃ d ∈ s.sgm.table, d.state = .filling) :
    ∃ d, fillingSegment s = some d := by
  cases hf : fillingSegment s with
  | some d => exact ⟨d, rfl⟩
  | none =>
    simp only [fillingSegment, List.find?_eq_none, isFilling, decide_eq_true_eq] at hf
    obtain ⟨d, h1, h2⟩ := h
    exact absurd h2 (hf d h1)

/-! ## Ticks and the search (R79, R104, R106, R108) -/

theorem countTick_eq (t : Nat) (s : State) : countTick t s = ticked t s := rfl
theorem missedTick_eq (s : State) : missedTick s = missed s := rfl
theorem convertAt_eq (i : Nat) (e : ScanEntry) (s : State) : convertAt i e s = asked i e s := rfl

/-- The search finds an entry that is due when none before it is. -/
theorem nextDue_some (pass start : Nat) (table : List ScanEntry) (i : Nat) (e : ScanEntry) (hs : start ≤ i)
    (he : table[i]? = some e) (hd : pass % e.divider = e.phase)
    (hn : ∀ j f, start ≤ j → j < i → table[j]? = some f → pass % f.divider ≠ f.phase) :
    nextDue pass start table = some i := by
  have key : ∀ (l : List ScanEntry) (k m : Nat), l[m]? = some e →
      (∀ j f, j < m → l[j]? = some f → pass % f.divider ≠ f.phase) → firstDue pass k l = some (k + m) := by
    intro l
    induction l with
    | nil =>
      intro k m h
      simp at h
    | cons x xs ih =>
      intro k m h hj
      cases m with
      | zero =>
        simp at h
        subst h
        simp [firstDue, isDue, hd]
      | succ m =>
        have := hj 0 x (by omega) rfl
        simp [firstDue, isDue, this]
        rw [ih (k + 1) m (by simpa using h) (fun j f h1 h2 => hj (j + 1) f (by omega) (by simpa using h2))]
        congr 1
        omega
  have := key (table.drop start) start (i - start)
    (by
      simp
      rw [show start + (i - start) = i by omega]
      exact he)
    (fun j f h1 h2 => hn (start + j) f (by omega) (by omega) (by simpa using h2))
  rw [nextDue, this]
  congr 1
  omega

/-- The search finds nothing when no entry from its start on is due. -/
theorem nextDue_none (pass start : Nat) (table : List ScanEntry)
    (hn : ∀ j f, start ≤ j → table[j]? = some f → pass % f.divider ≠ f.phase) : nextDue pass start table = none := by
  have key : ∀ (l : List ScanEntry) (k : Nat), (∀ f ∈ l, pass % f.divider ≠ f.phase) → firstDue pass k l = none := by
    intro l
    induction l with
    | nil =>
      intro k h
      rfl
    | cons x xs ih =>
      intro k h
      simp [firstDue, isDue, h x (by simp)]
      exact ih (k + 1) (fun f hf => h f (by simp [hf]))
  apply key
  intro f hf
  obtain ⟨j, hj, rfl⟩ := List.mem_iff_getElem.mp hf
  exact hn (start + j) _ (by omega) (by simp)

/-! ## Boundaries and the look-ahead (R89, R90, R109, R110) -/

theorem switchTables_eq (s : State) : switchTables s = switched s := by
  simp [switchTables, queueEvent, rpeQueueEvent_eq, switched, State.setRpe, wrapInc]

theorem switchDue_iff (s : State) : switchDue s = true ↔ CommitDue s := by
  simp [switchDue, CommitDue, and_assoc]

theorem passBoundary_at (s : State) : AtBoundary s (passBoundary s) := by
  have h : switchDue (s.setAqs { s.aqs with pass := wrapInc Config.passModulus s.aqs.pass, position := 0 }) =
    switchDue s := rfl
  constructor <;> intro hc <;> rw [← switchDue_iff, ← h] at hc
  · simp only [passBoundary, hc, if_true, switchTables_eq]
    rfl
  · simp only [passBoundary, hc]
    rfl

theorem NextDue.search {s : State} {start j : Nat} {e : ScanEntry} (h : NextDue s start j e) :
    nextDue s.aqs.pass start s.sct.active = some j :=
  nextDue_some _ _ _ j e h.1 h.2.1 h.2.2.1 (fun i f h1 h2 h3 => h.2.2.2 i f h1 h2 h3)

theorem search_none {s : State} {start : Nat} (h : ∀ j e, ¬ NextDue s start j e) :
    nextDue s.aqs.pass start s.sct.active = none := by
  apply nextDue_none
  intro j
  induction j using Nat.strongRecOn with
  | ind j ih => exact fun f hs hf hd => h j f ⟨hs, hf, hd, fun i g hi hj hg => ih i hj g hi hg⟩

/-- Pacing after a completion, in the words of PacingGoesOn. -/
theorem continuePacing_goesOn (index : Nat) (hold : Bool) (s : State) :
    PacingGoesOn index hold s (continuePacing index hold s) := by
  have ha : acquiring s = true ↔ s.aqs.state = .running ∨ s.aqs.state = .draining := by simp [acquiring]
  constructor
  · intro h
    simp [continuePacing, h]
  · intro h
    have h' : ¬ (s.aqs.state = .running ∨ s.aqs.state = .draining) := fun x => by simp [ha.mpr x] at h
    simp [continuePacing, h']
  · rintro hm hq rfl j e hn
    simp [continuePacing, ha.mp hq, hm, lookAhead, hn.search, hn.2.1, convertAt_eq]
  · rintro hm hq rfl j e hn
    simp [continuePacing, ha.mp hq, hm, lookAhead, hn.search, State.setAqs]
  · intro hm hq hn
    simp only [continuePacing, ha.mp hq, hm, and_self, if_true, lookAhead, search_none hn]
    exact passBoundary_at _

/-! ## Numbers, displacement and pages (R23, R28, R37, R38, R40) -/

theorem firstFreeNumber_spec (used : List Nat) : ∀ (fuel n k : Nat),
    (∀ j, j < k → (n + j) % 65536 ∈ used) → (n + k) % 65536 ∉ used → k ≤ fuel → n < 65536 →
    firstFreeNumber fuel n used = (n + k) % 65536 := by
  intro fuel
  induction fuel with
  | zero =>
    intro n k _ _ hk hn
    obtain rfl : k = 0 := by omega
    simp [firstFreeNumber, Nat.mod_eq_of_lt hn]
  | succ fuel ih =>
    intro n k hu hf hk hn
    cases k with
    | zero =>
      rw [Nat.add_zero, Nat.mod_eq_of_lt hn] at hf
      simp [firstFreeNumber, hf, Nat.mod_eq_of_lt hn]
    | succ k =>
      have h0 := hu 0 (by omega)
      rw [Nat.add_zero, Nat.mod_eq_of_lt hn] at h0
      have e : ∀ j, (wrapInc 65536 n + j) % 65536 = (n + (j + 1)) % 65536 := fun j => by simp only [wrapInc]; omega
      simp only [firstFreeNumber, List.contains_iff_mem, h0, if_true]
      rw [ih (wrapInc 65536 n) k (fun j hj => by rw [e]; exact hu (j + 1) (by omega)) (by rw [e]; exact hf) (by omega)
        (by simp only [wrapInc]; omega), e]

/-- The number that an open gives is the first that no descriptor in use holds (R23). -/
theorem FirstFree.next {s : State} {n : Nat} (h : FirstFree s n) (hn : s.sgm.nextNumber < 65536) :
    nextSegmentNumber s = n := by
  obtain ⟨hf, k, rfl, hk⟩ := h
  have hk' : ∀ j, j < k → (s.sgm.nextNumber + j) % 65536 ∈ s.sgm.table.map Descriptor.number := fun j hj => by
    obtain ⟨d, hd, e⟩ := hk j hj
    exact List.mem_map.mpr ⟨d, hd, e⟩
  have hlt : k < 65536 := by
    rcases Nat.lt_or_ge k 65536 with h | h
    · exact h
    · obtain ⟨d, hd, e⟩ := hk (k - 65536) (by omega)
      exact absurd (e.trans (by omega)) (hf d hd)
  refine firstFreeNumber_spec _ _ _ k hk' ?_ ?_ hn
  · rw [List.mem_map]
    rintro ⟨d, hd, e⟩
    exact hf d hd e
  · have hsub : ((List.range k).map (fun j => (s.sgm.nextNumber + j) % 65536)) ⊆ s.sgm.table.map Descriptor.number := by
      intro x hx
      obtain ⟨j, hj, rfl⟩ := List.mem_map.mp hx
      exact hk' j (List.mem_range.mp hj)
    have hnd : ((List.range k).map (fun j => (s.sgm.nextNumber + j) % 65536)).Nodup := by
      refine List.Nodup.map_on ?_ List.nodup_range
      intro a ha b hb e
      rw [List.mem_range] at ha hb
      omega
    simpa using (hnd.subperm hsub).length_le

theorem mayBeDisplaced_iff (priority : Nat) (forPage : Bool) (s : State) (d : Descriptor) :
    displaceCandidate s.rpe.fetch priority forPage d = true ↔ MayBeDisplaced priority forPage s d := by
  cases forPage <;> simp [displaceCandidate, displaceable, MayBeDisplaced, and_assoc]

/-- A displacement makes the one state that Displaced describes (R40, R41). -/
theorem Displaced.displaceOne_eq {priority : Nat} {forPage : Bool} {s u : State} (h : Displaced priority forPage s u) :
    displaceOne priority forPage s = some u := by
  obtain ⟨bef, d, aft, ht, hd, hb, hu, hs⟩ := h
  have hc := (mayBeDisplaced_iff priority forPage s d).mpr hd
  have hbc : ∀ x ∈ bef, displaceCandidate s.rpe.fetch priority forPage x = false := fun x hx => by
    rw [← Bool.not_eq_true, mayBeDisplaced_iff]
    exact hb x hx
  have hf : s.sgm.table.find? (displaceCandidate s.rpe.fetch priority forPage) = some d := by
    rw [List.find?_eq_some_iff_append]
    exact ⟨hc, bef, aft, ht, fun x hx => by simp [hbc x hx]⟩
  have he : s.sgm.table.eraseP (displaceCandidate s.rpe.fetch priority forPage) = bef ++ aft := by
    rw [ht, List.eraseP_append_right _ (fun x hx => by simp [hbc x hx]), List.eraseP_cons_of_pos hc]
  have ha : s.sgm.table.any (displaceCandidate s.rpe.fetch priority forPage) = true := by
    rw [ht]
    simp [hc]
  simp only [displaceOne, ha, if_true, Option.some.injEq]
  have hv := discardFirst_discarded .displaced hf
  have hg : (discardFirst (displaceCandidate s.rpe.fetch priority forPage) .displaced s).sgm = u.sgm := by
    rw [hs]
    simp [discardFirst, hf, returnPages_eq, queueEvent, State.setRpe, State.setSst, State.setSgm, he]
  obtain ⟨-, v1, v2, v3, v4, v5, v6, v7, v8, v9, v10, v11, v12⟩ := hv
  obtain ⟨-, u1, u2, u3, u4, u5, u6, u7, u8, u9, u10, u11, u12⟩ := hu
  generalize discardFirst (displaceCandidate s.rpe.fetch priority forPage) .displaced s = v at *
  cases v
  cases u
  simp_all

theorem displaceOne_none {priority : Nat} {forPage : Bool} {s : State}
    (h : ∀ d ∈ s.sgm.table, ¬ MayBeDisplaced priority forPage s d) : displaceOne priority forPage s = none := by
  have ha : s.sgm.table.any (displaceCandidate s.rpe.fetch priority forPage) = false := by
    rw [List.any_eq_false]
    intro d hd
    rw [mayBeDisplaced_iff]
    exact h d hd
  simp [displaceOne, ha]

theorem takePage_eq (s : State) (page : Nat) (h : s.sst.pool.head? = some page) :
    takePage s =
      some (page, { s with
        sst := withTake s.sgm.settings.lowWatermark s.sst,
        rpe := withTakeReport s.sgm.settings.lowWatermark s.sst s.rpe }) := by
  obtain ⟨p, ht⟩ : ∃ rest, s.sst.pool = page :: rest := by
    cases hp : s.sst.pool with
    | nil => simp [hp] at h
    | cons x xs => exact ⟨xs, by simpa [hp] using h⟩
  cases hw : s.sst.watermark <;> by_cases hl : p.length ≤ s.sgm.settings.lowWatermark <;>
    simp [takePage, ht, compareAfterTake, withTake, withTakeReport, hw, hl, freeCount, queueEvent, rpeQueueEvent_eq,
      State.setSst, State.setRpe]

/-- A page that can be had is the one that PageGained describes (R37, R38). -/
theorem PageGained.take {priority page : Nat} {s u : State} (h : PageGained priority page s u) :
    takeOrDisplace priority s = some (page, u) := by
  obtain ⟨v, hv, hp, rfl⟩ := h
  have hset : v.sgm.settings = s.sgm.settings := by
    rcases hv with ⟨-, rfl⟩ | ⟨-, -, bef, d, aft, -, -, -, -, hs⟩
    · rfl
    · rw [hs]
  have ht := takePage_eq v page hp
  rw [hset] at ht
  rcases hv with ⟨-, rfl⟩ | ⟨he, hx, hd⟩
  · simp [takeOrDisplace, ht]
  · simp [takeOrDisplace, takePage, he, hx, hd.displaceOne_eq]
    simpa [takePage] using ht

theorem NoPageFor.take {priority : Nat} {s : State} (h : NoPageFor priority s) : takeOrDisplace priority s = none := by
  obtain ⟨hp, hx⟩ := h
  have ht : takePage s = none := by simp [takePage, hp]
  rcases hx with hx | hx
  · simp [takeOrDisplace, ht, hx]
  · simp [takeOrDisplace, ht, displaceOne_none hx]

theorem DescriptorGained.slot {priority : Nat} {s u : State} (h : DescriptorGained priority s u) :
    descriptorSlot priority s = some u := by
  rcases h with ⟨hl, rfl⟩ | ⟨hl, hx, hd⟩
  · simp [descriptorSlot, Config.descriptors, hl]
  · simp [descriptorSlot, Config.descriptors, Nat.not_lt.mpr hl, hx, hd.displaceOne_eq]

/-! ## The delivery engine (R129, R137, R139) -/

/-- As many rounds as the delivery engine can make from this state: each round queues a report or starts a delivery. -/
def engineRounds (s : State) : Nat := 2 * segmentRoom s.rpe + (if s.rpe.slot = none then 1 else 0)

theorem segmentFits_iff (r : Rpe) : segmentFits r = true ↔ 0 < segmentRoom r := by
  have h1 : (decide (r.queue.length < 48) && decide (pendingSegments r < 40)) = true ↔
      r.queue.length < 48 ∧ pendingSegments r < 40 := by simp
  exact h1.trans (by simp only [segmentRoom]; omega)

theorem queueSegmentReport_rounds (n : Nat) (pos : DeliveryPos) (d : Descriptor) (s : State)
    (h : 0 < segmentRoom s.rpe) : engineRounds (queueSegmentReport n pos d s) < 2 * segmentRoom s.rpe := by
  have hq : segmentRoom { s.rpe with queue := s.rpe.queue ++ [Report.segment (reportAt d pos)] } = segmentRoom s.rpe - 1 := by
    have h1 : List.filter isSegmentReport [Report.segment (reportAt d pos)] = [Report.segment (reportAt d pos)] := rfl
    simp only [segmentRoom, pendingSegments, List.filter_append, List.length_append, h1, List.length_singleton]
    omega
  have hr : ∀ slot, segmentRoom { s.rpe with queue := s.rpe.queue ++ [Report.segment (reportAt d pos)], slot := slot } =
      segmentRoom s.rpe - 1 := fun _ => hq
  simp only [queueSegmentReport]
  split
  · simp only [engineRounds, State.setRpe, hr]
    simp
    omega
  · simp only [engineRounds, State.setRpe, moveSegment, State.setSgm, hr]
    simp
    omega

/-- With enough rounds, one more changes nothing. -/
theorem runEngine_succ : ∀ (fuel : Nat) (s : State), engineRounds s ≤ fuel → runEngine (fuel + 1) s = runEngine fuel s := by
  intro fuel
  induction fuel with
  | zero =>
    intro s h
    have hs : s.rpe.slot ≠ none ∧ segmentRoom s.rpe = 0 := by
      simp only [engineRounds] at h
      split at h <;> simp_all
    have hf : segmentFits s.rpe = false := by
      rw [← Bool.not_eq_true, segmentFits_iff]
      omega
    obtain ⟨⟨n, pos⟩, hx⟩ := Option.ne_none_iff_exists'.mp hs.1
    simp [runEngine, hx, hf]
  | succ fuel ih =>
    intro s h
    rw [runEngine]
    conv => rhs; rw [runEngine]
    cases hx : s.rpe.slot with
    | some x =>
      obtain ⟨n, pos⟩ := x
      simp only
      split
      · next hf =>
        split
        · next d _ =>
          refine ih _ ?_
          have hp := (segmentFits_iff _).mp hf
          have := queueSegmentReport_rounds n pos d s hp
          simp only [engineRounds, hx, reduceCtorEq, if_false] at h
          omega
        · rfl
      · rfl
    | none =>
      simp only
      split
      · next n _ =>
        refine ih _ ?_
        have hr : engineRounds (startDelivery n s) + 1 = engineRounds s := by
          simp only [engineRounds, hx, if_true, startDelivery, moveSegment, State.setSgm, State.setRpe]
          rfl
        omega
      · rfl

/-- Two numbers of rounds, both enough, give the same. -/
theorem runEngine_enough {s : State} {a b : Nat} (ha : engineRounds s ≤ a) (hb : engineRounds s ≤ b) :
    runEngine a s = runEngine b s := by
  have key : ∀ k, runEngine (engineRounds s + k) s = runEngine (engineRounds s) s := by
    intro k
    induction k with
    | zero => rfl
    | succ k ih => rw [← Nat.add_assoc, runEngine_succ _ _ (by omega), ih]
  obtain ⟨x, rfl⟩ := Nat.exists_eq_add_of_le ha
  obtain ⟨y, rfl⟩ := Nat.exists_eq_add_of_le hb
  rw [key, key]

theorem engineRounds_le (s : State) : engineRounds s ≤ engineFuel := by
  simp only [engineRounds, segmentRoom, engineFuel]
  split <;> omega

/-! ## The settings in their 14 bytes (R193) -/

/-- Reading the bytes of legal settings gives the settings. -/
theorem readCapture_captureBytes (x : CaptureSettings) (h : captureRangesOk x = true) :
    readCapture (captureBytes x) = some x := by
  have h' := h
  simp [captureRangesOk] at h'
  have e2 : ∀ n, leBytes 2 n = [BitVec.ofNat 8 n, BitVec.ofNat 8 (n / 256)] := fun _ => rfl
  have L : ∀ n, n < 65536 → leNat [BitVec.ofNat 8 n, BitVec.ofNat 8 (n / 256)] = n := fun n hn => leNat_leBytes 2 n hn
  obtain ⟨p, q, m, r, e, c, d, ho, w, lo⟩ := x
  simp at h'
  have r1 : Retrigger.ofCode (byte1 r.code).toNat = some r := by cases r <;> rfl
  have r2 : Exhaustion.ofCode (byte1 e.code).toNat = some e := by cases e <;> rfl
  have r3 : CaptureMode.ofCode (byte1 c.code).toNat = some c := by cases c <;> rfl
  have r4 : DeliveryMode.ofCode (byte1 d.code).toNat = some d := by cases d <;> rfl
  simp only [captureBytes, e2, List.cons_append, List.nil_append, readCapture, r1, r2, r3, r4]
  rw [L p (by omega), L q (by omega), L m (by omega), L ho (by omega), byte1_toNat (by omega), byte1_toNat (by omega),
    if_pos h]

end Sys2Proof.Machine
end

