-- ==== Sys2Proof/Laws/Owners.lean ====
section
/-! SUPPORT. The steps of commands taken apart once: a relation that every owner's effect and every reply meets, every
command's step meets; and the owners of the acquisition side, with its own steps, stay within the inner frame. -/

namespace Sys2Proof.Machine

/-! ## From the owners to the steps -/

/-- A relation between the state before and the state after that every owner's effect and every reply meets. -/
structure OwnersMeet (R : State → State → Prop) : Prop where
  refl : ∀ s, R s s
  rep : ∀ s u c code r f, R s u → s.cmp.taken = some c → R s (replied c code r f u)
  ans : ∀ s r, R s (answerRepeat r s)
  hello : ∀ args s, R s (ownHello args s).2
  bye : ∀ args s, s.lki.session ≠ .closed → R s (ownBye args s).2
  replay : ∀ args s, s.lki.session ≠ .closed → R s (ownReplay args s).2
  reset : ∀ args s, R s (ownReset args s).2
  tclear : ∀ args s, R s (ownTclear args s).2
  tadd : ∀ args s, R s (ownTadd args s).2
  tcommit : ∀ args s, R s (ownTcommit args s).2
  rset : ∀ args s, R s (ownRset args s).2
  ron : ∀ args s, R s (ownRon args s).2
  roff : ∀ args s, R s (ownRoff args s).2
  rarm : ∀ args s, R s (ownRarm args s).2
  rread : ∀ args s, R s (ownRread args s).2
  cset : ∀ args s, R s (ownCset args s).2
  pset : ∀ args s, R s (ownPset args s).2
  start : ∀ args s, R s (ownStart args s).2
  stop : ∀ args s, R s (ownStop args s).2
  abort : ∀ args s, R s (ownAbort args s).2
  force : ∀ args s, R s (ownForce args s).2
  sfetch : ∀ args s, R s (ownSfetch args s).2
  sdrop : ∀ args s, R s (ownSdrop args s).2

theorem OwnersMeet.deal {R : State → State → Prop} (h : OwnersMeet R) {code : Byte} {lengthOk : List Byte → Bool}
    {inClosed : Bool} {owner : List Byte → State → Answer × State}
    (ho : ∀ args s, s.lki.session ≠ .closed ∨ inClosed = true → R s (owner args s).2) (s : State) :
    R s (dealWith code lengthOk inClosed owner s) := by
  rcases dealWith_cases (code := code) (lengthOk := lengthOk) (inClosed := inClosed) (s := s) owner with
    e | ⟨r, e⟩ | ⟨c, args, r, hc, e, _⟩ | ⟨c, args, hc, hp, hl, hcl, e⟩
  · rw [e]; exact h.refl s
  · rw [e]; exact h.ans s r
  · rw [e]; exact h.rep s s c _ _ _ (h.refl s) hc
  · rw [e]; exact h.rep s _ c _ _ _ (ho args s hcl) hc

/-- What every owner's effect meets, every host command's step meets. -/
theorem OwnersMeet.command {R : State → State → Prop} (h : OwnersMeet R) {i : Instr} {code : Byte}
    (hi : commandCode i = some code) (s t : State) (e : exec i s = .next t) : R s t := by
  cases i <;> simp only [commandCode, Option.some.injEq, reduceCtorEq] at hi <;>
    (injection e with e; subst e; apply h.deal; intro args s hcl)
  · exact h.hello args s
  · exact h.bye args s (by simpa using hcl)
  · exact h.replay args s (by simpa using hcl)
  · exact h.refl s
  · exact h.refl s
  · exact h.reset args s
  · exact h.tclear args s
  · exact h.tadd args s
  · unfold ownTread; split <;> (try split) <;> exact h.refl s
  · exact h.tcommit args s
  · exact h.rset args s
  · exact h.ron args s
  · exact h.roff args s
  · exact h.rarm args s
  · exact h.rread args s
  · exact h.cset args s
  · exact h.refl s
  · exact h.pset args s
  · exact h.start args s
  · exact h.stop args s
  · exact h.abort args s
  · exact h.force args s
  · exact h.refl s
  · exact h.sfetch args s
  · exact h.sdrop args s

theorem OwnersMeet.unknown {R : State → State → Prop} (h : OwnersMeet R) (s : State) : R s (unknownCommandStep s) := by
  unfold unknownCommandStep
  split
  · exact h.refl s
  · next c hc =>
    split
    · split
      · exact h.ans s _
      · exact h.rep s s c _ _ _ (h.refl s) hc
    · split
      · exact h.refl s
      · split
        · exact h.ans s _
        · exact h.rep s s c _ _ _ (h.refl s) hc

/-! ## The owners of the acquisition side -/

/-- A command on one rule changes the rules only. -/
theorem withRule_meets {R : State → State → Prop} {s : State} (hr : R s s) (ht : ∀ x, R s (s.setTgm x)) (i : Nat)
    (act : Rule → Answer × Rule) : R s (withRule i act s).2 := by
  unfold withRule
  split
  · exact ht _
  · exact hr

theorem withRule_inner (i : Nat) (act : Rule → Answer × Rule) (s : State) : InnerFrame s (withRule i act s).2 :=
  withRule_meets (R := InnerFrame) (.refl s) (setTgm_inner s) i act

section owners

variable (args : List Byte) (s : State)

theorem ownRset_inner : InnerFrame s (ownRset args s).2 := by
  unfold ownRset; split <;> [exact .refl s; exact withRule_inner _ _ s]
theorem ownRon_inner : InnerFrame s (ownRon args s).2 := by
  unfold ownRon; split <;> [exact withRule_inner _ _ s; exact .refl s]
theorem ownRoff_inner : InnerFrame s (ownRoff args s).2 := by
  unfold ownRoff; split <;> [exact withRule_inner _ _ s; exact .refl s]
theorem ownRarm_inner : InnerFrame s (ownRarm args s).2 := by
  unfold ownRarm; split <;> [exact withRule_inner _ _ s; exact .refl s]
theorem ownRread_inner : InnerFrame s (ownRread args s).2 := by
  unfold ownRread; split <;> [exact withRule_inner _ _ s; exact .refl s]
theorem ownTclear_inner : InnerFrame s (ownTclear args s).2 := by
  unfold ownTclear; split <;> [exact .refl s; exact setSct_inner s _]
theorem ownTadd_inner : InnerFrame s (ownTadd args s).2 := by
  unfold ownTadd; split <;> (try split) <;> (try split) <;> first | exact .refl s | exact setSct_inner s _
theorem ownTcommit_inner : InnerFrame s (ownTcommit args s).2 := by
  unfold ownTcommit
  split <;> (try split) <;> (try split) <;> first | exact switchTables_inner s | exact .refl s | exact setSct_inner s _
theorem ownCset_inner : InnerFrame s (ownCset args s).2 := by
  unfold ownCset; split <;> (try split) <;> first | exact .refl s | exact setSgm_inner s _
theorem ownPset_inner : InnerFrame s (ownPset args s).2 := by
  unfold ownPset; split <;> (try split) <;> first | exact .refl s | exact ⟨rfl, rfl, rfl, rfl, rfl, rfl, .refl _⟩
theorem ownStart_inner : InnerFrame s (ownStart args s).2 := by
  unfold ownStart; split <;> (try split) <;> (try split) <;> first | exact startRun_inner s | exact .refl s
theorem ownStop_inner : InnerFrame s (ownStop args s).2 := stopRun_inner s
theorem ownAbort_inner : InnerFrame s (ownAbort args s).2 := abortRun_inner s
theorem ownForce_inner : InnerFrame s (ownForce args s).2 := by
  unfold ownForce; split <;> (try split) <;> first | exact .refl s | exact setAqs_inner s _
theorem ownSdrop_inner : InnerFrame s (ownSdrop args s).2 := by
  unfold ownSdrop; split <;> (try split) <;> first | exact discardFirst_inner s _ _ | exact .refl s

end owners

/-! ## The steps of the acquisition side -/

/-- Ticks, completions and the pulse expiry stay within the inner frame. -/
theorem acquisition_inner {i : Instr}
    (hi : i = .paceTick ∨ i = .conversionTimeout ∨ (∃ v o g, i = .converterAnswer v o g) ∨ i = .trgoutPulseExpiry)
    {s t : State} (e : exec i s = .next t) : InnerFrame s t := by
  have hown : ∀ x, InnerFrame s (s.setCvp x) := setCvp_inner s
  rcases hi with rfl | rfl | ⟨v, o, g, rfl⟩ | rfl
  · injection e with e
    subst e
    exact paceTickStep_inner _
  · simp only [exec, execConversionTimeout, route] at e
    split at e
    · split at e
      · cases e
      · injection e with e
        subst e
        exact (hown _).trans (routeRecord_inner _ _ _)
    · injection e with e
      subst e
      exact .refl _
  · simp only [exec, execConverterAnswer, route] at e
    split at e
    · injection e with e
      subst e
      exact .refl _
    · split at e
      · injection e with e
        subst e
        exact hown _
      · split at e
        · split at e
          · cases e
          · injection e with e
            subst e
            exact (hown _).trans (routeRecord_inner _ _ _)
        · injection e with e
          subst e
          exact hown _
  · injection e with e
    subst e
    unfold pulseExpiryStep
    split
    · exact .refl _
    · exact setSgm_inner s _

/-- What the acquisition side adds to the pending queue stands behind what was there. -/
theorem RpeInner.queue_prefix {r q : Rpe} (h : RpeInner r q) : r.queue <+: q.queue := by
  induction h with
  | refl => exact List.prefix_rfl
  | @event q e _ ih =>
    refine ih.trans ?_
    unfold rpeQueueEvent
    split <;> simp
  | unfetch p _ ih => exact ih

end Sys2Proof.Machine
end

