-- ==== Sys2Proof/Laws/Slots.lean ====
section
/-! SUPPORT. The slots of the store: a write keeps the canonical form, is read back, and leaves every other slot as it
was. -/

namespace Sys2Proof.Machine

theorem slotsCanonical_cons_iff (a : Nat) (r : Record) (m : SlotMem) :
    slotsCanonical ((a, r) :: m) = true ↔ (∀ b q, (b, q) ∈ m.head? → a < b) ∧ slotsCanonical m = true := by
  cases m with
  | nil => simp [slotsCanonical]
  | cons x m =>
    obtain ⟨b, q⟩ := x
    simp [slotsCanonical]

theorem head_writeCell (m : SlotMem) (a : Nat) (r : Record) (b : Nat) (q : Record)
    (h : (b, q) ∈ (writeCell m a r).head?) : b = a ∨ ∃ q', (b, q') ∈ m.head? := by
  cases m with
  | nil => simp [writeCell] at h; exact .inl h.1.symm
  | cons x m =>
    obtain ⟨c, p⟩ := x
    simp only [writeCell] at h
    split at h
    · simp at h; exact .inl h.1.symm
    · split at h
      · simp at h; exact .inl h.1.symm
      · simp at h; exact .inr ⟨p, by simp [h.1]⟩

/-- A write keeps the canonical form. -/
theorem writeCell_canonical (m : SlotMem) (a : Nat) (r : Record) (h : slotsCanonical m = true) :
    slotsCanonical (writeCell m a r) = true := by
  induction m with
  | nil => rfl
  | cons x m ih =>
    obtain ⟨b, q⟩ := x
    rw [slotsCanonical_cons_iff] at h
    simp only [writeCell]
    split
    · rename_i hlt
      rw [slotsCanonical_cons_iff, slotsCanonical_cons_iff]
      exact ⟨by simpa using hlt, h⟩
    · split
      · rename_i _ heq
        rw [slotsCanonical_cons_iff]
        subst heq
        exact h
      · rename_i h1 h2
        rw [slotsCanonical_cons_iff]
        refine ⟨fun c p hc => ?_, ih h.2⟩
        rcases head_writeCell m a r c p hc with rfl | ⟨p', hp⟩
        · omega
        · exact h.1 c p' hp

/-- A slot reads as what was last written to it. -/
theorem readCell_writeCell_same (m : SlotMem) (a : Nat) (r : Record) : readCell (writeCell m a r) a = some r := by
  induction m with
  | nil => simp [writeCell, readCell]
  | cons x m ih =>
    obtain ⟨b, q⟩ := x
    simp only [writeCell]
    split
    · simp [readCell]
    · split
      · simp [readCell]
      · simp [readCell, *]

/-- A write leaves every other slot as it was. -/
theorem readCell_writeCell_other (m : SlotMem) (a b : Nat) (r : Record) (h : b ≠ a) :
    readCell (writeCell m a r) b = readCell m b := by
  induction m with
  | nil => simp [writeCell, readCell, h]
  | cons x m ih =>
    obtain ⟨c, q⟩ := x
    simp only [writeCell]
    split
    · simp [readCell, h]
    · split
      · rename_i _ heq
        subst heq
        simp [readCell, h]
      · simp [readCell, ih]

/-- What a write of one slot does to the part: only that slot changes. -/
@[simp] theorem slotRecord_writeSlot_same (page slot : Nat) (r : Record) (s : State) :
    slotRecord (writeSlot page slot r s) (slotAddr page slot) = r := by
  simp [slotRecord, writeSlot, readCell_writeCell_same]

theorem slotRecord_writeSlot_other (page slot a : Nat) (r : Record) (s : State) (h : a ≠ slotAddr page slot) :
    slotRecord (writeSlot page slot r s) a = slotRecord s a := by
  simp [slotRecord, writeSlot, readCell_writeCell_other _ _ _ _ h]

end Sys2Proof.Machine
end

