-- ==== Sys2Proof/Laws/Records.lean ====
section
/-! SUPPORT. What becomes of a record, said once in the words of Safety: its place in the ring or in the FILLING segment, a change
of the FILLING segment, closes, halts and the converter fault, and its firings dealt with one after another. -/

namespace Sys2Proof.Machine

/-! ## Closes, halts and faults (R31, R34, R39, R122) -/

/-- Only what a change does to the FILLING segment itself matters. -/
theorem modifyFirst_congr {α : Type} {p : α → Bool} {f g : α → α} {l : List α}
    (h : ∀ d, l.find? p = some d → f d = g d) :
    modifyFirst p f l = modifyFirst p g l := by
  induction l with
  | nil => rfl
  | cons x xs ih =>
    cases hx : p x with
    | true => simp [modifyFirst, hx, h x (by simp [hx])]
    | false => simp [modifyFirst, hx, ih (fun d hd => h d (by simpa [hx] using hd))]

/-- A change of the FILLING segment, given what it makes of that segment. -/
theorem updateFilling_eq {s : State} {d e : Descriptor} {f : Descriptor → Descriptor} (hd : fillingSegment s = some d)
    (he : f d = e) : updateFilling f s = { s with sgm := withFilling (fun _ => e) s.sgm } := by
  have h : modifyFirst isFilling f s.sgm.table = modifyFirst isFilling (fun _ => e) s.sgm.table :=
    modifyFirst_congr (fun x hx => by
      obtain rfl : x = d := Option.some.inj (hx.symm.trans hd)
      exact he)
  simp only [updateFilling, State.setSgm, withFilling, h]

theorem closeSegment_closes (truncated : Bool) (s : State) : Closes truncated s (closeSegment truncated s) := by
  have hc : completeFilling truncated false s = { s with sgm := withClosed truncated s.sgm } := by
    simp only [completeFilling, updateFilling, State.setSgm, withClosed, withFilling]
    congr 3
    funext x
    simp [closedDescriptor]
  constructor
  · intro hr hm
    simp [closeSegment, acquisitionAtClose, hc, hr, hm, State.setSgm, withClosed, withFilling]
  · intro hr hm
    simp only [closeSegment, acquisitionAtClose, hc, hr, withClosed, withFilling, hm]
    exact enterStopped_entered _ _ _
  · intro hr
    simp only [closeSegment, acquisitionAtClose, hc, hr]
    exact enterStopped_entered _ _ _

theorem completeFilling_halt (s : State) : completeFilling true true s = { s with sgm := withHaltEnd s.sgm } := by
  simp only [completeFilling, updateFilling, State.setSgm, withHaltEnd, withFilling]
  congr 3
  funext x
  simp [closedDescriptor]

theorem acquiring_iff (s : State) : acquiring s = true ↔ s.aqs.state = .running ∨ s.aqs.state = .draining := by
  simp [acquiring]

/-- A halt in RUNNING or DRAINING, and outside them. -/
theorem haltWith_halts (r : AcqReason) (s : State) :
    (acquiring s = true → Entered .halted r { s with sgm := withHaltEnd s.sgm } (haltWith r s)) ∧
    (acquiring s = false → haltWith r s = s) := by
  rw [← completeFilling_halt]
  constructor
  · intro h
    rcases (acquiring_iff s).mp h with h | h <;> simp only [haltWith, h] <;> exact enterStopped_entered _ _ _
  · intro h
    cases hs : s.aqs.state <;> simp_all [acquiring, haltWith]

theorem converterFault_faulted (q : Request) (s : State) : Faulted q s (converterFault q s) := by
  have hc : queueEvent (.cvFault q.channel q.entry s.cvp.consecutive s.cvp.total) s = withFaultReport q s := by
    simp [queueEvent, rpeQueueEvent_eq, State.setRpe, withFaultReport]
  have hh := haltWith_halts .converter (withFaultReport q s)
  rw [← hc] at hh
  constructor
  · intro h
    have := hh.1 (by rw [hc]; exact h)
    rw [hc] at this
    simp only [converterFault, hc]
    exact this
  · intro h
    simp only [converterFault, ← hc]
    exact hh.2 (by rw [hc]; exact h)

/-- With one FILLING segment, completing it twice is completing it once. -/
theorem withHaltEnd_twice {g : Sgm} (h : (g.table.filter isFilling).length ≤ 1) :
    withHaltEnd (withHaltEnd g) = withHaltEnd g := by
  have key : ∀ (f : Descriptor → Descriptor), (∀ d, isFilling (f d) = false) → ∀ l : List Descriptor,
      (l.filter isFilling).length ≤ 1 → modifyFirst isFilling f (modifyFirst isFilling f l) = modifyFirst isFilling f l := by
    intro f hf l hl
    induction l with
    | nil => rfl
    | cons x xs ih =>
      cases hx : isFilling x with
      | false => simp [modifyFirst, hx, ih (by simpa [hx] using hl)]
      | true =>
        have hn : xs.filter isFilling = [] := by
          rw [List.filter_cons, if_pos hx] at hl
          exact List.length_eq_zero_iff.mp (by simpa using hl)
        have hm : ∀ (l : List Descriptor), l.filter isFilling = [] → modifyFirst isFilling f l = l := by
          intro l
          induction l with
          | nil => intro _; rfl
          | cons y ys ih =>
            intro hy
            cases hy' : isFilling y with
            | true => simp [hy'] at hy
            | false => simp [modifyFirst, hy', ih (by simpa [hy'] using hy)]
        simp [modifyFirst, hx, hf, hm xs hn]
  simp only [withHaltEnd, withFilling]
  rw [key _ (by intro d; simp [isFilling]) _ h]

/-- A halt for want of a page, the FILLING segment completed for it. -/
theorem starvedHalt_entered {s : State} (ha : acquiring s = true) (h1 : (s.sgm.table.filter isFilling).length ≤ 1) :
    Entered .halted .starved { s with sgm := withHaltEnd s.sgm } (haltWith .starved (completeFilling true true s)) := by
  rw [completeFilling_halt]
  have := (haltWith_halts .starved { s with sgm := withHaltEnd s.sgm }).1 ha
  simpa only [withHaltEnd_twice h1] using this

theorem closeCheck_checked (s : State) : CloseChecked s (closeCheck s) := by
  constructor
  · intro h
    simp [closeCheck, h]
  · intro d h hp hd
    simp [closeCheck, h, windowDone, hp, hd]
  · intro d h hp hd
    have hb : d.pages.isEmpty = false := by simp [hp]
    simp only [closeCheck, h, windowDone, hd, hb]
    simpa using closeSegment_closes false s
  · intro d h hp hx
    simp only [closeCheck, h, windowDone, hp]
    simpa [hx] using closeSegment_closes true s
  · intro d h hp hx ha h1
    simp only [closeCheck, h, windowDone, hp]
    simpa [hx] using starvedHalt_entered ha h1

/-! ## The place of a record (R8, R9, R10, R13) -/

/-- A write of one slot, in the words of SlotWritten and SameButSlots. -/
theorem writeSlot_written {page slot : Nat} {r : Record} {s w : State} (h : ∀ a, slotRecord w a = slotRecord s a) :
    SlotWritten page slot r s (writeSlot page slot r w) ∧ SameButSlots (writeSlot page slot r w) w := by
  refine ⟨fun a => ?_, rfl⟩
  split
  · next ha => rw [show a = slotAddr page slot from ha]; exact slotRecord_writeSlot_same _ _ _ _
  · next ha => rw [slotRecord_writeSlot_other _ _ _ _ _ (show a ≠ slotAddr page slot from ha)]; exact h a

theorem RingPlaced.place {page slot : Nat} {s w : State} (h : RingPlaced page slot s w) (r : Record) :
    placeInRing r s = (.ring, writeSlot page slot r w) := by
  rcases h with ⟨older, hr, hf, hlt, rfl⟩ | ⟨rfl, hr, hl, hp, rfl⟩ | ⟨rfl, hf, hn, rest, hr, rfl⟩
  · simp [placeInRing, hr, hf, hlt, State.setSst]
  · have hn : placeInRing r s = nextRingPage r s := by
      rcases hr with hr | hr
      · simp [placeInRing, hr]
      · cases hg : s.sst.ring.getLast? <;> simp [placeInRing, hg, hr]
    rw [hn]
    simp [nextRingPage, hl, takePage_eq s page hp, growRing, State.setSst, withTake]
  · have hp : placeInRing r s = nextRingPage r s := by
      cases hg : s.sst.ring.getLast? <;> simp [placeInRing, hg, hf]
    have hc : recycleRing r s =
        (.ring, writeSlot page 0 r { s with sst := { s.sst with ring := rest ++ [page], ringFill := some 1 } }) := by
      simp [recycleRing, hr, State.setSst]
    rw [hp, ← hc]
    by_cases hl : s.sst.ring.length < s.sst.targetSize
    · have he : s.sst.pool = [] := hn.resolve_left (by omega)
      simp [nextRingPage, hl, takePage, he]
    · simp [nextRingPage, hl]

theorem RingPlaced.slots {page slot : Nat} {s w : State} (h : RingPlaced page slot s w) (a : Nat) :
    slotRecord w a = slotRecord s a := by
  rcases h with ⟨older, -, -, -, rfl⟩ | ⟨-, -, -, -, rfl⟩ | ⟨-, -, -, rest, -, rfl⟩ <;> rfl

theorem RingPlaced.keeps {page slot : Nat} {s w : State} (h : RingPlaced page slot s w) :
    w.aqs = s.aqs ∧ w.tgm = s.tgm ∧ w.trgin = s.trgin ∧ w.cvp = s.cvp ∧ w.sct = s.sct ∧ w.sgm = s.sgm := by
  rcases h with ⟨older, -, -, -, rfl⟩ | ⟨-, -, -, -, rfl⟩ | ⟨-, -, -, rest, -, rfl⟩ <;>
    exact ⟨rfl, rfl, rfl, rfl, rfl, rfl⟩

/-- With the ring and the pool empty a record is unplaced (R8, case 4). -/
theorem placeInRing_unplaced {s : State} (hr : s.sst.ring = []) (hp : s.sst.pool = []) (r : Record) :
    placeInRing r s = (.unplaced, s) := by
  by_cases hl : s.sst.ring.length < s.sst.targetSize <;>
    simp [placeInRing, nextRingPage, recycleRing, takePage, hr, hp]

theorem PageGained.slots {priority page : Nat} {s u : State} (h : PageGained priority page s u) (a : Nat) :
    slotRecord u a = slotRecord s a := by
  obtain ⟨v, ⟨-, rfl⟩ | ⟨-, -, bef, d, aft, -, -, -, hd, -⟩, -, rfl⟩ := h
  · rfl
  · have hs : v.sst.slots = s.sst.slots := by rw [hd.store]; rfl
    have hp : v.powerOns = s.powerOns := hd.others.2.2.1
    simp only [slotRecord, withTake, hs, hp]

theorem PageGained.keeps {priority page : Nat} {s u : State} (h : PageGained priority page s u) :
    u.aqs = s.aqs ∧ u.tgm = s.tgm ∧ u.trgin = s.trgin ∧ u.cvp = s.cvp ∧ u.sct = s.sct ∧
      u.sgm.settings = s.sgm.settings := by
  obtain ⟨v, ⟨-, rfl⟩ | ⟨-, -, bef, d, aft, -, -, -, hd, hs⟩, -, rfl⟩ := h
  · exact ⟨rfl, rfl, rfl, rfl, rfl, rfl⟩
  · obtain ⟨-, o2, -, o4, o5, o6, o7, -⟩ := hd.others
    exact ⟨o6, o4, o2, o7, o5, by rw [hs]⟩

theorem SegmentPlaced.place {d : Descriptor} {page slot : Nat} {s w : State} (h : SegmentPlaced d page slot s w)
    (r : Record) : placeInSegment d r s = (.segment, writeSlot page slot r w) := by
  have he : nextPosition d = placeIn d := by simp [nextPosition, storedLength, placeIn, Nat.add_assoc]
  rcases h with ⟨hp, rfl, rfl⟩ | ⟨hp, rfl, y, hy, rfl⟩
  · simp [placeInSegment, he, hp]
  · simp only [placeInSegment, he, List.getElem?_eq_none hp, hy.take]
    rfl

theorem SegmentPlaced.slots {d : Descriptor} {page slot : Nat} {s w : State} (h : SegmentPlaced d page slot s w) (a : Nat) :
    slotRecord w a = slotRecord s a := by
  rcases h with ⟨-, -, rfl⟩ | ⟨-, -, y, hy, rfl⟩
  · rfl
  · exact hy.slots a

theorem SegmentPlaced.keeps {d : Descriptor} {page slot : Nat} {s w : State} (h : SegmentPlaced d page slot s w) :
    w.aqs = s.aqs ∧ w.tgm = s.tgm ∧ w.trgin = s.trgin ∧ w.cvp = s.cvp ∧ w.sct = s.sct ∧
      w.sgm.settings = s.sgm.settings := by
  rcases h with ⟨-, -, rfl⟩ | ⟨-, -, y, hy, rfl⟩
  · exact ⟨rfl, rfl, rfl, rfl, rfl, rfl⟩
  · exact hy.keeps

/-- A change that keeps the FILLING segment FILLING changes what is found as it. -/
theorem find_modifyFirst {α : Type} {p : α → Bool} {f : α → α} {l : List α} {d : α} (h : l.find? p = some d)
    (hf : p (f d) = true) : (modifyFirst p f l).find? p = some (f d) := by
  induction l with
  | nil => simp at h
  | cons x xs ih =>
    cases hx : p x with
    | true =>
      obtain rfl : x = d := by simpa [hx] using h
      simp [modifyFirst, hx, hf]
    | false => simpa [modifyFirst, hx] using ih (by simpa [hx] using h)

/-- A displacement leaves the FILLING segment: it takes a COMPLETE one. -/
theorem Displaced.filling {priority : Nat} {forPage : Bool} {s u : State} (h : Displaced priority forPage s u) :
    fillingSegment u = fillingSegment s := by
  obtain ⟨bef, d, aft, ht, hd, -, -, hs⟩ := h
  have hn : isFilling d = false := by simp [isFilling, hd.1]
  simp [fillingSegment, ht, hs, hn]

theorem PageGained.filling {priority page : Nat} {s u : State} (h : PageGained priority page s u) :
    fillingSegment u = fillingSegment s := by
  obtain ⟨v, ⟨-, rfl⟩ | ⟨-, -, hd⟩, -, rfl⟩ := h
  · rfl
  · exact hd.filling

/-- A descriptor may join the tail of the table before a displacement or after it. -/
theorem Displaced.join {priority : Nat} {forPage : Bool} {s u : State} (h : Displaced priority forPage s u) (x : Descriptor) :
    Displaced priority forPage (joinTable x s) (joinTable x u) := by
  obtain ⟨bef, d, aft, ht, hd, hb, hu, hs⟩ := h
  have hs1 : (joinTable x s).sgm.table = bef ++ d :: (aft ++ [x]) := by simp [joinTable, State.setSgm, ht]
  have hs2 : (joinTable x u).sgm = { (joinTable x s).sgm with table := bef ++ (aft ++ [x]) } := by
    simp [joinTable, State.setSgm, hs]
  exact ⟨bef, d, aft ++ [x], hs1, hd, hb, ⟨⟨bef, aft ++ [x], hs1, hs2⟩, hu.store, hu.reports, hu.others⟩, hs2⟩

theorem PageGained.join {priority page : Nat} {s u : State} (h : PageGained priority page s u) (x : Descriptor) :
    PageGained priority page (joinTable x s) (joinTable x u) := by
  obtain ⟨v, ⟨hp, rfl⟩ | ⟨hp, hx, hd⟩, hh, rfl⟩ := h
  · exact ⟨joinTable x v, .inl ⟨hp, rfl⟩, hh, rfl⟩
  · exact ⟨joinTable x v, .inr ⟨hp, hx, hd.join x⟩, hh, rfl⟩

/-- The FILLING segment after its next record has come to a page of it. -/
theorem SegmentPlaced.filling {d : Descriptor} {page slot : Nat} {s w : State} (h : SegmentPlaced d page slot s w)
    (hd : fillingSegment s = some d) : ∃ pages, pages ≠ [] ∧ fillingSegment w = some { d with pages := pages } := by
  rcases h with ⟨hp, -, rfl⟩ | ⟨-, -, y, hy, rfl⟩
  · refine ⟨d.pages, fun hn => by simp [hn] at hp, hd⟩
  · have h1 : isFilling d = true := by
      have := List.find?_some hd
      exact this
    exact ⟨d.pages ++ [page], by simp, find_modifyFirst (hy.filling.trans hd) (by simpa [isFilling] using h1)⟩

/-! ## The firings of a record (R65, R66) -/

theorem dealFirings_note {t : TriggerInfo} {f : Firing} (h : f.action = .note) (fs : List Firing) (ctx : CaptureContext)
    (s : State) :
    dealFirings t (f :: fs) ctx s =
      dealFirings t fs ctx
        { s with rpe := withEvent (.trigger f.rule t.tick t.record.entry t.record.value .note none) s.rpe } := by
  simp [dealFirings, dealFiring, h, queueEvent, rpeQueueEvent_eq, State.setRpe]

theorem dealFirings_capture {t : TriggerInfo} {f : Firing} {ctx : CaptureContext} {s u : State} {a : FiringAnswer}
    (h : f.action = .capture) (ha : captureFiring f.rule f.priority t ctx s = (a, u)) (fs : List Firing) :
    dealFirings t (f :: fs) ctx s =
      dealFirings t fs a.context
        { u with rpe := withEvent (.trigger f.rule t.tick t.record.entry t.record.value a.outcome a.segment) u.rpe } := by
  simp [dealFirings, dealFiring, h, ha, queueEvent, rpeQueueEvent_eq, State.setRpe]

/-- The evaluation of a record placed from `s` to `w`: its firings are dealt with, and then the record is counted (R52, R113). -/
theorem evaluateStored_deals {channel : Nat} {r : Record} {p : Placement} {s w u : State} {ctx : CaptureContext}
    (ha : w.aqs.forcePending = s.aqs.forcePending ∧ w.aqs.convTick = s.aqs.convTick) (ht : w.tgm = s.tgm)
    (hl : w.trgin = s.trgin)
    (hd : dealFirings ⟨r, s.aqs.convTick, triggerPlace p⟩
      (firingsOf channel (seen r.value s) s.aqs.forcePending s.tgm.rules.toList) .first (evaluated channel r.value w) =
        (ctx, u)) :
    evaluateStored channel r p w = afterEvaluation p ctx u := by
  have e1 : seenOf r (w.setAqs { w.aqs with forcePending := false }) = seen r.value s := by
    simp [seenOf, seen, State.setAqs, ht, hl]
  have e2 : evaluateRules channel r (w.setAqs { w.aqs with forcePending := false }) = evaluated channel r.value w := rfl
  have e3 : (w.setAqs { w.aqs with forcePending := false }).tgm = s.tgm := ht
  unfold evaluateStored evaluateRecord
  dsimp only
  rw [e1, e2, e3, ha.1, ha.2, hd]

end Sys2Proof.Machine
end

