-- ==== Sys2Proof/WellFormed.lean ====
section
/-! DEFINITION. Which operands a step can carry. Only an answer word has operands whose type is wider than the
line they come on: its value is a signed 16-bit number and its tag is 0-3 (R116, R118). -/

namespace Sys2Proof

/-- The value of an answer word (R118: a signed number from -32768 to 32767). -/
def answerValueOk (value : Int) : Bool := decide (-32768 ≤ value) && decide (value ≤ 32767)

/-- The tag of an answer word (R116: 0-3). -/
def answerTagOk (tag : Nat) : Bool := decide (tag < 4)

/-- A step whose operands the lines of the part can bring. -/
def Instr.wellFormed : Instr → Bool
  | .converterAnswer value _ tag => answerValueOk value && answerTagOk tag
  | .powerOn _ _ => true
  | .startUpEnd => true
  | .receivedByte _ => true
  | .lineBreak => true
  | .gapTimerExpiry => true
  | .commandFrame => true
  | .ack => true
  | .commandTake => true
  | .hello => true
  | .bye => true
  | .replay => true
  | .ident => true
  | .status => true
  | .reset => true
  | .resetTakesEffect => true
  | .tclear => true
  | .tadd => true
  | .tread => true
  | .tcommit => true
  | .rset => true
  | .ron => true
  | .roff => true
  | .rarm => true
  | .rread => true
  | .cset => true
  | .cread => true
  | .pset => true
  | .start => true
  | .stop => true
  | .abort => true
  | .force => true
  | .slist => true
  | .sfetch => true
  | .sdrop => true
  | .transmitFrameStart => true
  | .frameEnd => true
  | .deliveryStart => true
  | .deliveryQueue => true
  | .ackTimerExpiry => true
  | .paceTick => true
  | .conversionTimeout => true
  | .trginRisingEdge => true
  | .trgoutPulseExpiry => true
  | .unknownCommand => true
  | .trginFallingEdge => true

end Sys2Proof
end

