-- ==== Sys2Proof/Tests/Slice0.lean ====
section
/-! SUPPORT. Tests of the part on small states. The expected results come from the manual: its worked sequences (chapter 11),
its tables (chapters 8 to 10) and the values that its rules state, or from hand calculation from them. Then, for every
statement that has hypotheses, a concrete state that meets them. -/

namespace Sys2Proof.Tests

set_option Elab.async false

open Sys2Proof.Machine

/-! ## Helpers -/

/-- What a next state shows. -/
def look {α : Type} (o : Host.Outcome State Fault Refusal) (f : State → α) : Option α :=
  match o with
  | .next t => some (f t)
  | .fault _ => none
  | .refused _ => none

/-- CMP has taken a command with tag 7 and this payload. -/
def holding (payload : List Byte) (s : State) : State := { s with cmp := { s.cmp with taken := some ⟨7, payload⟩ } }

theorem holding_taken {code : Byte} {args : List Byte} {s : State} (h : s.cmp.cache = none) :
    Taken ⟨7, code :: args⟩ code args (holding (code :: args) s) :=
  ⟨rfl, rfl, by simp [cachedReply, holding, h]⟩

/-- The result and the fields of the newest reply, 10 being no reply. -/
def answer (t : State) : Nat × List Byte :=
  match t.lki.replies.getLast? with
  | some r => (r.result.code, r.fields)
  | none => (10, [])

/-- Channel 0, gain 0, divider 1, phase 0 (section 11.2). -/
def entry0 : ScanEntry := ⟨0, 0, 1, 0, false, false, none⟩

/-- An open session, credit 8, and a table of one entry, generation 1 (section 11.2, step 3). -/
def ready : State :=
  { State.reset with
    lki := { State.reset.lki with session := .open }, rpe := { State.reset.rpe with credit := 8 },
    sct := { State.reset.sct with working := [entry0], active := [entry0], generation := 1 } }

/-- The pages numbered `n` and up. -/
def pagesFrom (n : Nat) : List Nat := (List.range (256 - n)).map (· + n)

/-- RUNNING in run 1 with the pacer running. -/
def running : State :=
  { ready with aqs := { ready.aqs with state := .running, reason := .start, run := 1, nextTick := some 1000 } }

/-- The request for entry 0, tag 0. -/
def request0 : Request := ⟨0, 0, 0, 0⟩

/-- RUNNING with the conversion of entry 0 in flight on tick 1. -/
def converting : State :=
  { running with
    aqs := { running.aqs with tick := 1, position := 1, nextTick := some 2000, convTick := 1 },
    cvp := { running.cvp with inFlight := some request0, nextTag := 1, timer := some 20 } }

/-- Rule 0 of section 11.2: ABOVE, channel 0, A = 1000, priority 5, AUTO, CAPTURE, and ARMED. -/
def rule0 : Rule := ⟨⟨.above, some 0, 1000, none, 0, 1, 5, .auto, .capture⟩, .armed, 0, none, 0⟩

/-- `s` with rule 0 ARMED. -/
def withRule0 (s : State) : State := { s with tgm := { s.tgm with rules := s.tgm.rules.set 0 rule0 } }

/-- A segment of 32 records on one page, or on none. -/
def segment (number priority : Nat) (state : SegState) (pages : List Nat) : Descriptor :=
  { number := number, run := 1, primaryRule := 0, primaryPriority := priority, triggerTick := 1, triggerEntry := 0,
    generation := 1, preRequested := 0, preTaken := 0, postRequested := 32 * pages.length, postTaken := 32 * pages.length,
    maxLength := 4096, state := state, flags := noFlags, errCount := 0, secondary := [], secondaryOverflow := 0,
    pages := pages, firstOffset := 0 }

/-- A FILLING segment on page 0: 3 records of history, 1 of `post` records after. -/
def fillingOf (post : Nat) : Descriptor :=
  { segment 5 6 .filling [0] with preRequested := 3, preTaken := 3, postRequested := post, postTaken := 1 }

/-- `converting` with this FILLING segment. -/
def filling (d : Descriptor) : State :=
  { converting with sgm := { converting.sgm with table := [d] }, sst := { converting.sst with pool := pagesFrom 1 } }

/-- `converting` with page 0 in the ring, 5 records on it. -/
def ringed : State :=
  { converting with
    aqs := { converting.aqs with sinceSwitch := 5 },
    sst := { converting.sst with ring := [0], ringFill := some 5, pool := pagesFrom 1 } }

/-- A command frame and a reply to fill queues with. -/
def frame9 : CommandFrame := ⟨9, [0x03]⟩
def reply9 : Reply := ⟨9, 0x03, .ok, []⟩

/-- An entry that is due on the odd passes only, so not on pass 0. -/
def oddEntry : ScanEntry := { entry0 with divider := 2, phase := 1 }

/-- `s` in BURST pacing with its conversion in flight. -/
def inBurst (s : State) : State := { s with aqs := { s.aqs with mode := .burst, passState := .converting } }

/-! ## Well-formed steps -/

theorem test_wellformed : (Instr.converterAnswer (-32768) true 3).wellFormed = true := by decide
theorem test_illformed_value_high : (Instr.converterAnswer 32768 false 0).wellFormed = false := by decide
theorem test_illformed_value_low : (Instr.converterAnswer (-32769) false 0).wellFormed = false := by decide
theorem test_illformed_tag : (Instr.converterAnswer 0 false 4).wellFormed = false := by decide

/-! ## The CRC and the record form (R202, R206) -/

/-- The generator 1021 hex, started at FFFF hex, bits least significant first: the published check value of the string 1
to 9 is 89F6 hex. -/
theorem test_crc : crc [0x31, 0x32, 0x33, 0x34, 0x35, 0x36, 0x37, 0x38, 0x39] = 0x89F6 := by decide +kernel
/-- Value -2, entry 5, marker 1, no indications (R206). -/
theorem test_record_bytes : recordBytes ⟨-2, 5, 1, false, false, false⟩ = [0xFE, 0xFF, 0x45, 0x00] := by decide +kernel

/-! ## Power and reset -/

theorem test_power_on : look (exec (.powerOn true false) ready) (fun t => (t.power, t.lki.rate, t.lki.session)) =
    some (.startUp, .r921600, .closed) := by decide +kernel
theorem test_start_up_end :
    look (exec .startUpEnd { State.reset with power := .startUp }) (fun t => decide (t = State.reset)) = some true := by
  decide +kernel
theorem test_reset : look (exec .reset (holding [0x05] ready)) (fun t => (answer t, t.cmp.resetHold, t.sct.generation)) =
    some ((0, []), true, 1) := by decide +kernel
theorem test_reset_takes_effect :
    look (exec .resetTakesEffect { ready with lki := { ready.lki with resetDue := true, rate := .r921600 } })
      (fun t => (t.lki.session, t.sct.generation, t.lki.rate)) = some (.closed, 0, .r921600) := by decide +kernel

/-! ## The link -/

/-- A COMMAND frame of IDENT, tag 1, whose CRC the receiver checks. -/
theorem test_received_bytes :
    look (runAll ((0x3C :: frameBytes 0x01 1 [0x03]).map Instr.receivedByte) State.reset)
      (fun t => (t.lki.rx, t.lki.accepted)) = some (.hunt, [.command ⟨1, [0x03]⟩]) := by decide +kernel
/-- A kind of 05 hex raises KIND with tag 0 (R152). -/
theorem test_bad_kind :
    look (runAll ([0xD7, 0x05].map Instr.receivedByte) State.reset) (fun t => (t.lki.rx, t.lki.notice, t.lki.errors)) =
      some (.hunt, some ⟨.kind, 0⟩, 1) := by decide +kernel
theorem test_break :
    look (runAll [.receivedByte 0xD7, .receivedByte 0x01, .lineBreak] State.reset)
      (fun t => (t.lki.rx, t.lki.gapTimer, t.lki.notice)) = some (.hunt, none, none) := by decide +kernel
theorem test_gap :
    look (runAll [.receivedByte 0xD7, .receivedByte 0x01, .receivedByte 0x2A, .gapTimerExpiry] State.reset)
      (fun t => (t.lki.rx, t.lki.notice, t.lki.errors)) = some (.hunt, some ⟨.gap, 0x2A⟩, 1) := by decide +kernel
theorem test_command_frame_busy :
    look (exec .commandFrame { ready with
        lki := { ready.lki with accepted := [.command frame9] }, cmp := { ready.cmp with queue := List.replicate 4 frame9 } })
      (fun t => (t.lki.replies, t.cmp.queue.length)) = some ([⟨9, 0x03, .busy, []⟩], 4) := by decide +kernel
theorem test_command_take :
    look (exec .commandTake { ready with cmp := { ready.cmp with queue := [frame9] } })
      (fun t => (t.cmp.queue, t.cmp.taken)) = some ([], some frame9) := by decide +kernel
/-- A BADACK notice on the line: kind 83 hex, tag 0, two payload bytes (R201, R204). -/
theorem test_transmit_notice :
    look (exec .transmitFrameStart { ready with lki := { ready.lki with notice := some ⟨.badack, 0⟩ } })
      (fun t => (t.lki.notice, t.lki.tx.map (fun x => x.bytes.take 6))) =
      some (none, some [0xD7, 0x83, 0x00, 0x02, 0x05, 0x00]) := by decide +kernel
/-- After a reply the next pending report goes out as sequence 0 and takes a credit (section 11.2). -/
theorem test_frame_end_sends_report :
    look (exec .frameEnd { ready with
        lki := { ready.lki with tx := some ⟨.reply reply9, []⟩ },
        rpe := { ready.rpe with queue := [.event (.tableSwitch 1 1)] } })
      (fun t => (t.rpe.outstanding.map Prod.fst, t.rpe.credit, t.lki.ackTimer, t.lki.tx.map (fun x => x.bytes.take 8))) =
      some ([0], 7, some 500, some [0xD7, 0x82, 0x00, 0x04, 0x09, 0x01, 0x00, 0x01]) := by decide +kernel

/-! ## Sessions and reports (sections 11.6 and 11.7) -/

/-- The state of section 11.6 at 400 ms, before the expiry: reports 20 to 22 outstanding, retry count 3. -/
def waiting : State :=
  { ready with
    lki := { ready.lki with ackTimeout := 100, ackTimer := some 100, retry := 3 },
    rpe := { ready.rpe with
      outstanding := [(20, .event (.lost 1)), (21, .event (.lost 1)), (22, .event (.lost 1))], nextSeq := 23, credit := 0 } }

theorem test_ack_timer_stalls :
    look (exec .ackTimerExpiry waiting) (fun t => (t.lki.session, t.lki.retry, t.lki.ackTimer)) =
      some (.stalled, 4, none) := by decide +kernel
theorem test_ack_timer_goes_back :
    look (exec .ackTimerExpiry { waiting with lki := { waiting.lki with retry := 0 } })
      (fun t => (t.rpe.resend, t.lki.retry, t.lki.ackTimer)) = some (some 20, 1, some 100) := by decide +kernel
theorem test_ack_in_stall :
    look (exec .ack { waiting with
        lki := { waiting.lki with accepted := [.ack 21 4], session := .stalled, retry := 4, ackTimer := none } })
      (fun t => (t.rpe.outstanding.map Prod.fst, t.rpe.credit, t.lki.session, t.lki.retry)) =
      some ([22], 4, .stalled, 0) := by decide +kernel
/-- One ACK releases segments 3 and 4: their pages join the pool tail in page-list order, 3 before 4 (R5, R45), and the free
count of 19 above 16 brings the watermark state back to ABOVE (R17). -/
theorem test_ack_releases_in_order :
    look (exec .ack { waiting with
        lki := { waiting.lki with accepted := [.ack 22 0] },
        sst := { waiting.sst with pool := pagesFrom 241, watermark := .below },
        rpe := { waiting.rpe with
          outstanding := [(20, .segment (.tail 3)), (21, .event (.lost 1)), (22, .segment (.tail 4))] },
        sgm := { waiting.sgm with table := [segment 4 1 .sent [7], segment 3 1 .sent [9, 8, 2]] } })
      (fun t => (t.sst.pool.drop 15, t.sst.watermark, t.sgm.table)) = some ([9, 8, 2, 7], .above, []) := by decide +kernel
theorem test_bad_ack :
    look (exec .ack { waiting with lki := { waiting.lki with accepted := [.ack 23 2] } })
      (fun t => (t.rpe.outstanding.length, t.rpe.credit, t.lki.notice)) = some (3, 2, some ⟨.badack, 0⟩) := by decide +kernel
theorem test_replay :
    look (exec .replay (holding [0x60] { waiting with lki := { waiting.lki with session := .stalled, ackTimer := none } }))
      (fun t => (answer t, t.rpe.resend, t.lki.session, t.lki.ackTimer)) =
      some ((0, [3]), some 20, .open, some 100) := by decide +kernel
theorem test_bye :
    look (exec .bye (holding [0x02] waiting)) (fun t => (answer t, t.lki.session, t.rpe.outstanding, t.rpe.nextSeq)) =
      some ((0, []), .closed, [], 0) := by decide +kernel

/-- The state of section 11.7 before the HELLO. -/
def delivering : State :=
  { ready with
    rpe := { ready.rpe with
      queue := [.segment (.data 3 2 12 0 31), .segment (.data 3 3 13 0 31), .segment (.tail 3),
        .event (.trigger 0 1 0 0 .note none)],
      outstanding := [(40, .segment (.head 3)), (41, .segment (.data 3 0 10 0 31)), (42, .segment (.data 3 1 11 0 31))],
      nextSeq := 43, credit := 0, fetch := [5] },
    sgm := { ready.sgm with
      table := [segment 3 1 .sent [10, 11, 12, 13], segment 4 1 .complete [14, 15, 16], segment 5 1 .complete [17, 18]] } }

theorem test_hello_flush :
    look (exec .hello (holding [0x01, 0, 25, 10] delivering))
      (fun t => (answer t, t.rpe.queue, t.rpe.credit, t.sgm.table.map Descriptor.state, t.lki.ackTimeout)) =
      some ((0, [0, 0]), [.event (.lost 1)], 10, [.complete, .complete, .complete], 500) := by decide +kernel
/-- After it: segments 5, 3 and 4 in 16 entries, 15 of them segment reports, all three SENT. -/
theorem test_delivery_start :
    look (runAll [.hello, .deliveryStart] (holding [0x01, 0, 25, 10] delivering))
      (fun t => (t.rpe.queue.length, pendingSegments t.rpe, t.sgm.table.map Descriptor.state)) =
      some (16, 15, [.sent, .sent, .sent]) := by decide +kernel
theorem test_delivery_queue :
    look (exec .deliveryQueue { delivering with
        rpe := { delivering.rpe with queue := [], outstanding := [], slot := some (3, .data 3) },
        sgm := { delivering.sgm with table := [segment 3 1 .sending [10, 11, 12, 13]] } })
      (fun t => (t.rpe.queue, t.rpe.slot)) =
      some ([.segment (.data 3 3 13 0 31), .segment (.tail 3)], none) := by decide +kernel

/-! ## Commands -/

theorem test_ident :
    look (exec .ident (holding [0x03] State.reset)) answer =
      some (0, [0x71, 0x2C, 0x16, 0x04, 1, 0, 0, 1, 32, 32, 16, 64, 16, 48]) := by decide +kernel
/-- Session OPEN at offset 43 and free count 256 at offset 22, in 47 bytes (R205). -/
theorem test_status :
    look (exec .status (holding [0x04] ready))
      (fun t => ((answer t).2.length, (answer t).2.getD 43 9, ((answer t).2.drop 22).take 2)) =
      some (47, 1, [0, 1]) := by decide +kernel
theorem test_unknown_command :
    look (exec .unknownCommand (holding [0x99, 1, 2] State.reset)) answer = some (1, []) := by decide +kernel
theorem test_empty_command :
    look (exec .unknownCommand (holding [] State.reset)) (fun t => t.lki.replies.map Reply.code) = some [0] := by
  decide +kernel

/-- Section 11.2, step 2. -/
theorem test_tadd :
    look (exec .tadd (holding [0x11, 1, 0, 0, 1, 0] { ready with sct := State.reset.sct }))
      (fun t => (answer t, t.sct.working)) = some ((0, [1]), [entry0]) := by decide +kernel
/-- Marker 2 and gain 3, divider 16, phase 15, DISCARD and HOLD (R205). -/
theorem test_tadd_fields :
    look (exec .tadd (holding [0x11, 1, 15, 0x23, 16, 0x6F] ready)) (fun t => t.sct.working) =
      some [entry0, ⟨15, 3, 16, 15, true, true, some 2⟩] := by decide +kernel
theorem test_tclear : look (exec .tclear (holding [0x10] ready)) (fun t => (answer t, t.sct.working, t.sct.active)) =
    some ((0, []), [], [entry0]) := by decide +kernel
theorem test_tread :
    look (exec .tread (holding [0x12, 1, 0, 16] ready)) answer = some (0, [1, 1, 0, 0, 1, 0, 0, 1, 0]) := by decide +kernel
/-- Section 11.2, step 3. -/
theorem test_tcommit_now :
    look (exec .tcommit (holding [0x13] { ready with sct := { State.reset.sct with working := [entry0] } }))
      (fun t => (answer t, t.sct.active, t.rpe.queue)) =
      some ((0, [0, 1, 0]), [entry0], [.event (.tableSwitch 1 1)]) := by decide +kernel
/-- Section 11.5: SCHEDULED with the generation in force. -/
theorem test_tcommit_scheduled :
    look (exec .tcommit (holding [0x13] { running with sct := { running.sct with generation := 2 } }))
      (fun t => (answer t, t.sct.scheduled)) = some ((0, [1, 2, 0]), true) := by decide +kernel

/-- Section 11.2, steps 4 and 5. -/
theorem test_rset :
    look (exec .rset (holding [0x20, 0, 0, 0, 0xE8, 0x03, 0, 0, 0, 0, 1, 5, 0] ready))
      (fun t => (answer t, t.tgm.rules[0])) = some ((0, []), { rule0 with state := .off }) := by decide +kernel
theorem test_ron :
    look (exec .ron (holding [0x21, 0] ready)) (fun t => (answer t, t.tgm.rules[0].state)) =
      some ((0, [1]), .armed) := by decide +kernel
theorem test_roff :
    look (exec .roff (holding [0x22, 0] (withRule0 ready))) (fun t => (answer t, t.tgm.rules[0].state)) =
      some ((0, [0]), .off) := by decide +kernel
/-- A FIRED rule whose level part was met at its last record goes to QUALIFYING with progress 1 (R61). -/
theorem test_rarm :
    look (exec .rarm (holding [0x23, 0] { ready with
        tgm := { ready.tgm with rules := ready.tgm.rules.set 0 { rule0 with state := .fired, previous := some 1030 } } }))
      answer = some (0, [2, 1]) := by decide +kernel
theorem test_rread :
    look (exec .rread (holding [0x24, 0] (withRule0 ready))) answer =
      some (0, [0, 0, 0xE8, 0x03, 0, 0, 0, 0, 1, 5, 0, 1, 0, 0, 0, 0, 0, 0]) := by decide +kernel

/-- Section 11.2, step 6. -/
theorem test_cset :
    look (exec .cset (holding [0x30, 40, 0, 24, 0, 64, 0, 0, 0, 0, 0, 0, 0, 10, 16] ready))
      (fun t => (answer t, t.sgm.settings.preRequested, t.sgm.settings.postRequested, t.sgm.settings.maxLength)) =
      some ((0, []), 40, 24, 64) := by decide +kernel
/-- The default settings (R25). -/
theorem test_cread :
    look (exec .cread (holding [0x31] ready)) answer = some (0, [0, 1, 0, 3, 0, 4, 0, 0, 0, 0, 0, 0, 10, 16]) := by
  decide +kernel
theorem test_pset :
    look (exec .pset (holding [0x32, 4, 0, 0, 0, 1, 255, 15] ready))
      (fun t => (answer t, t.aqs.interval, t.aqs.mode, t.cvp.timeout, t.cvp.threshold)) =
      some ((0, []), 4, .burst, 255, 15) := by decide +kernel
theorem test_pset_mode_in_run :
    look (exec .pset (holding [0x32, 4, 0, 0, 0, 1, 255, 15] running)) answer = some (4, []) := by decide +kernel

/-- Section 11.2, step 7: run 1, target size 3. -/
theorem test_start :
    look (exec .start (holding [0x40] { ready with
        sgm := { ready.sgm with settings := { ready.sgm.settings with preRequested := 40 } } }))
      (fun t => (answer t, t.aqs.state, t.sst.targetSize, t.rpe.queue)) =
      some ((0, [1, 0]), .running, 3, [.event (.acqState .running .start 1 0)]) := by decide +kernel
/-- Section 11.5: the entry into IDLE makes the scheduled switch after its ACQSTATE. -/
theorem test_stop_makes_scheduled_switch :
    look (exec .stop (holding [0x41] { running with
        aqs := { running.aqs with run := 4, pass := 57 },
        sgm := { running.sgm with holdoff := 10 },
        sct := { running.sct with working := List.replicate 6 entry0, generation := 2, scheduled := true } }))
      (fun t => (answer t, t.sct.generation, t.aqs.pass, t.sgm.holdoff, t.rpe.queue)) =
      some ((0, [0]), 3, 0, 0, [.event (.acqState .idle .stop 4 0), .event (.tableSwitch 3 6)]) := by decide +kernel
theorem test_abort_discards :
    look (exec .abort (holding [0x42] (filling (fillingOf 10))))
      (fun t => (answer t, t.sgm.table, t.sst.pool.getLast?, t.rpe.queue)) =
      some ((0, [0]), [], some 0, [.event (.segDrop 5 .aborted), .event (.acqState .idle .abort 1 1)]) := by decide +kernel
theorem test_force :
    look (exec .force (holding [0x43] running)) (fun t => (answer t, t.aqs.forcePending)) = some ((0, []), true) := by
  decide +kernel
theorem test_slist :
    look (exec .slist (holding [0x50] delivering)) (fun t => (answer t).2.take 8) =
      some [3, 3, 0, 3, 0, 128, 0, 0] := by decide +kernel
theorem test_sfetch :
    look (exec .sfetch (holding [0x51, 4, 0] delivering)) (fun t => (answer t, t.rpe.fetch)) =
      some ((0, [2]), [5, 4]) := by decide +kernel
theorem test_sdrop :
    look (exec .sdrop (holding [0x52, 5, 0] delivering))
      (fun t => (answer t, t.sgm.table.map Descriptor.number, t.rpe.fetch, t.rpe.queue.getLast?)) =
      some ((0, []), [3, 4], [], some (.event (.segDrop 5 .dropped))) := by decide +kernel
theorem test_sdrop_in_delivery : look (exec .sdrop (holding [0x52, 3, 0] delivering)) answer = some (8, []) := by
  decide +kernel

/-! ## Acquisition -/

theorem test_pace_tick :
    look (exec .paceTick running) (fun t => (t.aqs.tick, t.aqs.nextTick, t.cvp.inFlight, t.cvp.timer)) =
      some (1, some 2000, some request0, some 20) := by decide +kernel
theorem test_missed_tick :
    look (exec .paceTick (filling (fillingOf 10))) (fun t => (t.aqs.missed, t.sgm.table.map (fun d => d.flags.overrun))) =
      some (1, [true]) := by decide +kernel
/-- Record 126 of section 11.2 opens segment 0 on pages 2 and 0 with 40 records of history from slot 21 on; page 1 returns. -/
theorem test_answer_opens_segment :
    look (exec (.converterAnswer 1030 false 0) { withRule0 converting with
        sst := { converting.sst with ring := [1, 2, 0], ringFill := some 29, targetSize := 3, pool := pagesFrom 3 },
        sgm := { converting.sgm with settings := { converting.sgm.settings with
          preRequested := 40, postRequested := 24, maxLength := 64 } },
        aqs := { converting.aqs with tick := 126, convTick := 126, sinceSwitch := 125 } })
      (fun t => (t.sgm.table.map (fun d => [d.firstOffset, d.preTaken, d.postTaken] ++ d.pages), t.sst.pool.length,
        t.rpe.queue)) =
      some ([[21, 40, 1, 2, 0]], 254, [.event (.trigger 0 126 0 1030 .opened (some 0))]) := by decide +kernel
/-- The same with a switch 10 records before: the pre window holds those 10 only, so that all of the segment is of one generation
(R90, R92; log entry 19), and both older pages return. -/
theorem test_pre_window_stops_at_switch :
    look (exec (.converterAnswer 1030 false 0) { withRule0 converting with
        sst := { converting.sst with ring := [1, 2, 0], ringFill := some 29, targetSize := 3, pool := pagesFrom 3 },
        sgm := { converting.sgm with settings := { converting.sgm.settings with
          preRequested := 40, postRequested := 24, maxLength := 64 } },
        aqs := { converting.aqs with sinceSwitch := 10 } })
      (fun t => (t.sgm.table.map (fun d => [d.firstOffset, d.preTaken, d.postTaken] ++ d.pages),
        t.sgm.table.map (fun d => d.flags.shortPre), t.sst.pool.drop 253)) =
      some ([[19, 10, 1, 0]], [true], [1, 2]) := by decide +kernel
/-- The displacement of section 11.4: 8 is in the fetch queue, 9 is SENT, 10 has priority 7; 11 gives pages 40 and 41. -/
theorem test_answer_displaces :
    look (exec (.converterAnswer 0 false 0) { converting with
        rpe := { converting.rpe with fetch := [8] },
        sst := { converting.sst with pool := [], watermark := .below },
        sgm := { converting.sgm with
          settings := { converting.sgm.settings with exhaustion := .displace },
          table := [segment 8 4 .complete [60, 61, 62], segment 9 1 .sent [50, 51, 52, 53],
            segment 10 7 .complete [70, 71, 72, 73, 74], segment 11 2 .complete [40, 41],
            { segment 12 6 .filling [80] with postRequested := 100 }] } })
      (fun t => (t.sst.pool, t.sst.watermark, t.sgm.table.map (fun d => (d.number, d.pages.length)), t.rpe.queue)) =
      some ([41], .below, [(8, 3), (9, 4), (10, 5), (12, 2)], [.event (.segDrop 11 .displaced)]) := by decide +kernel
theorem test_timeout_halts :
    look (exec .conversionTimeout { ringed with cvp := { ringed.cvp with consecutive := 2, total := 2 } })
      (fun t => (t.aqs.state, t.aqs.reason, t.sst.ring, t.rpe.queue)) =
      some (.halted, .converter, [], [.event (.cvFault 0 0 3 3), .event (.acqState .halted .converter 1 1)]) := by
  decide +kernel
theorem test_timeout_record :
    look (exec .conversionTimeout ringed) (fun t => (slotRecord t 5, t.cvp.consecutive, t.cvp.total)) =
      some (⟨0, 0, 0, true, false, false⟩, 1, 1) := by decide +kernel

/-! ## The trigger lines (R47, R62) -/

theorem test_trgin_rising :
    look (exec .trginRisingEdge running) (fun t => (t.trgin, t.tgm.latch)) = some (true, true) := by decide +kernel
theorem test_trgin_rising_idle :
    look (exec .trginRisingEdge ready) (fun t => (t.trgin, t.tgm.latch)) = some (true, false) := by decide +kernel
theorem test_trgin_falling :
    look (exec .trginFallingEdge { running with trgin := true, tgm := { running.tgm with latch := true } })
      (fun t => (t.trgin, t.tgm.latch)) = some (false, true) := by decide +kernel
theorem test_pulse_expiry :
    look (exec .trgoutPulseExpiry { ready with sgm := { ready.sgm with trgout := true, pulseTimer := some 10 } })
      (fun t => (t.sgm.trgout, t.sgm.pulseTimer)) = some (false, none) := by decide +kernel

/-! ## States that meet the hypotheses of the statements

One theorem per statement, named after it, one conjunct per clause, at a boundary where a clause has one. -/

/-- An exec that answers a next state, as a premise of a statement. -/
def answersNext (o : Host.Outcome State Fault Refusal) : Bool := (look o (fun _ => true)).getD false

theorem witness_StepRunsFrontCommand : { ready with pending := [.paceTick] }.pending = .paceTick :: [] ∧ ready.pending = [] :=
  ⟨rfl, rfl⟩

theorem witness_CommandsKeepWhatIsNotTheirs : exec .paceTick ready = .next ready := rfl

theorem witness_PowerOnGivesPowerOnValues :
    { State.reset with power := .startUp }.power = .startUp ∧ State.reset.power = .ready := ⟨rfl, rfl⟩

/-- `ready` with one accepted command, `n` commands queued and `k` replies held. -/
def offered (n k : Nat) : State :=
  { ready with
    lki := { ready.lki with accepted := [.command frame9], replies := List.replicate k reply9 },
    cmp := { ready.cmp with queue := List.replicate n frame9 } }

theorem witness_AcceptedCommandsAreQueuedAndTaken :
    ((offered 3 0).lki.accepted = .command frame9 :: [] ∧ (offered 3 0).cmp.queue.length < 4) ∧
    (4 ≤ (offered 4 4).cmp.queue.length ∧ placesUsed (offered 4 4) < 5) ∧
    (4 ≤ (offered 4 5).cmp.queue.length ∧ 5 ≤ placesUsed (offered 4 5)) ∧
    (∀ c rest, ready.lki.accepted ≠ .command c :: rest) ∧
    ((offered 1 4).cmp.queue = frame9 :: [] ∧ (offered 1 4).cmp.taken = none ∧ (offered 1 4).lki.replies.length < 5 ∧
      (offered 1 4).cmp.resetHold = false) ∧
    5 ≤ (offered 1 5).lki.replies.length ∧ ready.cmp.queue = [] := by
  refine ⟨by decide, by decide, by decide, ?_, by decide, by decide, rfl⟩
  intro c rest h
  cases h

theorem witness_EveryTakenCommandIsAnswered :
    commandCode .ident = some 0x03 ∧ Taken ⟨7, [0x03]⟩ 0x03 [] (holding [0x03] State.reset) :=
  ⟨rfl, holding_taken rfl⟩

theorem witness_CommonChecksAnswerFirst :
    ((holding [0x03] { ready with cmp := { ready.cmp with cache := some (7, reply9) } }).cmp.taken = some ⟨7, [0x03]⟩ ∧
      (7 : Byte) ≠ 0) ∧
    (∀ code args, [(0x99 : Byte)] = code :: args → code ∉ commandCodes) ∧
    (commandCode .ident = some 0x03 ∧ Taken ⟨7, [0x03, 1]⟩ 0x03 [1] (holding [0x03, 1] ready) ∧
      [(1 : Byte)].length ≠ argumentCount 0x03 [1]) ∧
    (commandCode .tclear = some 0x10 ∧ Taken ⟨7, [0x10]⟩ 0x10 [] (holding [0x10] State.reset) ∧
      ([] : List Byte).length = argumentCount 0x10 [] ∧ (holding [0x10] State.reset).lki.session = .closed ∧
      takenInClosed 0x10 = false) ∧
    (Taken ⟨7, [0x99]⟩ 0x99 [] (holding [0x99] ready) ∧ (0x99 : Byte) ∉ commandCodes) ∧
    ((holding [] ready).cmp.taken = some ⟨7, []⟩ ∧ cachedReply ⟨7, []⟩ (holding [] ready) = none) := by
  refine ⟨⟨rfl, by decide⟩, ?_, ⟨rfl, holding_taken rfl, by decide⟩, ⟨rfl, holding_taken rfl, by decide, rfl, by decide⟩,
    ⟨holding_taken rfl, by decide⟩, rfl, rfl⟩
  intro code args h
  cases h
  decide

theorem witness_IdentNamesThePart :
    Taken ⟨7, [0x03]⟩ 0x03 [] (holding [0x03] ready) ∧ Taken ⟨7, [0x03, 0]⟩ 0x03 [0] (holding [0x03, 0] ready) ∧
    answersNext (exec (.powerOn true false) ready) = true :=
  ⟨holding_taken rfl, holding_taken rfl, rfl⟩

theorem witness_StatusShowsOneMoment :
    Taken ⟨7, [0x04]⟩ 0x04 [] (holding [0x04] ready) ∧ ∀ item ∈ statusItems ready, item.2.2 < 256 ^ item.2.1 :=
  ⟨holding_taken rfl, by decide +kernel⟩

/-- The RESET reply on the line, the reset hold set. -/
def resetting : State :=
  { ready with
    lki := { ready.lki with tx := some ⟨.reply ⟨7, 0x05, .ok, []⟩, []⟩ }, cmp := { ready.cmp with resetHold := true } }

/-- The reset hold set, and another frame than the RESET reply on the line. -/
def resettingBehind (source : TxSource) : State :=
  { resetting with lki := { resetting.lki with tx := some ⟨source, []⟩ } }

theorem witness_ResetFollowsItsReply :
    Taken ⟨7, [0x05]⟩ 0x05 [] (holding [0x05] ready) ∧ resetting.cmp.resetHold = true ∧
    resetting.lki.tx = some ⟨.reply ⟨7, 0x05, .ok, []⟩, []⟩ ∧
    { ready with lki := { ready.lki with resetDue := true } }.lki.resetDue = true ∧
    (ready.lki.resetDue = false ∧ ready.cmp.resetHold = false) ∧
    ((resettingBehind (.notice ⟨.dropped, 3⟩)).lki.resetDue = false ∧
      ∀ tag fields bytes, (resettingBehind (.notice ⟨.dropped, 3⟩)).lki.tx ≠ some ⟨.reply ⟨tag, 0x05, .ok, fields⟩, bytes⟩) ∧
    ∀ tag fields bytes, (resettingBehind (.reply ⟨6, 0x05, .badlen, []⟩)).lki.tx ≠
      some ⟨.reply ⟨tag, 0x05, .ok, fields⟩, bytes⟩ :=
  ⟨holding_taken rfl, rfl, rfl, rfl, ⟨rfl, rfl⟩, ⟨rfl, by simp [resettingBehind, resetting]⟩,
    by simp [resettingBehind, resetting]⟩

/-- While a notice is on the line the RESET reply still waits, and no reset takes effect (R172). -/
theorem test_reset_waits_for_its_reply :
    exec .resetTakesEffect (resettingBehind (.notice ⟨.dropped, 3⟩)) = .next (resettingBehind (.notice ⟨.dropped, 3⟩)) :=
  rfl

theorem witness_TclearEmptiesTheWorkingCopy :
    Taken ⟨7, [0x10]⟩ 0x10 [] (holding [0x10] ready) ∧ (holding [0x10] ready).lki.session ≠ .closed ∧
    ready.sct.scheduled = false ∧ { running with sct := { running.sct with scheduled := true } }.sct.scheduled = true ∧
    { ready with sct := { ready.sct with working := [] } }.sct.working = [] :=
  ⟨holding_taken rfl, by decide, rfl, rfl, rfl⟩

/-- A working copy of `n` entries. -/
def worked (n : Nat) : State := { ready with sct := { ready.sct with working := List.replicate n entry0 } }

theorem witness_TaddAppendsEntries :
    (Taken ⟨7, 0x11 :: byte1 8 :: (List.replicate 8 entry0).flatMap entryBytes⟩ 0x11
        (byte1 8 :: (List.replicate 8 entry0).flatMap entryBytes)
        (holding (0x11 :: byte1 8 :: (List.replicate 8 entry0).flatMap entryBytes) (worked 56)) ∧
      (∀ e ∈ List.replicate 8 entry0, entryLegal e = true) ∧ (worked 56).sct.working.length + 8 ≤ 64 ∧
      64 < (worked 57).sct.working.length + 8) ∧
    ((List.replicate 36 (0 : Byte)).length = 4 * (9 : Byte).toNat ∧ 8 < (9 : Byte).toNat ∧ (0 : Byte).toNat = 0 ∧
      Taken ⟨7, 0x11 :: 9 :: List.replicate 36 0⟩ 0x11 (9 :: List.replicate 36 0)
        (holding (0x11 :: 9 :: List.replicate 36 0) ready)) ∧
    ∀ e ∈ [[16, 0, 1, 0], [0, 4, 1, 0], [0, 0x40, 1, 0], [0, 0, 0, 0], [0, 0, 17, 0], [0, 0, 1, 1], [0, 0, 1, 0x80]],
      15 < e.getD 0 0 ∨ 3 < e.getD 1 0 % 16 ∨ 3 < e.getD 1 0 / 16 ∨ e.getD 2 0 = 0 ∨ 16 < e.getD 2 0 ∨
        e.getD 2 0 ≤ e.getD 3 0 % 32 ∨ 128 ≤ e.getD 3 0 :=
  ⟨⟨holding_taken rfl, by decide +kernel, by decide, by decide⟩, ⟨rfl, by decide, rfl, holding_taken rfl⟩, by decide⟩

theorem witness_TreadReturnsEntries :
    Taken ⟨7, [0x12, 1, byte1 63, byte1 16]⟩ 0x12 [1, byte1 63, byte1 16] (holding [0x12, 1, byte1 63, byte1 16] ready) ∧
    Taken ⟨7, [0x12, 2, 0, 1]⟩ 0x12 [2, 0, 1] (holding [0x12, 2, 0, 1] ready) ∧ 1 < (2 : Byte).toNat ∧
    63 < (64 : Byte).toNat ∧ 16 < (17 : Byte).toNat ∧ ready.lki.session ≠ .closed :=
  ⟨holding_taken rfl, holding_taken rfl, by decide, by decide, by decide, by decide⟩

theorem witness_TcommitSwitchesOrSchedules :
    Taken ⟨7, [0x13]⟩ 0x13 [] (holding [0x13] ready) ∧ ready.aqs.state = .idle ∧ running.aqs.state = .running ∧
    running.sct.scheduled = false ∧ running.sct.working ≠ [] ∧
    { running with sct := { running.sct with scheduled := true } }.sct.scheduled = true ∧
    { running with sct := { running.sct with working := [] } }.sct.working = [] ∧ running.lki.session ≠ .closed :=
  ⟨holding_taken rfl, rfl, rfl, rfl, by decide, rfl, rfl, by decide⟩

/-- An INSIDE rule with its fields at the ends of their ranges. -/
def insideRule : RuleFields := ⟨.inside, some 15, -32768, some 32767, 4095, 255, 15, .manual, .note⟩

theorem witness_RsetReplacesARuleInOff :
    (Taken ⟨7, 0x20 :: rsetArguments (15 : Fin 16).val insideRule 0 0 0 false⟩ 0x20 (rsetArguments (15 : Fin 16).val insideRule 0 0 0 false)
        (holding (0x20 :: rsetArguments (15 : Fin 16).val insideRule 0 0 0 false) ready) ∧
      fieldsLegal insideRule = true ∧ ready.tgm.rules[(15 : Fin 16)].state = .off ∧
      (withRule0 ready).tgm.rules[(0 : Fin 16)].state ≠ .off) ∧
    (Taken ⟨7, 0x20 :: 16 :: List.replicate 11 0⟩ 0x20 (16 :: List.replicate 11 0)
        (holding (0x20 :: 16 :: List.replicate 11 0) ready) ∧ 15 < (16 : Byte).toNat) ∧
    (6 < (7 : Byte).toNat ∧ 4095 < leNat [0, 16] ∧ signedOf [0, 0] ≤ signedOf [0, 0]) :=
  ⟨⟨holding_taken rfl, by decide, by decide, by decide⟩, ⟨holding_taken rfl, by decide⟩, by decide, by decide, by decide⟩

/-- Rule 0 FIRED with its last value. -/
def firedAt (v : Int) : State :=
  { ready with tgm := { ready.tgm with rules := ready.tgm.rules.set 0 { rule0 with state := .fired, previous := some v } } }

theorem witness_RonRoffRarmMoveARule :
    (Taken ⟨7, [0x21, byte1 (15 : Fin 16).val]⟩ 0x21 [byte1 (15 : Fin 16).val] (holding [0x21, byte1 (15 : Fin 16).val] ready) ∧
      ready.tgm.rules[(15 : Fin 16)].state = .off ∧ (withRule0 ready).tgm.rules[(0 : Fin 16)].state ≠ .off) ∧
    Taken ⟨7, [0x22, byte1 (0 : Fin 16).val]⟩ 0x22 [byte1 (0 : Fin 16).val] (holding [0x22, byte1 (0 : Fin 16).val] ready) ∧
    (Taken ⟨7, [0x23, byte1 (0 : Fin 16).val]⟩ 0x23 [byte1 (0 : Fin 16).val]
        (holding [0x23, byte1 (0 : Fin 16).val] (firedAt 1000)) ∧
      (firedAt 1000).tgm.rules[(0 : Fin 16)].state = .fired ∧ levelAtLast false (firedAt 1000).tgm.rules[(0 : Fin 16)] = true ∧
      levelAtLast false (firedAt 999).tgm.rules[(0 : Fin 16)] = false) ∧
    15 < (16 : Byte).toNat ∧ ready.lki.session ≠ .closed :=
  ⟨⟨holding_taken rfl, by decide, by decide⟩, holding_taken rfl, ⟨holding_taken rfl, by decide, by decide, by decide⟩,
    by decide, by decide⟩

/-- An EXTERNAL rule, MANUAL with action NOTE. -/
def external0 : RuleFields := ⟨.external, none, 0, none, 0, 1, 15, .manual, .note⟩

/-- An OUTSIDE rule with B at the top of its range. -/
def outside0 : RuleFields := ⟨.outside, some 15, -32768, some 32767, 0, 1, 15, .auto, .capture⟩

/-- `ready` with these fields in rule 0, which is OFF. -/
def ruled (fields : RuleFields) : State :=
  { ready with tgm := { ready.tgm with rules := ready.tgm.rules.set 0 ⟨fields, .off, 0, none, 0⟩ } }

theorem witness_RreadReturnsTheRule :
    Taken ⟨7, [0x24, byte1 (0 : Fin 16).val]⟩ 0x24 [byte1 (0 : Fin 16).val]
      (holding [0x24, byte1 (0 : Fin 16).val] (firedAt (-32768))) ∧
    fieldsLegal (firedAt (-32768)).tgm.rules[(0 : Fin 16)].fields = true ∧
    runtimeLegal (firedAt (-32768)).tgm.rules[(0 : Fin 16)] = true ∧ 15 < (16 : Byte).toNat ∧
    (fieldsLegal (ruled external0).tgm.rules[(0 : Fin 16)].fields = true ∧
      runtimeLegal (ruled external0).tgm.rules[(0 : Fin 16)] = true) ∧
    fieldsLegal (ruled outside0).tgm.rules[(0 : Fin 16)].fields = true ∧
    runtimeLegal (ruled outside0).tgm.rules[(0 : Fin 16)] = true :=
  ⟨holding_taken rfl, by decide, by decide, by decide, by decide, by decide, by decide⟩

/-- The report of an EXTERNAL rule: FF for the channel, 0 for B, options without the B bit (R192, R205). -/
theorem test_rread_external :
    (ruleBytes ⟨external0, .off, 0, none, 0⟩).take 11 = [6, 0xFF, 0, 0, 0, 0, 0, 0, 1, 15, 3] := by decide

theorem witness_SettingsCommandsReplaceAndReturn :
    (Taken ⟨7, 0x30 :: captureBytes CaptureSettings.reset⟩ 0x30 (captureBytes CaptureSettings.reset)
        (holding (0x30 :: captureBytes CaptureSettings.reset) ready) ∧
      captureRangesOk CaptureSettings.reset = true ∧ ready.aqs.state = .idle ∧ running.aqs.state = .running) ∧
    (2048 < leNat [1, 8] ∧ 4096 < leNat [1, 16] ∧ leNat [0, 1] < leNat [1, 0] + leNat [0, 1]) ∧
    (Taken ⟨7, [0x31]⟩ 0x31 [] (holding [0x31] ready) ∧ captureRangesOk ready.sgm.settings = true) ∧
    (Taken ⟨7, 0x32 :: psetArguments ⟨1000000, .burst, 255, 15⟩⟩ 0x32 (psetArguments ⟨1000000, .burst, 255, 15⟩)
        (holding (0x32 :: psetArguments ⟨1000000, .burst, 255, 15⟩) ready) ∧
      PaceMode.burst ≠ ready.aqs.mode ∧ running.aqs.state ≠ .idle) ∧
    (leNat [3, 0, 0, 0] < 4 ∧ 1000000 < leNat [0x41, 0x42, 0x0F, 0]) :=
  ⟨⟨holding_taken rfl, by decide, rfl, rfl⟩, by decide, ⟨holding_taken rfl, by decide⟩,
    ⟨holding_taken rfl, by decide, by decide⟩, by decide⟩

theorem witness_StartBeginsARun :
    Taken ⟨7, [0x40]⟩ 0x40 [] (holding [0x40] ready) ∧ ready.aqs.state = .idle ∧ ready.sct.active ≠ [] ∧
    2 ≤ { ready with sst := { ready.sst with pool := [0, 1] } }.sst.pool.length ∧
    { ready with sst := { ready.sst with pool := [0] } }.sst.pool.length < 2 ∧ running.aqs.state = .running ∧
    State.reset.sct.active = [] :=
  ⟨holding_taken rfl, rfl, by decide, by decide, by decide, rfl, rfl⟩

theorem witness_StopAndAbortEndARun :
    Taken ⟨7, [0x41]⟩ 0x41 [] (holding [0x41] running) ∧ running.aqs.state = .running ∧
    (∀ d ∈ running.sgm.table, d.state ≠ .filling) ∧ (∃ d ∈ (filling (fillingOf 10)).sgm.table, d.state = .filling) ∧
    ready.aqs.state ≠ .running ∧ Taken ⟨7, [0x42]⟩ 0x42 [] (holding [0x42] running) ∧ ready.aqs.state = .idle ∧
    running.aqs.state ≠ .idle ∧ fillingSegment (filling (fillingOf 10)) = some (fillingOf 10) :=
  ⟨holding_taken rfl, rfl, by decide, by decide, by decide, holding_taken rfl, rfl, by decide, by decide⟩

theorem witness_ForceIsPendingInRunning :
    Taken ⟨7, [0x43]⟩ 0x43 [] (holding [0x43] running) ∧ running.aqs.state = .running ∧ running.aqs.forcePending = false ∧
    { running with aqs := { running.aqs with forcePending := true } }.aqs.forcePending = true ∧ ready.aqs.state ≠ .running :=
  ⟨holding_taken rfl, rfl, rfl, rfl, by decide⟩

theorem witness_SegmentCommandsListFetchAndDrop :
    Taken ⟨7, [0x50]⟩ 0x50 [] (holding [0x50] delivering) ∧
    (Taken ⟨7, [0x51, 4, 0]⟩ 0x51 [4, 0] (holding [0x51, 4, 0] delivering) ∧
      segmentNumbered ((4 : Byte).toNat + 256 * (0 : Byte).toNat) delivering = some (segment 4 1 .complete [14, 15, 16]) ∧
      4 ∉ delivering.rpe.fetch ∧ 5 ∈ delivering.rpe.fetch ∧
      8 ≤ { delivering with rpe := { delivering.rpe with fetch := [5, 6, 7, 8, 9, 10, 11, 12] } }.rpe.fetch.length) ∧
    (∀ d ∈ delivering.sgm.table, d.number ≠ (6 : Byte).toNat + 256 * (0 : Byte).toNat) ∧
    (Taken ⟨7, [0x52, 3, 0]⟩ 0x52 [3, 0] (holding [0x52, 3, 0] delivering) ∧
      segmentNumbered ((3 : Byte).toNat + 256 * (0 : Byte).toNat) delivering = some (segment 3 1 .sent [10, 11, 12, 13]) ∧
      segmentNumbered ((5 : Byte).toNat + 256 * (0 : Byte).toNat) (filling (fillingOf 10)) = some (fillingOf 10)) :=
  ⟨holding_taken rfl, ⟨holding_taken rfl, by decide, by decide, by decide, by decide⟩, by decide,
    holding_taken rfl, by decide, by decide⟩

theorem witness_HelloFlushAndByeTearDown :
    Taken ⟨7, [0x01, 0, 250, 10]⟩ 0x01 [0, 250, 10] (holding [0x01, 0, 250, 10] delivering) ∧ 1 ≤ (1 : Byte).toNat ∧
    (250 : Byte).toNat ≤ 250 ∧ Taken ⟨7, [0x02]⟩ 0x02 [] (holding [0x02] delivering) ∧ delivering.lki.session ≠ .closed ∧
    Taken ⟨7, [0x01, 2, 25, 10]⟩ 0x01 [2, 25, 10] (holding [0x01, 2, 25, 10] delivering) ∧ 1 < (2 : Byte).toNat ∧
    250 < (251 : Byte).toNat :=
  ⟨holding_taken rfl, by decide, by decide, holding_taken rfl, by decide, holding_taken rfl, by decide, by decide⟩

theorem witness_HelloKeepAndReplayGoBack :
    Taken ⟨7, [0x01, 1, 1, 10]⟩ 0x01 [1, 1, 10] (holding [0x01, 1, 1, 10] delivering) ∧ 1 ≤ (1 : Byte).toNat ∧
    (1 : Byte).toNat ≤ 250 ∧ Taken ⟨7, [0x60]⟩ 0x60 [] (holding [0x60] delivering) ∧ delivering.lki.session ≠ .closed :=
  ⟨holding_taken rfl, by decide, by decide, holding_taken rfl, by decide⟩

theorem witness_AckTimerExpiryGoesBackOrStalls :
    waiting.lki.ackTimer = some 100 ∧ waiting.lki.retry = 3 ∧
    { waiting with lki := { waiting.lki with retry := 2 } }.lki.retry < 3 ∧ ready.lki.ackTimer = none :=
  ⟨rfl, rfl, by decide, rfl⟩

theorem witness_SessionAndAcquisitionKeepApart :
    answersNext (exec .hello (holding [0x01, 0, 25, 10] delivering)) = true ∧
    (∃ d, delivering.sgm.table[1]? = some d ∧ d.state = .complete) ∧
    answersNext (exec (.converterAnswer 0 false 0) (filling (fillingOf 10))) = true :=
  ⟨by decide +kernel, ⟨_, rfl, rfl⟩, by decide +kernel⟩

/-- The receiver in a phase, with this buffer. -/
def assembling (phase : RxPhase) (buffer : List Byte) : State :=
  { ready with lki := { ready.lki with rx := .assembling phase, buffer := buffer, gapTimer := some 2000 } }

theorem witness_HuntWaitsForTheSyncByte :
    ready.power = .ready ∧ ready.lki.rx = .hunt ∧ (0xD6 : Byte) ≠ 0xD7 ∧ ready.lki.gapTimer = none ∧
    look (exec .lineBreak (assembling .kind [0xD7])) (fun t => t.lki.rx) = some .hunt :=
  ⟨rfl, rfl, by decide, rfl, rfl⟩

theorem witness_BreakReturnsToHunt :
    (assembling .tag [0xD7, 1]).power = .ready ∧ (assembling .tag [0xD7, 1]).lki.rx = .assembling .tag ∧
    ready.lki.rx = .hunt ∧
    answersNext (exec (.receivedByte 0) (assembling .crc2 [0xD7, 1, 0, 0, 0])) = true ∧
    (assembling .tag [0xD7, 1]).lki.gapTimer = some 2000 ∧ (0x01 : Byte) ≠ 0xD7 :=
  ⟨rfl, rfl, rfl, by decide +kernel, rfl, by decide⟩

theorem witness_FrameIsReceivedWhole :
    ready.power = .ready ∧ ready.lki.rx = .hunt ∧ ready.lki.buffer = [] ∧ ready.lki.gapTimer = none ∧
    (List.replicate 250 (0 : Byte)).length ≤ 250 := ⟨rfl, rfl, rfl, rfl, by decide +kernel⟩

theorem witness_DamagedOrStalledFrameIsGivenUp :
    ((assembling .kind [0xD7]).lki.rx = .assembling .kind ∧ (0x03 : Byte) ≠ 0x01 ∧ (0x03 : Byte) ≠ 0x02) ∧
    ((assembling .length [0xD7, 1, 9]).lki.buffer = [0xD7, 1, 9] ∧ 250 < (251 : Byte).toNat ∧ (3 : Byte).toNat ≠ 2) ∧
    ((assembling .crc2 ([0xD7, 1, 9, byte1 0] ++ [] ++ [0x00])).lki.buffer = [0xD7, 1, 9, byte1 0] ++ [] ++ [0x00] ∧
      [(0x00 : Byte), 0x00] ≠ crcBytes (crc ([1, 9, byte1 0] ++ []))) ∧
    (assembling .kind [0xD7]).lki.gapTimer = some 2000 ∧ ready.lki.gapTimer = none :=
  ⟨by decide, by decide, by decide +kernel, rfl, rfl⟩

/-- `waiting` with this ACK accepted. -/
def acked (seq grant : Nat) : State := { waiting with lki := { waiting.lki with accepted := [.ack seq grant] } }

theorem witness_BadAndStaleAcksOnlyGrant :
    ((acked 147 9).lki.accepted = .ack 147 9 :: [] ∧ 147 < 256 ∧
      20 = ((acked 147 9).rpe.outstanding.head?.map Prod.fst).getD (acked 147 9).rpe.nextSeq ∧ 147 = (20 + 127) % 256 ∧
      (acked 147 9).rpe.outstanding.length ≤ 127) ∧
    (148 = (20 + 128) % 256 ∧ (acked 148 9).rpe.outstanding.length ≤ 128 ∧ 23 = (20 + 3) % 256 ∧
      (acked 23 9).rpe.outstanding.length ≤ 3) ∧
    ∀ seq grant rest, ready.lki.accepted ≠ .ack seq grant :: rest := by
  refine ⟨by decide, by decide, ?_⟩
  intro seq grant rest h
  cases h

theorem witness_TransmitterChoosesByClass :
    { ready with lki := { ready.lki with tx := some ⟨.reply reply9, []⟩ } }.lki.tx ≠ none ∧ ready.lki.tx = none ∧
    CanChoose .transmitFrameStart ready ∧
    CanChoose .frameEnd { ready with lki := { ready.lki with tx := some ⟨.reply reply9, []⟩ } } ∧
    ready.lki.notice = none ∧ ready.lki.replies = [] ∧ ready.rpe.resend = none ∧ ready.rpe.queue = [] := by
  refine ⟨by decide, rfl, .inl ⟨rfl, rfl, rfl⟩, .inr ⟨rfl, _, rfl, ?_⟩, rfl, rfl, rfl, rfl⟩
  intro h
  cases h

/-! ## A state that meets every invariant -/

/-- RUNNING: segment 3 is COMPLETE and asked for, segment 4 is SENDING with its SEGHEAD outstanding, segment 5 is FILLING,
a conversion and a frame in reception are in progress. -/
def busy : State :=
  { converting with
    aqs := { converting.aqs with sinceSwitch := 40 },
    sst := { converting.sst with pool := List.range 250 },
    sgm := { converting.sgm with
      nextNumber := 6,
      table := [segment 3 1 .complete [250, 251], segment 4 1 .sending [252, 253],
        { segment 5 6 .filling [254, 255] with postRequested := 64, postTaken := 40 }] },
    tgm := (withRule0 converting).tgm,
    rpe := { converting.rpe with
      queue := [.segment (.data 4 0 252 0 31)], outstanding := [(255, .segment (.head 4))], nextSeq := 0, fetch := [3],
      slot := some (4, .data 1) },
    lki := { converting.lki with
      rx := .assembling .tag, buffer := [0xD7, 1], gapTimer := some 2000, ackTimer := some 500, replies := [reply9] },
    cmp := { converting.cmp with cache := some (9, reply9) },
    pending := [.converterAnswer 7 false 0] }

theorem busy_pages : PagesPartitioned busy := by
  have h : busy.sst.pool ++ busy.sst.ring ++ busy.sgm.table.flatMap Descriptor.pages = List.range Config.storePages := by
    decide +kernel
  simp [PagesPartitioned, h]

theorem busy_slots : SlotsInForm busy := rfl
theorem busy_ring : RingInForm busy := rfl

theorem busy_pacing : PacingShape busy where
  pacer := rfl
  flight := by decide
  timer := rfl
  entry := by
    intro q h
    cases h
    decide
  table := by decide
  hold := by decide
  stepPass := by decide
  burstPass := by decide
  idlePass := by decide

theorem busy_run : RunShape busy where
  oneFilling := by decide
  fillingRuns := by decide
  drainingFills := by decide
  ringRuns := by decide
  scheduled := by decide
  schedulable := by decide
  force := by decide
  holdoff := by decide

theorem busy_windows : WindowsHold busy := ⟨by decide, by decide⟩

theorem busy_rules : RulesLegal busy := by
  unfold RulesLegal
  decide +kernel

theorem busy_reports : ReportShape busy where
  pending := by decide
  share := by decide
  window := by decide
  next := by decide
  numbers := by decide
  resend := by
    intro m h
    cases h
  credit := by decide
  lost := by decide

theorem busy_session : SessionShape busy := ⟨by decide, by decide, by decide, by decide⟩

theorem busy_fetch : FetchShape busy := ⟨by decide, by decide, by decide⟩

theorem busy_references : ReferencesHold busy where
  slots := by decide
  distinct := by decide
  range := by decide
  named := by
    have hd : InDelivery busy 4 := ⟨segment 4 1 .sending [252, 253], by decide, rfl, .inl rfl⟩
    intro r hr n hn
    have hr' : r ∈ [Report.segment (.head 4), .segment (.data 4 0 252 0 31)] := hr
    simp at hr'
    rcases hr' with rfl | rfl <;> (cases hn; exact hd)
  endLast := by
    show List.Pairwise _ [Report.segment (.head 4), .segment (.data 4 0 252 0 31)]
    simp
  slot := by
    intro n pos h
    cases h
    exact ⟨⟨segment 4 1 .sending [252, 253], by decide, rfl, rfl⟩, by decide⟩
  sending := by
    intro d hd hs
    have hd' : d ∈ [segment 3 1 .complete [250, 251], segment 4 1 .sending [252, 253],
      { segment 5 6 .filling [254, 255] with postRequested := 64, postTaken := 40 }] := hd
    simp at hd'
    rcases hd' with rfl | rfl | rfl
    · cases hs
    · exact ⟨.data 1, rfl⟩
    · cases hs

theorem busy_link : LinkShape busy where
  receiver := by decide
  errors := by decide
  places := by decide
  queue := by decide
  cache := by
    intro tag r h
    cases h
    exact ⟨by decide, rfl⟩

/-- `busy` meets the premises of the statements on invariants, and its next step answers a next state. -/
theorem witness_StepKeeps : anyState busy ∧ answersNext (step busy) = true := ⟨trivial, by decide +kernel⟩

theorem witness_NoStepStops : PacingShape busy ∧ ReferencesHold busy := ⟨busy_pacing, busy_references⟩

/-! ## Acknowledgements, reports and delivery -/

/-- `busy` with an ACK of its one outstanding report accepted. -/
def busyAcked : State := { busy with lki := { busy.lki with accepted := [.ack 255 3] } }

theorem witness_AdvancingAckReleasesSegments :
    ReportShape busyAcked ∧ ReferencesHold busyAcked ∧ busyAcked.lki.accepted = .ack 255 3 :: [] ∧
    busyAcked.rpe.outstanding.head?.map Prod.fst = some 255 ∧ 255 = (255 + 0) % 256 ∧ 0 < busyAcked.rpe.outstanding.length :=
  ⟨⟨busy_reports.1, busy_reports.2, busy_reports.3, busy_reports.4, busy_reports.5, busy_reports.6, busy_reports.7,
      busy_reports.8⟩,
    ⟨busy_references.1, busy_references.2, busy_references.3, busy_references.4, busy_references.5, busy_references.6,
      busy_references.7⟩, rfl, rfl, rfl, by decide⟩

/-- `busy` with no reply waiting, so that a report is next; with a resend mark or without. -/
def busyToSend (mark : Option Nat) : State :=
  { busy with lki := { busy.lki with replies := [] }, rpe := { busy.rpe with resend := mark } }

theorem witness_ReportsAreSentAndSentAgain :
    (ReferencesHold (busyToSend none) ∧ (busyToSend none).rpe.queue.length ≤ 48 ∧
      CanChoose .transmitFrameStart (busyToSend none) ∧ (busyToSend none).lki.session = .open ∧
      (busyToSend none).rpe.queue = .segment (.data 4 0 252 0 31) :: [] ∧ (busyToSend none).rpe.outstanding.length < 16 ∧
      1 ≤ (busyToSend none).rpe.credit) ∧
    (ReferencesHold (busyToSend (some 255)) ∧ CanChoose .transmitFrameStart (busyToSend (some 255)) ∧
      (busyToSend (some 255)).rpe.outstanding = [] ++ (255, .segment (.head 4)) :: []) :=
  ⟨⟨⟨busy_references.1, busy_references.2, busy_references.3, busy_references.4, busy_references.5, busy_references.6,
      busy_references.7⟩, by decide, .inl ⟨rfl, rfl, rfl⟩, rfl, rfl, by decide, by decide⟩,
    ⟨busy_references.1, busy_references.2, busy_references.3, busy_references.4, busy_references.5, busy_references.6,
      busy_references.7⟩, .inl ⟨rfl, rfl, rfl⟩, rfl⟩

theorem witness_ReportPayloadsHaveTheirForms :
    segmentNumbered 3 busy = some (segment 3 1 .complete [250, 251]) ∧ 0 ≤ 31 ∧ 31 < 32 ∧ (-32768 : Int) ≤ -32768 ∧
    (63 : Nat) < 64 := ⟨by decide, by decide, by decide, by decide, by decide⟩

/-- The slot free and segment 3 COMPLETE, asked for or not. -/
def startable3 (fetch : List Nat) : State :=
  { ready with
    sgm := { ready.sgm with nextNumber := 4, table := [segment 3 1 .complete [250, 251]] },
    rpe := { ready.rpe with fetch := fetch } }

/-- `startable3` with 47 event reports pending, so that one report of the segment's four fits. -/
def crowded : State :=
  { startable3 [3] with rpe := { (startable3 [3]).rpe with queue := List.replicate 47 (.event (.lost 1)) } }

theorem startable3_references (fetch : List Nat) : ReferencesHold (startable3 fetch) where
  slots := (by decide : [segment 3 1 .complete [250, 251]].length ≤ 32)
  distinct := (by decide : [3].Nodup)
  range := ⟨(by decide : 4 < 65536), (by decide : ∀ d ∈ [segment 3 1 .complete [250, 251]], d.number < 65536)⟩
  named := fun r hr => (nomatch hr)
  endLast := .nil
  slot := fun n pos h => (nomatch h)
  sending := by
    intro d hd hs
    rw [List.mem_singleton.mp hd] at hs
    cases hs

theorem crowded_references : ReferencesHold crowded where
  slots := by decide
  distinct := by decide
  range := ⟨by decide, by decide⟩
  named := by
    intro r hr n h
    rw [List.eq_of_mem_replicate (show r ∈ List.replicate 47 (Report.event (.lost 1)) from hr)] at h
    cases h
  endLast := by
    show List.Pairwise _ (List.replicate 47 (Report.event (.lost 1)))
    exact List.pairwise_replicate.mpr (.inr (fun n h => (nomatch h)))
  slot := fun n pos h => (nomatch h)
  sending := (startable3_references [3]).sending

theorem witness_DeliveryQueuesTheSegmentInOrder :
    (ReferencesHold (startable3 [3]) ∧ FetchShape (startable3 [3]) ∧ (startable3 [3]).rpe.slot = none ∧
      (startable3 [3]).lki.session = .open ∧ (startable3 [3]).rpe.queue.length < 48 ∧
      pendingSegments (startable3 [3]).rpe < 40 ∧ segment 3 1 .complete [250, 251] ∈ (startable3 [3]).sgm.table ∧
      (startable3 [3]).rpe.fetch.head? = some 3 ∧ 2 + 2 - 0 ≤ segmentRoom (startable3 [3]).rpe) ∧
    (ReferencesHold crowded ∧ FetchShape crowded ∧ crowded.rpe.queue.length < 48 ∧ pendingSegments crowded.rpe < 40 ∧
      segmentRoom crowded.rpe < 2 + 2 - 0) ∧
    ((startable3 []).rpe.fetch = [] ∧ (startable3 []).sgm.settings.deliveryMode = .auto ∧
      (startable3 []).sgm.table.find? (fun x => decide (x.state = .complete)) = some (segment 3 1 .complete [250, 251])) ∧
    (ReferencesHold busy ∧ segment 4 1 .sending [252, 253] ∈ busy.sgm.table ∧ busy.rpe.slot = some (4, .data 1) ∧
      busy.rpe.queue.length < 48 ∧ pendingSegments busy.rpe < 40 ∧
      ∀ c, DeliveryPos.data 1 = .data c → c < (segment 4 1 .sending [252, 253]).pages.length) ∧
    busy.rpe.slot ≠ none ∧ ready.rpe.slot = none ∧
    (descriptorOk (segment 3 1 .complete [250, 251]) = true ∧ 1 < (segment 3 1 .complete [250, 251]).pages.length) := by
  refine ⟨⟨startable3_references _, ⟨by decide, by decide, by decide⟩, rfl, rfl, by decide, by decide, by decide, rfl,
      by decide⟩,
    ⟨crowded_references, ⟨by decide, by decide, by decide⟩, by decide, by decide, by decide⟩, ⟨rfl, rfl, by decide⟩,
    ⟨busy_references, by decide, rfl, by decide, by decide, ?_⟩, by decide, rfl, by decide, by decide⟩
  intro c h
  cases h
  decide

/-! ## Ticks and records -/

/-- RUNNING with a commit scheduled, the entry position at `position`, and these two copies. -/
def scheduledAt (position : Nat) (active working : List ScanEntry) : State :=
  { running with
    sct := { running.sct with scheduled := true, active := active, working := working },
    aqs := { running.aqs with position := position } }

/-- No entry of the active copy is due, so none is from any index on. -/
theorem none_due {s : State} (h : ∀ e ∈ s.sct.active, s.aqs.pass % e.divider ≠ e.phase) (start : Nat) :
    ∀ i e, ¬ NextDue s start i e :=
  fun _ e hd => h e (List.mem_of_getElem? hd.2.1) hd.2.2.1

theorem witness_StepTickConvertsTheNextDueEntry :
    ready.aqs.nextTick = none ∧ running.aqs.nextTick = some 1000 ∧ running.aqs.mode = .step ∧
    converting.cvp.inFlight ≠ none ∧
    (running.cvp.inFlight = none ∧ ¬ CommitDue running ∧ running.aqs.position ≤ running.sct.active.length ∧
      running.sct.active[examinedIndex running 1 0]? = some entry0 ∧
      examinedPass running 1 0 % entry0.divider = entry0.phase) ∧
    (∀ f ∈ (scheduledAt 0 [oddEntry] [entry0]).sct.active,
      examinedPass (scheduledAt 0 [oddEntry] [entry0]) 1 0 % f.divider ≠ f.phase) ∧
    CommitDue (scheduledAt 0 [oddEntry] [entry0]) ∧
    ¬ CommitDue { filling (fillingOf 10) with sct := { running.sct with scheduled := true } } ∧
    (CommitDue (scheduledAt 1 [entry0] [oddEntry, entry0]) ∧
      (∀ (j : Nat) (f : ScanEntry), 1 ≤ j → (scheduledAt 1 [entry0] [oddEntry, entry0]).sct.active[j]? = some f →
        0 % f.divider ≠ f.phase) ∧
      (scheduledAt 1 [entry0] [oddEntry, entry0]).sct.working[1]? = some entry0 ∧ entry0.phase = 0 ∧ oddEntry.phase ≠ 0) ∧
    ∀ f ∈ (scheduledAt 1 [entry0] [oddEntry]).sct.working, f.phase ≠ 0 := by
  refine ⟨rfl, rfl, rfl, by decide, ⟨rfl, fun h => (nomatch h.1), by decide, rfl, by decide⟩, by decide, ⟨rfl, rfl, by decide⟩,
    ?_, ⟨⟨rfl, rfl, by decide⟩, ?_, rfl, rfl, by decide⟩, by decide⟩
  · exact fun h => absurd h.2.2 (by decide)
  · intro j f hj hf
    obtain ⟨k, rfl⟩ := Nat.exists_eq_add_of_le' hj
    cases hf

/-- `running` in BURST pacing, in this pass state. -/
def bursting (p : PassState) : State := { running with aqs := { running.aqs with mode := .burst, passState := p } }

theorem witness_BurstTickStartsOrResumesAPass :
    (bursting .waiting).aqs.nextTick = some 1000 ∧ (bursting .waiting).aqs.mode = .burst ∧
    (bursting .waiting).aqs.passState = .waiting ∧ NextDue (bursting .waiting) 0 0 entry0 ∧
    (let s := { bursting .waiting with sct := { running.sct with active := [oddEntry], scheduled := true } };
      (∀ i e, ¬ NextDue s 0 i e) ∧ CommitDue (ticked 1000 s)) ∧
    (let s := { bursting .waiting with sct := { running.sct with active := [oddEntry] } };
      (∀ i e, ¬ NextDue s 0 i e) ∧ ¬ CommitDue (ticked 1000 s)) ∧
    (bursting .converting).aqs.passState = .converting ∧ (bursting .paused).aqs.passState = .paused ∧
    (bursting .paused).sct.active[(bursting .paused).aqs.position]? = some entry0 :=
  ⟨rfl, rfl, rfl, ⟨by decide, rfl, by decide, fun i f _ h => absurd h (by omega)⟩,
    ⟨none_due (by decide) 0, rfl, rfl, by decide⟩, ⟨none_due (by decide) 0, fun h => (nomatch h.1)⟩, rfl, rfl, rfl⟩

/-- A conversion in flight for a DISCARD entry. -/
def discarding (hold : Bool) : State :=
  { converting with
    sct := { converting.sct with active := [{ entry0 with discard := true, hold := hold }, entry0] } }

theorem witness_LateAndDiscardedAnswersMakeNoRecord :
    (∀ q, converting.cvp.inFlight = some q → q.tag ≠ 1) ∧ (∀ q, ready.cvp.inFlight = some q → q.tag ≠ 0) ∧
    Answered request0 { entry0 with discard := true, hold := true } (-32768) (discarding true) ∧
    (discarding false).aqs.mode = .step ∧
    (∀ hold, (inBurst (discarding hold)).aqs.mode = .burst ∧ acquiring (inBurst (discarding hold)) = true ∧
      NextDue (answered (inBurst (discarding hold))) 1 1 entry0) ∧
    (let s := inBurst { discarding false with
        sct := { (discarding false).sct with active := [{ entry0 with discard := true }, oddEntry], scheduled := true } };
      (∀ j e, ¬ NextDue (answered s) 1 j e) ∧ CommitDue (answered s)) := by
  refine ⟨fun q h => ?_, fun q h => (nomatch h), ⟨rfl, rfl, rfl, by decide⟩, rfl,
    fun hold => ⟨rfl, rfl, Nat.le_refl 1, rfl, rfl, fun i f h1 h2 => absurd h1 (by omega)⟩, ?_, rfl, rfl, by decide⟩
  · cases h
    decide
  · intro j e hd
    obtain ⟨k, rfl⟩ := Nat.exists_eq_add_of_le' hd.1
    cases k with
    | zero =>
      have he : e = oddEntry := (Option.some.inj hd.2.1).symm
      exact absurd hd.2.2.1 (by rw [he]; decide)
    | succ k => cases hd.2.1

/-- `converting` with this ring, fill and pool. -/
def ringOf (ring : List Nat) (fill : Option Nat) (pool : List Nat) : State :=
  { converting with sst := { converting.sst with ring := ring, ringFill := fill, pool := pool } }

theorem witness_RecordGoesToTheRing :
    Answered request0 entry0 32767 (ringOf [0] (some 31) [1]) ∧ entry0.discard = false ∧
    Answered request0 entry0 32767 (inBurst (ringOf [0] (some 31) [1])) ∧
    fillingSegment (ringOf [0] (some 31) [1]) = none ∧
    NothingFires entry0.channel 32767 (ringOf [0] (some 31) [1]) ∧
    (ringOf [0] (some 31) [1]).sst.ring = [] ++ [0] ∧
    ((ringOf [0] (some 32) [1]).sst.ringFill = some 32 ∧
      (ringOf [0] (some 32) [1]).sst.ring.length < (ringOf [0] (some 32) [1]).sst.targetSize) ∧
    ((ringOf [0] (some 32) []).sst.ring = 0 :: [] ∧ (ringOf [0] (some 32) []).sst.pool = []) ∧
    ((ringOf [] none []).sst.ring = [] ∧ (ringOf [] none []).sst.pool = []) :=
  ⟨⟨rfl, rfl, rfl, by decide⟩, rfl, ⟨rfl, rfl, rfl, by decide⟩, by decide, ⟨rfl, by decide +kernel⟩, rfl, by decide,
    by decide, by decide⟩

/-- `s` with the first segment of its table discarded by displacement. -/
def displaced (d : Descriptor) (rest : List Descriptor) (s : State) : State :=
  { s with
    sgm := { s.sgm with table := rest },
    sst := withReturn s.sgm.settings.lowWatermark d.pages s.sst,
    rpe := withEvent (.segDrop d.number .displaced)
      { s.rpe with fetch := s.rpe.fetch.filter (fun n => decide (n ≠ d.number)) } }

theorem displaced_first {priority : Nat} {forPage : Bool} {s : State} {d : Descriptor} {rest : List Descriptor}
    (h : s.sgm.table = d :: rest) (hd : MayBeDisplaced priority forPage s d) :
    Displaced priority forPage s (displaced d rest s) :=
  ⟨[], d, rest, h, hd, fun _ hx => (nomatch hx),
    ⟨⟨[], rest, h, rfl⟩, rfl, rfl, rfl, rfl, rfl, rfl, rfl, rfl, rfl, rfl, rfl, rfl⟩, rfl⟩

/-- An empty pool under DISPLACE, and COMPLETE segment 3 of priority 1 on page 7 before these. -/
def displacing (rest : List Descriptor) : State :=
  { ringOf [] none [] with
    sgm := { converting.sgm with
      table := segment 3 1 .complete [7] :: rest, settings := { converting.sgm.settings with exhaustion := .displace } } }

/-- A page by displacement, in any state that has the store and the segments of `displacing`. -/
theorem displacing_gains {rest : List Descriptor} {s : State} {priority : Nat} (hp : 1 < priority)
    (hs : s.sst = (displacing rest).sst) (hg : s.sgm = (displacing rest).sgm) (hf : s.rpe.fetch = []) :
    ∃ y, PageGained priority 7 s y := by
  have ht : s.sgm.table = segment 3 1 .complete [7] :: rest := by rw [hg]; rfl
  refine ⟨_, displaced (segment 3 1 .complete [7]) rest s, .inr ⟨by rw [hs]; rfl, by rw [hg]; rfl, displaced_first ht ?_⟩,
    ?_, rfl⟩
  · exact ⟨rfl, by rw [hf]; exact List.not_mem_nil, hp, fun _ => by decide⟩
  · simp [displaced, withReturn, hs, displacing, ringOf, segment]

theorem witness_RecordGoesToTheFillingSegment :
    (Answered request0 entry0 5 (filling (fillingOf 10)) ∧ (filling (fillingOf 10)).aqs.state = .running ∧
      fillingSegment (filling (fillingOf 10)) = some (fillingOf 10) ∧ descriptorOk (fillingOf 10) = true ∧
      (fillingOf 10).pages ≠ [] ∧ NothingFires entry0.channel 5 (filling (fillingOf 10)) ∧
      (fillingOf 10).pages[(0 + 3 + 1) / 32]? = some 0) ∧
    Answered request0 entry0 5 (inBurst (filling (fillingOf 10))) ∧
    (descriptorOk (fillingOf 2) = true ∧ (fillingOf 2).postTaken + 1 = (fillingOf 2).postRequested) ∧
    (let d := { fillingOf 40 with postTaken := 29 };
      descriptorOk d = true ∧ (0 + 3 + 29) / 32 = [0].length ∧
      (∃ y, PageGained d.primaryPriority 1 (evaluated 0 5 (answered (filling d))) y) ∧
      fillingSegment (displacing [d]) = some d ∧
      ∃ y, PageGained d.primaryPriority 7 (evaluated 0 5 (answered (displacing [d]))) y) :=
  ⟨⟨⟨rfl, rfl, rfl, by decide⟩, rfl, by decide, by decide, by decide, ⟨rfl, by decide +kernel⟩, rfl⟩,
    ⟨rfl, rfl, rfl, by decide⟩, by decide,
    ⟨by decide, rfl, ⟨_, _, .inl ⟨by decide +kernel, rfl⟩, by decide +kernel, rfl⟩, by decide,
      displacing_gains (by decide) rfl rfl rfl⟩⟩

/-- A FILLING segment whose page is full, and an empty pool. -/
def starving (policy : Exhaustion) (mode : CaptureMode) (state : AcqState) : State :=
  { converting with
    aqs := { converting.aqs with state := state },
    sgm := { converting.sgm with
      table := [{ fillingOf 40 with postTaken := 29 }],
      settings := { converting.sgm.settings with exhaustion := policy, captureMode := mode } },
    sst := { converting.sst with pool := [] } }

theorem witness_StarvedSegmentCloses :
    (∀ policy mode, Answered request0 entry0 5 (starving policy mode .running) ∧ RunShape (starving policy mode .running) ∧
      fillingSegment (starving policy mode .running) = some { fillingOf 40 with postTaken := 29 } ∧
      (0 + 3 + 29) / 32 = [0].length ∧ NoPageFor 6 (starving policy mode .running)) ∧
    (RunShape (starving .truncate .continuous .draining) ∧ NoPageFor 6 (starving .truncate .continuous .draining)) ∧
    Answered request0 entry0 5 (inBurst (starving .displace .continuous .running)) := by
  have none_displaced : ∀ policy mode state, NoPageFor 6 (starving policy mode state) := by
    intro policy mode state
    refine ⟨rfl, .inr (fun d hd h => ?_)⟩
    have hc := h.1
    rw [List.mem_singleton.mp hd] at hc
    cases hc
  refine ⟨fun policy mode => ⟨⟨rfl, rfl, rfl, by decide⟩, ?_, rfl, rfl, none_displaced _ _ _⟩,
    ⟨⟨by decide, by decide, by decide, by decide, by decide, by decide, by decide, by decide⟩, none_displaced _ _ _⟩,
    rfl, rfl, rfl, by decide⟩
  cases policy <;> cases mode <;>
    exact ⟨by decide, by decide, by decide, by decide, by decide, by decide, by decide, by decide⟩

/-- `s` with segments 0 and 1 in use, the numbering counter at 0. -/
def numbered (s : State) : State :=
  { s with sgm := { s.sgm with table := [segment 1 1 .sent [], segment 0 1 .sent []], nextNumber := 0 } }

theorem witness_FiringOpensASegmentOnTheRing :
    Answered request0 entry0 1000 (withRule0 ringed) ∧ Answered request0 entry0 1000 (inBurst (withRule0 ringed)) ∧
    (withRule0 ringed).aqs.state = .running ∧
    fillingSegment (withRule0 ringed) = none ∧ (withRule0 ringed).sgm.holdoff = 0 ∧
    (withRule0 ringed).sgm.table.length < 32 ∧ (withRule0 ringed).sgm.nextNumber < 65536 ∧
    FirstFree (withRule0 ringed) 0 ∧
    (fillingSegment (numbered (withRule0 ringed)) = none ∧ FirstFree (numbered (withRule0 ringed)) 2) ∧
    firingsOf entry0.channel (seen 1000 (withRule0 ringed)) (withRule0 ringed).aqs.forcePending
      (withRule0 ringed).tgm.rules.toList = [⟨0, 5, .capture⟩] ∧
    (withRule0 ringed).sst.ring = [] ++ [0] ∧ (withRule0 ringed).sst.ringFill = some 5 ∧
    2 ≤ (withRule0 ringed).sgm.settings.postRequested ∧ 6 = 32 * ([] : List Nat).length + 5 + 1 ∧
    5 = min (withRule0 ringed).sgm.settings.preRequested (min 6 ((withRule0 ringed).aqs.sinceSwitch + 1) - 1) ∧
    0 = 6 - 1 - 5 :=
  ⟨⟨rfl, rfl, rfl, by decide⟩, ⟨rfl, rfl, rfl, by decide⟩, rfl, by decide, rfl, by decide, by decide,
    ⟨fun _ hd => (nomatch hd), 0, rfl, fun _ hj => (nomatch hj)⟩,
    ⟨by decide, by decide, 2, rfl, by decide⟩, by decide +kernel, rfl, rfl, by decide, rfl, by decide, rfl⟩

/-- The records of the ring at its three places: room, a page from the pool, the recycled page. -/
theorem ring_places {f : State → State} (h : ∀ s, (f s).sst = s.sst) :
    (∃ w, RingPlaced 0 5 (f ringed) w) ∧ (∃ w, RingPlaced 1 0 (f (ringOf [0] (some 32) [1])) w) ∧
    ∃ w, RingPlaced 0 0 (f (ringOf [0] (some 32) [])) w :=
  ⟨⟨_, .inl ⟨[], by rw [h]; rfl, by rw [h]; rfl, by decide, rfl⟩⟩,
    ⟨_, .inr (.inl ⟨rfl, .inr (by rw [h]; rfl), by rw [h]; decide, by rw [h]; rfl, rfl⟩)⟩,
    ⟨_, .inr (.inr ⟨rfl, by rw [h]; rfl, .inr (by rw [h]; rfl), [], by rw [h]; rfl, rfl⟩)⟩⟩

/-- The record of a FILLING segment behind its last one, and on a fill page. -/
theorem segment_places :
    (∃ w, SegmentPlaced (fillingOf 10) 0 4 (timedOut (filling (fillingOf 10))) w) ∧
    (∃ w, SegmentPlaced (fillingOf 10) 0 4 (answered (filling (fillingOf 10))) w) ∧
    ∃ w, SegmentPlaced { fillingOf 40 with postTaken := 29 } 1 0
      (answered (filling { fillingOf 40 with postTaken := 29 })) w :=
  ⟨⟨_, .inl ⟨rfl, rfl, rfl⟩⟩, ⟨_, .inl ⟨rfl, rfl, rfl⟩⟩,
    ⟨_, .inr ⟨by decide, rfl, _, ⟨_, .inl ⟨by decide +kernel, rfl⟩, by decide +kernel, rfl⟩, rfl⟩⟩⟩

/-- `s` after this many timeouts in a row. -/
def timedOutBefore (n : Nat) (s : State) : State := { s with cvp := { s.cvp with consecutive := n } }

theorem witness_TimeoutMakesAnErrRecordOrHalts :
    (ringed.cvp.inFlight = some request0 ∧ ringed.cvp.timer = some 20 ∧ ringed.sct.active[request0.entry]? = some entry0 ∧
      entry0.discard = false ∧ fillingSegment ringed = none ∧ (∃ w, RingPlaced 0 5 (timedOut ringed) w)) ∧
    ((timedOutBefore 1 ringed).cvp.consecutive + 1 < (timedOutBefore 1 ringed).cvp.threshold ∧
      (timedOutBefore 2 ringed).cvp.threshold ≤ (timedOutBefore 2 ringed).cvp.consecutive + 1) ∧
    ((ringOf [] none []).sst.ring = [] ∧ (ringOf [] none []).sst.pool = [] ∧ fillingSegment (ringOf [] none []) = none) ∧
    (fillingSegment (filling (fillingOf 10)) = some (fillingOf 10) ∧
      (∃ w, SegmentPlaced (fillingOf 10) 0 4 (timedOut (filling (fillingOf 10))) w) ∧
      (fillingOf 10).postTaken + 1 ≠ (fillingOf 10).postRequested ∧
      (fillingOf 2).postTaken + 1 = (fillingOf 2).postRequested) ∧
    (let s := starving .halt .continuous .running;
      fillingSegment s = some { fillingOf 40 with postTaken := 29 } ∧ acquiring s = true ∧ RunShape s ∧ NoPageFor 6 s ∧
      [0].length ≤ placeIn { fillingOf 40 with postTaken := 29 } / 32) ∧
    ((discarding true).sct.active[request0.entry]? = some { entry0 with discard := true, hold := true } ∧
      (discarding true).cvp.inFlight = some request0) ∧
    ready.cvp.inFlight = none :=
  ⟨⟨rfl, rfl, rfl, rfl, rfl, (ring_places (f := timedOut) (fun _ => rfl)).1⟩, by decide, ⟨rfl, rfl, rfl⟩,
    ⟨rfl, segment_places.1, by decide, by decide⟩,
    ⟨rfl, rfl, (witness_StarvedSegmentCloses.1 .halt .continuous).2.1, (witness_StarvedSegmentCloses.1 .halt .continuous).2.2.2.2,
      by decide⟩, ⟨rfl, rfl⟩, rfl⟩

theorem witness_TriggerLinesMoveLatchAndPulse :
    running.aqs.state = .running ∧ ready.aqs.state ≠ .running ∧
    { ready with sgm := { ready.sgm with pulseTimer := some 255 } }.sgm.pulseTimer = some 255 ∧
    ready.sgm.pulseTimer = none := by decide

theorem witness_RuleMovesOnARecord :
    (rule0.state = .armed ∧ rule0.fields.channel = some 0 ∧ firingPart rule0.fields none ⟨1000, false, false⟩ = true ∧
      firingPart rule0.fields none ⟨999, false, false⟩ = false) ∧
    (let r := { rule0 with state := RuleState.qualifying, progress := 1, fields := { rule0.fields with qualify := 3 } };
      levelPart r.fields 1000 false = true ∧ r.progress + 1 < r.fields.qualify ∧ levelPart r.fields 999 false = false) ∧
    (let r := { rule0 with state := RuleState.fired };
      r.fields.rearm = .auto ∧ clearPart r.fields ⟨999, false, false⟩ = true ∧
        clearPart r.fields ⟨1000, false, false⟩ = false) := by decide

theorem witness_ConditionPartsAgree :
    fieldsLegal rule0.fields = true ∧ rule0.fields.condition ≠ .external ∧
    firingPart rule0.fields none ⟨1000, false, false⟩ = true ∧ clearPart rule0.fields ⟨999, false, false⟩ = true ∧
    (∀ c ∈ [Condition.above, .below, .rising, .falling],
      fieldsLegal { rule0.fields with condition := c, thresholdA := -32768, hysteresis := 4095 } = true) ∧
    (∀ c ∈ [Condition.inside, .outside], fieldsLegal { insideRule with condition := c } = true) ∧
    fieldsLegal { rule0.fields with condition := .external, channel := none } = true ∧
    (let f := { rule0.fields with condition := Condition.rising };
      fieldsLegal f = true ∧ levelPart f 1000 false = true ∧ firingPart f (some 999) ⟨1000, false, false⟩ = true) := by decide

theorem witness_FiringsAreOrderedByPriority :
    (∀ r ∈ (withRule0 ready).tgm.rules.toList, r.fields.priority ≤ 15) ∧
    (Answered request0 entry0 1000 ringed ∧ entry0.discard = false ∧ fillingSegment ringed = none ∧
      (∃ w, RingPlaced 0 5 (answered ringed) w) ∧ (∃ w, RingPlaced 1 0 (answered (ringOf [0] (some 32) [1])) w) ∧
      ∃ w, RingPlaced 0 0 (answered (ringOf [0] (some 32) [])) w) ∧
    (fillingSegment (ringOf [] none []) = none ∧ (ringOf [] none []).sst.ring = [] ∧ (ringOf [] none []).sst.pool = []) ∧
    (Answered request0 entry0 1000 (filling (fillingOf 10)) ∧ fillingSegment (filling (fillingOf 10)) = some (fillingOf 10) ∧
      (∃ w, SegmentPlaced (fillingOf 10) 0 4 (answered (filling (fillingOf 10))) w) ∧
      ∃ w, SegmentPlaced { fillingOf 40 with postTaken := 29 } 1 0
        (answered (filling { fillingOf 40 with postTaken := 29 })) w) :=
  ⟨by decide +kernel, ⟨⟨rfl, rfl, rfl, by decide⟩, rfl, rfl, ring_places (fun _ => rfl)⟩, ⟨rfl, rfl, rfl⟩,
    ⟨rfl, rfl, rfl, by decide⟩, rfl, segment_places.2⟩

/-- Four firings on one record in their order (R65): FORCE opens segment 0, a NOTE firing, and two retriggers of it (R30, the
worked example of section 3.7). -/
theorem test_four_firings :
    (let x := dealFirings ⟨⟨2210, 6, 0, false, false, false⟩, 5120, .ring⟩
        [⟨16, 16, .capture⟩, ⟨9, 10, .note⟩, ⟨2, 6, .capture⟩, ⟨5, 6, .capture⟩] .first ringed;
      (x.1, x.2.rpe.queue)) =
      (.opened, [.event (.trigger 16 5120 6 2210 .opened (some 0)), .event (.trigger 9 5120 6 2210 .note none),
        .event (.trigger 2 5120 6 2210 .secondary (some 0)), .event (.trigger 5 5120 6 2210 .secondary (some 0))]) := by
  decide +kernel

/-- RUNNING with 32 descriptors in use, none COMPLETE. -/
def full : State :=
  { running with sgm := { running.sgm with table := (List.range 32).map (fun n => segment n 1 .sent []) } }

theorem witness_CaptureFiringOutcomes :
    { running with aqs := { running.aqs with state := .draining } }.aqs.state = .draining ∧
    (fillingSegment (filling (fillingOf 10)) = some (fillingOf 10) ∧ (fillingOf 10).secondary.length < 4 ∧
      (let d := { fillingOf 10 with secondary := List.replicate 4 ⟨0, 0, .secondary⟩, secondaryOverflow := 255 };
        fillingSegment (filling d) = some d ∧ ¬ d.secondary.length < 4) ∧
      (filling (fillingOf 10)).sgm.settings.retrigger = .count ∧
      { converting.sgm.settings with retrigger := .extend }.retrigger = .extend) ∧
    0 < { running with sgm := { running.sgm with holdoff := 1 } }.sgm.holdoff ∧
    (32 ≤ full.sgm.table.length ∧ full.sgm.settings.exhaustion ≠ .displace ∧ fillingSegment full = none) ∧
    (fillingSegment ringed = none ∧ ringed.sgm.holdoff = 0 ∧ DescriptorGained 5 ringed ringed ∧
      ringed.sgm.nextNumber < 65536 ∧ FirstFree ringed 0 ∧ ringed.sst.ring = [] ++ [0] ∧ ringed.sst.ringFill = some 5) ∧
    (fillingSegment (displacing []) = none ∧ DescriptorGained 5 (displacing []) (displacing []) ∧
      FirstFree (displacing []) 0 ∧ ∃ z, PageGained 5 7 (displacing []) z) ∧
    (DescriptorGained 5 (ringOf [] none []) (ringOf [] none []) ∧ NoPageFor 5 (ringOf [] none [])) :=
  ⟨rfl, ⟨rfl, by decide, ⟨rfl, by decide⟩, rfl, rfl⟩, by decide, ⟨by decide, by decide, by decide +kernel⟩,
    ⟨rfl, rfl, .inl ⟨by decide, rfl⟩, by decide, ⟨fun _ hd => (nomatch hd), 0, rfl, fun _ hj => (nomatch hj)⟩, rfl, rfl⟩,
    ⟨rfl, .inl ⟨by decide, rfl⟩, ⟨by decide, 0, rfl, fun _ hj => (nomatch hj)⟩, displacing_gains (by decide) rfl rfl rfl⟩,
    .inl ⟨by decide, rfl⟩, rfl, .inl (by decide)⟩

theorem witness_DisplacementTakesTheOldest :
    (let d := segment 11 2 .complete [40, 41];
      let s := { running with sgm := { running.sgm with table := [segment 9 1 .sent [50], d] } };
      s.sgm.table = [segment 9 1 .sent [50]] ++ d :: [] ∧ d.number ∉ s.rpe.fetch ∧ d.primaryPriority < 3 ∧ d.pages ≠ []) ∧
    (∀ x ∈ full.sgm.table, x.state ≠ .complete ∨ x.number ∈ full.rpe.fetch ∨ 16 ≤ x.primaryPriority ∨
      (true = true ∧ x.pages = [])) := by decide +kernel

theorem witness_RunsBeginAndTablesSwitchOnlyWhereAllowed :
    look (exec .start (holding [0x40] ready)) (fun t => t.aqs.state) = some .running ∧
    look (exec .stop (holding [0x41] (filling (fillingOf 10)))) (fun t => t.aqs.state) = some .draining ∧
    (RunShape busy ∧ PacingShape busy ∧ (fillingSegment busy).isSome = true ∧
      look (exec (.converterAnswer 7 false 0) busy) (fun t => (fillingSegment t).isSome) = some true) ∧
    look (exec .resetTakesEffect { running with lki := { running.lki with resetDue := true } }) (fun t => t.aqs.run) =
      some 0 ∧
    GenerationNamed busy :=
  ⟨by decide +kernel, by decide +kernel, ⟨busy_run, busy_pacing, by decide, by decide +kernel⟩, by decide +kernel, (by decide : ∀ d ∈ busy.sgm.table, d.state = .filling → d.generation = 1 ∧ d.preTaken + d.postTaken ≤ 40)⟩

/-- `displacing` with all 32 descriptors in use. -/
def crammed : State := displacing ((List.range 31).map (fun n => segment (n + 4) 1 .sent []))

theorem witness_UnplacedTriggerRecordOpensASegment :
    (let s := withRule0 (ringOf [] none []);
      Answered request0 entry0 1000 s ∧ entry0.discard = false ∧ s.aqs.state = .running ∧ fillingSegment s = none ∧
      s.sgm.holdoff = 0 ∧ s.sgm.nextNumber < 65536 ∧ s.sst.ring = [] ∧ s.sst.pool = [] ∧
      firingsOf entry0.channel (seen 1000 s) s.aqs.forcePending s.tgm.rules.toList = [⟨0, 5, .capture⟩] ∧
      ∃ y, DescriptorGained 5 (evaluated 0 1000 (answered s)) y ∧ FirstFree y 0 ∧ NoPageFor 5 y) ∧
    (let s := withRule0 (displacing []);
      Answered request0 entry0 1000 s ∧ fillingSegment s = none ∧ 2 ≤ s.sgm.settings.postRequested ∧
      ∃ y, DescriptorGained 5 (evaluated 0 1000 (answered s)) y ∧ FirstFree y 0 ∧ ∃ z, PageGained 5 7 y z) ∧
    (let s := withRule0 crammed;
      Answered request0 entry0 1000 s ∧ fillingSegment s = none ∧
      ∃ y, DescriptorGained 5 (evaluated 0 1000 (answered s)) y ∧ FirstFree y 0 ∧ ∃ z, PageGained 5 7 y z) := by
  refine ⟨⟨⟨rfl, rfl, rfl, by decide⟩, rfl, rfl, by decide, rfl, by decide, rfl, rfl, by decide +kernel, _,
      .inl ⟨by decide, rfl⟩, ⟨fun _ hd => (nomatch hd), 0, rfl, fun _ hj => (nomatch hj)⟩, rfl, .inl (by decide)⟩,
    ⟨⟨rfl, rfl, rfl, by decide⟩, by decide, by decide, _, .inl ⟨by decide, rfl⟩,
      ⟨by decide, 0, rfl, fun _ hj => (nomatch hj)⟩, displacing_gains (by decide) rfl rfl rfl⟩,
    ⟨⟨rfl, rfl, rfl, by decide⟩, by decide +kernel, displaced (segment 3 1 .complete [7]) _ _,
      .inr ⟨by decide, rfl, displaced_first rfl ⟨rfl, by decide, by decide, fun h => (nomatch h)⟩⟩,
      ⟨by decide +kernel, 0, rfl, fun _ hj => (nomatch hj)⟩, _, _, .inl ⟨by decide +kernel, rfl⟩, by decide +kernel, rfl⟩⟩

end Sys2Proof.Tests
end

/-! SUPPORT. The commands on segments: what SLIST, SFETCH and SDROP answer (R42, R144, R198, R199), by the case of the
segment named. -/

namespace Sys2Proof.Machine

variable {c : CommandFrame} {b0 b1 : Byte} {args : List Byte} {s : State} {d : Descriptor} {n : Nat}

/-! ## The segment number of a command -/

theorem leNat_pair (b0 b1 : Byte) : leNat [b0, b1] = b0.toNat + 256 * b1.toNat := rfl

theorem segmentNumbered_eq_none_iff : segmentNumbered n s = none ↔ ∀ d ∈ s.sgm.table, d.number ≠ n := by
  simp [segmentNumbered, hasNumber]

/-! ## SLIST (R198) -/

/-- SLIST is carried out in OPEN and STALLED. -/
theorem exec_slist_eq (h : Taken c 0x50 [] s) (hs : s.lki.session ≠ .closed) :
    exec .slist s = .next (replied c 0x50 .ok (slistFields s.sgm.table) s) :=
  congrArg Host.Outcome.next (dealWith_owner (lengthOk := argCount 0) (owner := ownSlist) h rfl (.inl hs))

/-- The flags byte holds one flag per bit, and bit 7 clear (R203). -/
theorem SegFlags.toByte_bits (f : SegFlags) :
    (List.range 8).map (fun n => f.toByte.getLsbD n) = segmentFlagBits f := by
  obtain ⟨shortPre, truncated, extended, limited, overrun, errsamp, haltend⟩ := f
  revert shortPre truncated extended limited overrun errsamp haltend
  decide

/-! ## SFETCH (R144) -/

theorem exec_sfetch_eq (h : Taken c 0x51 [b0, b1] s) (hs : s.lki.session ≠ .closed) :
    exec .sfetch s =
      .next (replied c 0x51 (ownSfetch [b0, b1] s).1.result (ownSfetch [b0, b1] s).1.fields (ownSfetch [b0, b1] s).2) :=
  congrArg Host.Outcome.next (dealWith_owner (lengthOk := argCount 2) (owner := ownSfetch) h rfl (.inl hs))

theorem ownSfetch_noent (hd : segmentNumbered (leNat args) s = none) : ownSfetch args s = (refuse .noent, s) := by
  simp [ownSfetch, hd]

theorem ownSfetch_notComplete (hd : segmentNumbered (leNat args) s = some d) (hc : d.state ≠ .complete) :
    ownSfetch args s = (refuse .state, s) := by
  simp [ownSfetch, hd, hc]

theorem ownSfetch_queued (hd : segmentNumbered (leNat args) s = some d) (hc : d.state = .complete)
    (hq : leNat args ∈ s.rpe.fetch) : ownSfetch args s = (okWith [byte1 s.rpe.fetch.length], s) := by
  simp [ownSfetch, hd, hc, hq]

theorem ownSfetch_full (hd : segmentNumbered (leNat args) s = some d) (hc : d.state = .complete)
    (hq : leNat args ∉ s.rpe.fetch) (hf : 8 ≤ s.rpe.fetch.length) : ownSfetch args s = (refuse .busy, s) := by
  simp [ownSfetch, hd, hc, hq, Config.fetchPlaces, hf]

theorem ownSfetch_joins (hd : segmentNumbered (leNat args) s = some d) (hc : d.state = .complete)
    (hq : leNat args ∉ s.rpe.fetch) (hf : s.rpe.fetch.length < 8) :
    ownSfetch args s =
      (okWith [byte1 (s.rpe.fetch.length + 1)], { s with rpe := { s.rpe with fetch := s.rpe.fetch ++ [leNat args] } }) := by
  simp [ownSfetch, hd, hc, hq, Config.fetchPlaces, Nat.not_le.mpr hf, State.setRpe]

/-! ## SDROP (R42) -/

theorem exec_sdrop_eq (h : Taken c 0x52 [b0, b1] s) (hs : s.lki.session ≠ .closed) :
    exec .sdrop s =
      .next (replied c 0x52 (ownSdrop [b0, b1] s).1.result (ownSdrop [b0, b1] s).1.fields (ownSdrop [b0, b1] s).2) :=
  congrArg Host.Outcome.next (dealWith_owner (lengthOk := argCount 2) (owner := ownSdrop) h rfl (.inl hs))

theorem ownSdrop_noent (hd : segmentNumbered (leNat args) s = none) : ownSdrop args s = (refuse .noent, s) := by
  simp [ownSdrop, hd]

theorem ownSdrop_filling (hd : segmentNumbered (leNat args) s = some d) (hf : d.state = .filling) :
    ownSdrop args s = (refuse .state, s) := by
  simp [ownSdrop, hd, hf]

theorem ownSdrop_inDelivery (hd : segmentNumbered (leNat args) s = some d) (hf : d.state = .sending ∨ d.state = .sent) :
    ownSdrop args s = (refuse .indelivery, s) := by
  rcases hf with hf | hf <;> simp [ownSdrop, hd, hf]

theorem ownSdrop_complete (hd : segmentNumbered (leNat args) s = some d) (hc : d.state = .complete) :
    ownSdrop args s = (okWith [], discardFirst (hasNumber (leNat args)) .dropped s) := by
  simp [ownSdrop, hd, hc]

/-! ## The statement -/

/-- Settles O22: each clause takes its command to its owner, and the owner's case is the lemma of that name. A COMPLETE
segment is discarded as the first with its number, which is the descriptor found. -/
theorem segmentCommandsListFetchAndDrop : Obligations.SegmentCommandsListFetchAndDrop := by
  refine ⟨⟨fun c s h hs => exec_slist_eq h hs, SegFlags.toByte_bits⟩, fun c b0 b1 s h hs => ?_, fun c b0 b1 s h hs => ?_⟩
  · rw [exec_sfetch_eq h hs, ← leNat_pair]
    refine ⟨fun hn => ?noent, fun d hd => ⟨fun hc => ?notComplete, fun hc hq => ?queued, fun hc hq hf => ?full,
      fun hc hq hf => ?joins⟩⟩
    case noent => rw [ownSfetch_noent (segmentNumbered_eq_none_iff.mpr hn)]; rfl
    case notComplete => rw [ownSfetch_notComplete hd hc]; rfl
    case queued => rw [ownSfetch_queued hd hc hq]; rfl
    case full => rw [ownSfetch_full hd hc hq hf]; rfl
    case joins => rw [ownSfetch_joins hd hc hq hf]; rfl
  · rw [exec_sdrop_eq h hs, ← leNat_pair]
    refine ⟨fun hn => ?noent, fun d hd => ⟨fun hf => ?filling, fun hf => ?inDelivery, fun hc => ?complete⟩⟩
    case noent => rw [ownSdrop_noent (segmentNumbered_eq_none_iff.mpr hn)]; rfl
    case filling => rw [ownSdrop_filling hd hf]; rfl
    case inDelivery => rw [ownSdrop_inDelivery hd hf]; rfl
    case complete =>
      rw [ownSdrop_complete hd hc]
      exact ⟨_, discardFirst_discarded .dropped hd, rfl⟩

end Sys2Proof.Machine

/-! SUPPORT. RSET: what a command on one rule leaves, when the fields of a rule are legal, which argument bytes are read as
a rule, and what RSET answers (R50, R68, R190, R205). -/

namespace Sys2Proof.Machine

variable {c : CommandFrame} {k : Condition} {f : RuleFields} {args : List Byte} {s : State}

/-! ## An owner's action on one rule -/

theorem withRule_eq {i : Nat} {act : Rule → Answer × Rule} {a : Answer} {r : Rule} (hi : i < 16)
    (ha : act s.tgm.rules[i] = (a, r)) :
    withRule i act s = (a, { s with tgm := { s.tgm with rules := s.tgm.rules.set i r } }) := by
  rw [withRule, dif_pos hi, ha]
  rfl

theorem withRule_noent {i : Nat} (act : Rule → Answer × Rule) (hi : 15 < i) : withRule i act s = (refuse .noent, s) :=
  dif_neg (by omega)

/-- An action that leaves its rule as it is leaves the state as it is. -/
theorem withRule_unchanged {i : Nat} {act : Rule → Answer × Rule} {a : Answer} (hi : i < 16)
    (ha : act s.tgm.rules[i] = (a, s.tgm.rules[i])) : withRule i act s = (a, s) := by
  rw [withRule_eq hi ha, Vector.set_getElem_self]

/-! ## Signed numbers and the options byte (R203, R205) -/

theorem signedOf_signedBytes {v : Int} (hlow : -32768 ≤ v) (hhigh : v ≤ 32767) : signedOf (signedBytes v) = v := by
  rw [signedOf, signedBytes, leNat_leBytes 2 _ (BitVec.isLt _), BitVec.ofNat_toNat, BitVec.setWidth_eq, BitVec.toInt_ofInt]
  exact Int.bmod_eq_of_le (by omega) (by omega)

/-- A number in two bytes, as the list of those bytes. -/
theorem leBytes_two (n : Nat) : leBytes 2 n = [BitVec.ofNat 8 n, BitVec.ofNat 8 (n / 256)] := rfl

/-- The options byte, with the B-present bit set besides or not, holds rearm, action and B present in bits 0 to 2. -/
theorem optionsByte_or_bits (f : RuleFields) (withB : Bool) :
    let opts := f.optionsByte ||| (if withB then 4 else 0)
    opts.toNat < 8 ∧ opts.getLsbD 0 = decide (f.rearm = .manual) ∧ opts.getLsbD 1 = decide (f.action = .note) ∧
      opts.getLsbD 2 = (f.thresholdB.isSome || withB) := by
  unfold RuleFields.optionsByte
  generalize decide (f.rearm = .manual) = manual, decide (f.action = .note) = note, f.thresholdB.isSome = present
  revert manual note present withB
  decide

/-! ## Legal fields (R50) -/

theorem fieldsLegal_channel (hf : fieldsLegal f = true) :
    (f.condition = .external ∧ f.channel = none) ∨ (f.condition ≠ .external ∧ ∃ n ≤ 15, f.channel = some n) := by
  obtain ⟨condition, channel, _⟩ := f
  cases channel <;> cases condition <;> simp_all [fieldsLegal]

theorem fieldsLegal_thresholdB (hf : fieldsLegal f = true) :
    ((f.condition = .inside ∨ f.condition = .outside) ∧ ∃ b, f.thresholdA < b ∧ b ≤ 32767 ∧ f.thresholdB = some b) ∨
      (f.condition ≠ .inside ∧ f.condition ≠ .outside ∧ f.thresholdB = none) := by
  obtain ⟨condition, _, _, thresholdB, _⟩ := f
  cases thresholdB <;> cases condition <;> simp_all [fieldsLegal]

theorem fieldsLegal_ranges (hf : fieldsLegal f = true) :
    -32768 ≤ f.thresholdA ∧ f.thresholdA ≤ 32767 ∧ f.hysteresis ≤ 4095 ∧ 1 ≤ f.qualify ∧ f.qualify ≤ 255 ∧
      (f.condition = .external → f.qualify = 1) ∧ f.priority ≤ 15 := by
  simp only [fieldsLegal, Bool.and_eq_true, Bool.or_eq_true, decide_eq_true_eq] at hf
  obtain ⟨⟨⟨⟨⟨⟨⟨_, hlow⟩, hhigh⟩, hh⟩, hq⟩, hq'⟩, hext⟩, hprio⟩ := hf
  exact ⟨hlow, hhigh, hh, hq, hq', fun he => hext.resolve_left (not_not_intro he), hprio⟩

/-! ## The checks of R68 -/

theorem Condition.ofCode_eq_some_iff {n : Nat} : Condition.ofCode n = some k ↔ n = k.code := by
  constructor
  · unfold Condition.ofCode
    split <;> rintro ⟨⟩ <;> rfl
  · rintro rfl
    cases k <;> rfl

theorem Condition.code_le (k : Condition) : k.code ≤ 6 := by cases k <;> decide

theorem Condition.code_eq_six_iff : k.code = 6 ↔ k = .external := by cases k <;> decide

theorem Condition.code_hasB_iff : k.code = 4 ∨ k.code = 5 ↔ k = .inside ∨ k = .outside := by cases k <;> decide

theorem readChannel_eq_some_iff {n : Nat} {x : Option Nat} :
    readChannel k n = some x ↔ (k = .external ∧ x = none) ∨ (k ≠ .external ∧ n ≤ 15 ∧ x = some n) := by
  unfold readChannel
  split
  · next he => simp [he, eq_comm]
  · next he => simp [he, eq_comm]

theorem readThresholdB_eq_some_iff {a b : Int} {present : Bool} {x : Option Int} :
    readThresholdB k a b present = some x ↔
      ((k = .inside ∨ k = .outside) ∧ present = true ∧ a < b ∧ x = some b) ∨
        (k ≠ .inside ∧ k ≠ .outside ∧ x = none) := by
  cases k <;> simp [readThresholdB, and_assoc, @eq_comm _ x]

theorem ruleScalarsOk_iff {h q priority options : Nat} :
    ruleScalarsOk k h q priority options = true ↔
      h ≤ 4095 ∧ 1 ≤ q ∧ (k = .external → q = 1) ∧ priority ≤ 15 ∧ options < 8 := by
  simp [ruleScalarsOk, and_assoc, imp_iff_not_or]

/-- The 11 bytes are read as a rule exactly when every check of R68 passes, and then as the fields those checks read. -/
theorem readRule_eq_some_iff {cond chan a0 a1 b0 b1 h0 h1 q prio opts : Byte} :
    readRule [cond, chan, a0, a1, b0, b1, h0, h1, q, prio, opts] = some f ↔
      cond.toNat = f.condition.code ∧ readChannel f.condition chan.toNat = some f.channel ∧
        readThresholdB f.condition (signedOf [a0, a1]) (signedOf [b0, b1]) (opts.getLsbD 2) = some f.thresholdB ∧
        ruleScalarsOk f.condition (leNat [h0, h1]) q.toNat prio.toNat opts.toNat = true ∧
        f.thresholdA = signedOf [a0, a1] ∧ f.hysteresis = leNat [h0, h1] ∧ f.qualify = q.toNat ∧
        f.priority = prio.toNat ∧ f.rearm = (if opts.getLsbD 0 then .manual else .auto) ∧
        f.action = (if opts.getLsbD 1 then .note else .capture) := by
  constructor
  · intro hr
    simp only [readRule] at hr
    split at hr
    · cases hr
    · next hcond =>
      split at hr
      · next hchan hb =>
        split at hr
        · next hscalars =>
          cases hr
          exact ⟨Condition.ofCode_eq_some_iff.mp hcond, hchan, hb, hscalars, rfl, rfl, rfl, rfl, rfl, rfl⟩
        · cases hr
      · cases hr
  · rintro ⟨hcond, hchan, hb, hscalars, ha, hh, hq, hprio, hrearm, haction⟩
    obtain ⟨⟩ := f
    simp only at *
    subst ha hh hq hprio hrearm haction
    simp only [readRule, Condition.ofCode_eq_some_iff.mpr hcond, hchan, hb, hscalars, if_true]

/-! ## The fields the host sends are read back, and fields out of range are not (R68, R205) -/

/-- The channel byte of legal fields reads as their channel, whatever stands there for EXTERNAL. -/
theorem readChannel_legal (hf : fieldsLegal f = true) (chan : Byte) :
    readChannel f.condition ((f.channel.map byte1).getD chan).toNat = some f.channel := by
  rw [readChannel_eq_some_iff]
  rcases fieldsLegal_channel hf with he | ⟨hne, n, hn, hchan⟩
  · exact .inl he
  · have hbyte : (byte1 n).toNat = n := byte1_toNat (by omega)
    exact .inr ⟨hne, by simpa [hchan, hbyte] using hn, by simp [hchan, hbyte]⟩

/-- The B field of legal fields reads as their threshold B, whatever stands there for a condition without B. -/
theorem readThresholdB_legal (hf : fieldsLegal f = true) (b0 b1 : Byte) (withB : Bool) :
    readThresholdB f.condition f.thresholdA (signedOf ((f.thresholdB.map signedBytes).getD [b0, b1]))
      (f.thresholdB.isSome || withB) = some f.thresholdB := by
  obtain ⟨hlow, -⟩ := fieldsLegal_ranges hf
  rw [readThresholdB_eq_some_iff]
  rcases fieldsLegal_thresholdB hf with ⟨hk, b, hab, hb, hsome⟩ | hnone
  · have hread : signedOf (signedBytes b) = b := signedOf_signedBytes (by omega) hb
    exact .inl ⟨hk, by simp [hsome], by simpa [hsome, hread] using hab, by simp [hsome, hread]⟩
  · exact .inr hnone

/-- The arguments of an RSET of legal fields are the index and 11 bytes that read as those fields. -/
theorem rsetArguments_read (index : Nat) (hf : fieldsLegal f = true) (chan b0 b1 : Byte) (withB : Bool) :
    ∃ rest, rsetArguments index f chan b0 b1 withB = byte1 index :: rest ∧ rest.length = 11 ∧
      readRule rest = some f := by
  obtain ⟨hlow, hhigh, hh, hq, hq', hext, hprio⟩ := fieldsLegal_ranges hf
  obtain ⟨hopts, hrearm, haction, hpresent⟩ := optionsByte_or_bits f withB
  have hchan := readChannel_legal hf chan
  have hb := readThresholdB_legal hf b0 b1 withB
  have ha := signedOf_signedBytes hlow hhigh
  have hhread : leNat (leBytes 2 f.hysteresis) = f.hysteresis := leNat_leBytes 2 _ (by omega)
  have hqread : (byte1 f.qualify).toNat = f.qualify := byte1_toNat (by omega)
  have hprioread : (byte1 f.priority).toNat = f.priority := byte1_toNat (by omega)
  have hcond : (byte1 f.condition.code).toNat = f.condition.code :=
    byte1_toNat (by have := f.condition.code_le; omega)
  obtain ⟨x0, x1, hx⟩ : ∃ x0 x1, (f.thresholdB.map signedBytes).getD [b0, b1] = [x0, x1] := by
    cases f.thresholdB <;> exact ⟨_, _, rfl⟩
  refine ⟨_, rfl, by simp [hx, signedBytes], ?_⟩
  rw [hx] at hb ⊢
  rw [signedBytes, leBytes_two] at ha ⊢
  rw [leBytes_two] at hhread ⊢
  refine readRule_eq_some_iff.mpr
    ⟨hcond, hchan, ?_, ?_, ha.symm, hhread.symm, hqread.symm, hprioread.symm, ?_, ?_⟩
  · rw [ha, hpresent, hb]
  · rw [ruleScalarsOk_iff, hhread, hqread, hprioread]
    exact ⟨hh, hq, hext, hprio, hopts⟩
  · rw [hrearm]; cases f.rearm <;> rfl
  · rw [haction]; cases f.action <;> rfl

/-- Fields that fail a check of R68 are read as no rule. -/
theorem readRule_refused {cond chan a0 a1 b0 b1 h0 h1 q prio opts : Byte}
    (hbad : 6 < cond.toNat ∨ (cond.toNat ≠ 6 ∧ 15 < chan.toNat) ∨ 4095 < leNat [h0, h1] ∨ q.toNat = 0 ∨
      (cond.toNat = 6 ∧ q.toNat ≠ 1) ∨ 15 < prio.toNat ∨ 8 ≤ opts.toNat ∨
      ((cond.toNat = 4 ∨ cond.toNat = 5) ∧ (opts.getLsbD 2 = false ∨ signedOf [b0, b1] ≤ signedOf [a0, a1]))) :
    readRule [cond, chan, a0, a1, b0, b1, h0, h1, q, prio, opts] = none := by
  refine Option.eq_none_iff_forall_ne_some.mpr fun f hr => ?_
  obtain ⟨hcond, hchan, hb, hscalars, -⟩ := readRule_eq_some_iff.mp hr
  obtain ⟨hh, hq, hext, hprio, hopts⟩ := ruleScalarsOk_iff.mp hscalars
  rw [hcond, Ne, Condition.code_eq_six_iff, Condition.code_hasB_iff] at hbad
  rcases hbad with hbad | ⟨hne, hbad⟩ | hbad | hbad | ⟨he, hbad⟩ | hbad | hbad | ⟨hk, hbad⟩
  · exact absurd f.condition.code_le (by omega)
  · rcases readChannel_eq_some_iff.mp hchan with ⟨he, -⟩ | ⟨-, hle, -⟩
    · exact hne he
    · omega
  · omega
  · omega
  · exact hbad (hext he)
  · omega
  · omega
  · rcases readThresholdB_eq_some_iff.mp hb with ⟨-, hpresent, hlt, -⟩ | ⟨hin, hout, -⟩
    · rcases hbad with hbad | hbad
      · exact absurd hpresent (Bool.eq_false_iff.mp hbad)
      · omega
    · exact hk.elim hin hout

/-! ## RSET -/

/-- An RSET with its 12 argument bytes, in OPEN or STALLED, is carried out on the rule its first byte names. -/
theorem exec_rset_eq {index : Byte} (h : Taken c 0x20 (index :: args) s) (hs : s.lki.session ≠ .closed)
    (hl : args.length = 11) {a : Answer} {t : State}
    (ha : withRule index.toNat (rsetRule (readRule args)) s = (a, t)) :
    exec .rset s = .next (replied c 0x20 a.result a.fields t) := by
  have howner : ownRset (index :: args) s = (a, t) := ha
  have := dealWith_owner (lengthOk := argCount 12) (inClosed := false) (owner := ownRset) h (by simp [argCount, hl]) (.inl hs)
  rw [howner] at this
  exact congrArg Host.Outcome.next this

theorem rsetRule_badarg (r : Rule) : rsetRule none r = (refuse .badarg, r) := rfl

theorem rsetRule_off {r : Rule} (hr : r.state = .off) :
    rsetRule (some f) r =
      (okWith [], { fields := f, state := .off, progress := 0, previous := none, fireCount := 0 }) := if_pos hr

theorem rsetRule_state {r : Rule} (hr : r.state ≠ .off) : rsetRule (some f) r = (refuse .state, r) := if_neg hr

/-- Settles O15: legal fields read back as themselves, so the rule's own state decides between OK and STATE; an index above
15 names no rule, and fields that fail a check are read as none. -/
theorem rsetReplacesARuleInOff : Obligations.RsetReplacesARuleInOff := by
  refine ⟨fun c i f chan b0 b1 withB s h hs hf => ?legal, fun c index args s h hs hl hi => ?noent,
    fun c index cond chan a0 a1 b0 b1 h0 h1 q prio opts s h hs hi hbad => ?badarg⟩
  case legal =>
    obtain ⟨rest, hargs, hl, hread⟩ := rsetArguments_read i.val hf chan b0 b1 withB
    have hi : (byte1 i.val).toNat = i.val := byte1_toNat (by omega)
    rw [hargs] at h
    constructor <;> intro hr
    · refine exec_rset_eq h hs hl (a := okWith []) ?_
      rw [hi, hread]
      exact withRule_eq i.isLt (rsetRule_off hr)
    · refine exec_rset_eq h hs hl (a := refuse .state) ?_
      rw [hi, hread]
      exact withRule_unchanged i.isLt (rsetRule_state hr)
  case noent => exact exec_rset_eq h hs hl (withRule_noent _ hi)
  case badarg =>
    refine exec_rset_eq h hs rfl (a := refuse .badarg) ?_
    rw [readRule_refused hbad]
    exact withRule_unchanged (by omega) (rsetRule_badarg _)

end Sys2Proof.Machine

/-! SUPPORT. The commands on the scan table: which argument bytes are read as entries of the table, and what TCLEAR, TADD and
TREAD answer by case (R75, R82, R83, R84, R205). -/

namespace Sys2Proof.Machine

variable {c : CommandFrame} {code : Byte} {args rest : List Byte} {b0 b1 b2 b3 : Byte} {a : Answer}
  {e : ScanEntry} {es : List ScanEntry} {s t : State}

/-! ## From the owner's answer to the step -/

/-- A command that passes the length check outside CLOSED is replied to with the answer its owner gives. -/
theorem dealWith_answered {lengthOk : List Byte → Bool} {inClosed : Bool} {owner : List Byte → State → Answer × State}
    (h : Taken c code args s) (hl : lengthOk args = true) (hs : s.lki.session ≠ .closed) (ha : owner args s = (a, t)) :
    dealWith code lengthOk inClosed owner s = replied c code a.result a.fields t := by
  rw [dealWith_owner h hl (.inl hs), ha]

/-! ## TCLEAR (R83) -/

theorem exec_tclear_eq (h : Taken c 0x10 [] s) (hs : s.lki.session ≠ .closed) (ha : ownTclear [] s = (a, t)) :
    exec .tclear s = .next (replied c 0x10 a.result a.fields t) :=
  congrArg Host.Outcome.next (dealWith_answered h rfl hs ha)

theorem ownTclear_busy (hb : s.sct.scheduled = true) : ownTclear args s = (refuse .busy, s) := if_pos hb

theorem ownTclear_ok (hb : s.sct.scheduled = false) :
    ownTclear args s = (okWith [], { s with sct := { s.sct with working := [] } }) := if_neg (by simp [hb])

/-- Settles O11: the scheduled flag alone decides between BUSY and OK, and to empty an empty working copy changes nothing. -/
theorem tclearEmptiesTheWorkingCopy : Obligations.TclearEmptiesTheWorkingCopy := by
  intro c s h hs
  refine ⟨fun hb => exec_tclear_eq h hs (ownTclear_busy hb), fun hb => exec_tclear_eq h hs (ownTclear_ok hb),
    fun hb hw => exec_tclear_eq h hs (a := okWith []) ?_⟩
  rw [ownTclear_ok hb, ← hw]

/-! ## An entry in its 4 bytes (R75, R205) -/

theorem entryInRange_iff {channel gainMarker divider last : Nat} :
    entryInRange channel gainMarker divider last = true ↔
      channel ≤ 15 ∧ gainMarker % 16 ≤ 3 ∧ gainMarker / 16 ≤ 3 ∧ 1 ≤ divider ∧ divider ≤ 16 ∧ last % 32 < divider ∧
        last < 128 := by
  simp [entryInRange, and_assoc]

theorem entryLegal_ranges (he : entryLegal e = true) :
    e.channel ≤ 15 ∧ e.gain ≤ 3 ∧ 1 ≤ e.divider ∧ e.divider ≤ 16 ∧ e.phase < e.divider := by
  simp only [entryLegal, Bool.and_eq_true, decide_eq_true_eq] at he
  obtain ⟨⟨⟨⟨⟨hchannel, hgain⟩, hlow⟩, hhigh⟩, hphase⟩, -⟩ := he
  exact ⟨hchannel, hgain, hlow, hhigh, hphase⟩

/-- A legal marker fits the marker bits, where 0 stands for none. -/
theorem entryLegal_marker (he : entryLegal e = true) :
    e.marker.getD 0 ≤ 3 ∧ (if e.marker.getD 0 = 0 then none else some (e.marker.getD 0)) = e.marker := by
  rw [entryLegal, Bool.and_eq_true] at he
  cases hm : e.marker with
  | none => simp
  | some m =>
    have hrange : 1 ≤ m ∧ m ≤ 3 := by simpa [hm] using he.2
    exact ⟨hrange.2, if_neg (Nat.ne_of_gt hrange.1)⟩

/-- The last byte of an entry holds the phase in bits 0 to 4, DISCARD in bit 5, HOLD in bit 6, and bit 7 clear. -/
theorem entryLastByte_bits {phase : Nat} (hp : phase < 32) (discard hold : Bool) :
    let last := byte1 (phase % 32 + flagBit discard 5 + flagBit hold 6)
    last.toNat % 32 = phase ∧ last.toNat < 128 ∧ last.getLsbD 5 = discard ∧ last.getLsbD 6 = hold := by
  revert phase discard hold
  decide

/-- The 4 bytes of a legal entry read as that entry. -/
theorem readEntry_entryBytes (he : entryLegal e = true) :
    readEntry (byte1 e.channel) (byte1 (e.gain % 16 + 16 * (e.marker.getD 0 % 16))) (byte1 e.divider)
      (byte1 (e.phase % 32 + flagBit e.discard 5 + flagBit e.hold 6)) = some e := by
  obtain ⟨hchannel, hgain, hlow, hhigh, hphase⟩ := entryLegal_ranges he
  obtain ⟨hmarker, hmarkerRead⟩ := entryLegal_marker he
  obtain ⟨hphaseRead, hlast, hdiscard, hhold⟩ :=
    entryLastByte_bits (phase := e.phase) (by omega) e.discard e.hold
  have hch : (byte1 e.channel).toNat = e.channel := byte1_toNat (by omega)
  have hdiv : (byte1 e.divider).toNat = e.divider := byte1_toNat (by omega)
  have hgm : (byte1 (e.gain % 16 + 16 * (e.marker.getD 0 % 16))).toNat = e.gain + 16 * e.marker.getD 0 := by
    rw [byte1_toNat (by omega)]; omega
  have hgainRead : (e.gain + 16 * e.marker.getD 0) % 16 = e.gain := by omega
  have hmarkerBits : (e.gain + 16 * e.marker.getD 0) / 16 = e.marker.getD 0 := by omega
  rw [readEntry, hch, hgm, hdiv, hgainRead, hmarkerBits, hphaseRead, hdiscard, hhold, hmarkerRead,
    if_pos (entryInRange_iff.mpr ⟨hchannel, by omega, by omega, hlow, hhigh, by omega, hlast⟩)]

/-- Four bytes with a field out of range are read as no entry. -/
theorem readEntry_refused
    (hbad : 15 < b0.toNat ∨ 3 < b1.toNat % 16 ∨ 3 < b1.toNat / 16 ∨ b2.toNat = 0 ∨ 16 < b2.toNat ∨
      b2.toNat ≤ b3.toNat % 32 ∨ 128 ≤ b3.toNat) :
    readEntry b0 b1 b2 b3 = none :=
  if_neg (by rw [entryInRange_iff]; omega)

/-! ## The entries of a TADD (R82) -/

theorem length_flatMap_entryBytes (es : List ScanEntry) : (es.flatMap entryBytes).length = 4 * es.length := by
  simp [List.length_flatMap, entryBytes, Nat.mul_comm]

/-- Legal entries, sent one after the other, are read back in their order. -/
theorem readEntries_flatMap_entryBytes (hes : ∀ e ∈ es, entryLegal e = true) :
    readEntries (es.flatMap entryBytes) = some es := by
  induction es with
  | nil => rfl
  | cons e es ih =>
    obtain ⟨he, hrest⟩ := List.forall_mem_cons.mp hes
    simp only [List.flatMap_cons, entryBytes, List.cons_append, List.nil_append, readEntries, readEntry_entryBytes he,
      ih hrest]

/-- No list is read where the first entry or the rest is refused. -/
theorem readEntries_refused (hr : readEntry b0 b1 b2 b3 = none ∨ readEntries rest = none) :
    readEntries (b0 :: b1 :: b2 :: b3 :: rest) = none := by
  rw [readEntries]
  split
  · next he hes => exact absurd hr (by simp [he, hes])
  · rfl

/-- What is refused stays refused behind any whole number of entries. -/
theorem readEntries_append_refused (hr : readEntries rest = none) :
    ∀ {before : List Byte}, before.length % 4 = 0 → readEntries (before ++ rest) = none
  | [], _ => hr
  | _ :: _ :: _ :: _ :: _, hb =>
    readEntries_refused (.inr (readEntries_append_refused hr (by simp only [List.length_cons] at hb; omega)))
  | [_], hb | [_, _], hb | [_, _, _], hb => absurd hb (by simp)

theorem taddEntries_legal (hlow : 1 ≤ es.length) (hhigh : es.length ≤ 8) (hes : ∀ e ∈ es, entryLegal e = true) :
    taddEntries (byte1 es.length :: es.flatMap entryBytes) = some es := by
  have hcount : (byte1 es.length).toNat = es.length := byte1_toNat (by omega)
  rw [taddEntries, hcount, if_pos ⟨hlow, hhigh⟩, readEntries_flatMap_entryBytes hes]

theorem taddEntries_badCount {count : Byte} (hc : count.toNat = 0 ∨ 8 < count.toNat) :
    taddEntries (count :: args) = none := if_neg (by omega)

theorem taddEntries_refused {count : Byte} (hr : readEntries args = none) : taddEntries (count :: args) = none := by
  rw [taddEntries, hr, ite_self]

/-! ## TADD (R82) -/

theorem exec_tadd_eq {count : Byte} (h : Taken c 0x11 (count :: args) s) (hs : s.lki.session ≠ .closed)
    (hl : args.length = 4 * count.toNat) (ha : ownTadd (count :: args) s = (a, t)) :
    exec .tadd s = .next (replied c 0x11 a.result a.fields t) :=
  congrArg Host.Outcome.next (dealWith_answered (lengthOk := taddLength) h (decide_eq_true hl) hs ha)

theorem ownTadd_busy (hb : s.sct.scheduled = true) : ownTadd args s = (refuse .busy, s) := if_pos hb

theorem ownTadd_badarg (hb : s.sct.scheduled = false) (he : taddEntries args = none) :
    ownTadd args s = (refuse .badarg, s) := by
  simp [ownTadd, hb, he]

theorem ownTadd_nospace (hb : s.sct.scheduled = false) (he : taddEntries args = some es)
    (hn : 64 < s.sct.working.length + es.length) : ownTadd args s = (refuse .nospace, s) := by
  simp [ownTadd, hb, he, Config.scanEntries, hn]

theorem ownTadd_joins (hb : s.sct.scheduled = false) (he : taddEntries args = some es)
    (hn : s.sct.working.length + es.length ≤ 64) :
    ownTadd args s =
      (okWith [byte1 (s.sct.working.length + es.length)],
        { s with sct := { s.sct with working := s.sct.working ++ es } }) := by
  simp [ownTadd, hb, he, Config.scanEntries, Nat.not_lt.mpr hn, State.setSct]

/-- Settles O12: legal entries read back as themselves, so the room alone decides between OK and NOSPACE; a count or a field
out of range leaves no list of entries, wherever in the command it stands. -/
theorem taddAppendsEntries : Obligations.TaddAppendsEntries := by
  refine ⟨fun c es s h hs hb hlow hhigh hes => ?legal, fun c count args s h hs hl => ?refused,
    fun c count b0 b1 b2 b3 before after s h hs hb hwhole hl hbad => ?badField⟩
  case legal =>
    have hl : (es.flatMap entryBytes).length = 4 * (byte1 es.length).toNat := by
      rw [length_flatMap_entryBytes, byte1_toNat (by omega)]
    have hread := taddEntries_legal hlow hhigh hes
    exact ⟨fun hn => exec_tadd_eq h hs hl (ownTadd_joins hb hread hn),
      fun hn => exec_tadd_eq h hs hl (ownTadd_nospace hb hread hn)⟩
  case refused =>
    exact ⟨fun hb => exec_tadd_eq h hs hl (ownTadd_busy hb),
      fun hb hc => exec_tadd_eq h hs hl (ownTadd_badarg hb (taddEntries_badCount hc))⟩
  case badField =>
    have hfour : readEntries ([b0, b1, b2, b3] ++ after) = none := readEntries_refused (.inl (readEntry_refused hbad))
    have hnone : readEntries (before ++ [b0, b1, b2, b3] ++ after) = none := by
      rw [List.append_assoc]
      exact readEntries_append_refused hfour hwhole
    exact exec_tadd_eq h hs (by simp only [List.length_append, List.length_cons, List.length_nil]; omega)
      (ownTadd_badarg hb (taddEntries_refused hnone))

/-! ## TREAD (R84) -/

theorem exec_tread_eq {copy first count : Byte} (h : Taken c 0x12 [copy, first, count] s)
    (hs : s.lki.session ≠ .closed) (ha : ownTread [copy, first, count] s = (a, t)) :
    exec .tread s = .next (replied c 0x12 a.result a.fields t) :=
  congrArg Host.Outcome.next (dealWith_answered (lengthOk := argCount 3) h rfl hs ha)

theorem readTread_refused {copy first count : Byte}
    (hbad : 1 < copy.toNat ∨ 63 < first.toNat ∨ count.toNat = 0 ∨ 16 < count.toNat) :
    readTread copy first count = none := if_neg (by omega)

/-- Arguments in range are read back as the copy, the first index and the count sent. -/
theorem readTread_legal {first count : Nat} (active : Bool) (hf : first ≤ 63) (hlow : 1 ≤ count) (hhigh : count ≤ 16) :
    readTread (if active then 1 else 0) (byte1 first) (byte1 count) = some ⟨active, first, count⟩ := by
  have hfirst : (byte1 first).toNat = first := byte1_toNat (by omega)
  have hcount : (byte1 count).toNat = count := byte1_toNat (by omega)
  cases active <;> simp [readTread, hfirst, hcount, hf, hlow, hhigh]

theorem ownTread_badarg {copy first count : Byte} (hr : readTread copy first count = none) :
    ownTread [copy, first, count] s = (refuse .badarg, s) := by
  simp [ownTread, hr]

theorem ownTread_ok {copy first count : Byte} {r : TreadArgs} (hr : readTread copy first count = some r) :
    ownTread [copy, first, count] s = (okWith (treadFields r s.sct), s) := by
  simp [ownTread, hr]

/-- The scheduled flag's byte. -/
theorem byte1_flagBit_zero (b : Bool) : byte1 (flagBit b 0) = if b then 1 else 0 := by cases b <;> rfl

/-- Settles O13: arguments in range read back as themselves, and the fields of the reply are the TREAD form of them. -/
theorem treadReturnsEntries : Obligations.TreadReturnsEntries := by
  refine ⟨fun c first count active s h hs hf hlow hhigh => ⟨_, rfl, by rw [List.length_take, List.length_drop], ?_⟩,
    fun c copy first count s h hs hbad => exec_tread_eq h hs (ownTread_badarg (readTread_refused hbad))⟩
  rw [exec_tread_eq h hs (ownTread_ok (readTread_legal active hf hlow hhigh)), ← byte1_flagBit_zero]
  rfl

end Sys2Proof.Machine

/-! SUPPORT. START: what the steps of an accepted START leave, and which answer each acquisition state, active copy and free
count gets (R95, R195). -/

namespace Sys2Proof.Machine

variable {c : CommandFrame} {args : List Byte} {a : Answer} {s t : State}

/-! ## The rules armed and the report queued (R73, R102) -/

theorem armRules_eq (s : State) : armRules s = withRulesArmed s := rfl

theorem reportAcq_eq (s : State) :
    reportAcq s = { s with rpe := withEvent (.acqState s.aqs.state s.aqs.reason s.aqs.run s.aqs.tick) s.rpe } := by
  rw [reportAcq, queueEvent, rpeQueueEvent_eq]
  rfl

/-! ## START (R95) -/

theorem startRun_eq (s : State) :
    startRun s =
      { withRulesArmed s with
        aqs := { s.aqs with
          run := (s.aqs.run + 1) % 65536, tick := 0, pass := 0, position := 0, passState := .waiting,
          holdPending := false, state := .running, reason := .start, nextTick := some s.aqs.interval },
        sst := { s.sst with targetSize := (s.sgm.settings.preRequested + 31) / 32 + 1 },
        sgm := { s.sgm with holdoff := 0 },
        cvp := { s.cvp with consecutive := 0 },
        rpe := withEvent (.acqState .running .start ((s.aqs.run + 1) % 65536) 0) s.rpe } := by
  rw [startRun, reportAcq_eq, armRules_eq]
  rfl

theorem exec_start_eq (h : Taken c 0x40 [] s) (hs : s.lki.session ≠ .closed) (ha : ownStart [] s = (a, t)) :
    exec .start s = .next (replied c 0x40 a.result a.fields t) :=
  congrArg Host.Outcome.next (dealWith_answered h rfl hs ha)

/-- In IDLE and HALTED the active copy and the free count decide, in this order. -/
theorem ownStart_stopped (hst : s.aqs.state = .idle ∨ s.aqs.state = .halted) :
    ownStart args s =
      if s.sct.active = [] then (refuse .state, s)
      else if s.sst.pool.length < 2 then (refuse .nospace, s)
      else (okWith (leBytes 2 ((s.aqs.run + 1) % 65536)), startRun s) := by
  rcases hst with hst | hst <;> rw [ownStart, hst] <;> rfl

theorem ownStart_begins (hst : s.aqs.state = .idle ∨ s.aqs.state = .halted) (hact : s.sct.active ≠ [])
    (hfree : 2 ≤ s.sst.pool.length) :
    ownStart args s = (okWith (leBytes 2 ((s.aqs.run + 1) % 65536)), startRun s) := by
  rw [ownStart_stopped hst, if_neg hact, if_neg (Nat.not_lt.mpr hfree)]

/-- An acquisition that runs or drains refuses START, and so does an empty active copy in every state. -/
theorem ownStart_state (h : s.aqs.state = .running ∨ s.aqs.state = .draining ∨ s.sct.active = []) :
    ownStart args s = (refuse .state, s) := by
  cases hst : s.aqs.state with
  | running | draining => rw [ownStart, hst]
  | idle | halted =>
    have hact : s.sct.active = [] := by simpa [hst] using h
    rw [ownStart_stopped (by simp [hst]), if_pos hact]

theorem ownStart_nospace (hst : s.aqs.state = .idle ∨ s.aqs.state = .halted) (hact : s.sct.active ≠ [])
    (hfree : s.sst.pool.length < 2) : ownStart args s = (refuse .nospace, s) := by
  rw [ownStart_stopped hst, if_neg hact, if_pos hfree]

/-- Settles O19: the acquisition state, the active copy and the free count decide, in this order, what START is answered, and
the steps of an accepted START come together in the one state of `startRun_eq`. -/
theorem startBeginsARun : Obligations.StartBeginsARun := by
  intro c s h hs
  refine ⟨fun hst hact hfree => ?begins, fun hrefused => ?state, fun hst hact hfree => ?nospace⟩
  case begins =>
    rw [exec_start_eq h hs (ownStart_begins hst hact hfree), startRun_eq]
    rfl
  case state => exact exec_start_eq h hs (ownStart_state hrefused)
  case nospace => exact exec_start_eq h hs (ownStart_nospace hst hact hfree)

end Sys2Proof.Machine

/-! SUPPORT. The receiver and the gap timer over every step: which steps leave both as they are, and what the others make of
them (R151, R152, R155, R156, R172). -/

namespace Sys2Proof.Machine

variable {s t u : State} {b : Byte} {l : Lki}

/-! ## In HUNT the gap timer is stopped (R151) -/

/-- In HUNT the gap timer is stopped. -/
def TimerStoppedInHunt (l : Lki) : Prop := l.rx = .hunt → l.gapTimer = none

theorem TimerStoppedInHunt.assembling {phase : RxPhase} (h : l.rx = .assembling phase) : TimerStoppedInHunt l :=
  fun hh => absurd (h.symm.trans hh) nofun

theorem TimerStoppedInHunt.stopped (h : l.gapTimer = none) : TimerStoppedInHunt l := fun _ => h

theorem onward_timer (phase : RxPhase) (b : Byte) (l : Lki) : TimerStoppedInHunt (onward phase b l) := .assembling rfl

theorem giveUp_timer (reason : NoticeReason) (tag : Byte) (l : Lki) : TimerStoppedInHunt (giveUp reason tag l) :=
  .stopped rfl

theorem checkFrame_timer (low : Byte) (l : Lki) : TimerStoppedInHunt (checkFrame low l) := by
  simp only [checkFrame]
  split
  · exact .stopped rfl
  · exact giveUp_timer _ _ l

/-- A byte in ASSEMBLING carries the frame on with the timer restarted, or ends the frame with the timer stopped. -/
theorem assembleByte_timer (phase : RxPhase) (b : Byte) (l : Lki) : TimerStoppedInHunt (assembleByte phase b l) := by
  cases phase with
  | kind | length =>
    simp only [assembleByte]
    split
    · exact onward_timer _ b l
    · exact giveUp_timer _ _ l
  | tag | payload | crc1 => exact onward_timer _ b l
  | crc2 => exact checkFrame_timer b l

theorem receiveByte_hunt_sync (h : l.rx = .hunt) :
    receiveByte syncByte l = { l with rx := .assembling .kind, buffer := [syncByte], gapTimer := some Config.gapLimit } := by
  simp [receiveByte, h]

theorem receiveByte_hunt_other (h : l.rx = .hunt) (hb : b ≠ syncByte) : receiveByte b l = l := by
  simp [receiveByte, h, hb]

theorem receiveByte_timer (b : Byte) (hl : TimerStoppedInHunt l) : TimerStoppedInHunt (receiveByte b l) := by
  cases h : l.rx with
  | hunt =>
    by_cases hb : b = syncByte
    · rw [hb, receiveByte_hunt_sync h]
      exact .assembling rfl
    · rwa [receiveByte_hunt_other h hb]
  | assembling phase =>
    rw [receiveByte, h]
    exact assembleByte_timer phase b l

/-! ## The steps that leave the receiver as it is -/

/-- The receive state and the gap timer are the same in `s` and in `t`. -/
structure ReceiverKept (s t : State) : Prop where
  rx : t.lki.rx = s.lki.rx
  gapTimer : t.lki.gapTimer = s.lki.gapTimer

theorem ReceiverKept.refl (s : State) : ReceiverKept s s := ⟨rfl, rfl⟩

theorem ReceiverKept.after (k : ReceiverKept t u) (h : ReceiverKept s t) : ReceiverKept s u :=
  ⟨k.rx.trans h.rx, k.gapTimer.trans h.gapTimer⟩

theorem ReceiverKept.of_lki (h : t.lki = s.lki) : ReceiverKept s t := by
  constructor <;> rw [h]

theorem InnerFrame.receiverKept (h : InnerFrame s t) : ReceiverKept s t := .of_lki h.lki

theorem ReceiverKept.timer (h : ReceiverKept s t) (hs : TimerStoppedInHunt s.lki) : TimerStoppedInHunt t.lki :=
  fun hunt => h.gapTimer.trans (hs (h.rx.symm.trans hunt))

section operations

variable (s)

/-! ### The command queue and the owners of the link (R163, R164, R169, R174) -/

theorem refuseFrame_receiver (c : CommandFrame) : ReceiverKept s (refuseFrame c s) := by
  unfold refuseFrame
  split <;> exact ⟨rfl, rfl⟩

theorem offerFrame_receiver (c : CommandFrame) : ReceiverKept s (offerFrame c s) := by
  unfold offerFrame
  split
  · exact .of_lki rfl
  · exact refuseFrame_receiver s c

theorem commandFrameStep_receiver : ReceiverKept s (commandFrameStep s) := by
  unfold commandFrameStep
  split
  · exact (offerFrame_receiver _ _).after ⟨rfl, rfl⟩
  · exact .refl s
  · exact .refl s

theorem commandTakeStep_lki : (commandTakeStep s).lki = s.lki := by
  unfold commandTakeStep
  split
  · rfl
  · split <;> rfl

theorem flushReports_receiver (credit : Nat) : ReceiverKept s (flushReports credit s) :=
  .of_lki (by rw [flushReports_eq])

theorem helloFlush_receiver (a : HelloArgs) : ReceiverKept s (helloFlush a s) :=
  (flushReports_receiver _ _).after ⟨rfl, rfl⟩

theorem ownHello_receiver (args : List Byte) : ReceiverKept s (ownHello args s).2 := by
  unfold ownHello
  split
  · split
    · exact .refl s
    · next a _ =>
      cases hk : a.keep with
      | true => exact ⟨rfl, rfl⟩
      | false => exact helloFlush_receiver s a
  · exact .refl s

theorem ownBye_receiver (args : List Byte) : ReceiverKept s (ownBye args s).2 :=
  (flushReports_receiver _ _).after ⟨rfl, rfl⟩

theorem ownSfetch_lki (args : List Byte) : (ownSfetch args s).2.lki = s.lki := by
  unfold ownSfetch
  split
  · rfl
  · split
    · rfl
    · split
      · rfl
      · split <;> rfl

/-- No command of the host reaches the receiver: its owner and its reply leave the receive state and the gap timer alone. -/
theorem commands_receiver : OwnersMeet ReceiverKept where
  refl := .refl
  rep _ _ _ _ _ _ h _ := ⟨h.rx, h.gapTimer⟩
  ans _ _ := ⟨rfl, rfl⟩
  hello args s := ownHello_receiver s args
  bye args s _ := ownBye_receiver s args
  replay _ _ _ := ⟨rfl, rfl⟩
  reset _ _ := .of_lki rfl
  tclear args s := (ownTclear_inner args s).receiverKept
  tadd args s := (ownTadd_inner args s).receiverKept
  tcommit args s := (ownTcommit_inner args s).receiverKept
  rset args s := (ownRset_inner args s).receiverKept
  ron args s := (ownRon_inner args s).receiverKept
  roff args s := (ownRoff_inner args s).receiverKept
  rarm args s := (ownRarm_inner args s).receiverKept
  rread args s := (ownRread_inner args s).receiverKept
  cset args s := (ownCset_inner args s).receiverKept
  pset args s := (ownPset_inner args s).receiverKept
  start args s := (ownStart_inner args s).receiverKept
  stop args s := (ownStop_inner args s).receiverKept
  abort args s := (ownAbort_inner args s).receiverKept
  force args s := (ownForce_inner args s).receiverKept
  sfetch args s := .of_lki (ownSfetch_lki s args)
  sdrop args s := (ownSdrop_inner args s).receiverKept

/-! ### Acknowledgements and deliveries (R135 to R139) -/

theorem releaseSegment_inner (n : Nat) : InnerFrame s (releaseSegment n s) := by
  unfold releaseSegment
  split
  · exact .refl s
  · exact (setSgm_inner s _).trans (returnPages_inner _ _)

theorem releaseAll_inner (ns : List Nat) : InnerFrame s (releaseAll ns s) := by
  induction ns generalizing s with
  | nil => exact .refl s
  | cons n ns ih => exact (releaseSegment_inner s n).trans (ih _)

theorem removeAcked_lki (count : Nat) : (removeAcked count s).lki = s.lki := (releaseAll_inner _ _).lki

theorem ackAdvanced_receiver (left : Bool) (l : Lki) :
    (ackAdvanced left l).rx = l.rx ∧ (ackAdvanced left l).gapTimer = l.gapTimer := by
  unfold ackAdvanced
  split <;> exact ⟨rfl, rfl⟩

theorem takeAck_receiver (seq grant : Nat) : ReceiverKept s (takeAck seq grant s) := by
  unfold takeAck
  dsimp only
  split
  · exact .of_lki rfl
  · exact ⟨rfl, rfl⟩
  · next count _ =>
    obtain ⟨hrx, hgap⟩ := ackAdvanced_receiver (!(removeAcked count (addGrant grant s)).rpe.outstanding.isEmpty)
      (removeAcked count (addGrant grant s)).lki
    exact .after ⟨hrx, hgap⟩ (.of_lki (removeAcked_lki (addGrant grant s) count))

theorem ackStep_receiver : ReceiverKept s (ackStep s) := by
  unfold ackStep
  split
  · exact (takeAck_receiver _ _ _).after ⟨rfl, rfl⟩
  · exact .refl s
  · exact .refl s

theorem queueSegmentReport_lki (n : Nat) (pos : DeliveryPos) (d : Descriptor) :
    (queueSegmentReport n pos d s).lki = s.lki := by
  unfold queueSegmentReport
  split <;> rfl

theorem runEngine_lki (fuel : Nat) : (runEngine fuel s).lki = s.lki := by
  induction fuel generalizing s with
  | zero => rfl
  | succ fuel ih =>
    unfold runEngine
    split
    · split
      · split
        · rw [ih, queueSegmentReport_lki]
        · rfl
      · rfl
    · split
      · rw [ih]; rfl
      · rfl

theorem deliveryStartStep_lki : (deliveryStartStep s).lki = s.lki := by
  unfold deliveryStartStep
  split
  · exact runEngine_lki s _
  · rfl

theorem deliveryQueueStep_lki : (deliveryQueueStep s).lki = s.lki := by
  unfold deliveryQueueStep
  split
  · rfl
  · exact runEngine_lki s _

/-! ### The transmitter and the ack timer (R132 to R134, R160, R167) -/

theorem startAckTimer_receiver (wasEmpty : Bool) : ReceiverKept s (startAckTimer wasEmpty s) := by
  unfold startAckTimer
  split
  · exact ⟨rfl, rfl⟩
  · exact .refl s

theorem ackTimerExpiryStep_receiver : ReceiverKept s (ackTimerExpiryStep s) := by
  unfold ackTimerExpiryStep
  split
  · exact .refl s
  · split <;> exact ⟨rfl, rfl⟩

end operations

/-- What holds of the state a step computes holds of the state it answers with. -/
theorem ReceiverKept.next (e : (.next u : Host.Outcome State Fault Refusal) = .next t) (h : ReceiverKept s u) :
    ReceiverKept s t := by
  cases e
  exact h

theorem sendReport_receiver (e : sendReport s = .next t) : ReceiverKept s t := by
  unfold sendReport at e
  split at e
  · exact .next e (.refl s)
  · split at e
    · cases e
    · exact .next e ⟨rfl, rfl⟩
  · split at e
    · cases e
    · exact .next e ((startAckTimer_receiver _ _).after ⟨rfl, rfl⟩)

theorem chooseFrame_receiver (e : chooseFrame s = .next t) : ReceiverKept s t := by
  unfold chooseFrame at e
  split at e
  · exact .next e ⟨rfl, rfl⟩
  · split at e
    · exact .next e ⟨rfl, rfl⟩
    · exact sendReport_receiver e

theorem execTransmitFrameStart_receiver (e : execTransmitFrameStart s = .next t) : ReceiverKept s t := by
  unfold execTransmitFrameStart at e
  split at e
  · exact chooseFrame_receiver e
  · exact .next e (.refl s)

theorem execFrameEnd_receiver (e : execFrameEnd s = .next t) : ReceiverKept s t := by
  unfold execFrameEnd at e
  split at e
  · exact .next e (.refl s)
  · split at e
    · exact .next e ⟨rfl, rfl⟩
    · exact (chooseFrame_receiver e).after ⟨rfl, rfl⟩

/-! ## The steps that move the receiver -/

theorem TimerStoppedInHunt.next (e : (.next u : Host.Outcome State Fault Refusal) = .next t)
    (h : TimerStoppedInHunt u.lki) : TimerStoppedInHunt t.lki := by
  cases e
  exact h

/-- Every power-on and reset leaves the receiver in HUNT with the timer stopped (R172). -/
theorem resetBlocks_timer (power : Power) (rate : LinkRate) (slots : SlotMem) (s : State) :
    TimerStoppedInHunt (resetBlocks power rate slots s).lki := .stopped rfl

theorem startUpEndStep_timer (hs : TimerStoppedInHunt s.lki) : TimerStoppedInHunt (startUpEndStep s).lki := by
  unfold startUpEndStep
  split
  · exact resetBlocks_timer _ _ _ s
  · exact hs

theorem resetTakesEffectStep_timer (hs : TimerStoppedInHunt s.lki) : TimerStoppedInHunt (resetTakesEffectStep s).lki := by
  unfold resetTakesEffectStep
  split
  · exact resetBlocks_timer _ _ _ s
  · exact hs

theorem gapExpiryStep_timer (hs : TimerStoppedInHunt s.lki) : TimerStoppedInHunt (gapExpiryStep s).lki := by
  unfold gapExpiryStep
  split
  · exact hs
  · exact giveUp_timer _ _ _

theorem execReceivedByte_timer (hs : TimerStoppedInHunt s.lki) (e : execReceivedByte b s = .next t) :
    TimerStoppedInHunt t.lki := by
  unfold execReceivedByte at e
  split at e
  · exact .next e hs
  · exact .next e (receiveByte_timer b hs)

theorem execLineBreak_timer (hs : TimerStoppedInHunt s.lki) (e : execLineBreak s = .next t) :
    TimerStoppedInHunt t.lki := by
  unfold execLineBreak at e
  split at e
  · exact .next e hs
  · split at e
    · exact .next e hs
    · exact .next e (.stopped rfl)

/-- Every step keeps the timer stopped in HUNT: the steps of the receiver and the resets stop it when they enter HUNT, and
every other step leaves the receiver alone. -/
theorem exec_timerStoppedInHunt {i : Instr} (hs : TimerStoppedInHunt s.lki) (e : exec i s = .next t) :
    TimerStoppedInHunt t.lki := by
  cases i with
  | powerOn rate1 rate0 => exact .next e (resetBlocks_timer _ _ _ _)
  | startUpEnd => exact .next e (startUpEndStep_timer hs)
  | resetTakesEffect => exact .next e (resetTakesEffectStep_timer hs)
  | receivedByte b => exact execReceivedByte_timer hs e
  | lineBreak => exact execLineBreak_timer hs e
  | gapTimerExpiry => exact .next e (gapExpiryStep_timer hs)
  | commandFrame => exact (ReceiverKept.next e (commandFrameStep_receiver s)).timer hs
  | commandTake => exact (ReceiverKept.next e (.of_lki (commandTakeStep_lki s))).timer hs
  | hello | bye | replay | ident | status | reset | tclear | tadd | tread | tcommit | rset | ron | roff | rarm | rread
  | cset | cread | pset | start | stop | abort | force | slist | sfetch | sdrop =>
    exact (commands_receiver.command rfl s t e).timer hs
  | unknownCommand => exact (ReceiverKept.next e (commands_receiver.unknown s)).timer hs
  | ack => exact (ReceiverKept.next e (ackStep_receiver s)).timer hs
  | deliveryStart => exact (ReceiverKept.next e (.of_lki (deliveryStartStep_lki s))).timer hs
  | deliveryQueue => exact (ReceiverKept.next e (.of_lki (deliveryQueueStep_lki s))).timer hs
  | transmitFrameStart => exact (execTransmitFrameStart_receiver e).timer hs
  | frameEnd => exact (execFrameEnd_receiver e).timer hs
  | ackTimerExpiry => exact (ReceiverKept.next e (ackTimerExpiryStep_receiver s)).timer hs
  | paceTick | converterAnswer | conversionTimeout | trgoutPulseExpiry =>
    exact (acquisition_inner (by simp) e).receiverKept.timer hs
  | trginRisingEdge | trginFallingEdge => exact (ReceiverKept.next e ⟨rfl, rfl⟩).timer hs

/-! ## The statement -/

theorem exec_receivedByte_eq (hp : s.power = .ready) :
    exec (.receivedByte b) s = .next { s with lki := receiveByte b s.lki } := if_neg (by simp [hp])

/-- Settles O27: the byte clauses are the receiver's two cases in HUNT, the timer clause holds step by step. -/
theorem huntWaitsForTheSyncByte : Obligations.HuntWaitsForTheSyncByte := by
  refine ⟨fun b s hp hunt => ⟨fun hb => ?sync, fun hb => ?other⟩, fun i s t hs e => exec_timerStoppedInHunt hs e⟩
  case sync =>
    subst hb
    rw [exec_receivedByte_eq hp]
    exact congrArg (fun l => Host.Outcome.next { s with lki := l }) (receiveByte_hunt_sync hunt)
  case other => rw [exec_receivedByte_eq hp, receiveByte_hunt_other hunt hb]

end Sys2Proof.Machine

/-! SUPPORT. IDENT: the bytes of the identity, and the link rate code by the straps (R150, R183, R205). -/

namespace Sys2Proof.Machine

variable {c : CommandFrame} {args : List Byte} {s : State}

/-! ## IDENT (R183) -/

/-- The identity in its bytes, the link rate code in the sixth. -/
theorem identFields_eq (rate : LinkRate) :
    identFields rate = [0x71, 0x2C, 0x16, 0x04, 1, byte1 rate.code, 0, 1, 32, 32, 16, 64, 16, 48] := rfl

/-- RATE1 is the higher bit of the link rate code. -/
theorem LinkRate.code_ofStraps (rate1 rate0 : Bool) :
    (LinkRate.ofStraps rate1 rate0).code = 2 * rate1.toNat + rate0.toNat := by
  cases rate1 <;> cases rate0 <;> rfl

/-- IDENT is carried out in every session. -/
theorem exec_ident_eq (h : Taken c 0x03 [] s) :
    exec .ident s = .next (replied c 0x03 .ok (identFields s.lki.rate) s) :=
  congrArg Host.Outcome.next (dealWith_owner (lengthOk := argCount 0) (owner := ownIdent) h rfl (.inr rfl))

theorem exec_ident_badlen (h : Taken c 0x03 args s) (hne : args ≠ []) :
    exec .ident s = .next (replied c 0x03 .badlen [] s) :=
  congrArg Host.Outcome.next (dealWith_badlen h (by simpa [argCount] using hne))

/-- Settles O8: the identity does not depend on the state but for the link rate, and POWER_ON takes the link rate from the
straps. -/
theorem identNamesThePart : Obligations.IdentNamesThePart := by
  refine ⟨fun c s h => ?fields, fun c args s h hne => exec_ident_badlen h hne, fun rate1 rate0 s t e => ?rate⟩
  case fields =>
    rw [exec_ident_eq h, identFields_eq]
    cases s.lki.rate <;> rfl
  case rate =>
    cases e
    exact LinkRate.code_ofStraps rate1 rate0

end Sys2Proof.Machine

/-! SUPPORT. The commands that move or report a rule: what RON, ROFF and RARM make of it by its state, and what each part of
the rule report of RREAD holds (R61, R69 to R72, R191, R192, R205). -/

namespace Sys2Proof.Machine

variable {c : CommandFrame} {index : Byte} {act : Rule → Answer × Rule} {a : Answer} {f : RuleFields}
  {r r' : Rule} {line : Bool} {s t : State}

/-! ## The index of a command on a rule -/

theorem withRule_index_eq (i : Fin 16) (ha : act s.tgm.rules[i] = (a, r)) :
    withRule (byte1 i.val).toNat act s = (a, { s with tgm := { s.tgm with rules := s.tgm.rules.set i.val r } }) := by
  rw [byte1_toNat (by omega)]
  exact withRule_eq i.isLt ha

theorem withRule_index_unchanged (i : Fin 16) (ha : act s.tgm.rules[i] = (a, s.tgm.rules[i])) :
    withRule (byte1 i.val).toNat act s = (a, s) := by
  rw [byte1_toNat (by omega)]
  exact withRule_unchanged i.isLt ha

/-! ## From the action on the rule to the step -/

theorem exec_ron_eq (h : Taken c 0x21 [index] s) (hs : s.lki.session ≠ .closed)
    (ha : withRule index.toNat ronRule s = (a, t)) : exec .ron s = .next (replied c 0x21 a.result a.fields t) :=
  congrArg Host.Outcome.next (dealWith_answered (lengthOk := argCount 1) (owner := ownRon) h rfl hs ha)

theorem exec_roff_eq (h : Taken c 0x22 [index] s) (hs : s.lki.session ≠ .closed)
    (ha : withRule index.toNat roffRule s = (a, t)) : exec .roff s = .next (replied c 0x22 a.result a.fields t) :=
  congrArg Host.Outcome.next (dealWith_answered (lengthOk := argCount 1) (owner := ownRoff) h rfl hs ha)

theorem exec_rarm_eq (h : Taken c 0x23 [index] s) (hs : s.lki.session ≠ .closed)
    (ha : withRule index.toNat (rarmRule s.tgm.lastLine) s = (a, t)) :
    exec .rarm s = .next (replied c 0x23 a.result a.fields t) :=
  congrArg Host.Outcome.next (dealWith_answered (lengthOk := argCount 1) (owner := ownRarm) h rfl hs ha)

theorem exec_rread_eq (h : Taken c 0x24 [index] s) (hs : s.lki.session ≠ .closed)
    (ha : withRule index.toNat rreadRule s = (a, t)) : exec .rread s = .next (replied c 0x24 a.result a.fields t) :=
  congrArg Host.Outcome.next (dealWith_answered (lengthOk := argCount 1) (owner := ownRread) h rfl hs ha)

/-! ## A rule after RON and RARM (R61, R69) -/

theorem ronRule_off (hr : r.state = .off) :
    ronRule r = (okWith [1], { r with state := .armed, progress := 0, previous := none }) := if_pos hr

theorem ronRule_enabled (hr : r.state ≠ .off) : ronRule r = (okWith [byte1 r.state.code], r) := if_neg hr

theorem rearmed_met (hr : r.state = .fired) (hl : levelAtLast line r = true) :
    rearmed line r = { r with state := .qualifying, progress := 1 } := by
  rw [rearmed, if_pos hr, if_pos hl]

theorem rearmed_unmet (hr : r.state = .fired) (hl : levelAtLast line r = false) :
    rearmed line r = { r with state := .armed, progress := 0 } := by
  rw [rearmed, if_pos hr, if_neg (Bool.eq_false_iff.mp hl)]

theorem rearmed_notFired (hr : r.state ≠ .fired) : rearmed line r = r := if_neg hr

/-- RARM answers with the state and progress it leaves. -/
theorem rarmRule_eq (hr : rearmed line r = r') :
    rarmRule line r = (okWith [byte1 r'.state.code, byte1 r'.progress], r') := by
  rw [rarmRule, hr]

/-- Settles O16: a good index names the rule, whose state decides between the rows of the table; an index above 15 names
none. -/
theorem ronRoffRarmMoveARule : Obligations.RonRoffRarmMoveARule := by
  refine ⟨fun c i s hs => ⟨fun h => ⟨fun hr => ?arms, fun hr => ?enabled⟩, fun h => ?turnsOff,
    fun h => ⟨fun hr hl => ?met, fun hr hl => ?unmet, fun hr => ?notFired⟩⟩, fun c index s hs hi => ?noent⟩
  case arms => exact exec_ron_eq h hs (withRule_index_eq i (ronRule_off hr))
  case enabled => exact exec_ron_eq h hs (withRule_index_unchanged i (ronRule_enabled hr))
  case turnsOff => exact exec_roff_eq h hs (withRule_index_eq i rfl)
  case met => exact exec_rarm_eq h hs (withRule_index_eq i (rarmRule_eq (rearmed_met hr hl)))
  case unmet => exact exec_rarm_eq h hs (withRule_index_eq i (rarmRule_eq (rearmed_unmet hr hl)))
  case notFired => exact exec_rarm_eq h hs (withRule_index_unchanged i (rarmRule_eq (rearmed_notFired hr)))
  case noent =>
    exact ⟨fun h => exec_ron_eq h hs (withRule_noent _ hi), fun h => exec_roff_eq h hs (withRule_noent _ hi),
      fun h => exec_rarm_eq h hs (withRule_noent _ hi)⟩

/-! ## The rule report (R72, R192, R205) -/

theorem runtimeLegal_ranges (hr : runtimeLegal r = true) :
    -32768 ≤ r.previous.getD 0 ∧ r.previous.getD 0 ≤ 32767 ∧ r.fireCount ≤ 65535 := by
  rw [runtimeLegal, Bool.and_eq_true, Bool.and_eq_true, decide_eq_true_eq] at hr
  obtain ⟨⟨-, hprev⟩, hcount⟩ := hr
  cases hp : r.previous with
  | none => simpa using hcount
  | some v =>
    obtain ⟨hlow, hhigh⟩ : -32768 ≤ v ∧ v ≤ 32767 := by simpa [hp] using hprev
    exact ⟨hlow, hhigh, hcount⟩

theorem ruleBytes_length (r : Rule) : (ruleBytes r).length = 18 := rfl

/-- The first 11 bytes are the arguments of an RSET of the rule's fields, with FF in the channel byte for EXTERNAL and 0 in the B
field of a condition without B. -/
theorem rsetArguments_eq_ruleBytes (i : Nat) (r : Rule) :
    rsetArguments i r.fields 0xFF 0 0 false = byte1 i :: (ruleBytes r).take 11 := by
  have hchan : (r.fields.channel.map byte1).getD 0xFF = byte1 (r.fields.channel.getD 255) := by
    cases r.fields.channel <;> rfl
  have hb : (r.fields.thresholdB.map signedBytes).getD [0, 0] = signedBytes (r.fields.thresholdB.getD 0) := by
    cases r.fields.thresholdB <;> rfl
  have hopts : r.fields.optionsByte ||| (if false then 4 else 0) = r.fields.optionsByte := BitVec.or_zero
  rw [rsetArguments, hchan, hb, hopts]
  rfl

theorem readRule_ruleBytes (hf : fieldsLegal r.fields = true) : readRule ((ruleBytes r).take 11) = some r.fields := by
  obtain ⟨rest, hargs, -, hread⟩ := rsetArguments_read 0 hf 0xFF 0 0 false
  rw [rsetArguments_eq_ruleBytes] at hargs
  rw [(List.cons.inj hargs).2, hread]

/-- A legal channel is at most 15, so FF stands for the absent one only. -/
theorem ruleBytes_channel (hf : fieldsLegal r.fields = true) :
    (ruleBytes r)[1]? = some 0xFF ↔ r.fields.condition = .external := by
  have hbyte : (ruleBytes r)[1]? = some (byte1 (r.fields.channel.getD 255)) := rfl
  rw [hbyte, Option.some_inj]
  rcases fieldsLegal_channel hf with ⟨he, hnone⟩ | ⟨hne, n, hn, hsome⟩
  · rw [hnone]
    exact iff_of_true rfl he
  · have hread : (byte1 n).toNat = n := byte1_toNat (by omega)
    have h255 : (0xFF : Byte).toNat = 255 := rfl
    rw [hsome]
    exact iff_of_false (fun h : byte1 n = 0xFF => by rw [h, h255] at hread; omega) hne

theorem ruleBytes_thresholdB (hb : r.fields.thresholdB = none) : ((ruleBytes r).drop 4).take 2 = [0, 0] := by
  have hbytes : ((ruleBytes r).drop 4).take 2 = signedBytes (r.fields.thresholdB.getD 0) := rfl
  rw [hbytes, hb]
  rfl

theorem flagBit_decide (p : Prop) [Decidable p] (n : Nat) : flagBit (decide p) n = if p then 2 ^ n else 0 := by
  simp [flagBit]

/-- Threshold B is present for INSIDE and OUTSIDE only. -/
theorem fieldsLegal_isSome (hf : fieldsLegal f = true) :
    f.thresholdB.isSome = decide (f.condition = .inside ∨ f.condition = .outside) := by
  rcases fieldsLegal_thresholdB hf with ⟨hk, b, -, -, hsome⟩ | ⟨hin, hout, hnone⟩
  · simp [hsome, hk]
  · simp [hnone, hin, hout]

theorem ruleBytes_options (hf : fieldsLegal r.fields = true) :
    (ruleBytes r)[10]? =
      some (byte1 ((if r.fields.rearm = .manual then 1 else 0) + (if r.fields.action = .note then 2 else 0) +
        (if r.fields.condition = .inside ∨ r.fields.condition = .outside then 4 else 0))) := by
  have hbyte : (ruleBytes r)[10]? = some r.fields.optionsByte := rfl
  rw [hbyte, RuleFields.optionsByte, fieldsLegal_isSome hf, flagBit_decide, flagBit_decide, flagBit_decide]
  rfl

theorem ruleBytes_runtime (r : Rule) :
    ((ruleBytes r).drop 11).take 3 =
      [byte1 r.state.code, byte1 r.progress, if r.previous = none then 0 else 1] := by
  have hbytes : ((ruleBytes r).drop 11).take 3 =
      [byte1 r.state.code, byte1 r.progress, byte1 (flagBit r.previous.isSome 0)] := rfl
  rw [hbytes]
  cases r.previous <;> rfl

theorem ruleBytes_previous (hr : runtimeLegal r = true) :
    signedOf (((ruleBytes r).drop 14).take 2) = r.previous.getD 0 := by
  obtain ⟨hlow, hhigh, -⟩ := runtimeLegal_ranges hr
  exact signedOf_signedBytes hlow hhigh

theorem ruleBytes_fireCount (hr : runtimeLegal r = true) : leNat ((ruleBytes r).drop 16) = r.fireCount := by
  obtain ⟨-, -, hcount⟩ := runtimeLegal_ranges hr
  exact leNat_leBytes 2 r.fireCount (by omega)

/-- Settles O17: RREAD replies with the report of the rule it names and leaves that rule; the clauses are the parts of the
report. -/
theorem rreadReturnsTheRule : Obligations.RreadReturnsTheRule := by
  refine ⟨fun c i s h hs hf hr => ?report, fun c index s h hs hi => exec_rread_eq h hs (withRule_noent _ hi)⟩
  case report =>
    have hreply := exec_rread_eq h hs (withRule_index_unchanged i rfl)
    refine ⟨_, hreply, ruleBytes_length _, readRule_ruleBytes hf, ruleBytes_channel hf, fun hin hout => ?_,
      ruleBytes_options hf, ruleBytes_runtime _, ruleBytes_previous hr, ruleBytes_fireCount hr⟩
    rcases fieldsLegal_thresholdB hf with ⟨hk, -⟩ | ⟨-, -, hnone⟩
    · exact absurd hk (not_or_intro hin hout)
    · exact ruleBytes_thresholdB hnone

end Sys2Proof.Machine

/-! SUPPORT. The steps of the part taken apart once: a relation between the state before and the state after that every step's
own function meets, every step meets; an invariant that every command meets, every step of the queue keeps. -/

namespace Sys2Proof.Machine

open Host (Outcome)

/-! ## From commands to the queue of steps -/

/-- An invariant that no queue of waiting steps turns on is kept by the steps of the queue when every command keeps it. -/
theorem stepKeeps_of_exec {Q P : State → Prop} (hq : ∀ s x, Q s → Q (s.setPending x))
    (hp : ∀ s x, P s → P (s.setPending x)) (h : ∀ i s t, Q s → P s → exec i s = .next t → P t) : StepKeeps Q P := by
  intro s t hQ hP e
  cases hs : s.pending with
  | nil =>
    simp only [step, hs, Outcome.next.injEq] at e
    exact e ▸ hP
  | cons i rest =>
    simp only [step, hs] at e
    exact h i _ _ (hq s rest hQ) (hp s rest hP) e

theorem anyState_setPending (s : State) (x : List Instr) (h : anyState s) : anyState (s.setPending x) := h

/-! ## Completions of a conversion (R118, R119) -/

/-- The completion `c` of the conversion in flight in `s`, for the entry `e`, leaves the converter port as `p`: a matching
answer with a signed 16-bit value, or a timeout. -/
structure Completed (c : Completion) (e : ScanEntry) (p : Cvp) (s : State) : Prop where
  flight : s.cvp.inFlight = some c.request
  entry : s.sct.active[c.request.entry]? = some e
  port : (p = answeredPort s.cvp ∧ c.err = false ∧ c.fault = false ∧ -32768 ≤ c.value ∧ c.value ≤ 32767) ∨
    (p = timedOutPort s.cvp ∧ c.err = true)

theorem signed16_range (v : Int) : -32768 ≤ signed16 v ∧ signed16 v ≤ 32767 := by
  have hlow := BitVec.le_toInt (BitVec.ofInt 16 v)
  have hhigh := BitVec.toInt_lt (x := BitVec.ofInt 16 v)
  simp only [signed16]
  omega

theorem Completed.port_idle {c : Completion} {e : ScanEntry} {p : Cvp} {s : State} (h : Completed c e p s) :
    p.inFlight = none ∧ p.timer = none := by
  obtain ⟨hp, _⟩ | ⟨hp, _⟩ := h.port <;> subst hp <;> exact ⟨rfl, rfl⟩

/-! ## What every step meets -/

/-- The steps that reset the part, complete a conversion or move the TRGIN line. -/
def Special (i : Instr) : Prop :=
  (∃ a b, i = .powerOn a b) ∨ i = .startUpEnd ∨ i = .resetTakesEffect ∨ (∃ v o g, i = .converterAnswer v o g) ∨
    i = .conversionTimeout ∨ i = .trginRisingEdge ∨ i = .trginFallingEdge

/-- A relation that the functions of the steps meet that are neither host commands nor special. -/
structure RestMeet (R : State → State → Prop) : Prop where
  refl : ∀ s, R s s
  trans : ∀ s t u, R s t → R t u → R s u
  receive : ∀ b s, R s (s.setLki (receiveByte b s.lki))
  lineBreak : ∀ s, R s (s.setLki (toHunt s.lki))
  gap : ∀ tag s, R s (s.setLki (giveUp .gap tag s.lki))
  commandFrame : ∀ s, R s (commandFrameStep s)
  ack : ∀ s, R s (ackStep s)
  take : ∀ s, R s (commandTakeStep s)
  choose : ∀ s t, s.lki.tx = none → chooseFrame s = .next t → R s t
  frameEnd : ∀ s due, R s (s.setLki { s.lki with tx := none, resetDue := due })
  engine : ∀ fuel s, R s (runEngine fuel s)
  ackTimer : ∀ s, R s (ackTimerExpiryStep s)
  tick : ∀ s, R s (paceTickStep s)
  pulse : ∀ s, R s (pulseExpiryStep s)

/-- A relation that the owners' effects and the functions of all other steps meet, but for the special ones. -/
structure MostMeet (R : State → State → Prop) : Prop extends OwnersMeet R, RestMeet R

/-- A relation that all owners' effects and the functions of all other steps meet. -/
structure StepsMeet (R : State → State → Prop) : Prop extends MostMeet R where
  reset_blocks : ∀ power rate slots s,
    slots = s.sst.slots ∨ slots = [] → R s (resetBlocks power rate slots s) ∧
      R s (resetBlocks power rate slots { s with powerOns := s.powerOns + 1 })
  late : ∀ s, R s (lateAnswer s)
  route : ∀ c e p s, Completed c e p s → R s (routeRecord c e (s.setCvp p))
  rising : ∀ s, R s (trginRisingStep s)
  falling : ∀ s, R s (trginFallingStep s)

section meet

variable {R : State → State → Prop} {s t : State}

/-- A step's function answers its one next state. -/
theorem next_meets {u : State} (h : R s u) (e : (.next u : Outcome State Fault Refusal) = .next t) : R s t :=
  Outcome.next.inj e ▸ h

/-- An answer word does nothing, is late, or its record is routed. -/
theorem answer_cases {v : Int} {o : Bool} {g : Nat} (e : Machine.exec (.converterAnswer v o g) s = .next t) :
    (t = s ∨ t = lateAnswer s) ∨ ∃ c e p, Completed c e p s ∧ t = routeRecord c e (s.setCvp p) := by
  simp only [Machine.exec, execConverterAnswer] at e
  split at e
  · exact .inl (.inl (Outcome.next.inj e).symm)
  · split at e
    · exact .inl (.inr (Outcome.next.inj e).symm)
    · next q hq =>
      split at e
      · unfold Machine.route at e
        split at e
        · cases e
        · next entry he =>
          exact .inr ⟨_, _, _, ⟨hq, he, .inl ⟨rfl, rfl, rfl, signed16_range v⟩⟩, (Outcome.next.inj e).symm⟩
      · exact .inl (.inr (Outcome.next.inj e).symm)

/-- A timeout does nothing, or its record is routed. -/
theorem timeout_cases (e : Machine.exec .conversionTimeout s = .next t) :
    t = s ∨ ∃ c e p, Completed c e p s ∧ t = routeRecord c e (s.setCvp p) := by
  simp only [Machine.exec, execConversionTimeout] at e
  split at e
  · next q _ hq _ =>
    unfold Machine.route at e
    split at e
    · cases e
    · next entry he => exact .inr ⟨_, _, _, ⟨hq, he, .inr ⟨rfl, rfl⟩⟩, (Outcome.next.inj e).symm⟩
  · exact .inl (Outcome.next.inj e).symm

theorem RestMeet.frame_end (h : RestMeet R) (e : execFrameEnd s = .next t) : R s t := by
  unfold execFrameEnd at e
  split at e
  · exact next_meets (h.refl s) e
  · split at e
    · exact next_meets (h.frameEnd s true) e
    · exact h.trans _ _ _ (h.frameEnd s s.lki.resetDue) (h.choose _ _ rfl e)

/-- What the functions of these steps and the answers to unknown commands meet, every step of them meets. -/
theorem RestMeet.exec (h : RestMeet R) (hu : ∀ s, R s (unknownCommandStep s)) {i : Instr} (hi : ¬ Special i)
    (hc : commandCode i = none) (e : exec i s = .next t) : R s t := by
  cases i with
  | receivedByte b =>
    simp only [Machine.exec, execReceivedByte] at e
    split at e
    · exact next_meets (h.refl s) e
    · exact next_meets (h.receive b s) e
  | lineBreak =>
    simp only [Machine.exec, execLineBreak] at e
    split at e
    · exact next_meets (h.refl s) e
    · split at e
      · exact next_meets (h.refl s) e
      · exact next_meets (h.lineBreak s) e
  | gapTimerExpiry =>
    refine next_meets ?_ e
    unfold gapExpiryStep
    split
    · exact h.refl s
    · exact h.gap _ s
  | commandFrame => exact next_meets (h.commandFrame s) e
  | ack => exact next_meets (h.ack s) e
  | commandTake => exact next_meets (h.take s) e
  | transmitFrameStart =>
    simp only [Machine.exec, execTransmitFrameStart] at e
    split at e
    · next hc => exact h.choose s t hc.1 e
    · exact next_meets (h.refl s) e
  | frameEnd => exact h.frame_end e
  | deliveryStart =>
    refine next_meets ?_ e
    unfold deliveryStartStep
    split
    · exact h.engine _ s
    · exact h.refl s
  | deliveryQueue =>
    refine next_meets ?_ e
    unfold deliveryQueueStep
    split
    · exact h.refl s
    · exact h.engine _ s
  | ackTimerExpiry => exact next_meets (h.ackTimer s) e
  | paceTick => exact next_meets (h.tick s) e
  | trgoutPulseExpiry => exact next_meets (h.pulse s) e
  | unknownCommand => exact next_meets (hu s) e
  | powerOn | startUpEnd | resetTakesEffect | converterAnswer | conversionTimeout | trginRisingEdge | trginFallingEdge =>
    exact absurd (by simp [Special]) hi
  | _ => simp [commandCode] at hc

/-- What the functions of the other steps and the owners meet, every command but the special ones meets. -/
theorem MostMeet.exec (h : MostMeet R) {i : Instr} (hi : ¬ Special i) (e : exec i s = .next t) : R s t := by
  cases hc : commandCode i with
  | none => exact h.toRestMeet.exec h.toOwnersMeet.unknown hi hc e
  | some code => exact h.toOwnersMeet.command hc s t e

/-- What the functions of all steps meet, every command meets. -/
theorem StepsMeet.exec (h : StepsMeet R) {i : Instr} (e : exec i s = .next t) : R s t := by
  by_cases hi : Special i
  · rcases hi with ⟨a, b, rfl⟩ | rfl | rfl | ⟨v, o, g, rfl⟩ | rfl | rfl | rfl
    · exact next_meets (h.reset_blocks _ _ _ s (.inr rfl)).2 e
    · refine next_meets ?_ e
      unfold startUpEndStep
      split
      · exact (h.reset_blocks _ _ _ s (.inl rfl)).1
      · exact h.refl s
    · refine next_meets ?_ e
      unfold resetTakesEffectStep
      split
      · exact (h.reset_blocks _ _ _ s (.inl rfl)).1
      · exact h.refl s
    · rcases answer_cases e with (rfl | rfl) | ⟨c, x, p, hc, rfl⟩
      · exact h.refl t
      · exact h.late s
      · exact h.route c x p s hc
    · rcases timeout_cases e with rfl | ⟨c, x, p, hc, rfl⟩
      · exact h.refl t
      · exact h.route c x p s hc
    · exact next_meets (h.rising s) e
    · exact next_meets (h.falling s) e
  · exact h.toMostMeet.exec hi e

/-- An invariant that the functions of all steps keep is kept by the steps of the queue. -/
theorem StepsMeet.keeps {P : State → Prop} (h : StepsMeet (fun s t => P s → P t))
    (hp : ∀ s x, P s → P (s.setPending x)) : StepKeeps anyState P :=
  stepKeeps_of_exec anyState_setPending hp (fun _ _ _ _ hP e => h.exec e hP)

end meet

/-! ## What the link's steps leave alone -/

/-- The acquisition side, the fetch queue and the delivery slot are the same in both states. -/
structure AcqSame (s t : State) : Prop where
  sst : t.sst = s.sst
  sgm : t.sgm = s.sgm
  tgm : t.tgm = s.tgm
  sct : t.sct = s.sct
  aqs : t.aqs = s.aqs
  cvp : t.cvp = s.cvp
  fetch : t.rpe.fetch = s.rpe.fetch
  slot : t.rpe.slot = s.rpe.slot

theorem AcqSame.refl (s : State) : AcqSame s s := ⟨rfl, rfl, rfl, rfl, rfl, rfl, rfl, rfl⟩

/-- A change of the link, the command processor and the other fields of the report engine. -/
theorem AcqSame.outer (s : State) (l : Lki) (c : Cmp) (r : Rpe) (hf : r.fetch = s.rpe.fetch) (hs : r.slot = s.rpe.slot) :
    AcqSame s { s with lki := l, cmp := c, rpe := r } := ⟨rfl, rfl, rfl, rfl, rfl, rfl, hf, hs⟩

theorem unknownCommandStep_acq (s : State) : AcqSame s (unknownCommandStep s) := by
  unfold unknownCommandStep
  split
  · exact .refl s
  · split
    · split <;> exact ⟨rfl, rfl, rfl, rfl, rfl, rfl, rfl, rfl⟩
    · split
      · exact .refl s
      · split <;> exact ⟨rfl, rfl, rfl, rfl, rfl, rfl, rfl, rfl⟩

theorem commandFrameStep_acq (s : State) : AcqSame s (commandFrameStep s) := by
  unfold commandFrameStep
  split
  · unfold offerFrame
    split
    · exact AcqSame.outer s _ _ _ rfl rfl
    · unfold refuseFrame
      split <;> exact AcqSame.outer s _ _ _ rfl rfl
  all_goals exact .refl s

theorem commandTakeStep_acq (s : State) : AcqSame s (commandTakeStep s) := by
  unfold commandTakeStep
  split
  · exact .refl s
  · split
    · exact AcqSame.outer s _ _ _ rfl rfl
    · exact .refl s

theorem ackTimerExpiryStep_acq (s : State) : AcqSame s (ackTimerExpiryStep s) := by
  unfold ackTimerExpiryStep
  split
  · exact .refl s
  · split <;> exact AcqSame.outer s _ _ _ rfl rfl

theorem rpeQueueLost_frame (r : Rpe) :
    (rpeQueueLost r).outstanding = r.outstanding ∧ (rpeQueueLost r).nextSeq = r.nextSeq ∧
      (rpeQueueLost r).credit = r.credit ∧ (rpeQueueLost r).resend = r.resend ∧ (rpeQueueLost r).fetch = r.fetch ∧
      (rpeQueueLost r).slot = r.slot := by
  unfold rpeQueueLost
  split <;> simp

/-- A retransmission is offered of the marked report, in OPEN (R132). -/
theorem offerReport_retransmission {session : Session} {r : Rpe} {m : Nat} {p : Report}
    (h : offerReport session r = .retransmission m p) : session = .open ∧ r.resend = some m := by
  unfold offerReport at h
  split at h
  any_goals cases h
  split at h
  · unfold offerFirst at h
    split at h <;> (try split at h) <;> cases h
  · next hm =>
    split at h <;> cases h
    exact ⟨rfl, hm⟩

/-- A first transmission is offered of the head of the queue, in OPEN, with no mark, room in the window and credit (R132). -/
theorem offerReport_first {session : Session} {r : Rpe} {p : Report} (h : offerReport session r = .first p) :
    session = .open ∧ r.resend = none ∧ ∃ rest, r.queue = p :: rest ∧ r.outstanding.length < Config.window ∧
      1 ≤ r.credit := by
  unfold offerReport at h
  split at h
  any_goals cases h
  split at h
  · next hm =>
    unfold offerFirst at h
    split at h
    · cases h
    · next q rest hq =>
      split at h
      · next hc =>
        cases h
        exact ⟨rfl, hm, rest, hq, hc⟩
      · cases h
  · split at h <;> cases h

/-- What the transmitter can choose (R132 to R134, R160): the notice, the oldest reply, nothing, the marked report again, or
the head of the pending queue. -/
theorem chooseFrame_cases {s t : State} (e : chooseFrame s = .next t) :
    (∃ n bytes, s.lki.notice = some n ∧
      t = { s with lki := { s.lki with notice := none, tx := some ⟨.notice n, bytes⟩ } }) ∨
    (∃ r rest bytes, s.lki.notice = none ∧ s.lki.replies = r :: rest ∧
      t = { s with lki := { s.lki with replies := rest, tx := some ⟨.reply r, bytes⟩ } }) ∨
    t = s ∨
    (∃ m r bytes, s.lki.session = .open ∧ s.rpe.resend = some m ∧
      t = { s with rpe := rpeRetransmitted m s.rpe, lki := { s.lki with tx := some ⟨.report m r, bytes⟩ } }) ∨
    ∃ r rest bytes, s.lki.session = .open ∧ s.rpe.resend = none ∧ s.rpe.queue = r :: rest ∧
      s.rpe.outstanding.length < Config.window ∧ 1 ≤ s.rpe.credit ∧
      t = { s with
        rpe := rpeFirstSent r s.rpe,
        lki := { s.lki with
          tx := some ⟨.report s.rpe.nextSeq r, bytes⟩,
          ackTimer := if s.rpe.outstanding.isEmpty then some s.lki.ackTimeout else s.lki.ackTimer } } := by
  unfold chooseFrame at e
  split at e
  · next n hn => exact .inl ⟨n, _, hn, (Outcome.next.inj e).symm⟩
  · next hn =>
    split at e
    · next r rest hr => exact .inr (.inl ⟨r, rest, _, hn, hr, (Outcome.next.inj e).symm⟩)
    · unfold sendReport at e
      split at e
      · exact .inr (.inr (.inl (Outcome.next.inj e).symm))
      · next m r hoffer =>
        obtain ⟨ho, hm⟩ := offerReport_retransmission hoffer
        split at e
        · cases e
        · exact .inr (.inr (.inr (.inl ⟨m, r, _, ho, hm, (Outcome.next.inj e).symm⟩)))
      · next r hoffer =>
        obtain ⟨ho, hm, rest, hq, hw, hc⟩ := offerReport_first hoffer
        split at e
        · cases e
        · next p _ =>
          refine .inr (.inr (.inr (.inr ⟨r, rest, frameBytes kindReport (byte1 s.rpe.nextSeq) p, ho, hm, hq, hw, hc, ?_⟩)))
          rw [← Outcome.next.inj e]
          unfold startAckTimer
          split <;> rfl

theorem rpeFirstSent_frame (p : Report) (r : Rpe) :
    (rpeFirstSent p r).fetch = r.fetch ∧ (rpeFirstSent p r).slot = r.slot := by
  have h := rpeQueueLost_frame
    { r with
      queue := r.queue.tail, outstanding := r.outstanding ++ [(r.nextSeq, p)], nextSeq := wrapInc 256 r.nextSeq,
      credit := r.credit - 1 }
  exact ⟨h.2.2.2.2.1, h.2.2.2.2.2⟩

theorem chooseFrame_acq {s t : State} (e : chooseFrame s = .next t) : AcqSame s t := by
  rcases chooseFrame_cases e with ⟨n, b, -, rfl⟩ | ⟨r, rest, b, -, -, rfl⟩ | rfl | ⟨m, r, b, -, -, rfl⟩ |
    ⟨r, rest, b, -, -, -, -, -, rfl⟩
  · exact ⟨rfl, rfl, rfl, rfl, rfl, rfl, rfl, rfl⟩
  · exact ⟨rfl, rfl, rfl, rfl, rfl, rfl, rfl, rfl⟩
  · exact .refl t
  · exact ⟨rfl, rfl, rfl, rfl, rfl, rfl, rfl, rfl⟩
  · exact ⟨rfl, rfl, rfl, rfl, rfl, rfl, (rpeFirstSent_frame r s.rpe).1, (rpeFirstSent_frame r s.rpe).2⟩

/-! ## What every step meets, from the acquisition side -/

theorem ownRread_state (args : List Byte) (s : State) : (ownRread args s).2 = s := by
  unfold ownRread
  split
  · next index =>
    rcases Nat.lt_or_ge index.toNat 16 with hi | hi
    · rw [withRule_unchanged (act := rreadRule) (a := okWith (ruleBytes s.tgm.rules[index.toNat])) hi rfl]
    · rw [withRule_noent _ hi]
  · rfl

/-- A relation on the acquisition side, which every change outside it meets and which the releases, the deliveries and the ticks
meet. -/
structure AcqRestMeet (R : State → State → Prop) : Prop where
  same : ∀ s t, AcqSame s t → R s t
  trans : ∀ s t u, R s t → R t u → R s u
  release : ∀ n s, R s (releaseSegment n s)
  deliver : ∀ n s, startable s = some n → R s (startDelivery n s)
  report : ∀ n pos d s, s.rpe.slot = some (n, pos) → segmentFits s.rpe = true → segmentIn .sending n s = some d →
    R s (queueSegmentReport n pos d s)
  tick : ∀ s, R s (paceTickStep s)
  pulse : ∀ s, R s (pulseExpiryStep s)

/-- Such a relation that the effects of the owners meet too. -/
structure AcqMostMeet (R : State → State → Prop) : Prop extends AcqRestMeet R where
  flush : ∀ credit s, R s (flushReports credit s)
  tclear : ∀ args s, R s (ownTclear args s).2
  tadd : ∀ args s, R s (ownTadd args s).2
  tcommit : ∀ args s, R s (ownTcommit args s).2
  rset : ∀ args s, R s (ownRset args s).2
  ron : ∀ args s, R s (ownRon args s).2
  roff : ∀ args s, R s (ownRoff args s).2
  rarm : ∀ args s, R s (ownRarm args s).2
  cset : ∀ args s, R s (ownCset args s).2
  pset : ∀ args s, R s (ownPset args s).2
  start : ∀ args s, R s (ownStart args s).2
  stop : ∀ s, R s (stopRun s)
  abort : ∀ s, R s (abortRun s)
  force : ∀ args s, R s (ownForce args s).2
  sfetch : ∀ args s, R s (ownSfetch args s).2
  sdrop : ∀ args s, R s (ownSdrop args s).2

/-- Such a relation that the resets, the completions and the edge of TRGIN meet too. -/
structure AcqMeet (R : State → State → Prop) : Prop extends AcqMostMeet R where
  resets : ∀ power rate slots s, slots = s.sst.slots ∨ slots = [] → R s (resetBlocks power rate slots s)
  late : ∀ s, R s (lateAnswer s)
  route : ∀ c e p s, Completed c e p s → R s (routeRecord c e (s.setCvp p))
  rising : ∀ s, R s (trginRisingStep s)

namespace AcqRestMeet

variable {R : State → State → Prop} (h : AcqRestMeet R)

include h

theorem refl (s : State) : R s s := h.same s s (.refl s)

/-- A change of the link, the command processor and the other fields of the report engine. -/
theorem outer {s u : State} (l : Lki) (c : Cmp) (r : Rpe) (hf : r.fetch = u.rpe.fetch) (hs : r.slot = u.rpe.slot)
    (k : R s u) : R s { u with lki := l, cmp := c, rpe := r } :=
  h.trans _ _ _ k (h.same _ _ (AcqSame.outer u l c r hf hs))

theorem releaseAll (ns : List Nat) (s : State) : R s (releaseAll ns s) := by
  induction ns generalizing s with
  | nil => exact h.refl s
  | cons n ns ih => exact h.trans _ _ _ (h.release n s) (ih _)

theorem removeAcked (count : Nat) (s : State) : R s (removeAcked count s) :=
  h.trans _ (s.setRpe { s.rpe with
    outstanding := s.rpe.outstanding.drop count,
    resend := resendAfter s.rpe.resend (s.rpe.outstanding.drop count) }) _
    (h.outer _ _ _ rfl rfl (h.refl s)) (h.releaseAll _ _)

theorem takeAck (seq grant : Nat) (s : State) : R s (takeAck seq grant s) := by
  have hg : R s (addGrant grant s) := h.outer _ _ _ rfl rfl (h.refl s)
  unfold Machine.takeAck
  simp only
  split
  · exact hg
  · exact h.outer _ _ _ rfl rfl hg
  · refine h.outer _ _ _ rfl rfl ?_
    exact h.trans _ _ _ hg (h.removeAcked _ _)

theorem ackStep (s : State) : R s (ackStep s) := by
  unfold Machine.ackStep
  split
  · exact h.trans _ _ _ (h.outer _ _ _ rfl rfl (h.refl s)) (h.takeAck _ _ _)
  all_goals exact h.refl s

theorem runEngine (fuel : Nat) (s : State) : R s (runEngine fuel s) := by
  induction fuel generalizing s with
  | zero => exact h.refl s
  | succ fuel ih =>
    unfold Machine.runEngine
    split
    · next n pos hs =>
      split
      · next hf =>
        split
        · next d hd => exact h.trans _ _ _ (h.report n pos d s hs hf hd) (ih _)
        · exact h.refl s
      · exact h.refl s
    · split
      · next n hn => exact h.trans _ _ _ (h.deliver n s hn) (ih _)
      · exact h.refl s

/-- A relation on the acquisition side is met by the steps that are neither host commands nor special. -/
theorem rest : RestMeet R where
  refl := h.refl
  trans := h.trans
  receive _ s := h.outer _ _ _ rfl rfl (h.refl s)
  lineBreak s := h.outer _ _ _ rfl rfl (h.refl s)
  gap _ s := h.outer _ _ _ rfl rfl (h.refl s)
  commandFrame s := h.same _ _ (commandFrameStep_acq s)
  ack := h.ackStep
  take s := h.same _ _ (commandTakeStep_acq s)
  choose s t _ e := h.same s t (chooseFrame_acq e)
  frameEnd s _ := h.outer _ _ _ rfl rfl (h.refl s)
  engine := h.runEngine
  ackTimer s := h.same _ _ (ackTimerExpiryStep_acq s)
  tick := h.tick
  pulse := h.pulse

theorem unknown (s : State) : R s (unknownCommandStep s) := h.same _ _ (unknownCommandStep_acq s)

end AcqRestMeet

namespace AcqMostMeet

variable {R : State → State → Prop} (h : AcqMostMeet R)

include h

theorem ownHello (args : List Byte) (s : State) : R s (ownHello args s).2 := by
  unfold Machine.ownHello
  split
  · split
    · exact h.refl s
    · simp only
      split
      · exact h.outer _ _ _ rfl rfl (h.refl s)
      · exact h.trans _ _ _ (h.outer _ _ _ rfl rfl (h.refl s)) (h.flush _ _)
  · exact h.refl s

/-- A relation on the acquisition side is met by every step but the special ones. -/
theorem most : MostMeet R where
  toRestMeet := h.toAcqRestMeet.rest
  rep _ _ _ _ _ _ k _ := h.outer _ _ _ rfl rfl k
  ans s _ := h.outer _ _ _ rfl rfl (h.refl s)
  hello := h.ownHello
  bye _ s _ := h.trans _ _ _ (h.outer _ _ _ rfl rfl (h.refl s)) (h.flush _ _)
  replay _ s _ := h.outer _ _ (setResend s.rpe) rfl rfl (h.refl s)
  reset _ s := h.outer _ _ _ rfl rfl (h.refl s)
  tclear := h.tclear
  tadd := h.tadd
  tcommit := h.tcommit
  rset := h.rset
  ron := h.ron
  roff := h.roff
  rarm := h.rarm
  rread args s := by rw [ownRread_state]; exact h.refl s
  cset := h.cset
  pset := h.pset
  start := h.start
  stop _ := h.stop
  abort _ := h.abort
  force := h.force
  sfetch := h.sfetch
  sdrop := h.sdrop

end AcqMostMeet

/-- A relation on the acquisition side is met by every step. -/
theorem AcqMeet.steps {R : State → State → Prop} (h : AcqMeet R) : StepsMeet R where
  toMostMeet := h.most
  reset_blocks power rate slots s hs :=
    ⟨h.resets power rate slots s hs,
      h.trans _ _ _ (h.same s { s with powerOns := s.powerOns + 1 } ⟨rfl, rfl, rfl, rfl, rfl, rfl, rfl, rfl⟩)
        (h.resets power rate slots _ hs)⟩
  late := h.late
  route := h.route
  rising := h.rising
  falling s := h.same s _ ⟨rfl, rfl, rfl, rfl, rfl, rfl, rfl, rfl⟩

end Sys2Proof.Machine

/-! SUPPORT. The pages, the segments and the fetch queue over every step: a predicate on them that every move, every
teardown, every release and every round of a delivery keeps is kept by every step; so every page stays in one place (R3), and
the fetch queue in order (R143). -/

namespace Sys2Proof.Machine

variable {s t : State} {h : Held} {n : Nat} {d : Descriptor} {p : Descriptor → Bool} {f : Descriptor → Descriptor}

/-! ## The first element that meets a test -/

/-- The list cut at the first element that meets the test: what changing it and erasing it leave. -/
theorem split_at_first {α : Type} {p : α → Bool} {d : α} {l : List α} (hd : l.find? p = some d) :
    ∃ before after, l = before ++ d :: after ∧ p d = true ∧ (∀ x ∈ before, p x = false) ∧
      l.eraseP p = before ++ after ∧ ∀ f, modifyFirst p f l = before ++ f d :: after := by
  obtain ⟨hpd, before, after, rfl, hb⟩ := List.find?_eq_some_iff_append.mp hd
  replace hb : ∀ x ∈ before, p x = false := fun x hx => by simpa using hb x hx
  refine ⟨before, after, rfl, hpd, hb, ?_, fun f => ?_⟩
  · rw [List.eraseP_append_right _ (fun x hx => by simp [hb x hx]), List.eraseP_cons_of_pos hpd]
  · clear hd
    induction before with
    | nil => simp [modifyFirst, hpd]
    | cons x xs ih =>
      have hx := hb x (by simp)
      simp only [List.cons_append, modifyFirst, hx, Bool.false_eq_true, if_false,
        ih (fun y hy => hb y (List.mem_cons_of_mem _ hy))]

theorem modifyFirst_none {α : Type} {p : α → Bool} {l : List α} (f : α → α) (hl : l.find? p = none) :
    modifyFirst p f l = l := by
  induction l with
  | nil => rfl
  | cons x xs ih =>
    simp only [List.find?_cons] at hl
    split at hl
    · cases hl
    · next hx => simp only [modifyFirst, hx, Bool.false_eq_true, if_false, ih hl]

/-- What a change of the first element that meets a test leaves: the elements that do not meet it, and one changed element. -/
theorem mem_modifyFirst {α : Type} {p : α → Bool} {f : α → α} {l : List α} {x : α} (hx : x ∈ modifyFirst p f l) :
    x ∈ l ∨ ∃ d ∈ l, p d = true ∧ x = f d := by
  cases hl : l.find? p with
  | none => exact .inl (by rwa [modifyFirst_none f hl] at hx)
  | some d =>
    obtain ⟨before, after, rfl, hpd, -, -, hm⟩ := split_at_first hl
    simp only [hm, List.mem_append, List.mem_cons] at hx
    rcases hx with hx | rfl | hx
    · exact .inl (by simp [hx])
    · exact .inr ⟨d, by simp, hpd, rfl⟩
    · exact .inl (by simp [hx])

theorem mem_modifyFirst_of_not {α : Type} {p : α → Bool} {f : α → α} {l : List α} {x : α} (hx : x ∈ l)
    (hp : p x = false) : x ∈ modifyFirst p f l := by
  induction l with
  | nil => cases hx
  | cons y ys ih =>
    unfold modifyFirst
    split
    · next hy =>
      rcases List.mem_cons.mp hx with rfl | hx
      · simp [hp] at hy
      · exact List.mem_cons_of_mem _ hx
    · rcases List.mem_cons.mp hx with rfl | hx
      · exact List.mem_cons_self
      · exact List.mem_cons_of_mem _ (ih hx)

/-! ## What the remaining operations do to the pages, the segments and the fetch queue -/

theorem isSegment_iff {st : SegState} : isSegment st n d = true ↔ d.number = n ∧ d.state = st := by
  simp [isSegment, hasNumber]

theorem held_resetBlocks (power : Power) (rate : LinkRate) (slots : SlotMem) (s : State) :
    held (resetBlocks power rate slots s) = ⟨List.range 256, [], [], 0, []⟩ := by
  simp only [held, resetBlocks, Sst.reset, Sgm.reset, Rpe.reset]

theorem held_of_acqSame (k : AcqSame s t) : held t = held s := by
  simp [held, k.sst, k.sgm, k.fetch]

theorem held_flushReports (credit : Nat) (s : State) :
    held (flushReports credit s) = { held s with table := s.sgm.table.map revertDescriptor } := by
  rw [flushReports_eq]
  rfl

theorem held_releaseSegment (hd : segmentIn .sent n s = some d) :
    held (releaseSegment n s) =
      { held s with table := s.sgm.table.eraseP (isSegment .sent n), pool := s.sst.pool ++ d.pages } := by
  simp only [releaseSegment, hd]
  rw [held_returnPages]
  rfl

/-- A report queued moves no page; with SEGEND the segment is SENT (R139). -/
theorem held_queueSegmentReport (n : Nat) (pos : DeliveryPos) (d : Descriptor) (s : State) :
    held (queueSegmentReport n pos d s) = held s ∨
      held (queueSegmentReport n pos d s) =
        { held s with
          table := modifyFirst (isSegment .sending n) (fun d => { d with state := .sent }) s.sgm.table } := by
  unfold queueSegmentReport
  split
  · exact .inl rfl
  · exact .inr rfl

theorem held_ownStart (args : List Byte) (s : State) : held (ownStart args s).2 = held s := by
  unfold ownStart
  split
  any_goals rfl
  all_goals
    split
    · rfl
    · split
      · rfl
      · exact startRun_held s

theorem held_ownTcommit (args : List Byte) (s : State) : held (ownTcommit args s).2 = held s := by
  unfold ownTcommit
  split
  any_goals
    split
    · rfl
    · split <;> rfl
  all_goals exact switchTables_held s

/-- A predicate on pages, segments and fetch queue that every change of them keeps. -/
structure HeldMeet (P : Held → Prop) : Prop where
  move : ∀ a b, Move a b → P a → P b
  reset : P ⟨List.range 256, [], [], 0, []⟩
  flush : ∀ h, P h → P { h with table := h.table.map revertDescriptor }
  release : ∀ h n d, P h → h.table.find? (isSegment .sent n) = some d →
    P { h with table := h.table.eraseP (isSegment .sent n), pool := h.pool ++ d.pages }
  deliver : ∀ h n, P h →
    P { h with
      table := modifyFirst (isSegment .complete n) (fun d => { d with state := .sending }) h.table,
      fetch := h.fetch.filter (fun m => decide (m ≠ n)) }
  sent : ∀ h n, P h →
    P { h with table := modifyFirst (isSegment .sending n) (fun d => { d with state := .sent }) h.table }
  fetch : ∀ h n d, P h → h.table.find? (hasNumber n) = some d → d.state = .complete → n ∉ h.fetch →
    h.fetch.length < Config.fetchPlaces → P { h with fetch := h.fetch ++ [n] }

namespace HeldMeet

variable {P : Held → Prop} (k : HeldMeet P)

include k

theorem moves {s t : State} (m : Moves (held s) (held t)) (hs : P (held s)) : P (held t) := Moves.keep k.move m hs

theorem own_sfetch (args : List Byte) (s : State) (hs : P (held s)) : P (held (ownSfetch args s).2) := by
  cases hd : segmentNumbered (leNat args) s with
  | none => rwa [ownSfetch_noent hd]
  | some d =>
    by_cases hc : d.state = .complete
    case neg => rwa [ownSfetch_notComplete hd hc]
    by_cases hq : leNat args ∈ s.rpe.fetch
    case pos => rwa [ownSfetch_queued hd hc hq]
    rcases Nat.lt_or_ge s.rpe.fetch.length 8 with hl | hl
    · rw [ownSfetch_joins hd hc hq hl]
      exact k.fetch (held s) _ d hs hd hc hq hl
    · rwa [ownSfetch_full hd hc hq hl]

theorem own_sdrop (args : List Byte) (s : State) (hs : P (held s)) : P (held (ownSdrop args s).2) := by
  cases hd : segmentNumbered (leNat args) s with
  | none => rwa [ownSdrop_noent hd]
  | some d =>
    cases hc : d.state with
    | filling => rwa [ownSdrop_filling hd hc]
    | complete =>
      rw [ownSdrop_complete hd hc]
      simp only
      rw [held_discardFirst s hd]
      exact k.move _ _ (.drop (held s) _ d hd (.inl hc)) hs
    | sending => rwa [ownSdrop_inDelivery hd (.inl hc)]
    | sent => rwa [ownSdrop_inDelivery hd (.inr hc)]

theorem acq : AcqMeet (fun s t => P (held s) → P (held t)) where
  same _ _ e hs := held_of_acqSame e ▸ hs
  trans _ _ _ h1 h2 hs := h2 (h1 hs)
  resets power rate slots s _ _ := (held_resetBlocks power rate slots s).symm ▸ k.reset
  flush credit s hs := by rw [held_flushReports]; exact k.flush (held s) hs
  tclear _ s hs := by unfold ownTclear; split <;> exact hs
  tadd _ s hs := by unfold ownTadd; split <;> (try split) <;> (try split) <;> exact hs
  tcommit args s hs := (held_ownTcommit args s).symm ▸ hs
  rset _ s hs := by unfold ownRset; split <;> [exact hs; exact withRule_meets (R := fun _ t => P (held t)) hs (fun _ => hs) _ _]
  ron _ s hs := by unfold ownRon; split <;> [exact withRule_meets (R := fun _ t => P (held t)) hs (fun _ => hs) _ _; exact hs]
  roff _ s hs := by unfold ownRoff; split <;> [exact withRule_meets (R := fun _ t => P (held t)) hs (fun _ => hs) _ _; exact hs]
  rarm _ s hs := by unfold ownRarm; split <;> [exact withRule_meets (R := fun _ t => P (held t)) hs (fun _ => hs) _ _; exact hs]
  cset _ s hs := by unfold ownCset; split <;> (try split) <;> exact hs
  pset _ s hs := by unfold ownPset; split <;> (try split) <;> exact hs
  start args s hs := (held_ownStart args s).symm ▸ hs
  stop s hs := k.moves (stopRun_moves s) hs
  abort s hs := k.moves (abortRun_moves s) hs
  force _ s hs := by unfold ownForce; split <;> (try split) <;> exact hs
  sfetch := k.own_sfetch
  sdrop := k.own_sdrop
  release n s hs := by
    cases hd : segmentIn .sent n s with
    | none => simpa only [releaseSegment, hd] using hs
    | some d =>
      rw [held_releaseSegment hd]
      exact k.release (held s) n d hs hd
  deliver n s _ hs := k.deliver (held s) n hs
  report n pos d s _ _ _ hs := by
    rcases held_queueSegmentReport n pos d s with e | e
    · exact e ▸ hs
    · rw [e]
      exact k.sent (held s) n hs
  tick s hs := k.moves (paceTickStep_moves s) hs
  late _ hs := hs
  route c e p s _ hs := k.moves (routeRecord_moves (s.setCvp p) c e) hs
  rising _ hs := hs
  pulse s hs := by unfold pulseExpiryStep; split <;> exact hs

end HeldMeet

/-! ## Every page has one place (R3) -/

/-- The pages of the pool, the ring and the page lists. -/
def Held.pages (h : Held) : List Nat := h.pool ++ h.ring ++ h.table.flatMap Descriptor.pages

/-- Pages of a table after a change of the first descriptor that meets a test. -/
theorem flatMap_pages_modifyFirst (hf : ∀ d, (f d).pages = d.pages) (l : List Descriptor) :
    (modifyFirst p f l).flatMap Descriptor.pages = l.flatMap Descriptor.pages := by
  cases hl : l.find? p with
  | none => rw [modifyFirst_none f hl]
  | some d =>
    obtain ⟨before, after, rfl, -, -, -, hm⟩ := split_at_first hl
    simp [hm, hf]

/-- A discarded or released segment's pages go to the pool. -/
theorem pages_erase (hd : h.table.find? p = some d) :
    (Held.pages { h with table := h.table.eraseP p, pool := h.pool ++ d.pages }).Perm h.pages := by
  obtain ⟨before, after, ht, -, -, he, -⟩ := split_at_first hd
  rw [List.perm_iff_count]
  intro a
  simp only [Held.pages, he]
  simp only [ht, List.count_append, List.flatMap_append, List.flatMap_cons]
  omega

/-- No move makes or loses a page. -/
theorem Move.pages_perm {a b : Held} (m : Move a b) : b.pages.Perm a.pages := by
  cases m with
  | ringTake page rest hp =>
    rw [List.perm_iff_count]
    intro x
    simp only [Held.pages, hp, List.count_append, List.count_cons, List.count_nil]
    omega
  | ringTurn page rest hr =>
    rw [List.perm_iff_count]
    intro x
    simp only [Held.pages, hr, List.count_append, List.count_cons, List.count_nil]
    omega
  | ringFree => simp [Held.pages]
  | drop p d hd hs => exact pages_erase hd
  | fill f hn hp hs => simp [Held.pages, flatMap_pages_modifyFirst hp]
  | fillTake f d page rest hp hd hf hn hs =>
    obtain ⟨before, after, ht, -, -, -, hm⟩ := split_at_first hd
    rw [List.perm_iff_count]
    intro x
    simp only [Held.pages, hm]
    simp only [hp, ht, hf, List.count_append, List.flatMap_append, List.flatMap_cons, List.count_cons, List.count_nil]
    omega
  | join d hd hs hp hn hr => simp [Held.pages, hp]
  | give f d k hd he hf hn hs =>
    obtain ⟨before, after, ht, -, -, -, hm⟩ := split_at_first hd
    have hk : ∀ x, a.ring.count x = (a.ring.take k).count x + (a.ring.drop k).count x := fun x => by
      rw [← List.count_append, List.take_append_drop]
    rw [List.perm_iff_count]
    intro x
    simp only [Held.pages, hm]
    simp only [ht, hf, he, List.count_append, List.flatMap_append, List.flatMap_cons, List.count_nil, hk]
    omega

theorem pages_meet : HeldMeet (fun h => h.pages.Perm (List.range Config.storePages)) where
  move _ _ m hs := m.pages_perm.trans hs
  reset := by simp [Held.pages, Config.storePages]
  flush h hs := by
    have he : ∀ d, (revertDescriptor d).pages = d.pages := fun d => by unfold revertDescriptor; split <;> rfl
    simpa [Held.pages, List.flatMap_map, he] using hs
  release _ _ _ hs hd := (pages_erase hd).trans hs
  deliver h n hs := by
    simp only [Held.pages]
    rw [flatMap_pages_modifyFirst]
    · exact hs
    · exact fun _ => rfl
  sent h n hs := by
    simp only [Held.pages]
    rw [flatMap_pages_modifyFirst]
    · exact hs
    · exact fun _ => rfl
  fetch _ _ _ hs _ _ _ _ := hs

theorem stepKeeps_pagesPartitioned : StepKeeps anyState PagesPartitioned :=
  pages_meet.acq.steps.keeps (fun _ _ hs => hs)

/-- Pool, ring and page lists together hold 256 pages (R3). -/
theorem PagesPartitioned.count (hs : PagesPartitioned s) :
    s.sst.pool.length + s.sst.ring.length + (s.sgm.table.map (fun d => d.pages.length)).sum = 256 := by
  have hl := hs.length_eq
  simpa [Config.storePages, List.length_flatMap, Nat.add_assoc] using hl

/-! ## The fetch queue (R143) -/

/-- The fetch queue as R143 has it. -/
def FetchOk (h : Held) : Prop :=
  h.fetch.length ≤ Config.fetchPlaces ∧ h.fetch.Nodup ∧ ∀ n ∈ h.fetch, ∃ d ∈ h.table, d.number = n ∧ d.state = .complete

theorem FetchShape.setPending (x : List Instr) (hs : FetchShape s) : FetchShape (s.setPending x) :=
  ⟨hs.bound, hs.distinct, hs.complete⟩

theorem fetchShape_iff : FetchShape s ↔ FetchOk (held s) :=
  ⟨fun ⟨hb, hd, hc⟩ => ⟨hb, hd, hc⟩, fun ⟨hb, hd, hc⟩ => ⟨hb, hd, hc⟩⟩

/-- A change of the table that keeps every COMPLETE segment whose number stays in the fetch queue. -/
theorem FetchOk.table (hs : FetchOk h) (g : Held) {p : Nat → Bool} (hf : g.fetch = h.fetch.filter p)
    (ht : ∀ d ∈ h.table, d.state = .complete → p d.number = true →
      ∃ x ∈ g.table, x.number = d.number ∧ x.state = .complete) : FetchOk g := by
  obtain ⟨hb, hd, hc⟩ := hs
  refine ⟨hf ▸ (List.length_filter_le _ _).trans hb, hf ▸ hd.filter _, fun n hn => ?_⟩
  rw [hf, List.mem_filter] at hn
  obtain ⟨x, hx, rfl, hxs⟩ := hc n hn.1
  exact ht x hx hxs hn.2

/-- The queue itself stays. -/
theorem FetchOk.keep (hs : FetchOk h) (g : Held) (hf : g.fetch = h.fetch)
    (ht : ∀ d ∈ h.table, d.state = .complete → ∃ x ∈ g.table, x.number = d.number ∧ x.state = .complete) : FetchOk g :=
  hs.table g (p := fun _ => true) (by simp [hf]) (fun d hd hc _ => ht d hd hc)

/-- A change of one segment that is not COMPLETE. -/
theorem FetchOk.modify (hs : FetchOk h) (g : Held) (hf : g.fetch = h.fetch) (hp : ∀ d, p d = true → d.state ≠ .complete)
    (ht : g.table = modifyFirst p f h.table) : FetchOk g :=
  hs.keep g hf (fun d hd hc => ⟨d, ht ▸ mem_modifyFirst_of_not hd
    (Bool.eq_false_iff.mpr (fun hpd => hp d hpd hc)), rfl, hc⟩)

theorem filling_not_complete (hd : isFilling d = true) : d.state ≠ .complete := by
  simp [isFilling_state hd]

/-- A segment with another number stays when one is erased. -/
theorem mem_eraseP_of_number {l : List Descriptor} {x : Descriptor} (hd : l.find? p = some d) (hx : x ∈ l)
    (hn : x.number ≠ d.number) : x ∈ l.eraseP p := by
  obtain ⟨before, after, rfl, -, -, he, -⟩ := split_at_first hd
  rw [he]
  simp only [List.mem_append, List.mem_cons] at hx ⊢
  rcases hx with hx | rfl | hx
  · exact .inl hx
  · exact absurd rfl hn
  · exact .inr hx

theorem Move.fetchOk {a b : Held} (m : Move a b) (hs : FetchOk a) : FetchOk b := by
  cases m with
  | ringTake page rest hp => exact hs
  | ringTurn page rest hr => exact hs
  | ringFree => exact hs
  | drop p d hd hst =>
    exact hs.table _ rfl (fun x hx hc hn => ⟨x, mem_eraseP_of_number hd hx (by simpa using hn), rfl, hc⟩)
  | fill f hn hp hst => exact hs.modify _ rfl (fun _ => filling_not_complete) rfl
  | fillTake f d page rest hp hd hf hn hst => exact hs.modify _ rfl (fun _ => filling_not_complete) rfl
  | join d hd hst hp hn hr => exact hs.keep _ rfl (fun x hx hc => ⟨x, List.mem_append_left _ hx, rfl, hc⟩)
  | give f d k hd he hf hn hst => exact hs.modify _ rfl (fun _ => filling_not_complete) rfl

theorem fetch_meet : HeldMeet FetchOk where
  move _ _ m hs := m.fetchOk hs
  reset := ⟨by simp [Config.fetchPlaces], by simp, by simp⟩
  flush h hs := hs.keep _ rfl (fun d hd hc => ⟨revertDescriptor d, List.mem_map_of_mem hd, by simp [revertDescriptor, hc], by
    simp [revertDescriptor, hc]⟩)
  release h n d hs hd := hs.keep _ rfl (fun x hx hc => ⟨x, by
    obtain ⟨before, after, ht, hp, -, he, -⟩ := split_at_first hd
    have hne : x ≠ d := fun e => by simp [(isSegment_iff.mp hp).2, e] at hc
    rw [ht] at hx
    rw [he]
    simpa [hne] using hx, rfl, hc⟩)
  deliver h n hs := hs.table _ rfl (fun x hx hc hn => ⟨x, mem_modifyFirst_of_not hx (by
    rw [Bool.eq_false_iff]
    exact fun hi => by simp [(isSegment_iff.mp hi).1] at hn), rfl, hc⟩)
  sent h n hs := hs.modify _ rfl (fun x hx hc => by simp [(isSegment_iff.mp hx).2] at hc) rfl
  fetch h n d hs hd hc hn hl := by
    refine ⟨by simpa using hl, ?_, fun m hm => ?_⟩
    · rw [List.nodup_append]
      exact ⟨hs.2.1, by simp, fun x hx y hy e => hn (by simp_all)⟩
    · rcases List.mem_append.mp hm with hm | hm
      · exact hs.2.2 m hm
      · have hnum := List.find?_some hd
        exact ⟨d, List.mem_of_find?_eq_some hd, by simp_all [hasNumber], hc⟩

theorem stepKeeps_fetchShape : StepKeeps anyState FetchShape :=
  stepKeeps_of_exec anyState_setPending (fun _ x hs => hs.setPending x)
    (fun _ _ _ _ hs e => fetchShape_iff.mpr (fetch_meet.acq.steps.exec e (fetchShape_iff.mp hs)))

end Sys2Proof.Machine

/-! SUPPORT. The acquisition side's operations over slots, numbers, settings and rules: most leave slots, settings, rules and
run number, and hold no number that was not held before; what a record's route does beyond that is to write slots, to open a
segment with a free number, and to evaluate the rules. -/

namespace Sys2Proof.Machine

variable {s t u : State} {f : Descriptor → Descriptor}

/-! ## Operations that write no slot, open no segment and evaluate nothing -/

/-- What most of the acquisition side leaves alone; acquisition goes on or is stopped. -/
structure Calm (s t : State) : Prop where
  slots : t.sst.slots = s.sst.slots
  numbers : (t.sgm.table.map Descriptor.number).Sublist (s.sgm.table.map Descriptor.number)
  next : t.sgm.nextNumber = s.sgm.nextNumber
  settings : t.sgm.settings = s.sgm.settings
  rules : t.tgm.rules = s.tgm.rules
  run : t.aqs.run = s.aqs.run
  state : t.aqs.state = s.aqs.state ∨ t.aqs.state = .idle ∨ t.aqs.state = .halted

theorem Calm.refl (s : State) : Calm s s := ⟨rfl, .refl _, rfl, rfl, rfl, rfl, .inl rfl⟩

theorem Calm.trans (h : Calm s t) (k : Calm t u) : Calm s u where
  slots := k.slots.trans h.slots
  numbers := k.numbers.trans h.numbers
  next := k.next.trans h.next
  settings := k.settings.trans h.settings
  rules := k.rules.trans h.rules
  run := k.run.trans h.run
  state := by
    rcases k.state with e | e
    · rw [e]
      exact h.state
    · exact .inr e

/-- The chain read from its end. -/
theorem Calm.after (k : Calm t u) (h : Calm s t) : Calm s u := h.trans k

/-- The segment table, the settings, the rules, the run and the acquisition state are the same. -/
theorem Calm.same (hs : t.sst.slots = s.sst.slots) (hg : t.sgm.table = s.sgm.table)
    (hn : t.sgm.nextNumber = s.sgm.nextNumber) (hx : t.sgm.settings = s.sgm.settings) (hr : t.tgm.rules = s.tgm.rules)
    (hu : t.aqs.run = s.aqs.run) (ha : t.aqs.state = s.aqs.state) : Calm s t :=
  ⟨hs, hg ▸ .refl _, hn, hx, hr, hu, .inl ha⟩

theorem queueEvent_calm (e : EventReport) (s : State) : Calm s (queueEvent e s) := .same rfl rfl rfl rfl rfl rfl rfl

theorem returnPages_calm (pages : List Nat) (s : State) : Calm s (returnPages pages s) := by
  rw [returnPages_eq]
  exact .same rfl rfl rfl rfl rfl rfl rfl

theorem takePage_calm {page : Nat} (h : takePage s = some (page, t)) : Calm s t := by
  cases hp : s.sst.pool.head? with
  | none => simp [takePage, List.head?_eq_none_iff.mp hp] at h
  | some p =>
    rw [takePage_eq s p hp] at h
    cases h
    exact .same rfl rfl rfl rfl rfl rfl rfl

theorem discardFirst_calm (p : Descriptor → Bool) (r : DropReason) (s : State) : Calm s (discardFirst p r s) := by
  cases hd : s.sgm.table.find? p with
  | none =>
    simp only [discardFirst, hd]
    exact .refl s
  | some d =>
    obtain ⟨⟨before, after, ht, hg⟩, hst, -, -, -, -, htgm, -, haqs, -⟩ := discardFirst_discarded r hd
    refine ⟨by rw [hst]; rfl, ?_, by rw [hg], by rw [hg], by rw [htgm], by rw [haqs], .inl (by rw [haqs])⟩
    rw [hg, ht]
    simp

theorem displaceOne_calm {priority : Nat} {forPage : Bool} (h : displaceOne priority forPage s = some t) : Calm s t := by
  rw [displaceOne_eq s h]
  exact discardFirst_calm _ _ s

theorem takeOrDisplace_calm {priority page : Nat} (h : takeOrDisplace priority s = some (page, t)) : Calm s t := by
  unfold takeOrDisplace at h
  split at h
  · next hr =>
    cases h
    exact takePage_calm hr
  · split at h
    · split at h
      · next hd => exact (displaceOne_calm hd).trans (takePage_calm h)
      · cases h
    · cases h

theorem map_number_modifyFirst {p : Descriptor → Bool} (hf : ∀ d, (f d).number = d.number) (l : List Descriptor) :
    (modifyFirst p f l).map Descriptor.number = l.map Descriptor.number := by
  cases hl : l.find? p with
  | none => rw [modifyFirst_none f hl]
  | some d =>
    obtain ⟨before, after, rfl, -, -, -, hm⟩ := split_at_first hl
    simp [hm, hf]

theorem updateFilling_calm (hf : ∀ d, (f d).number = d.number) (s : State) :
    Calm s (updateFilling f s) :=
  ⟨rfl, by simp only [updateFilling, State.setSgm_sgm, map_number_modifyFirst hf]; exact .refl _, rfl, rfl, rfl, rfl, .inl rfl⟩

theorem completeFilling_calm (a b : Bool) (s : State) : Calm s (completeFilling a b s) :=
  updateFilling_calm (f := closedDescriptor a b) (fun _ => rfl) s

theorem retrigger_calm (rule offset : Nat) (s : State) : Calm s (retrigger rule offset s).2 := by
  unfold retrigger
  split
  · exact updateFilling_calm (fun _ => (listSecondary_keeps _ _).1) s
  · exact updateFilling_calm (f := fun d => listSecondary _ (extendWindow _ _ d)) (fun _ => (listSecondary_keeps _ _).1) s

theorem Entered.calm {st : AcqState} {r : AcqReason} (h : Entered st r s t) (hst : st = .idle ∨ st = .halted) : Calm s t where
  slots := by rw [h.store]; rfl
  numbers := by rw [h.segments]
  next := by rw [h.segments]
  settings := by rw [h.segments]
  rules := by rw [h.others.2.2.2.1]
  run := by rw [h.sequencer]
  state := by
    rw [h.sequencer]
    exact .inr hst

theorem enterIdle_calm (r : AcqReason) (s : State) : Calm s (enterStopped .idle r s) :=
  (enterStopped_entered .idle r s).calm (.inl rfl)

theorem enterHalted_calm (r : AcqReason) (s : State) : Calm s (enterStopped .halted r s) :=
  (enterStopped_entered .halted r s).calm (.inr rfl)

theorem acquisitionAtClose_calm (s : State) : Calm s (acquisitionAtClose s) := by
  unfold acquisitionAtClose
  split
  · exact .same rfl rfl rfl rfl rfl rfl rfl
  · exact enterIdle_calm _ s
  · exact enterIdle_calm _ s
  all_goals exact .refl s

theorem haltWith_calm (r : AcqReason) (s : State) : Calm s (haltWith r s) := by
  unfold haltWith
  split
  any_goals exact (completeFilling_calm _ _ s).trans (enterHalted_calm _ _)
  all_goals exact .refl s

theorem closeSegment_calm (b : Bool) (s : State) : Calm s (closeSegment b s) :=
  (completeFilling_calm _ _ s).trans (acquisitionAtClose_calm _)

theorem closeCheck_calm (s : State) : Calm s (closeCheck s) := by
  unfold closeCheck
  split
  · exact .refl s
  · split
    · split
      · exact (completeFilling_calm _ _ s).trans (haltWith_calm _ _)
      · exact closeSegment_calm _ s
    · exact .refl s

theorem countLoss_calm (s : State) : Calm s (countLoss s) := .same rfl rfl rfl rfl rfl rfl rfl

theorem countRecord_calm (err : Bool) (s : State) : Calm s (countRecord err s) :=
  (updateFilling_calm (f := countedDescriptor err) (fun _ => rfl) s).trans (closeCheck_calm _)

theorem afterEvaluation_calm (p : Placement) (ctx : CaptureContext) (s : State) : Calm s (afterEvaluation p ctx s) := by
  unfold afterEvaluation
  split
  · exact countRecord_calm _ s
  · split <;> [exact closeCheck_calm s; exact .refl s]
  · split <;> [exact closeCheck_calm s; exact countLoss_calm s]
  · exact .refl s

theorem afterErr_calm (p : Placement) (s : State) : Calm s (afterErr p s) := by
  unfold afterErr
  split
  · exact countRecord_calm _ s
  · exact countLoss_calm s
  all_goals exact .refl s

theorem starve_calm (s : State) : Calm s (starve s) := by
  simp only [starve]
  split
  · exact ((countLoss_calm s).trans (completeFilling_calm _ _ _)).trans (haltWith_calm _ _)
  · exact (countLoss_calm s).trans (closeSegment_calm _ _)

theorem switchTables_calm (s : State) : Calm s (switchTables s) := by
  rw [switchTables_eq]
  exact .same rfl rfl rfl rfl rfl rfl rfl

theorem passBoundary_calm (s : State) : Calm s (passBoundary s) := by
  simp only [passBoundary]
  split
  · exact (switchTables_calm _).after (.same rfl rfl rfl rfl rfl rfl rfl)
  · exact .same rfl rfl rfl rfl rfl rfl rfl

theorem convertAt_calm (i : Nat) (e : ScanEntry) (s : State) : Calm s (convertAt i e s) := .same rfl rfl rfl rfl rfl rfl rfl

theorem lookAhead_calm (i : Nat) (hold : Bool) (s : State) : Calm s (lookAhead i hold s) := by
  unfold lookAhead
  split
  · exact (passBoundary_calm _).after (.same rfl rfl rfl rfl rfl rfl rfl)
  · split
    · exact .same rfl rfl rfl rfl rfl rfl rfl
    · split <;> [exact convertAt_calm _ _ s; exact .refl s]

theorem continuePacing_calm (i : Nat) (hold : Bool) (s : State) : Calm s (continuePacing i hold s) := by
  unfold continuePacing
  split <;> [exact lookAhead_calm i hold s; exact .refl s]

theorem converterFault_calm (q : Request) (s : State) : Calm s (converterFault q s) :=
  (queueEvent_calm _ s).trans (haltWith_calm _ _)

theorem missedTick_calm (s : State) : Calm s (missedTick s) :=
  (updateFilling_calm (f := fun d => { d with flags := { d.flags with overrun := true } }) (fun _ => rfl) _).after
    (.same rfl rfl rfl rfl rfl rfl rfl)

theorem stepSearch_calm (fuel left : Nat) (s : State) : Calm s (stepSearch fuel left s) := by
  induction fuel generalizing left s with
  | zero => exact .refl s
  | succ fuel ih =>
    have hb : Calm s (if decide (s.sct.active.length ≤ s.aqs.position) then passBoundary s else s) := by
      split
      · exact passBoundary_calm s
      · exact .refl s
    unfold stepSearch
    split
    · exact .refl s
    · dsimp only
      generalize (if decide (s.sct.active.length ≤ s.aqs.position) then passBoundary s else s) = s1 at hb ⊢
      split
      · exact hb
      · split
        · exact hb.trans (convertAt_calm _ _ _)
        · exact hb.trans ((ih _ _).after (.same rfl rfl rfl rfl rfl rfl rfl))

theorem startPass_calm (s : State) : Calm s (startPass s) := by
  unfold startPass
  split
  · exact passBoundary_calm s
  · split
    · exact (convertAt_calm _ _ _).after (.same rfl rfl rfl rfl rfl rfl rfl)
    · exact .refl s

theorem resumePass_calm (s : State) : Calm s (resumePass s) := by
  unfold resumePass
  split
  · exact (convertAt_calm _ _ _).after (.same rfl rfl rfl rfl rfl rfl rfl)
  · exact .refl s

theorem paceTickStep_calm (s : State) : Calm s (paceTickStep s) := by
  unfold paceTickStep
  split
  · exact .refl s
  · next n _ =>
    have ht : Calm s (countTick n s) := .same rfl rfl rfl rfl rfl rfl rfl
    split
    · refine ht.trans ?_
      unfold stepTick
      split <;> [exact missedTick_calm _; exact stepSearch_calm _ _ _]
    · refine ht.trans ?_
      unfold burstTick
      split <;> [exact startPass_calm _; exact missedTick_calm _; exact resumePass_calm _]

theorem stopRun_state (s : State) : (stopRun s).aqs.state = s.aqs.state ∨ (stopRun s).aqs.state = .idle ∨
    ((stopRun s).aqs.state = .draining ∧ s.aqs.state = .running) := by
  unfold stopRun
  split
  · next hr =>
    split
    · refine .inr (.inl ?_)
      rw [(enterStopped_entered .idle .stop s).sequencer]
    · exact .inr (.inr ⟨rfl, hr⟩)
  all_goals exact .inl rfl

theorem abortRun_calm (s : State) : abortRun s = s ∨ ∃ v, Calm s v ∧ abortRun s = enterStopped .idle .abort (armRules v) := by
  unfold abortRun
  split
  · exact .inl rfl
  all_goals
    exact .inr ⟨_, Calm.trans (t := abandon s) (.same rfl rfl rfl rfl rfl rfl rfl) (discardFirst_calm _ _ _), rfl⟩

/-! ## What a record's route does beyond that -/

/-- At most 32 segments, with distinct 16-bit numbers, and a 16-bit counter (R22, R23). -/
structure NumbersHold (s : State) : Prop where
  slots : s.sgm.table.length ≤ Config.descriptors
  distinct : (s.sgm.table.map Descriptor.number).Nodup
  range : s.sgm.nextNumber < 65536 ∧ ∀ d ∈ s.sgm.table, d.number < 65536

theorem NumbersHold.calm (h : NumbersHold s) (k : Calm s t) : NumbersHold t where
  slots := by
    have hl := k.numbers.length_le
    simp only [List.length_map] at hl
    exact hl.trans h.slots
  distinct := h.distinct.sublist k.numbers
  range := by
    refine ⟨k.next ▸ h.range.1, fun d hd => ?_⟩
    obtain ⟨x, hx, hn⟩ := List.mem_map.mp (k.numbers.subset (List.mem_map_of_mem hd))
    exact hn ▸ h.range.2 x hx

/-- What the route of a record keeps. -/
structure Acted (s t : State) : Prop where
  slots : SlotsInForm s → SlotsInForm t
  numbers : NumbersHold s → NumbersHold t
  settings : t.sgm.settings = s.sgm.settings
  rules : RulesLegal s → RulesLegal t
  run : t.aqs.run = s.aqs.run
  state : t.aqs.state = s.aqs.state ∨ t.aqs.state = .idle ∨ t.aqs.state = .halted

theorem Acted.trans (h : Acted s t) (k : Acted t u) : Acted s u where
  slots := k.slots ∘ h.slots
  numbers := k.numbers ∘ h.numbers
  settings := k.settings.trans h.settings
  rules := k.rules ∘ h.rules
  run := k.run.trans h.run
  state := by
    rcases k.state with e | e
    · rw [e]
      exact h.state
    · exact .inr e

theorem Acted.after (k : Acted t u) (h : Acted s t) : Acted s u := h.trans k

theorem Calm.acted (h : Calm s t) : Acted s t where
  slots hs := by unfold SlotsInForm at hs ⊢; rwa [h.slots]
  numbers hs := hs.calm h
  settings := h.settings
  rules hs := by unfold RulesLegal at hs ⊢; rwa [h.rules]
  run := h.run
  state := h.state

theorem Acted.same (hs : t.sst.slots = s.sst.slots) (hg : t.sgm.table = s.sgm.table)
    (hn : t.sgm.nextNumber = s.sgm.nextNumber) (hx : t.sgm.settings = s.sgm.settings) (hr : t.tgm.rules = s.tgm.rules)
    (hu : t.aqs.run = s.aqs.run) (ha : t.aqs.state = s.aqs.state) : Acted s t := (Calm.same hs hg hn hx hr hu ha).acted

theorem Acted.refl (s : State) : Acted s s := (Calm.refl s).acted

theorem writeSlot_acted (page slot : Nat) (r : Record) (s : State) : Acted s (writeSlot page slot r s) where
  slots hs := writeCell_canonical _ _ _ hs
  numbers hs := ⟨hs.slots, hs.distinct, hs.range⟩
  settings := rfl
  rules hs := hs
  run := rfl
  state := .inl rfl

theorem growRing_acted (page : Nat) (r : Record) (s : State) : Acted s (growRing page r s) :=
  (writeSlot_acted _ _ _ _).after (.same rfl rfl rfl rfl rfl rfl rfl)

theorem recycleRing_acted (r : Record) (s : State) : Acted s (recycleRing r s).2 := by
  unfold recycleRing
  split
  · exact .refl s
  · exact (writeSlot_acted _ _ _ _).after (.same rfl rfl rfl rfl rfl rfl rfl)

theorem nextRingPage_acted (r : Record) (s : State) : Acted s (nextRingPage r s).2 := by
  unfold nextRingPage
  split
  · split
    · next h => exact (takePage_calm h).acted.trans (growRing_acted _ _ _)
    · exact recycleRing_acted r s
  · exact recycleRing_acted r s

theorem placeRecord_acted (r : Record) (s : State) : Acted s (placeRecord r s).2 := by
  unfold placeRecord
  split
  · unfold placeInSegment
    split
    · exact writeSlot_acted _ _ _ s
    · split
      · next h =>
        exact ((takeOrDisplace_calm h).trans (updateFilling_calm (f := addFillPage _) (fun _ => rfl) _)).acted.trans
          (writeSlot_acted _ _ _ _)
      · exact (starve_calm s).acted
  · unfold placeInRing
    split
    · split
      · exact (writeSlot_acted _ _ _ _).after (.same rfl rfl rfl rfl rfl rfl rfl)
      · exact nextRingPage_acted r s
    · exact nextRingPage_acted r s

theorem firstPage_acted (priority : Nat) (r : Record) (s : State) : Acted s (firstPage priority r s) := by
  unfold firstPage
  split
  · next h =>
    exact ((takeOrDisplace_calm h).trans (updateFilling_calm (f := openedDescriptor _ _ _ _ _ _ _) (fun _ => rfl) _)).acted.trans
      (writeSlot_acted _ _ _ _)
  · exact ((countLoss_calm s).trans (updateFilling_calm (f := openedDescriptor _ _ _ _ _ _ _) (fun _ => rfl) _)).acted

theorem handover_calm (s : State) : Calm s (handover s) := by
  unfold handover
  have hu := updateFilling_calm (f := openedDescriptor (handoverPre s) 1
    (countErr s (handoverFirst s) (handoverPre s + 1)) (s.sst.ring.drop (handoverFirst s / 32)) (handoverFirst s % 32)
    false false) (fun _ => rfl) s
  exact (returnPages_calm _ _).after (hu.trans (.same rfl rfl rfl rfl rfl rfl rfl))

/-- A free number is within as many steps as there are segments (R23). -/
theorem nextSegmentNumber_free (h : NumbersHold s) :
    nextSegmentNumber s ∉ s.sgm.table.map Descriptor.number ∧ nextSegmentNumber s < 65536 := by
  have hl : (s.sgm.table.map Descriptor.number).length = s.sgm.table.length := by simp
  have hs := h.slots
  simp only [Config.descriptors] at hs
  unfold nextSegmentNumber
  refine ⟨?_, firstFreeNumber_lt _ _ _ h.range.1⟩
  rw [← hl]
  exact firstFreeNumber_not_mem _ _ (by omega) h.range.1

/-- A segment with a free number joins a table that has room. -/
theorem NumbersHold.join (h : NumbersHold s) {d : Descriptor} (hl : s.sgm.table.length < Config.descriptors)
    (hd : d.number ∉ s.sgm.table.map Descriptor.number) (hn : d.number < 65536) : NumbersHold (joinTable d s) where
  slots := by simpa [joinTable] using hl
  distinct := by
    simp only [joinTable, State.setSgm_sgm, List.map_append, List.map_cons, List.map_nil, List.nodup_append]
    exact ⟨h.distinct, by simp, fun x hx y hy e => hd (by simp_all)⟩
  range := by
    refine ⟨Nat.mod_lt _ (by decide), fun x hx => ?_⟩
    rcases List.mem_append.mp hx with hx | hx
    · exact h.range.2 x hx
    · exact (List.mem_singleton.mp hx) ▸ hn

/-- An open on a state with a free descriptor slot, which has come from `s`. -/
theorem openSegment_acted (rule priority : Nat) (x : TriggerInfo) (h : Acted s t)
    (hl : NumbersHold s → t.sgm.table.length < Config.descriptors) : Acted s (openSegment rule priority x t) := by
  have hj : Acted s (joinTable (freshDescriptor rule priority x t) t) :=
    ⟨h.slots, fun hs => (h.numbers hs).join (hl hs) (nextSegmentNumber_free (h.numbers hs)).1
      (nextSegmentNumber_free (h.numbers hs)).2, h.settings, h.rules, h.run, h.state⟩
  have hp : ∀ u, Acted u (startPulse u) := fun u => .same rfl rfl rfl rfl rfl rfl rfl
  unfold openSegment
  split
  · exact (hj.trans (handover_calm _).acted).trans (hp _)
  · exact (hj.trans (firstPage_acted _ _ _)).trans (hp _)

/-- A descriptor slot gained is a free one (R28). -/
theorem descriptorSlot_free {priority : Nat} (h : descriptorSlot priority s = some t) :
    Calm s t ∧ (s.sgm.table.length ≤ Config.descriptors → t.sgm.table.length < Config.descriptors) := by
  unfold descriptorSlot at h
  split at h
  · next hl =>
    cases h
    exact ⟨.refl s, fun _ => hl⟩
  · split at h
    · refine ⟨displaceOne_calm h, fun hs => ?_⟩
      have he := displaceOne_eq s h
      have hany : s.sgm.table.any (displaceCandidate s.rpe.fetch priority false) = true := by
        simp only [displaceOne] at h
        split at h
        · assumption
        · cases h
      obtain ⟨d, hd⟩ := List.find?_isSome.mpr (List.any_eq_true.mp hany) |> Option.isSome_iff_exists.mp
      obtain ⟨before, after, ht, hg⟩ := (discardFirst_discarded .displaced hd).segments
      have hlen : t.sgm.table.length < s.sgm.table.length := by
        rw [he, hg, ht]
        simp
      omega
    · cases h

theorem countNoDescriptor_calm (s : State) : Calm s (countNoDescriptor s) := .same rfl rfl rfl rfl rfl rfl rfl

theorem openOrRefuse_acted (rule priority : Nat) (x : TriggerInfo) (s : State) :
    Acted s (openOrRefuse rule priority x s).2 := by
  unfold openOrRefuse
  split
  · next h =>
    obtain ⟨hc, hl⟩ := descriptorSlot_free h
    exact openSegment_acted rule priority x hc.acted (fun hs => hl hs.slots)
  · exact (countNoDescriptor_calm s).acted

theorem captureFiring_acted (rule priority : Nat) (x : TriggerInfo) (ctx : CaptureContext) (s : State) :
    Acted s (captureFiring rule priority x ctx s).2 := by
  unfold captureFiring
  split
  · exact .refl s
  · split
    · exact (retrigger_calm _ _ s).acted
    · split
      · unfold shareRefusal
        simp only
        split <;> [exact (countNoDescriptor_calm s).acted; exact .refl s]
      all_goals split <;> [exact .refl s; exact openOrRefuse_acted rule priority x s]

theorem dealFiring_acted (x : TriggerInfo) (f : Firing) (ctx : CaptureContext) (s : State) :
    Acted s (dealFiring x f ctx s).2 := by
  unfold dealFiring
  split
  · exact (queueEvent_calm _ s).acted
  · exact (captureFiring_acted _ _ _ _ s).trans (queueEvent_calm _ _).acted

theorem dealFirings_acted (x : TriggerInfo) (fs : List Firing) (ctx : CaptureContext) (s : State) :
    Acted s (dealFirings x fs ctx s).2 := by
  induction fs generalizing ctx s with
  | nil => exact .refl s
  | cons f fs ih => exact (dealFiring_acted x f ctx s).trans (ih _ _)

/-! ## Legal rules (R51, R56, R58) -/

theorem runtimeLegal_iff (r : Rule) : runtimeLegal r = true ↔
    (r.state = .off → r.progress = 0 ∧ r.previous = none) ∧
    (r.state = .armed ∨ r.state = .fired → r.progress = 0) ∧
    (r.state = .qualifying →
      1 ≤ r.progress ∧ (r.progress < r.fields.qualify ∨ r.progress = 1 ∧ r.fields.qualify = 1)) ∧
    (r.fields.condition = .external → r.previous = none) ∧
    (∀ v, r.previous = some v → -32768 ≤ v ∧ v ≤ 32767) ∧ r.fireCount ≤ 65535 := by
  obtain ⟨f, st, pr, pv, fc⟩ := r
  cases st <;> cases pv <;> simp [runtimeLegal, and_assoc]

theorem satAdd_le (limit n k : Nat) : satAdd limit n k ≤ limit := Nat.min_le_left _ _

/-- A rule that sees a record and does not fire stays on, and its progress stays within its bounds (R57, R58, R60). -/
theorem moved_bounds {x : Seen} {r : Rule} (hoff : r.state ≠ .off) (hq : 1 ≤ r.fields.qualify)
    (hrest : r.state = .armed ∨ r.state = .fired → r.progress = 0) (hfire : ¬ fires x r = true) :
    (moved x r).1 ≠ .off ∧ ((moved x r).1 = .armed ∨ (moved x r).1 = .fired → (moved x r).2 = 0) ∧
      ((moved x r).1 = .qualifying → 1 ≤ (moved x r).2 ∧ (moved x r).2 < r.fields.qualify) := by
  cases hst : r.state with
  | off => exact absurd hst hoff
  | armed =>
    simp only [fires, moved, hst, Bool.and_eq_true, decide_eq_true_eq, not_and] at hfire ⊢
    split
    · next h => exact ⟨nofun, nofun, fun _ => ⟨Nat.le_refl 1, Nat.lt_of_le_of_ne hq (Ne.symm (hfire h))⟩⟩
    · exact ⟨nofun, fun _ => hrest (.inl hst), nofun⟩
  | qualifying =>
    simp only [fires, moved, hst, Bool.and_eq_true, decide_eq_true_eq, not_and, Nat.not_le] at hfire ⊢
    split
    · next h => exact ⟨nofun, nofun, fun _ => ⟨Nat.le_add_left 1 _, hfire h⟩⟩
    · exact ⟨nofun, fun _ => rfl, nofun⟩
  | fired =>
    simp only [moved, hst]
    split
    · exact ⟨nofun, fun _ => rfl, nofun⟩
    · exact ⟨nofun, fun _ => hrest (.inr hst), nofun⟩

/-- The rule keeps its fields, its previous value is the record's or stays, and its state and progress move within their bounds
(R52, R57 to R60). -/
theorem evaluateRule_legal {channel : Nat} {x : Seen} {r : Rule} (hv : -32768 ≤ x.value ∧ x.value ≤ 32767)
    (hf : fieldsLegal r.fields = true) (hr : runtimeLegal r = true) :
    fieldsLegal (evaluateRule channel x r).fields = true ∧ runtimeLegal (evaluateRule channel x r) = true := by
  obtain ⟨-, -, -, hq, -⟩ := fieldsLegal_ranges hf
  rw [runtimeLegal_iff] at hr ⊢
  obtain ⟨hoff, hrest, hqual, hext, hprev, hcount⟩ := hr
  have hnext : ∀ v, nextPrevious x r = some v → -32768 ≤ v ∧ v ≤ 32767 := fun v hn => by
    unfold nextPrevious at hn
    split at hn
    · exact hprev v hn
    · exact Option.some.inj hn ▸ hv
  have hnone : r.fields.condition = .external → nextPrevious x r = none := fun he => by rw [nextPrevious, if_pos he, hext he]
  unfold evaluateRule
  split
  · next hsee =>
    have hon : r.state ≠ .off := by
      simp only [sees, Bool.and_eq_true, decide_eq_true_eq] at hsee
      exact hsee.1
    split
    · exact ⟨hf, nofun, fun _ => rfl, nofun, hnone, hnext, satAdd_le _ _ _⟩
    · next hfire =>
      obtain ⟨hon, hrest, hqual⟩ := moved_bounds hon hq hrest hfire
      exact ⟨hf, fun h => absurd h hon, hrest, fun h => ⟨(hqual h).1, .inl (hqual h).2⟩, hnone, hnext, hcount⟩
  · exact ⟨hf, hoff, hrest, hqual, hext, hprev, hcount⟩

theorem evaluateRules_legal {channel : Nat} {r : Record} (hv : -32768 ≤ r.value ∧ r.value ≤ 32767) (h : RulesLegal s) :
    RulesLegal (evaluateRules channel r s) := by
  intro x hx
  simp only [evaluateRules, State.setTgm_tgm, Vector.toList_map, List.mem_map] at hx
  obtain ⟨y, hy, rfl⟩ := hx
  exact evaluateRule_legal hv (h y hy).1 (h y hy).2

theorem evaluateStored_acted {channel : Nat} {r : Record} (p : Placement) (s : State)
    (hv : -32768 ≤ r.value ∧ r.value ≤ 32767) : Acted s (evaluateStored channel r p s) := by
  have he : Acted s (evaluateRules channel r (s.setAqs { s.aqs with forcePending := false })) :=
    ⟨id, fun hs => ⟨hs.slots, hs.distinct, hs.range⟩, rfl, evaluateRules_legal hv, rfl, .inl rfl⟩
  unfold evaluateStored evaluateRecord
  exact (he.trans (dealFirings_acted _ _ _ _)).trans (afterEvaluation_calm _ _ _).acted

theorem storeRecord_acted {channel : Nat} {r : Record} (s : State)
    (hv : r.err = false → -32768 ≤ r.value ∧ r.value ≤ 32767) : Acted s (storeRecord channel r s) := by
  unfold storeRecord
  simp only
  split
  · exact placeRecord_acted r s
  · split
    · exact (placeRecord_acted r s).trans (afterErr_calm _ _).acted
    · next he => exact (placeRecord_acted r s).trans (evaluateStored_acted _ _ (hv (by simpa using he)))

/-- The route of a completion (R113). -/
theorem routeRecord_acted {c : Completion} {e : ScanEntry} {p : Cvp} {s : State} (hc : Completed c e p s) :
    Acted s (routeRecord c e (s.setCvp p)) := by
  have hv : c.err = false → -32768 ≤ c.value ∧ c.value ≤ 32767 := fun he => by
    obtain ⟨-, -, -, hlow, hhigh⟩ | ⟨-, herr⟩ := hc.port
    · exact ⟨hlow, hhigh⟩
    · rw [he] at herr
      cases herr
  unfold routeRecord
  simp only
  refine Acted.after (continuePacing_calm _ _ _).acted ?_
  have h1 : Acted s ((s.setCvp p).setAqs { (s.setCvp p).aqs with holdPending := false }) :=
    .same rfl rfl rfl rfl rfl rfl rfl
  generalize (s.setCvp p).setAqs { (s.setCvp p).aqs with holdPending := false } = s1 at h1 ⊢
  have h2 : Acted s (if e.discard then s1 else storeRecord e.channel (completedRecord c e (s.setCvp p)) (handRecord s1)) := by
    split
    · exact h1
    · exact h1.trans ((storeRecord_acted _ hv).after (.same rfl rfl rfl rfl rfl rfl rfl))
  split
  · exact h2.trans (converterFault_calm _ _).acted
  · exact h2

end Sys2Proof.Machine

/-! SUPPORT. What every step but the special ones leaves untouched, and the statements on slots, rules and the run that
follow from it and from the route of a record. -/

namespace Sys2Proof.Machine

variable {s t u : State} {l : Lki}

/-! ## Untouched by all but the special steps -/

/-- The queue of steps, the TRGIN line, the power-on, the link rate and the slots. -/
structure Untouched (s t : State) : Prop where
  pending : t.pending = s.pending
  trgin : t.trgin = s.trgin
  powerOns : t.powerOns = s.powerOns
  rate : t.lki.rate = s.lki.rate
  power : t.power = s.power
  slots : t.sst.slots = s.sst.slots

theorem Untouched.refl (s : State) : Untouched s s := ⟨rfl, rfl, rfl, rfl, rfl, rfl⟩

theorem Untouched.trans (h : Untouched s t) (k : Untouched t u) : Untouched s u :=
  ⟨k.pending.trans h.pending, k.trgin.trans h.trgin, k.powerOns.trans h.powerOns, k.rate.trans h.rate,
    k.power.trans h.power, k.slots.trans h.slots⟩

theorem InnerFrame.untouched (h : InnerFrame s t) (hs : t.sst.slots = s.sst.slots) : Untouched s t :=
  ⟨h.pending, h.trgin, h.powerOns, by rw [h.lki], h.power, hs⟩

theorem Untouched.after (k : Untouched t u) (h : Untouched s t) : Untouched s u := h.trans k

/-- A change of the link, the command processor and the report engine, after `u`. -/
theorem Untouched.outer (h : Untouched s u) (l : Lki) (c : Cmp) (r : Rpe) (hl : l.rate = u.lki.rate) :
    Untouched s { u with lki := l, cmp := c, rpe := r } :=
  h.trans ⟨rfl, rfl, rfl, hl, rfl, rfl⟩

/-! ### The link -/

theorem giveUp_rate (reason : NoticeReason) (tag : Byte) (l : Lki) : (giveUp reason tag l).rate = l.rate := rfl

theorem receiveByte_rate (b : Byte) (l : Lki) : (receiveByte b l).rate = l.rate := by
  unfold receiveByte
  split
  · split <;> rfl
  · next phase _ =>
    cases phase with
    | kind => rw [assembleByte]; split <;> rfl
    | tag => rfl
    | length => rw [assembleByte]; split <;> rfl
    | payload => rfl
    | crc1 => rfl
    | crc2 => rw [assembleByte, checkFrame]; split <;> rfl

theorem commandFrameStep_untouched (s : State) : Untouched s (commandFrameStep s) := by
  unfold commandFrameStep
  split
  · unfold offerFrame
    split
    · exact (Untouched.refl s).outer _ _ _ rfl
    · unfold refuseFrame
      split <;> exact (Untouched.refl s).outer _ _ _ rfl
  all_goals exact .refl s

theorem commandTakeStep_untouched (s : State) : Untouched s (commandTakeStep s) := by
  unfold commandTakeStep
  split
  · exact .refl s
  · split
    · exact (Untouched.refl s).outer _ _ _ rfl
    · exact .refl s

theorem ackTimerExpiryStep_untouched (s : State) : Untouched s (ackTimerExpiryStep s) := by
  unfold ackTimerExpiryStep
  split
  · exact .refl s
  · split
    · exact (Untouched.refl s).outer _ _ (setResend s.rpe) rfl
    · exact (Untouched.refl s).outer _ _ _ rfl

theorem chooseFrame_untouched (e : chooseFrame s = .next t) : Untouched s t := by
  rcases chooseFrame_cases e with ⟨n, b, -, rfl⟩ | ⟨r, rest, b, -, -, rfl⟩ | rfl | ⟨m, r, b, -, -, rfl⟩ |
    ⟨r, rest, b, -, -, -, -, -, rfl⟩
  · exact ⟨rfl, rfl, rfl, rfl, rfl, rfl⟩
  · exact ⟨rfl, rfl, rfl, rfl, rfl, rfl⟩
  · exact .refl t
  · exact ⟨rfl, rfl, rfl, rfl, rfl, rfl⟩
  · exact ⟨rfl, rfl, rfl, rfl, rfl, rfl⟩

theorem releaseSegment_untouched (n : Nat) (s : State) : Untouched s (releaseSegment n s) := by
  refine (releaseSegment_inner s n).untouched ?_
  unfold releaseSegment
  split
  · rfl
  · exact (returnPages_calm _ _).slots

theorem releaseAll_untouched (ns : List Nat) (s : State) : Untouched s (releaseAll ns s) := by
  induction ns generalizing s with
  | nil => exact .refl s
  | cons n ns ih => exact (releaseSegment_untouched n s).trans (ih _)

theorem ackAdvanced_rate (left : Bool) (l : Lki) : (ackAdvanced left l).rate = l.rate := by
  unfold ackAdvanced
  split <;> rfl

theorem takeAck_untouched (seq grant : Nat) (s : State) : Untouched s (takeAck seq grant s) := by
  have hg : Untouched s (addGrant grant s) := (Untouched.refl s).outer _ _ _ rfl
  unfold takeAck
  simp only
  split
  · exact hg
  · exact hg.outer _ _ _ rfl
  · refine Untouched.outer ?_ _ _ _ (ackAdvanced_rate _ _)
    exact (hg.outer _ _ _ rfl).trans (releaseAll_untouched _ _)

theorem ackStep_untouched (s : State) : Untouched s (ackStep s) := by
  unfold ackStep
  split
  · exact (takeAck_untouched _ _ _).after ⟨rfl, rfl, rfl, rfl, rfl, rfl⟩
  all_goals exact .refl s

theorem queueSegmentReport_untouched (n : Nat) (pos : DeliveryPos) (d : Descriptor) (s : State) :
    Untouched s (queueSegmentReport n pos d s) := by
  unfold queueSegmentReport
  split <;> exact ⟨rfl, rfl, rfl, rfl, rfl, rfl⟩

theorem runEngine_untouched (fuel : Nat) (s : State) : Untouched s (runEngine fuel s) := by
  induction fuel generalizing s with
  | zero => exact .refl s
  | succ fuel ih =>
    unfold runEngine
    split
    · split
      · split
        · exact (queueSegmentReport_untouched _ _ _ s).trans (ih _)
        · exact .refl s
      · exact .refl s
    · split
      · exact (ih _).after ⟨rfl, rfl, rfl, rfl, rfl, rfl⟩
      · exact .refl s

/-! ### The owners -/

theorem flushReports_untouched (credit : Nat) (s : State) : Untouched s (flushReports credit s) := by
  rw [flushReports_eq]
  exact ⟨rfl, rfl, rfl, rfl, rfl, rfl⟩

theorem ownHello_untouched (args : List Byte) (s : State) : Untouched s (ownHello args s).2 := by
  unfold ownHello
  split
  · split
    · exact .refl s
    · simp only
      split
      · exact (Untouched.refl s).outer _ _ _ rfl
      · exact (flushReports_untouched _ _).after ⟨rfl, rfl, rfl, rfl, rfl, rfl⟩
  · exact .refl s

theorem ownSfetch_untouched (args : List Byte) (s : State) : Untouched s (ownSfetch args s).2 := by
  unfold ownSfetch
  split <;> (try split) <;> (try split) <;> (try split) <;> exact ⟨rfl, rfl, rfl, rfl, rfl, rfl⟩

theorem startRun_slots (s : State) : (startRun s).sst.slots = s.sst.slots := rfl

theorem stopRun_slots (s : State) : (stopRun s).sst.slots = s.sst.slots := by
  unfold stopRun
  split
  · split
    · exact (enterIdle_calm _ s).slots
    · rfl
  all_goals rfl

theorem abortRun_slots (s : State) : (abortRun s).sst.slots = s.sst.slots := by
  rcases abortRun_calm s with e | ⟨v, hv, e⟩
  · rw [e]
  · rw [e, (enterIdle_calm _ _).slots]
    exact hv.slots

theorem owners_untouched : OwnersMeet Untouched where
  refl := .refl
  rep _ _ _ _ _ _ h _ := h.outer _ _ _ rfl
  ans s _ := (Untouched.refl s).outer _ _ _ rfl
  hello := ownHello_untouched
  bye _ _ _ := (flushReports_untouched _ _).after ⟨rfl, rfl, rfl, rfl, rfl, rfl⟩
  replay _ s _ := (Untouched.refl s).outer _ _ (setResend s.rpe) rfl
  reset _ s := (Untouched.refl s).outer _ _ _ rfl
  tclear a s := (ownTclear_inner a s).untouched (by unfold ownTclear; split <;> rfl)
  tadd a s := (ownTadd_inner a s).untouched (by unfold ownTadd; split <;> (try split) <;> (try split) <;> rfl)
  tcommit a s := (ownTcommit_inner a s).untouched (by
    unfold ownTcommit
    split <;> (try split) <;> (try split) <;> rfl)
  rset a s := (ownRset_inner a s).untouched (by unfold ownRset withRule; split <;> (try split) <;> rfl)
  ron a s := (ownRon_inner a s).untouched (by unfold ownRon withRule; split <;> (try split) <;> rfl)
  roff a s := (ownRoff_inner a s).untouched (by unfold ownRoff withRule; split <;> (try split) <;> rfl)
  rarm a s := (ownRarm_inner a s).untouched (by unfold ownRarm withRule; split <;> (try split) <;> rfl)
  rread a s := by rw [ownRread_state]; exact .refl s
  cset a s := (ownCset_inner a s).untouched (by unfold ownCset; split <;> (try split) <;> rfl)
  pset a s := (ownPset_inner a s).untouched (by unfold ownPset; split <;> (try split) <;> rfl)
  start a s := (ownStart_inner a s).untouched (by
    unfold ownStart
    split <;> (try split) <;> (try split) <;> rfl)
  stop a s := (ownStop_inner a s).untouched (stopRun_slots s)
  abort a s := (ownAbort_inner a s).untouched (abortRun_slots s)
  force a s := (ownForce_inner a s).untouched (by unfold ownForce; split <;> (try split) <;> rfl)
  sfetch := ownSfetch_untouched
  sdrop a s := (ownSdrop_inner a s).untouched (by
    unfold ownSdrop
    split
    · rfl
    · split
      · rfl
      · exact (discardFirst_calm _ _ s).slots
      all_goals rfl)

theorem steps_untouched : MostMeet Untouched where
  toOwnersMeet := owners_untouched
  trans _ _ _ := Untouched.trans
  receive b s := (Untouched.refl s).outer _ _ _ (receiveByte_rate b s.lki)
  lineBreak s := (Untouched.refl s).outer _ _ _ rfl
  gap _ s := (Untouched.refl s).outer _ _ _ rfl
  commandFrame := commandFrameStep_untouched
  ack := ackStep_untouched
  take := commandTakeStep_untouched
  choose _ _ _ := chooseFrame_untouched
  frameEnd s _ := (Untouched.refl s).outer _ _ _ rfl
  engine := runEngine_untouched
  ackTimer := ackTimerExpiryStep_untouched
  tick s := (paceTickStep_inner s).untouched (paceTickStep_calm s).slots
  pulse s := (acquisition_inner (.inr (.inr (.inr rfl))) rfl).untouched (by unfold pulseExpiryStep; split <;> rfl)

/-! ## The statement on what the steps leave -/

/-- What the special steps leave untouched. -/
theorem startUpEndStep_keeps (s : State) : (startUpEndStep s).pending = s.pending ∧ (startUpEndStep s).trgin = s.trgin ∧
    (startUpEndStep s).powerOns = s.powerOns ∧ (startUpEndStep s).lki.rate = s.lki.rate ∧
    (startUpEndStep s).sst.slots = s.sst.slots := by
  unfold startUpEndStep
  split <;> exact ⟨rfl, rfl, rfl, rfl, rfl⟩

theorem resetTakesEffectStep_untouched (s : State) : Untouched s (resetTakesEffectStep s) := by
  unfold resetTakesEffectStep
  split <;> exact ⟨rfl, rfl, rfl, rfl, rfl, rfl⟩

/-- A completion changes the slots only, of what is listed. -/
theorem completion_keeps {i : Instr} (hi : (∃ v o g, i = .converterAnswer v o g) ∨ i = .conversionTimeout)
    (e : exec i s = .next t) :
    t.pending = s.pending ∧ t.trgin = s.trgin ∧ t.powerOns = s.powerOns ∧ t.lki.rate = s.lki.rate ∧ t.power = s.power := by
  have h : InnerFrame s t := acquisition_inner (hi.elim (fun h => .inr (.inr (.inl h))) (fun h => .inr (.inl h))) e
  exact ⟨h.pending, h.trgin, h.powerOns, by rw [h.lki], h.power⟩

/-- Settles O2: all but seven steps leave every item untouched; the others are the power-on, the two resets, the two
completions and the two edges. -/
theorem commandsKeepWhatIsNotTheirs : Obligations.CommandsKeepWhatIsNotTheirs := by
  intro i s t e
  by_cases hi : Special i
  · rcases hi with ⟨a, b, rfl⟩ | rfl | rfl | hc | rfl | rfl | rfl
    · injection e with e
      subst e
      exact ⟨rfl, fun _ _ => rfl, fun h => absurd rfl (h a b), fun h _ => absurd rfl (h a b), fun h _ _ => absurd rfl (h a b)⟩
    · obtain ⟨hp, ht, ho, hr, hs⟩ := startUpEndStep_keeps s
      injection e with e
      subst e
      exact ⟨hp, fun _ _ => ht, fun _ => ⟨ho, hr⟩, fun _ h => absurd rfl h, fun _ _ _ => hs⟩
    · obtain ⟨hp, ht, ho, hr, hw, hs⟩ := resetTakesEffectStep_untouched s
      injection e with e
      subst e
      exact ⟨hp, fun _ _ => ht, fun _ => ⟨ho, hr⟩, fun _ _ => hw, fun _ _ _ => hs⟩
    · obtain ⟨hp, ht, ho, hr, hw⟩ := completion_keeps (.inl hc) e
      obtain ⟨v, o, g, rfl⟩ := hc
      exact ⟨hp, fun _ _ => ht, fun _ => ⟨ho, hr⟩, fun _ _ => hw, fun _ h _ => absurd rfl (h v o g)⟩
    · obtain ⟨hp, ht, ho, hr, hw⟩ := completion_keeps (.inr rfl) e
      exact ⟨hp, fun _ _ => ht, fun _ => ⟨ho, hr⟩, fun _ _ => hw, fun _ _ h => absurd rfl h⟩
    · injection e with e
      subst e
      exact ⟨rfl, fun h _ => absurd rfl h, fun _ => ⟨rfl, rfl⟩, fun _ _ => rfl, fun _ _ _ => rfl⟩
    · injection e with e
      subst e
      exact ⟨rfl, fun _ h => absurd rfl h, fun _ => ⟨rfl, rfl⟩, fun _ _ => rfl, fun _ _ _ => rfl⟩
  · obtain ⟨hp, ht, ho, hr, hw, hs⟩ := steps_untouched.exec hi e
    exact ⟨hp, fun _ _ => ht, fun _ => ⟨ho, hr⟩, fun _ _ => hw, fun _ _ _ => hs⟩

/-! ## Slots and pages -/

theorem slotsInForm_of_eq (h : t.sst.slots = s.sst.slots) (hs : SlotsInForm s) : SlotsInForm t := by
  unfold SlotsInForm at hs ⊢
  rwa [h]

/-- The special steps leave the slots, forget them, or write some in order. -/
theorem stepKeeps_slotsInForm : StepKeeps anyState SlotsInForm := by
  refine stepKeeps_of_exec anyState_setPending (fun _ _ hs => hs) (fun i s t _ hs e => ?_)
  by_cases hi : Special i
  · rcases hi with ⟨a, b, rfl⟩ | rfl | rfl | ⟨v, o, g, rfl⟩ | rfl | rfl | rfl
    · exact Host.Outcome.next.inj e ▸ rfl
    · exact Host.Outcome.next.inj e ▸ slotsInForm_of_eq (startUpEndStep_keeps s).2.2.2.2 hs
    · exact Host.Outcome.next.inj e ▸ slotsInForm_of_eq (resetTakesEffectStep_untouched s).slots hs
    · rcases answer_cases e with (rfl | rfl) | ⟨c, x, p, hc, rfl⟩
      · exact hs
      · exact hs
      · exact (routeRecord_acted hc).slots hs
    · rcases timeout_cases e with rfl | ⟨c, x, p, hc, rfl⟩
      · exact hs
      · exact (routeRecord_acted hc).slots hs
    · exact Host.Outcome.next.inj e ▸ hs
    · exact Host.Outcome.next.inj e ▸ hs
  · exact slotsInForm_of_eq (steps_untouched.exec hi e).slots hs

/-- Settles O53: no step makes or loses a page, and every write keeps the slots in their form. -/
theorem stepKeepsEveryPageOwnedOnce : Obligations.StepKeepsEveryPageOwnedOnce :=
  ⟨stepKeeps_pagesPartitioned, stepKeeps_slotsInForm, fun _ hs => hs.count⟩

end Sys2Proof.Machine

/-! SUPPORT. The rules stay legal: what each command on a rule, START, ABORT and the evaluation of a record make of one rule
(R50, R51, R56, R58). -/

namespace Sys2Proof.Machine

variable {s t : State} {r : Rule} {f : RuleFields}

/-- A rule as R50 and R51 have it. -/
def RuleLegal (r : Rule) : Prop := fieldsLegal r.fields = true ∧ runtimeLegal r = true

theorem rulesLegal_iff : RulesLegal s ↔ ∀ r ∈ s.tgm.rules.toList, RuleLegal r := Iff.rfl

/-! ## What the command of an owner can leave -/

theorem ownTclear_leaves (args : List Byte) (s : State) :
    (ownTclear args s).2 = s ∨ (ownTclear args s).2 = s.setSct { s.sct with working := [] } := by
  unfold ownTclear
  split
  · exact .inl rfl
  · exact .inr rfl

theorem ownTadd_leaves (args : List Byte) (s : State) :
    (ownTadd args s).2 = s ∨
    ∃ es, taddEntries args = some es ∧ s.sct.working.length + es.length ≤ Config.scanEntries ∧
      (ownTadd args s).2 = s.setSct { s.sct with working := s.sct.working ++ es } := by
  unfold ownTadd
  split
  · exact .inl rfl
  · split
    · exact .inl rfl
    · next es he =>
      split
      · exact .inl rfl
      · next hl => exact .inr ⟨es, he, Nat.le_of_not_lt hl, rfl⟩

/-- TCOMMIT is refused, schedules the commit in a run, or switches at once outside one (R86, R87). -/
theorem ownTcommit_leaves (args : List Byte) (s : State) :
    (ownTcommit args s).2 = s ∨
    ((s.aqs.state = .draining ∨ (s.aqs.state = .running ∧ s.sct.working ≠ [])) ∧
      (ownTcommit args s).2 = s.setSct { s.sct with scheduled := true }) ∨
    ((s.aqs.state = .idle ∨ s.aqs.state = .halted) ∧ (ownTcommit args s).2 = switchTables s) := by
  unfold ownTcommit
  cases hst : s.aqs.state with
  | idle => exact .inr (.inr ⟨.inl rfl, rfl⟩)
  | halted => exact .inr (.inr ⟨.inr rfl, rfl⟩)
  | running =>
    by_cases hb : s.sct.scheduled <;> by_cases hw : s.sct.working = [] <;> simp [hb, hw]
  | draining => by_cases hb : s.sct.scheduled <;> simp [hb]

theorem ownCset_leaves (args : List Byte) (s : State) :
    (ownCset args s).2 = s ∨
    ∃ c, readCapture args = some c ∧ (s.aqs.state = .idle ∨ s.aqs.state = .halted) ∧
      (ownCset args s).2 = s.setSgm { s.sgm with settings := c } := by
  unfold ownCset
  split
  · exact .inl rfl
  · next c hc => cases hst : s.aqs.state <;> simp [hc]

theorem ownPset_leaves (args : List Byte) (s : State) :
    (ownPset args s).2 = s ∨
    ∃ p, readPset args = some p ∧ (p.mode = s.aqs.mode ∨ s.aqs.state = .idle) ∧ (ownPset args s).2 = takePacer p s := by
  unfold ownPset
  split
  · exact .inl rfl
  · next p hp =>
    split
    · exact .inl rfl
    · next hm => exact .inr ⟨p, hp, by simpa [or_iff_not_imp_left] using hm, rfl⟩

theorem ownStart_leaves (args : List Byte) (s : State) :
    (ownStart args s).2 = s ∨
    ((s.aqs.state = .idle ∨ s.aqs.state = .halted) ∧ s.sct.active ≠ [] ∧ (ownStart args s).2 = startRun s) := by
  unfold ownStart
  by_cases ha : s.sct.active = [] <;> by_cases hf : freeCount s < 2 <;> cases hst : s.aqs.state <;> simp [ha, hf]

theorem ownForce_leaves (args : List Byte) (s : State) :
    (ownForce args s).2 = s ∨
    (s.aqs.state = .running ∧ (ownForce args s).2 = s.setAqs { s.aqs with forcePending := true }) := by
  unfold ownForce
  by_cases hf : s.aqs.forcePending <;> cases hst : s.aqs.state <;> simp [hf]

/-- STOP ends a run in which nothing fills, drains one in which a segment fills, and is nothing else (R96). -/
theorem stopRun_leaves (s : State) :
    stopRun s = s ∨
    (s.aqs.state = .running ∧ fillingSegment s = none ∧ stopRun s = enterStopped .idle .stop s) ∨
    (s.aqs.state = .running ∧ (∃ d, fillingSegment s = some d) ∧
      stopRun s = reportAcq (s.setAqs { s.aqs with state := .draining, reason := .stop })) := by
  unfold stopRun
  cases hst : s.aqs.state <;> cases hf : fillingSegment s <;> simp

theorem ownSfetch_leaves (args : List Byte) (s : State) :
    (ownSfetch args s).2 = s ∨ (ownSfetch args s).2 = s.setRpe { s.rpe with fetch := s.rpe.fetch ++ [leNat args] } := by
  unfold ownSfetch
  split
  · exact .inl rfl
  · split
    · exact .inl rfl
    · split
      · exact .inl rfl
      · split
        · exact .inl rfl
        · exact .inr rfl

/-- SDROP is refused or discards the COMPLETE segment it names (R42). -/
theorem ownSdrop_leaves (args : List Byte) (s : State) :
    (ownSdrop args s).2 = s ∨
    ∃ d, segmentNumbered (leNat args) s = some d ∧ d.state = .complete ∧
      (ownSdrop args s).2 = discardFirst (hasNumber (leNat args)) .dropped s := by
  unfold ownSdrop
  cases hd : segmentNumbered (leNat args) s with
  | none => exact .inl rfl
  | some d => cases hst : d.state <;> simp [hst]

/-- The commands on rules touch the trigger block only. -/
theorem withRule_leaves (i : Nat) (act : Rule → Answer × Rule) (s : State) : ∃ x, (withRule i act s).2 = s.setTgm x :=
  withRule_meets (R := fun s t => ∃ x, t = s.setTgm x) ⟨s.tgm, rfl⟩ (fun x => ⟨x, rfl⟩) i act

theorem ownRset_leaves (args : List Byte) (s : State) : ∃ x, (ownRset args s).2 = s.setTgm x := by
  unfold ownRset
  split
  · exact ⟨s.tgm, rfl⟩
  · exact withRule_leaves _ _ s

theorem ownRon_leaves (args : List Byte) (s : State) : ∃ x, (ownRon args s).2 = s.setTgm x := by
  unfold ownRon
  split
  · exact withRule_leaves _ _ s
  · exact ⟨s.tgm, rfl⟩

theorem ownRoff_leaves (args : List Byte) (s : State) : ∃ x, (ownRoff args s).2 = s.setTgm x := by
  unfold ownRoff
  split
  · exact withRule_leaves _ _ s
  · exact ⟨s.tgm, rfl⟩

theorem ownRarm_leaves (args : List Byte) (s : State) : ∃ x, (ownRarm args s).2 = s.setTgm x := by
  unfold ownRarm
  split
  · exact withRule_leaves _ _ s
  · exact ⟨s.tgm, rfl⟩

theorem pulseExpiryStep_leaves (s : State) :
    pulseExpiryStep s = s ∨ pulseExpiryStep s = s.setSgm { s.sgm with trgout := false, pulseTimer := none } := by
  unfold pulseExpiryStep
  split
  · exact .inl rfl
  · exact .inr rfl

/-! ## One rule -/

theorem ruleLegal_reset : RuleLegal Rule.reset := ⟨by decide, by decide⟩

/-- A rule at rest: in OFF or ARMED, with no progress and no previous value. -/
theorem RuleLegal.rest (h : RuleLegal r) {st : RuleState} (hst : st = .off ∨ st = .armed) :
    RuleLegal { r with state := st, progress := 0, previous := none } := by
  refine ⟨h.1, ?_⟩
  have hc := ((runtimeLegal_iff r).mp h.2).2.2.2.2.2
  rw [runtimeLegal_iff]
  rcases hst with rfl | rfl <;> exact ⟨by simp, by simp, by simp, by simp, by simp, hc⟩

theorem RuleLegal.armEnabled (h : RuleLegal r) : RuleLegal (armEnabled r) := by
  unfold Machine.armEnabled
  split
  · exact h
  · exact h.rest (.inr rfl)

theorem RuleLegal.ron (h : RuleLegal r) : RuleLegal (ronRule r).2 := by
  unfold ronRule
  split
  · exact h.rest (.inr rfl)
  · exact h

theorem RuleLegal.roff (h : RuleLegal r) : RuleLegal (roffRule r).2 := h.rest (.inl rfl)

/-- A FIRED rule becomes QUALIFYING with progress 1, which is due at once when Q is 1, or ARMED (R61). -/
theorem RuleLegal.rearmed (h : RuleLegal r) (line : Bool) : RuleLegal (rearmed line r) := by
  obtain ⟨-, -, -, hq, -⟩ := fieldsLegal_ranges h.1
  obtain ⟨-, -, -, hext, hprev, hcount⟩ := (runtimeLegal_iff r).mp h.2
  unfold Machine.rearmed
  split
  · split
    · have hdue : 1 < r.fields.qualify ∨ 1 = 1 ∧ r.fields.qualify = 1 := by omega
      exact ⟨h.1, (runtimeLegal_iff _).mpr ⟨by simp, by simp, fun _ => ⟨Nat.le_refl 1, hdue⟩, hext, hprev, hcount⟩⟩
    · exact ⟨h.1, (runtimeLegal_iff _).mpr ⟨by simp, by simp, by simp, hext, hprev, hcount⟩⟩
  · exact h

theorem RuleLegal.rarm (h : RuleLegal r) (line : Bool) : RuleLegal (rarmRule line r).2 := h.rearmed line

theorem signedOf_range (bs : List Byte) : -32768 ≤ signedOf bs ∧ signedOf bs ≤ 32767 := by
  have hlow := BitVec.le_toInt (BitVec.ofNat 16 (leNat bs))
  have hhigh := BitVec.toInt_lt (x := BitVec.ofNat 16 (leNat bs))
  simp only [signedOf]
  omega

theorem fieldsLegal_iff (f : RuleFields) : fieldsLegal f = true ↔
    ((f.condition = .external ∧ f.channel = none) ∨ (f.condition ≠ .external ∧ ∃ n ≤ 15, f.channel = some n)) ∧
    (((f.condition = .inside ∨ f.condition = .outside) ∧ ∃ b, f.thresholdA < b ∧ b ≤ 32767 ∧ f.thresholdB = some b) ∨
      (f.condition ≠ .inside ∧ f.condition ≠ .outside ∧ f.thresholdB = none)) ∧
    -32768 ≤ f.thresholdA ∧ f.thresholdA ≤ 32767 ∧ f.hysteresis ≤ 4095 ∧ 1 ≤ f.qualify ∧ f.qualify ≤ 255 ∧
    (f.condition = .external → f.qualify = 1) ∧ f.priority ≤ 15 := by
  refine ⟨fun h => ⟨fieldsLegal_channel h, fieldsLegal_thresholdB h, fieldsLegal_ranges h⟩, ?_⟩
  rintro ⟨hchan, hb, hlow, hhigh, hh, hq1, hq2, hext, hp⟩
  simp only [fieldsLegal, Bool.and_eq_true, Bool.or_eq_true, decide_eq_true_eq]
  refine ⟨⟨⟨⟨⟨⟨⟨⟨?_, ?_⟩, hlow⟩, hhigh⟩, hh⟩, hq1⟩, hq2⟩, (Decidable.em _).symm.imp_right hext⟩, hp⟩
  · rcases hchan with ⟨he, hn⟩ | ⟨he, n, hle, hn⟩
    · rw [he, hn]
      rfl
    · rw [hn]
      split
      · next h => exact absurd h he
      · next h _ => cases h
      · next h _ => exact decide_eq_true (Option.some.inj h ▸ hle)
  · rcases hb with ⟨hc, b, hab, hle, hn⟩ | ⟨hi, ho, hn⟩
    · rcases hc with hc | hc <;> simp only [hc, hn, hab, hle, decide_true, Bool.and_self]
    · rw [hn]
      split
      · next h => cases h
      · next h => cases h
      · next h _ => exact absurd h hi
      · next h _ => exact absurd h ho
      · rfl
/-- What RSET's argument bytes are read as is legal (R68). -/
theorem readRule_legal {bs : List Byte} (h : readRule bs = some f) : fieldsLegal f = true := by
  unfold readRule at h
  split at h
  · next cond chan a0 a1 b0 b1 h0 h1 q prio opts =>
    obtain ⟨-, hchan, hb, hsc, ha, hh, hq, hp, -⟩ := readRule_eq_some_iff.mp
      (show readRule [cond, chan, a0, a1, b0, b1, h0, h1, q, prio, opts] = some f from h)
    obtain ⟨hh', hq', hqe, hp', -⟩ := ruleScalarsOk_iff.mp hsc
    have hA := signedOf_range [a0, a1]
    have hB := signedOf_range [b0, b1]
    have hqb := q.isLt
    refine (fieldsLegal_iff f).mpr ⟨?_, ?_, by omega, by omega, by omega, by omega, by omega, fun he => hq ▸ hqe he, by omega⟩
    · rcases readChannel_eq_some_iff.mp hchan with ⟨he, hn⟩ | ⟨he, hl, hn⟩
      · exact .inl ⟨he, hn⟩
      · exact .inr ⟨he, _, hl, hn⟩
    · rcases readThresholdB_eq_some_iff.mp hb with ⟨he, -, hl, hn⟩ | hn
      · exact .inl ⟨he, _, ha ▸ hl, hB.2, hn⟩
      · exact .inr hn
  · cases h

theorem RuleLegal.rset (h : RuleLegal r) (bs : List Byte) : RuleLegal (rsetRule (readRule bs) r).2 := by
  unfold rsetRule
  split
  · exact h
  · next f hf =>
    split
    · refine ⟨readRule_legal hf, (runtimeLegal_iff _).mpr ?_⟩
      simp
    · exact h

/-! ## All rules -/

theorem rulesLegal_of_eq (h : t.tgm.rules = s.tgm.rules) (hs : RulesLegal s) : RulesLegal t := by
  unfold RulesLegal at hs ⊢
  rwa [h]

theorem RulesLegal.withRule (hs : RulesLegal s) {act : Rule → Answer × Rule} (ha : ∀ r, RuleLegal r → RuleLegal (act r).2)
    (i : Nat) : RulesLegal (withRule i act s).2 := by
  unfold Machine.withRule
  split
  · next hi =>
    intro r hr
    simp only [State.setTgm_tgm, Vector.toList_set] at hr
    rcases List.mem_or_eq_of_mem_set hr with hr | rfl
    · exact hs r hr
    · exact ha _ (hs _ (by simp))
  · exact hs

theorem RulesLegal.armRules (hs : RulesLegal s) : RulesLegal (armRules s) := by
  intro r hr
  simp only [Machine.armRules, State.setTgm_tgm, Vector.toList_map, List.mem_map] at hr
  obtain ⟨x, hx, rfl⟩ := hr
  exact RuleLegal.armEnabled (hs x hx)

theorem rulesLegal_reset (power : Power) (rate : LinkRate) (slots : SlotMem) (s : State) :
    RulesLegal (resetBlocks power rate slots s) := by
  intro r hr
  simp only [resetBlocks, Tgm.reset, Vector.toList_replicate, List.mem_replicate] at hr
  exact hr.2 ▸ ruleLegal_reset

theorem stopRun_rules (s : State) : (stopRun s).tgm.rules = s.tgm.rules := by
  rcases stopRun_leaves s with e | ⟨-, -, e⟩ | ⟨-, -, e⟩ <;> rw [e]
  · exact (enterIdle_calm _ s).rules
  · rfl

theorem rules_meet : AcqMeet (fun s t => RulesLegal s → RulesLegal t) where
  same _ _ h hs := rulesLegal_of_eq (by rw [h.tgm]) hs
  trans _ _ _ h k hs := k (h hs)
  resets power rate slots s _ _ := rulesLegal_reset power rate slots s
  flush credit s hs := rulesLegal_of_eq (by rw [flushReports_eq]) hs
  tclear args s hs := by
    rcases ownTclear_leaves args s with e | e <;> rw [e] <;> exact rulesLegal_of_eq (s := s) rfl hs
  tadd args s hs := by
    rcases ownTadd_leaves args s with e | ⟨es, -, -, e⟩ <;> rw [e] <;> exact rulesLegal_of_eq (s := s) rfl hs
  tcommit args s hs := by
    rcases ownTcommit_leaves args s with e | ⟨-, e⟩ | ⟨-, e⟩ <;> rw [e]
    · exact hs
    · exact rulesLegal_of_eq (s := s) rfl hs
    · exact rulesLegal_of_eq (switchTables_calm s).rules hs
  rset _ s hs := by unfold ownRset; split <;> [exact hs; exact hs.withRule (fun _ h => h.rset _) _]
  ron _ s hs := by unfold ownRon; split <;> [exact hs.withRule (fun _ h => h.ron) _; exact hs]
  roff _ s hs := by unfold ownRoff; split <;> [exact hs.withRule (fun _ h => h.roff) _; exact hs]
  rarm _ s hs := by unfold ownRarm; split <;> [exact hs.withRule (act := rarmRule s.tgm.lastLine) (fun _ h => h.rarm _) _; exact hs]
  cset args s hs := by
    rcases ownCset_leaves args s with e | ⟨c, -, -, e⟩ <;> rw [e] <;> exact rulesLegal_of_eq (s := s) rfl hs
  pset args s hs := by
    rcases ownPset_leaves args s with e | ⟨p, -, -, e⟩ <;> rw [e] <;> exact rulesLegal_of_eq (s := s) rfl hs
  start args s hs := by
    rcases ownStart_leaves args s with e | ⟨-, -, e⟩ <;> rw [e]
    · exact hs
    · exact rulesLegal_of_eq (s := armRules s) (by rw [startRun_eq, armRules_eq]) hs.armRules
  stop s hs := rulesLegal_of_eq (stopRun_rules s) hs
  abort s hs := by
    rcases abortRun_calm s with e | ⟨v, hv, e⟩
    · rwa [e]
    · rw [e]
      exact rulesLegal_of_eq (enterIdle_calm _ _).rules (RulesLegal.armRules (rulesLegal_of_eq hv.rules hs))
  force args s hs := by
    rcases ownForce_leaves args s with e | ⟨-, e⟩ <;> rw [e] <;> exact rulesLegal_of_eq (s := s) rfl hs
  sfetch args s hs := by
    rcases ownSfetch_leaves args s with e | e <;> rw [e] <;> exact rulesLegal_of_eq (s := s) rfl hs
  sdrop args s hs := by
    rcases ownSdrop_leaves args s with e | ⟨d, -, -, e⟩ <;> rw [e]
    · exact hs
    · exact rulesLegal_of_eq (discardFirst_calm _ _ s).rules hs
  release n s hs := by
    unfold releaseSegment
    split
    · exact hs
    · exact rulesLegal_of_eq (returnPages_calm _ _).rules hs
  deliver _ s _ hs := rulesLegal_of_eq (s := s) rfl hs
  report n pos d s _ _ _ hs := by
    unfold queueSegmentReport
    split <;> exact rulesLegal_of_eq (s := s) rfl hs
  tick s hs := rulesLegal_of_eq (paceTickStep_calm s).rules hs
  late s hs := rulesLegal_of_eq (s := s) rfl hs
  route _ _ _ _ hc hs := (routeRecord_acted hc).rules hs
  rising s hs := rulesLegal_of_eq (s := s) rfl hs
  pulse s hs := by
    rcases pulseExpiryStep_leaves s with e | e <;> rw [e] <;> exact rulesLegal_of_eq (s := s) rfl hs

/-- Settles O56. -/
theorem stepKeepsTheRulesLegal : Obligations.StepKeepsTheRulesLegal := rules_meet.steps.keeps (fun _ _ hs => hs)

end Sys2Proof.Machine

/-! SUPPORT. The queue of steps, power-on and reset, and the command processor (chapters 9 and 11). -/

namespace Sys2Proof.Machine

variable {s t : State} {c : CommandFrame} {args : List Byte}

/-- Settles O1. -/
theorem stepRunsFrontCommand : Obligations.StepRunsFrontCommand :=
  ⟨fun s c rest h => by simp only [step, h], fun s h => by simp only [step, h]⟩

/-! ## Power-on values -/

/-- Every block at its power-on state holds the values of the reset tables. -/
theorem resetBlocks_values (power : Power) (rate : LinkRate) (slots : SlotMem) (s : State) :
    PowerOnValues (resetBlocks power rate slots s) where
  store := by simp [resetBlocks, Sst.reset]
  segments := ⟨rfl, rfl, rfl, rfl, rfl, rfl⟩
  settings := rfl
  rules r hr := by
    simp only [resetBlocks, Tgm.reset, Vector.toList_replicate, List.mem_replicate] at hr
    rw [hr.2]
    exact ⟨rfl, rfl, rfl, rfl, rfl⟩
  latch := ⟨rfl, rfl⟩
  scanTable := ⟨rfl, rfl, rfl, rfl⟩
  sequencer := ⟨rfl, rfl, rfl, rfl, rfl, rfl, rfl, rfl, rfl, rfl, rfl, rfl, rfl⟩
  converter := ⟨rfl, rfl, rfl, rfl, rfl, rfl, rfl, rfl⟩
  reports := ⟨rfl, rfl, rfl, rfl, rfl, rfl, rfl, rfl⟩
  link := ⟨rfl, rfl, rfl, rfl, rfl, rfl, rfl, rfl, rfl, rfl, rfl⟩
  commands := ⟨rfl, rfl, rfl, rfl⟩

theorem exec_powerOn_eq (rate1 rate0 : Bool) (s : State) : exec (.powerOn rate1 rate0) s =
    .next (resetBlocks .startUp (LinkRate.ofStraps rate1 rate0) [] { s with powerOns := s.powerOns + 1 }) := rfl

theorem exec_startUpEnd_startUp (h : s.power = .startUp) :
    exec .startUpEnd s = .next (resetBlocks .ready s.lki.rate s.sst.slots s) := by
  change Host.Outcome.next (startUpEndStep s) = _
  simp only [startUpEndStep, h]

theorem exec_startUpEnd_ready (h : s.power = .ready) : exec .startUpEnd s = .next s := by
  change Host.Outcome.next (startUpEndStep s) = _
  simp only [startUpEndStep, h]

/-- Settles O3: both steps put every block at its power-on state; they differ in the power, the link rate and the slots. -/
theorem powerOnGivesPowerOnValues : Obligations.PowerOnGivesPowerOnValues := by
  refine ⟨fun rate1 rate0 s => ?powerOn, fun s h => ?startUpEnd, fun s h => exec_startUpEnd_ready h,
    fun s b v o g h => ?unsampled⟩
  case powerOn =>
    refine ⟨_, exec_powerOn_eq rate1 rate0 s, resetBlocks_values _ _ _ _, rfl, rfl, rfl, ?_, fun a => rfl⟩
    cases rate1 <;> cases rate0 <;> rfl
  case startUpEnd =>
    exact ⟨_, exec_startUpEnd_startUp h, resetBlocks_values _ _ _ _, rfl, rfl, rfl, rfl, fun a => rfl⟩
  case unsampled =>
    refine ⟨?_, ?_, ?_⟩
    · change execReceivedByte b s = _
      simp only [execReceivedByte, h, if_true]
    · change execLineBreak s = _
      simp only [execLineBreak, h, if_true]
    · change execConverterAnswer v o g s = _
      simp only [execConverterAnswer, h, if_true]

/-- The state after reset is one in which every block has its power-on state. -/
theorem reset_eq_resetBlocks : State.reset = resetBlocks .ready .r115200 [] State.reset := rfl

/-- Settles O4: with every queue, list and table empty and acquisition in IDLE each invariant is a fact about constants. -/
theorem resetMeetsTheInvariants : Obligations.ResetMeetsTheInvariants := by
  refine ⟨reset_eq_resetBlocks ▸ resetBlocks_values _ _ _ _, ?pages, rfl, rfl, ?pacing, ?run, ?windows,
    reset_eq_resetBlocks ▸ rulesLegal_reset _ _ _ _, ?report, ?session, ?fetch, ?references, ?link, ?generation⟩
  case pages => simp [PagesPartitioned, State.reset, Sst.reset, Sgm.reset, Config.storePages]
  case pacing => constructor <;> simp [State.reset, Aqs.reset, Cvp.reset, acquiring]
  case run =>
    constructor <;>
      simp [State.reset, Aqs.reset, Sgm.reset, Sst.reset, Sct.reset, fillingSegment]
  case windows => exact ⟨by decide, by simp [State.reset, Sgm.reset]⟩
  case report =>
    constructor <;> simp [State.reset, Rpe.reset, pendingSegments, numberedUpTo]
  case session => constructor <;> simp [State.reset, Lki.reset, Rpe.reset]
  case fetch => constructor <;> simp [State.reset, Rpe.reset]
  case references => constructor <;> simp [State.reset, Sgm.reset, Rpe.reset, allReports]
  case link => constructor <;> simp [State.reset, Lki.reset, Cmp.reset, receiverOk, placesUsed]
  case generation => simp [GenerationNamed, State.reset, Sgm.reset]

/-! ## RESET (R172, R185, R186) -/

theorem exec_reset_eq (h : Taken c 0x05 [] s) :
    exec .reset s = .next (replied c 0x05 .ok [] { s with cmp := { s.cmp with resetHold := true } }) :=
  congrArg Host.Outcome.next (dealWith_owner (lengthOk := argCount 0) (owner := ownReset) h rfl (.inr rfl))

/-- No command is taken while one of the four conditions of R175 fails. -/
theorem exec_commandTake_refused (h : s.cmp.queue = [] ∨ s.cmp.taken ≠ none ∨ 5 ≤ s.lki.replies.length ∨
    s.cmp.resetHold = true) : exec .commandTake s = .next s := by
  change Host.Outcome.next (commandTakeStep s) = _
  unfold commandTakeStep
  split
  · rfl
  · next c rest hq =>
    have hno : canTake s = false := by
      rcases h with h | h | h | h
      · simp [hq] at h
      · simp [canTake, Option.isNone_iff_eq_none, h]
      · simp [canTake, Config.replyPlaces, Nat.not_lt.mpr h]
      · simp [canTake, h]
    simp [hno]

theorem exec_commandTake_takes {rest : List CommandFrame} (hq : s.cmp.queue = c :: rest) (ht : s.cmp.taken = none)
    (hr : s.lki.replies.length < 5) (hh : s.cmp.resetHold = false) :
    exec .commandTake s = .next { s with cmp := { s.cmp with queue := rest, taken := some c } } := by
  change Host.Outcome.next (commandTakeStep s) = _
  simp only [commandTakeStep, hq]
  rw [if_pos (by simp [canTake, hq, ht, hh, Config.replyPlaces, hr])]
  rfl

/-- The frame on the line is the RESET reply, and CMP holds further commands (R172, R185). -/
theorem sendingResetReply_iff : sendingResetReply s = true ↔
    s.cmp.resetHold = true ∧ ∃ tag fields bytes, s.lki.tx = some ⟨.reply ⟨tag, 0x05, .ok, fields⟩, bytes⟩ := by
  unfold sendingResetReply
  rw [Bool.and_eq_true]
  refine and_congr_right fun _ => ?_
  split
  · next r bytes htx =>
    obtain ⟨tag, code, result, fields⟩ := r
    simp [htx]
  · next hno =>
    refine ⟨fun h => by simp at h, ?_⟩
    rintro ⟨tag, fields, bytes, htx⟩
    exact absurd htx (hno _ _)

theorem resetDueNow_iff : resetDueNow s = true ↔ s.lki.resetDue = true ∨
    (s.cmp.resetHold = true ∧ ∃ tag fields bytes, s.lki.tx = some ⟨.reply ⟨tag, 0x05, .ok, fields⟩, bytes⟩) := by
  rw [resetDueNow, Bool.or_eq_true, sendingResetReply_iff]

theorem exec_frameEnd_resetReply (h : sendingResetReply s = true) :
    exec .frameEnd s = .next { s with lki := { s.lki with tx := none, resetDue := true } } := by
  obtain ⟨-, tag, fields, bytes, htx⟩ := sendingResetReply_iff.mp h
  change execFrameEnd s = _
  unfold execFrameEnd
  rw [if_neg (by simp [htx]), if_pos h]
  rfl

theorem exec_resetTakesEffect_due (h : resetDueNow s = true) :
    exec .resetTakesEffect s = .next (resetBlocks s.power s.lki.rate s.sst.slots s) :=
  congrArg Host.Outcome.next (if_pos h)

/-- Settles O10: the reset comes when the RESET reply is the frame on the line or was the last one there. -/
theorem resetFollowsItsReply : Obligations.ResetFollowsItsReply := by
  refine ⟨⟨fun c s h => exec_reset_eq h, fun s h => exec_commandTake_refused (.inr (.inr (.inr h))),
    fun s r bytes hh htx hc hr => ?frameEnd, fun s h => ?start⟩, fun s h => ?due, fun s hd h => ?notDue⟩
  case frameEnd =>
    obtain ⟨tag, code, result, fields⟩ := r
    subst hc hr
    exact exec_frameEnd_resetReply (sendingResetReply_iff.mpr ⟨hh, tag, fields, bytes, htx⟩)
  case start =>
    change execTransmitFrameStart s = _
    unfold execTransmitFrameStart
    rw [if_neg (by simp [h])]
  case due =>
    exact ⟨_, exec_resetTakesEffect_due (resetDueNow_iff.mpr h), resetBlocks_values _ _ _ _, rfl, rfl, rfl, rfl, rfl, rfl, rfl⟩
  case notDue =>
    have hno : resetDueNow s = false := by
      rw [Bool.eq_false_iff]
      intro hdue
      rcases resetDueNow_iff.mp hdue with hr | ⟨hhold, tag, fields, bytes, htx⟩
      · simp [hd] at hr
      · rcases h with h | h
        · simp [h] at hhold
        · exact h tag fields bytes htx
    change Host.Outcome.next (resetTakesEffectStep s) = _
    simp [resetTakesEffectStep, hno]

/-! ## COMMAND_FRAME (R174) -/

theorem exec_commandFrame_eq {rest : List Accepted} (h : s.lki.accepted = .command c :: rest) :
    exec .commandFrame s = .next (offerFrame c (s.setLki { s.lki with accepted := rest })) := by
  change Host.Outcome.next (commandFrameStep s) = _
  simp only [commandFrameStep, h]

/-- A notice waiting is kept, and the count rises (R157). -/
theorem raiseNotice_eq (reason : NoticeReason) (tag : Byte) (l : Lki) : raiseNotice reason tag l =
    { l with notice := some (l.notice.getD ⟨reason, tag⟩), errors := min 65535 (l.errors + 1) } := by
  unfold raiseNotice
  cases l.notice <;> rfl

/-- Settles O5. -/
theorem acceptedCommandsAreQueuedAndTaken : Obligations.AcceptedCommandsAreQueuedAndTaken := by
  refine ⟨⟨fun s c rest h => ⟨fun hq => ?queued, fun hq hp => ?busy, fun hq hp => ?dropped⟩, fun s h => ?none⟩,
    fun s c rest hq ht hr hh => exec_commandTake_takes hq ht hr hh, fun s h => exec_commandTake_refused h⟩
  case queued =>
    rw [exec_commandFrame_eq h, offerFrame, if_pos (by exact hq)]
    rfl
  case busy =>
    rw [exec_commandFrame_eq h, offerFrame, if_neg (by exact Nat.not_lt.mpr hq), refuseFrame, if_pos (by exact hp)]
    rfl
  case dropped =>
    rw [exec_commandFrame_eq h, offerFrame, if_neg (by exact Nat.not_lt.mpr hq), refuseFrame,
      if_neg (by exact Nat.not_lt.mpr hp), raiseNotice_eq]
    rfl
  case none =>
    change Host.Outcome.next (commandFrameStep s) = _
    unfold commandFrameStep
    split
    · next c rest he => exact absurd he (h c rest)
    all_goals rfl

/-! ## What an owner answers (R178, R179) -/

/-- What an owner leaves alone of the link and the command processor. -/
structure LinkKept (s t : State) : Prop where
  rx : t.lki.rx = s.lki.rx
  buffer : t.lki.buffer = s.lki.buffer
  gapTimer : t.lki.gapTimer = s.lki.gapTimer
  errors : t.lki.errors = s.lki.errors
  replies : t.lki.replies = s.lki.replies
  queue : t.cmp.queue = s.cmp.queue
  taken : t.cmp.taken = s.cmp.taken
  cache : t.cmp.cache = s.cmp.cache

theorem LinkKept.refl (s : State) : LinkKept s s := ⟨rfl, rfl, rfl, rfl, rfl, rfl, rfl, rfl⟩

theorem LinkKept.of_eq (hl : t.lki = s.lki) (hc : t.cmp = s.cmp) : LinkKept s t := by
  constructor <;> simp only [hl, hc]

theorem InnerFrame.linkKept (h : InnerFrame s t) : LinkKept s t := .of_eq h.lki h.cmp

/-- An owner's answer: a refusal carries no fields and changes nothing, and no owner touches CMP's queue or a reply. -/
structure OwnerAnswers (s : State) (x : Answer × State) : Prop where
  refused : x.1.result ≠ .ok → x.1.fields = [] ∧ x.2 = s
  kept : LinkKept s x.2

theorem OwnerAnswers.refuse (r : Result) (s : State) : OwnerAnswers s (refuse r, s) := ⟨fun _ => ⟨rfl, rfl⟩, .refl s⟩

theorem OwnerAnswers.okWith (fields : List Byte) (h : LinkKept s t) : OwnerAnswers s (okWith fields, t) :=
  ⟨fun h => absurd rfl h, h⟩

theorem OwnerAnswers.inner (fields : List Byte) (h : InnerFrame s t) : OwnerAnswers s (Machine.okWith fields, t) :=
  .okWith fields h.linkKept

theorem withRule_answers {act : Rule → Answer × Rule} (i : Nat) (s : State)
    (h : ∀ r, (act r).1.result ≠ .ok → (act r).1.fields = [] ∧ (act r).2 = r) : OwnerAnswers s (withRule i act s) := by
  rcases Nat.lt_or_ge i 16 with hi | hi
  · refine ⟨fun hr => ?_, (withRule_inner i act s).linkKept⟩
    · have hres : (act s.tgm.rules[i]).1.result ≠ .ok := by simpa only [withRule, hi, dite_true] using hr
      obtain ⟨hf, hsame⟩ := h _ hres
      rw [withRule_unchanged (s := s) (act := act) hi (Prod.ext rfl hsame)]
      exact ⟨hf, rfl⟩
  · rw [withRule_noent act hi]
    exact .refuse _ s

section
variable (args : List Byte) (s : State)

theorem ownHello_answers : OwnerAnswers s (ownHello args s) := by
  unfold ownHello
  split
  · split
    · exact .refuse _ s
    · next a ha =>
      refine .okWith _ ?_
      cases a.keep
      · simp only [helloFlush, flushReports_eq]
        exact ⟨rfl, rfl, rfl, rfl, rfl, rfl, rfl, rfl⟩
      · exact ⟨rfl, rfl, rfl, rfl, rfl, rfl, rfl, rfl⟩
  · exact .refuse _ s

theorem ownReplay_answers (args : List Byte) (s : State) : OwnerAnswers s (ownReplay args s) :=
  .okWith _ ⟨rfl, rfl, rfl, rfl, rfl, rfl, rfl, rfl⟩

theorem ownReset_answers (args : List Byte) (s : State) : OwnerAnswers s (ownReset args s) :=
  .okWith _ ⟨rfl, rfl, rfl, rfl, rfl, rfl, rfl, rfl⟩

theorem ownBye_answers : OwnerAnswers s (ownBye args s) := by
  refine .okWith _ ?_
  rw [flushReports_eq]
  exact ⟨rfl, rfl, rfl, rfl, rfl, rfl, rfl, rfl⟩

theorem ownTclear_answers : OwnerAnswers s (ownTclear args s) := by
  unfold ownTclear
  split
  · exact .refuse _ s
  · exact .okWith _ ⟨rfl, rfl, rfl, rfl, rfl, rfl, rfl, rfl⟩

theorem ownTadd_answers : OwnerAnswers s (ownTadd args s) := by
  unfold ownTadd
  split
  · exact .refuse _ s
  · split
    · exact .refuse _ s
    · split
      · exact .refuse _ s
      · exact .okWith _ ⟨rfl, rfl, rfl, rfl, rfl, rfl, rfl, rfl⟩

theorem ownTread_answers : OwnerAnswers s (ownTread args s) := by
  unfold ownTread
  split
  · split
    · exact .okWith _ ⟨rfl, rfl, rfl, rfl, rfl, rfl, rfl, rfl⟩
    · exact .refuse _ s
  · exact .refuse _ s

theorem ownTcommit_answers : OwnerAnswers s (ownTcommit args s) := by
  unfold ownTcommit
  split
  · exact .inner _ (switchTables_inner s)
  · exact .inner _ (switchTables_inner s)
  all_goals
    split
    · exact .refuse _ s
    · split
      · exact .refuse _ s
      · exact .okWith _ ⟨rfl, rfl, rfl, rfl, rfl, rfl, rfl, rfl⟩

theorem ownRset_answers : OwnerAnswers s (ownRset args s) := by
  unfold ownRset
  split
  · exact .refuse _ s
  · next index rest =>
    refine withRule_answers _ s fun r hr => ?_
    unfold rsetRule at hr ⊢
    split
    · exact ⟨rfl, rfl⟩
    · split
      · next f hf hoff => simp [hf, hoff, Machine.okWith] at hr
      · exact ⟨rfl, rfl⟩

theorem ownRon_answers : OwnerAnswers s (ownRon args s) := by
  unfold ownRon
  split
  · refine withRule_answers _ s fun r hr => absurd ?_ hr
    unfold ronRule
    split <;> rfl
  · exact .refuse _ s

theorem ownRoff_answers : OwnerAnswers s (ownRoff args s) := by
  unfold ownRoff
  split
  · exact withRule_answers _ s fun r hr => absurd rfl hr
  · exact .refuse _ s

theorem ownRarm_answers : OwnerAnswers s (ownRarm args s) := by
  unfold ownRarm
  split
  · exact withRule_answers _ s fun r hr => absurd rfl hr
  · exact .refuse _ s

theorem ownRread_answers : OwnerAnswers s (ownRread args s) := by
  unfold ownRread
  split
  · exact withRule_answers _ s fun r hr => absurd rfl hr
  · exact .refuse _ s

theorem ownCset_answers : OwnerAnswers s (ownCset args s) := by
  unfold ownCset
  split
  · exact .refuse _ s
  · split
    · exact .refuse _ s
    · exact .refuse _ s
    all_goals exact .okWith _ ⟨rfl, rfl, rfl, rfl, rfl, rfl, rfl, rfl⟩

theorem ownPset_answers : OwnerAnswers s (ownPset args s) := by
  unfold ownPset
  split
  · exact .refuse _ s
  · split
    · exact .refuse _ s
    · exact .okWith _ ⟨rfl, rfl, rfl, rfl, rfl, rfl, rfl, rfl⟩

theorem ownStart_answers : OwnerAnswers s (ownStart args s) := by
  unfold ownStart
  split
  · exact .refuse _ s
  · exact .refuse _ s
  all_goals
    split
    · exact .refuse _ s
    · split
      · exact .refuse _ s
      · exact .inner _ (startRun_inner s)

theorem ownForce_answers : OwnerAnswers s (ownForce args s) := by
  unfold ownForce
  split
  · split
    · exact .refuse _ s
    · exact .okWith _ ⟨rfl, rfl, rfl, rfl, rfl, rfl, rfl, rfl⟩
  all_goals exact .refuse _ s

theorem ownSfetch_answers : OwnerAnswers s (ownSfetch args s) := by
  unfold ownSfetch
  split
  · exact .refuse _ s
  · split
    · exact .refuse _ s
    · split
      · exact .okWith _ ⟨rfl, rfl, rfl, rfl, rfl, rfl, rfl, rfl⟩
      · split
        · exact .refuse _ s
        · exact .okWith _ ⟨rfl, rfl, rfl, rfl, rfl, rfl, rfl, rfl⟩

theorem ownSdrop_answers : OwnerAnswers s (ownSdrop args s) := by
  unfold ownSdrop
  split
  · exact .refuse _ s
  · split
    · exact .refuse _ s
    · exact .inner _ (discardFirst_inner s _ _)
    all_goals exact .refuse _ s

end

/-- How the step of a known code deals with a command: what it makes of the length, the session and the owner. -/
structure DealsAs (i : Instr) (code : Byte) (lengthOk : List Byte → Bool) (owner : List Byte → State → Answer × State) :
    Prop where
  exec_eq : ∀ s, exec i s = .next (dealWith code lengthOk (takenInClosed code) owner s)
  length : ∀ args, lengthOk args = true ↔ args.length = argumentCount code args
  answers : ∀ args s, OwnerAnswers s (owner args s)

theorem argCount_iff {n : Nat} : argCount n args = true ↔ args.length = n := by simp [argCount]

theorem taddLength_iff : taddLength args = true ↔ args.length = 1 + 4 * (args.headD 0).toNat := by
  cases args with
  | nil => simp [taddLength]
  | cons c rest => simp [taddLength, Nat.add_comm]

/-- Every host command passes the same stages, with its code, length and owner (R173). -/
theorem hostCommand_deals {i : Instr} {code : Byte} (hi : commandCode i = some code) :
    ∃ lengthOk owner, DealsAs i code lengthOk owner := by
  cases i <;> simp only [commandCode, Option.some.injEq, reduceCtorEq] at hi <;> subst hi
  case hello => exact ⟨argCount 3, ownHello, fun _ => rfl, fun _ => argCount_iff, ownHello_answers⟩
  case bye => exact ⟨argCount 0, ownBye, fun _ => rfl, fun _ => argCount_iff, ownBye_answers⟩
  case replay => exact ⟨argCount 0, ownReplay, fun _ => rfl, fun _ => argCount_iff, ownReplay_answers⟩
  case ident => exact ⟨argCount 0, ownIdent, fun _ => rfl, fun _ => argCount_iff, fun _ s => .okWith _ (.refl s)⟩
  case status => exact ⟨argCount 0, ownStatus, fun _ => rfl, fun _ => argCount_iff, fun _ s => .okWith _ (.refl s)⟩
  case reset => exact ⟨argCount 0, ownReset, fun _ => rfl, fun _ => argCount_iff, ownReset_answers⟩
  case tclear => exact ⟨argCount 0, ownTclear, fun _ => rfl, fun _ => argCount_iff, ownTclear_answers⟩
  case tadd => exact ⟨taddLength, ownTadd, fun _ => rfl, fun _ => taddLength_iff, ownTadd_answers⟩
  case tread => exact ⟨argCount 3, ownTread, fun _ => rfl, fun _ => argCount_iff, ownTread_answers⟩
  case tcommit => exact ⟨argCount 0, ownTcommit, fun _ => rfl, fun _ => argCount_iff, ownTcommit_answers⟩
  case rset => exact ⟨argCount 12, ownRset, fun _ => rfl, fun _ => argCount_iff, ownRset_answers⟩
  case ron => exact ⟨argCount 1, ownRon, fun _ => rfl, fun _ => argCount_iff, ownRon_answers⟩
  case roff => exact ⟨argCount 1, ownRoff, fun _ => rfl, fun _ => argCount_iff, ownRoff_answers⟩
  case rarm => exact ⟨argCount 1, ownRarm, fun _ => rfl, fun _ => argCount_iff, ownRarm_answers⟩
  case rread => exact ⟨argCount 1, ownRread, fun _ => rfl, fun _ => argCount_iff, ownRread_answers⟩
  case cset => exact ⟨argCount 14, ownCset, fun _ => rfl, fun _ => argCount_iff, ownCset_answers⟩
  case cread => exact ⟨argCount 0, ownCread, fun _ => rfl, fun _ => argCount_iff, fun _ s => .okWith _ (.refl s)⟩
  case pset => exact ⟨argCount 7, ownPset, fun _ => rfl, fun _ => argCount_iff, ownPset_answers⟩
  case start => exact ⟨argCount 0, ownStart, fun _ => rfl, fun _ => argCount_iff, ownStart_answers⟩
  case stop => exact ⟨argCount 0, ownStop, fun _ => rfl, fun _ => argCount_iff, fun _ s => .inner _ (stopRun_inner s)⟩
  case abort => exact ⟨argCount 0, ownAbort, fun _ => rfl, fun _ => argCount_iff, fun _ s => .inner _ (abortRun_inner s)⟩
  case force => exact ⟨argCount 0, ownForce, fun _ => rfl, fun _ => argCount_iff, ownForce_answers⟩
  case slist => exact ⟨argCount 0, ownSlist, fun _ => rfl, fun _ => argCount_iff, fun _ s => .okWith _ (.refl s)⟩
  case sfetch => exact ⟨argCount 2, ownSfetch, fun _ => rfl, fun _ => argCount_iff, ownSfetch_answers⟩
  case sdrop => exact ⟨argCount 2, ownSdrop, fun _ => rfl, fun _ => argCount_iff, ownSdrop_answers⟩

theorem DealsAs.badlen {i : Instr} {code : Byte} {lengthOk : List Byte → Bool} {owner : List Byte → State → Answer × State}
    (d : DealsAs i code lengthOk owner) (h : Taken c code args s) (hl : args.length ≠ argumentCount code args) :
    exec i s = .next (replied c code .badlen [] s) := by
  rw [d.exec_eq s, dealWith_badlen h (Bool.eq_false_iff.mpr (fun he => hl ((d.length args).mp he)))]

theorem DealsAs.session {i : Instr} {code : Byte} {lengthOk : List Byte → Bool} {owner : List Byte → State → Answer × State}
    (d : DealsAs i code lengthOk owner) (h : Taken c code args s) (hl : args.length = argumentCount code args)
    (hs : s.lki.session = .closed) (hc : takenInClosed code = false) :
    exec i s = .next (replied c code .session [] s) := by
  rw [d.exec_eq s, hc, dealWith_session h ((d.length args).mpr hl) hs]

/-- Settles O6: a wrong length, a closed session and the owner's answer are the three ways to a reply. -/
theorem everyTakenCommandIsAnswered : Obligations.EveryTakenCommandIsAnswered := by
  intro i code c args s hi h
  obtain ⟨lengthOk, owner, d⟩ := hostCommand_deals hi
  by_cases hl : args.length = argumentCount code args
  case neg => exact ⟨_, _, s, d.badlen h hl, fun _ => ⟨rfl, rfl⟩, rfl, rfl⟩
  by_cases hs : s.lki.session = .closed ∧ takenInClosed code = false
  case pos => exact ⟨_, _, s, d.session h hl hs.1 hs.2, fun _ => ⟨rfl, rfl⟩, rfl, rfl⟩
  have hopen : s.lki.session ≠ .closed ∨ takenInClosed code = true := by
    rwa [not_and_or, Bool.not_eq_false] at hs
  obtain ⟨hrefused, hkept⟩ := d.answers args s
  refine ⟨_, _, _, ?_, hrefused, hkept.replies, hkept.queue⟩
  rw [d.exec_eq s, dealWith_owner h ((d.length args).mpr hl) hopen]

/-! ## The stages before the owner (R176, R177) -/

theorem commandCodes_iff (code : Byte) : code ∈ commandCodes ↔ ∃ i, commandCode i = some code := by
  constructor
  · intro h
    simp only [commandCodes, List.mem_cons, List.not_mem_nil, or_false] at h
    rcases h with rfl | rfl | rfl | rfl | rfl | rfl | rfl | rfl | rfl | rfl | rfl | rfl | rfl | rfl | rfl | rfl | rfl |
      rfl | rfl | rfl | rfl | rfl | rfl | rfl | rfl
    exacts [⟨.hello, rfl⟩, ⟨.bye, rfl⟩, ⟨.ident, rfl⟩, ⟨.status, rfl⟩, ⟨.reset, rfl⟩, ⟨.tclear, rfl⟩, ⟨.tadd, rfl⟩,
      ⟨.tread, rfl⟩, ⟨.tcommit, rfl⟩, ⟨.rset, rfl⟩, ⟨.ron, rfl⟩, ⟨.roff, rfl⟩, ⟨.rarm, rfl⟩, ⟨.rread, rfl⟩, ⟨.cset, rfl⟩,
      ⟨.cread, rfl⟩, ⟨.pset, rfl⟩, ⟨.start, rfl⟩, ⟨.stop, rfl⟩, ⟨.abort, rfl⟩, ⟨.force, rfl⟩, ⟨.slist, rfl⟩,
      ⟨.sfetch, rfl⟩, ⟨.sdrop, rfl⟩, ⟨.replay, rfl⟩]
  · rintro ⟨i, hi⟩
    cases i <;> simp only [commandCode, Option.some.injEq, reduceCtorEq] at hi <;> subst hi <;> decide

theorem exec_unknown_repeat {r : Reply} (h : s.cmp.taken = some c) (hr : cachedReply c s = some r)
    (hp : ∀ code args, c.payload = code :: args → code ∉ commandCodes) :
    exec .unknownCommand s = .next (answerRepeat r s) := by
  change Host.Outcome.next (unknownCommandStep s) = _
  cases he : c.payload with
  | nil => simp only [unknownCommandStep, h, he, hr]
  | cons code args =>
    have hno : commandCodes.contains code = false := by simpa using hp code args he
    simp only [unknownCommandStep, h, he, hr, hno]
    rfl

theorem exec_unknown_code {code : Byte} (h : Taken c code args s) (hp : code ∉ commandCodes) :
    exec .unknownCommand s = .next (replied c code .unknown [] s) := by
  obtain ⟨held, payload, fresh⟩ := h
  change Host.Outcome.next (unknownCommandStep s) = _
  have hno : commandCodes.contains code = false := by simpa using hp
  simp only [unknownCommandStep, held, payload, fresh, hno, finishCommand_eq]
  rfl

theorem exec_unknown_empty (held : s.cmp.taken = some c) (payload : c.payload = []) (fresh : cachedReply c s = none) :
    exec .unknownCommand s = .next (replied c 0 .badlen [] s) := by
  change Host.Outcome.next (unknownCommandStep s) = _
  simp only [unknownCommandStep, held, payload, fresh, finishCommand_eq]
  rfl

/-- Settles O7. -/
theorem commonChecksAnswerFirst : Obligations.CommonChecksAnswerFirst := by
  refine ⟨fun i c r s held htag hcache hcode => ?repeated, fun i code c args s hi h => ?checks,
    fun c code args s h hp => exec_unknown_code h hp, fun c s held hp fresh => exec_unknown_empty held hp fresh,
    commandCodes_iff, rfl⟩
  case repeated =>
    have hr := cachedReply_same htag hcache
    rcases hcode with ⟨code, args, hi, hp⟩ | ⟨rfl, hp⟩
    · obtain ⟨lengthOk, owner, d⟩ := hostCommand_deals hi
      rw [d.exec_eq s, dealWith_repeat held hp hr]
      rfl
    · exact exec_unknown_repeat held hr hp
  case checks =>
    obtain ⟨lengthOk, owner, d⟩ := hostCommand_deals hi
    exact ⟨d.badlen h, d.session h⟩

end Sys2Proof.Machine

/-! SUPPORT. The commands on the status record, the scan table's commit, the settings, the runs and the sessions, and the steps
of the trigger lines and the ack timer. -/

namespace Sys2Proof.Machine

variable {s t u : State} {c : CommandFrame} {args : List Byte} {a : Answer}

/-! ## Fields that are read back at their offsets (R205, R206) -/

/-- The bytes of items that stand one behind the other. -/
def layoutBytes (items : List (Nat × Nat × Nat)) : List Byte := items.flatMap (fun x => leBytes x.2.1 x.2.2)

/-- The items stand one behind the other from an offset on. -/
def laidOut : Nat → List (Nat × Nat × Nat) → Bool
  | _, [] => true
  | o, x :: xs => decide (x.1 = o) && laidOut (o + x.2.1) xs

/-- Every item of a layout can be read back, whatever bytes stand before and after it. -/
theorem readsBack_layout {items : List (Nat × Nat × Nat)} (before after : List Byte)
    (h : laidOut before.length items = true) : ReadsBack (before ++ layoutBytes items ++ after) items := by
  induction items generalizing before with
  | nil => simp [ReadsBack]
  | cons x xs ih =>
    obtain ⟨o, k, v⟩ := x
    simp only [laidOut, Bool.and_eq_true, decide_eq_true_eq] at h
    obtain ⟨rfl, hrest⟩ := h
    intro item hitem hv
    rcases List.mem_cons.mp hitem with rfl | hitem
    · simp only [layoutBytes, List.flatMap_cons, List.append_assoc, List.drop_left]
      rw [List.take_left' (leBytes_length k v), leNat_leBytes k v hv]
    · have hxs := ih (before ++ leBytes k v) (by simpa using hrest) item hitem hv
      simpa [layoutBytes, List.append_assoc] using hxs

theorem ReadsBack.append {bytes : List Byte} {l m : List (Nat × Nat × Nat)} (hl : ReadsBack bytes l)
    (hm : ReadsBack bytes m) : ReadsBack bytes (l ++ m) := fun item hitem =>
  (List.mem_append.mp hitem).elim (hl item) (hm item)

/-! ## STATUS (R184) -/

theorem statusReports_eq (r : Rpe) : statusReports r =
    [byte1 r.queue.length, byte1 (pendingSegments r), byte1 r.outstanding.length, byte1 r.credit, byte1 r.nextSeq] ++
      leBytes 2 r.lost ++ [byte1 r.fetch.length, byte1 (flagBit r.slot.isSome 0)] ++
      leBytes 2 ((r.slot.map Prod.fst).getD 0) := by
  unfold statusReports
  rcases r.slot with _ | ⟨n, pos⟩ <;> rfl

/-- The STATUS form is the layout of the status items. -/
theorem statusFields_eq (s : State) : statusFields s = layoutBytes (statusItems s) := by
  rw [statusFields, statusReports_eq]
  rfl

/-- Settles O9. -/
theorem statusShowsOneMoment : Obligations.StatusShowsOneMoment := by
  intro c s h
  refine ⟨statusFields s, congrArg Host.Outcome.next (dealWith_owner (lengthOk := argCount 0) (owner := ownStatus) h rfl
    (.inr rfl)), rfl, ?_⟩
  have hread := readsBack_layout (items := statusItems s) [] [] rfl
  rwa [List.nil_append, List.append_nil, ← statusFields_eq] at hread

/-! ## TCOMMIT (R86 to R89) -/

theorem exec_tcommit_eq {t : State} (h : Taken c 0x13 [] s) (hs : s.lki.session ≠ .closed) (ha : ownTcommit [] s = (a, t)) :
    exec .tcommit s = .next (replied c 0x13 a.result a.fields t) :=
  congrArg Host.Outcome.next (dealWith_answered h rfl hs ha)

/-- Settles O14. -/
theorem tcommitSwitchesOrSchedules : Obligations.TcommitSwitchesOrSchedules := by
  intro c s h hs
  refine ⟨fun hst => ?now, fun hst hb => ?busy, fun hst hb hw => ?empty, fun hst hb => ?scheduled⟩
  case now =>
    have ha : ownTcommit [] s = (okWith (tcommitFields false (wrapInc 65536 s.sct.generation)), switched s) := by
      rcases hst with hst | hst <;> simp only [ownTcommit, hst, switchTables_eq]
    exact exec_tcommit_eq h hs ha
  case busy =>
    refine exec_tcommit_eq h hs (a := refuse .busy) ?_
    rcases hst with hst | hst <;> simp [ownTcommit, hst, hb]
  case empty =>
    refine exec_tcommit_eq h hs (a := refuse .state) ?_
    simp [ownTcommit, hst, hb, hw]
  case scheduled =>
    have ha : ownTcommit [] s =
        (okWith (tcommitFields true s.sct.generation), s.setSct { s.sct with scheduled := true }) := by
      rcases hst with hst | ⟨hst, hw⟩
      · simp [ownTcommit, hst, hb]
      · simp [ownTcommit, hst, hb, hw]
    exact exec_tcommit_eq h hs ha

/-! ## CSET, CREAD and PSET (R193, R194) -/

theorem exec_cset_eq (h : Taken c 0x30 args s) (hl : args.length = 14) (hs : s.lki.session ≠ .closed)
    (ha : ownCset args s = (a, t)) : exec .cset s = .next (replied c 0x30 a.result a.fields t) :=
  congrArg Host.Outcome.next (dealWith_answered h (argCount_iff.mpr hl) hs ha)

theorem exec_pset_eq (h : Taken c 0x32 args s) (hl : args.length = 7) (hs : s.lki.session ≠ .closed)
    (ha : ownPset args s = (a, t)) : exec .pset s = .next (replied c 0x32 a.result a.fields t) :=
  congrArg Host.Outcome.next (dealWith_answered h (argCount_iff.mpr hl) hs ha)

theorem Retrigger.ofCode_none {n : Nat} (h : 1 < n) : Retrigger.ofCode n = none := by
  obtain ⟨k, rfl⟩ := Nat.exists_eq_add_of_lt h
  rw [show 1 + k + 1 = k + 2 by omega]
  rfl

theorem CaptureMode.ofCode_none {n : Nat} (h : 1 < n) : CaptureMode.ofCode n = none := by
  obtain ⟨k, rfl⟩ := Nat.exists_eq_add_of_lt h
  rw [show 1 + k + 1 = k + 2 by omega]
  rfl

theorem DeliveryMode.ofCode_none {n : Nat} (h : 1 < n) : DeliveryMode.ofCode n = none := by
  obtain ⟨k, rfl⟩ := Nat.exists_eq_add_of_lt h
  rw [show 1 + k + 1 = k + 2 by omega]
  rfl

theorem PaceMode.ofCode_none {n : Nat} (h : 1 < n) : PaceMode.ofCode n = none := by
  obtain ⟨k, rfl⟩ := Nat.exists_eq_add_of_lt h
  rw [show 1 + k + 1 = k + 2 by omega]
  rfl

theorem Exhaustion.ofCode_none {n : Nat} (h : 2 < n) : Exhaustion.ofCode n = none := by
  obtain ⟨k, rfl⟩ := Nat.exists_eq_add_of_lt h
  rw [show 2 + k + 1 = k + 3 by omega]
  rfl

/-- A code outside its table, or a number outside its range, is refused (R193). -/
theorem readCapture_refused {p0 p1 q0 q1 m0 m1 retrig exh cap del h0 h1 width low : Byte}
    (h : 2048 < leNat [p0, p1] ∨ leNat [q0, q1] = 0 ∨ 4096 < leNat [q0, q1] ∨ 4096 < leNat [m0, m1] ∨
      leNat [m0, m1] < leNat [p0, p1] + leNat [q0, q1] ∨ 1 < retrig.toNat ∨ 2 < exh.toNat ∨ 1 < cap.toNat ∨
      1 < del.toNat ∨ width.toNat = 0) :
    readCapture [p0, p1, q0, q1, m0, m1, retrig, exh, cap, del, h0, h1, width, low] = none := by
  simp only [readCapture]
  split
  · next hr he hc hd =>
    rw [if_neg]
    simp only [captureRangesOk, Bool.and_eq_true, decide_eq_true_eq]
    rcases h with h | h | h | h | h | h | h | h | h | h
    · omega
    · omega
    · omega
    · omega
    · omega
    · simp [Retrigger.ofCode_none h] at hr
    · simp [Exhaustion.ofCode_none h] at he
    · simp [CaptureMode.ofCode_none h] at hc
    · simp [DeliveryMode.ofCode_none h] at hd
    · omega
  · rfl

/-- A mode outside its table, or a number outside its range, is refused (R194). -/
theorem readPset_refused {i0 i1 i2 i3 mode timeout threshold : Byte}
    (h : leNat [i0, i1, i2, i3] < 4 ∨ 1000000 < leNat [i0, i1, i2, i3] ∨ 1 < mode.toNat ∨ timeout.toNat < 2 ∨
      threshold.toNat = 0 ∨ 15 < threshold.toNat) : readPset [i0, i1, i2, i3, mode, timeout, threshold] = none := by
  simp only [readPset]
  split
  · rfl
  · next m hm =>
    have hmode : ¬ 1 < mode.toNat := fun hlt => by simp [PaceMode.ofCode_none hlt] at hm
    rw [if_neg]
    omega

theorem readPset_psetArguments (p : PsetArgs) (hi : 4 ≤ p.interval) (hi' : p.interval ≤ 1000000) (ht : 2 ≤ p.timeout)
    (ht' : p.timeout ≤ 255) (hh : 1 ≤ p.threshold) (hh' : p.threshold ≤ 15) : readPset (psetArguments p) = some p := by
  obtain ⟨interval, mode, timeout, threshold⟩ := p
  simp only at hi hi' ht ht' hh hh'
  have hinterval := leNat_leBytes 4 interval (by omega)
  have hmode : PaceMode.ofCode (byte1 mode.code).toNat = some mode := by cases mode <;> rfl
  simp only [leBytes] at hinterval
  simp only [psetArguments, leBytes, List.cons_append, List.nil_append, readPset, hmode, hinterval,
    byte1_toNat (show timeout < 256 by omega), byte1_toNat (show threshold < 256 by omega)]
  rw [if_pos ⟨hi, hi', ht, hh, hh'⟩]

theorem captureBytes_length (x : CaptureSettings) : (captureBytes x).length = 14 := rfl

theorem ownCset_badarg (h : readCapture args = none) : ownCset args s = (refuse .badarg, s) := by
  simp only [ownCset, h]

theorem ownPset_badarg (h : readPset args = none) : ownPset args s = (refuse .badarg, s) := by
  simp only [ownPset, h]

/-- Settles O18. -/
theorem settingsCommandsReplaceAndReturn : Obligations.SettingsCommandsReplaceAndReturn := by
  refine ⟨⟨fun c x s h hs hx => ⟨fun hst => ?cset, fun hst => ?csetState⟩, ?csetBadarg⟩, fun c s h hs hx => ?cread,
    fun c p s h hs hi hi' ht ht' hh hh' => ⟨fun hm => ?pset, fun hm hst => ?psetState⟩, ?psetBadarg⟩
  case cset =>
    refine exec_cset_eq (a := okWith []) h rfl hs ?_
    rcases hst with hst | hst <;> simp only [ownCset, readCapture_captureBytes x hx, hst] <;> rfl
  case csetState =>
    refine exec_cset_eq (a := refuse .state) h rfl hs ?_
    rcases hst with hst | hst <;> simp only [ownCset, readCapture_captureBytes x hx, hst]
  case csetBadarg =>
    intro c p0 p1 q0 q1 m0 m1 retrig exh cap del h0 h1 width low s h hs hbad
    exact exec_cset_eq h rfl hs (ownCset_badarg (readCapture_refused hbad))
  case cread =>
    exact ⟨captureBytes s.sgm.settings, congrArg Host.Outcome.next
      (dealWith_owner (lengthOk := argCount 0) (owner := ownCread) h rfl (.inl hs)), rfl, readCapture_captureBytes _ hx⟩
  case pset =>
    refine exec_pset_eq (a := okWith []) h rfl hs ?_
    have hno : ¬ (p.mode ≠ s.aqs.mode ∧ s.aqs.state ≠ .idle) := by tauto
    simp only [ownPset, readPset_psetArguments p hi hi' ht ht' hh hh', if_neg hno]
    rfl
  case psetState =>
    refine exec_pset_eq (a := refuse .state) h rfl hs ?_
    simp only [ownPset, readPset_psetArguments p hi hi' ht ht' hh hh', if_pos (And.intro hm hst)]
  case psetBadarg =>
    intro c i0 i1 i2 i3 mode timeout threshold s h hs hbad
    exact exec_pset_eq h rfl hs (ownPset_badarg (readPset_refused hbad))

/-! ## STOP, ABORT and FORCE (R96, R101, R112) -/

theorem exec_stop_eq (h : Taken c 0x41 [] s) (hs : s.lki.session ≠ .closed) (ht : stopRun s = t) :
    exec .stop s = .next (replied c 0x41 .ok [byte1 t.aqs.state.code] t) :=
  congrArg Host.Outcome.next
    (dealWith_answered (lengthOk := argCount 0) (owner := ownStop) h rfl hs (by rw [ownStop, ht]))

theorem exec_abort_eq (h : Taken c 0x42 [] s) (hs : s.lki.session ≠ .closed) (ht : abortRun s = t) :
    exec .abort s = .next (replied c 0x42 .ok [byte1 t.aqs.state.code] t) :=
  congrArg Host.Outcome.next
    (dealWith_answered (lengthOk := argCount 0) (owner := ownAbort) h rfl hs (by rw [ownAbort, ht]))

theorem exec_force_eq (h : Taken c 0x43 [] s) (hs : s.lki.session ≠ .closed) (ha : ownForce [] s = (a, t)) :
    exec .force s = .next (replied c 0x43 a.result a.fields t) :=
  congrArg Host.Outcome.next (dealWith_answered h rfl hs ha)

theorem stopRun_ends (hst : s.aqs.state = .running) (hf : fillingSegment s = none) :
    stopRun s = enterStopped .idle .stop s := by simp only [stopRun, hst, hf]

theorem stopRun_drains {d : Descriptor} (hst : s.aqs.state = .running) (hf : fillingSegment s = some d) :
    stopRun s = reportAcq (s.setAqs { s.aqs with state := .draining, reason := .stop }) := by
  simp only [stopRun, hst, hf]

theorem stopRun_elsewhere (hst : s.aqs.state ≠ .running) : stopRun s = s := by
  unfold stopRun
  split
  · next hr => exact absurd hr hst
  all_goals rfl

theorem abortRun_idle (hst : s.aqs.state = .idle) : abortRun s = s := by simp only [abortRun, hst]

theorem abortRun_ends (hst : s.aqs.state ≠ .idle) :
    abortRun s = enterStopped .idle .abort (armRules (discardFirst isFilling .aborted (abandon s))) := by
  unfold abortRun
  split
  · next hi => exact absurd hi hst
  all_goals rfl

/-- A discard does not read the converter port, so the conversion may as well be abandoned after it. -/
theorem discardFirst_abandon (p : Descriptor → Bool) (reason : DropReason) (s : State) :
    discardFirst p reason (abandon s) = abandon (discardFirst p reason s) := by
  unfold discardFirst
  simp only [abandon, State.setCvp_sgm]
  split
  · rfl
  · simp only [returnPages_eq]
    rfl

/-- An entry into IDLE or HALTED abandons the conversion itself. -/
theorem Entered.of_abandon {st : AcqState} {r : AcqReason} (h : Entered st r (abandon s) u) : Entered st r s u :=
  ⟨h.sequencer, h.converter, h.segments, h.store, h.scanTable, h.reports, h.others⟩

/-- ABORT enters IDLE from the state in which the FILLING segment is discarded and the rules are armed. -/
theorem abortRun_entered (hst : s.aqs.state ≠ .idle) :
    Entered .idle .abort (withRulesArmed (discardFirst isFilling .aborted s)) (abortRun s) := by
  rw [abortRun_ends hst, discardFirst_abandon, armRules_eq]
  exact Entered.of_abandon (s := withRulesArmed (discardFirst isFilling .aborted s)) (enterStopped_entered _ _ _)

theorem Entered.state {st : AcqState} {r : AcqReason} (h : Entered st r s u) : u.aqs.state = st := by rw [h.sequencer]

/-- Settles O20. -/
theorem stopAndAbortEndARun : Obligations.StopAndAbortEndARun := by
  refine ⟨fun c s h hs => ⟨fun hst hf => ?stopped, fun hst hf => ?drains, fun hst => ?stays⟩,
    fun c s h hs => ⟨fun hst => ?idle, fun hst hf => ?aborted, fun hst d hd => ?discarded⟩⟩
  case stopped =>
    have he := enterStopped_entered .idle .stop s
    have ht := exec_stop_eq h hs (stopRun_ends hst (fillingSegment_none hf))
    rw [he.state] at ht
    exact ⟨_, he, ht⟩
  case drains =>
    obtain ⟨d, hd⟩ := fillingSegment_some hf
    have ht := exec_stop_eq h hs (stopRun_drains hst hd)
    rw [reportAcq_eq] at ht
    exact ht
  case stays => exact exec_stop_eq h hs (stopRun_elsewhere hst)
  case idle =>
    have ht := exec_abort_eq h hs (abortRun_idle hst)
    rw [hst] at ht
    exact ht
  case aborted =>
    have he := abortRun_entered hst
    have hsame : discardFirst isFilling .aborted s = s := by
      have hf' : s.sgm.table.find? isFilling = none := fillingSegment_none hf
      simp only [discardFirst, hf']
    have ht := exec_abort_eq h hs rfl
    rw [he.state] at ht
    rw [hsame] at he
    exact ⟨_, he, ht⟩
  case discarded =>
    have he := abortRun_entered hst
    have ht := exec_abort_eq h hs rfl
    rw [he.state] at ht
    exact ⟨_, _, discardFirst_discarded _ hd, he, ht⟩

/-- Settles O21. -/
theorem forceIsPendingInRunning : Obligations.ForceIsPendingInRunning := by
  refine fun c s h hs => ⟨fun hst hf => ?pending, fun hst hf => ?busy, fun hst => ?state⟩
  case pending =>
    refine exec_force_eq (a := okWith []) h hs ?_
    simp only [ownForce, hst, hf]
    rfl
  case busy =>
    refine exec_force_eq (a := refuse .busy) h hs ?_
    simp only [ownForce, hst, hf, if_true]
  case state =>
    refine exec_force_eq (a := refuse .state) h hs ?_
    unfold ownForce
    split
    · next hr => exact absurd hr hst
    all_goals rfl

/-! ## Sessions (R163, R164, R167, R169) -/

theorem exec_hello_eq (h : Taken c 0x01 args s) (hl : args.length = 3) (ha : ownHello args s = (a, t)) :
    exec .hello s = .next (replied c 0x01 a.result a.fields t) := by
  have hd := dealWith_owner (lengthOk := argCount 3) (owner := ownHello) h (argCount_iff.mpr hl) (.inr rfl)
  rw [ha] at hd
  exact congrArg Host.Outcome.next hd

theorem readHello_flush {steps credit : Byte} (hlow : 1 ≤ steps.toNat) (hhigh : steps.toNat ≤ 250) :
    readHello 0 steps credit = some ⟨false, steps.toNat, credit.toNat⟩ := if_pos ⟨by decide, hlow, hhigh⟩

theorem readHello_keep {steps credit : Byte} (hlow : 1 ≤ steps.toNat) (hhigh : steps.toNat ≤ 250) :
    readHello 1 steps credit = some ⟨true, steps.toNat, credit.toNat⟩ := if_pos ⟨by decide, hlow, hhigh⟩

theorem readHello_refused {choice steps credit : Byte}
    (h : 1 < choice.toNat ∨ steps.toNat = 0 ∨ 250 < steps.toNat) : readHello choice steps credit = none :=
  if_neg (by omega)

/-- Settles O23. -/
theorem helloFlushAndByeTearDown : Obligations.HelloFlushAndByeTearDown := by
  refine ⟨fun c steps credit s h hlow hhigh => ?flush, fun c s h hs => ?bye, fun c choice steps credit s h hbad => ?badarg⟩
  case flush =>
    refine exec_hello_eq (a := okWith [0, 0]) h rfl ?_
    simp only [ownHello, readHello_flush hlow hhigh, helloFlush, flushReports_eq]
    rfl
  case bye =>
    have hb : ownBye [] s = (okWith [], { s with
        rpe := flushed 0 s.rpe, sgm := reverted s.sgm,
        lki := { s.lki with ackTimer := none, retry := 0, session := .closed } }) := by
      simp only [ownBye, flushReports_eq]
      rfl
    exact congrArg Host.Outcome.next (dealWith_answered (lengthOk := argCount 0) h rfl hs hb)
  case badarg =>
    refine exec_hello_eq (a := refuse .badarg) h rfl ?_
    simp only [ownHello, readHello_refused hbad]

/-- Settles O24. -/
theorem helloKeepAndReplayGoBack : Obligations.HelloKeepAndReplayGoBack := by
  refine ⟨fun c steps credit s h hlow hhigh => ?keep, fun c s h hs => ?replay⟩
  case keep =>
    refine exec_hello_eq (a := okWith (helloFields s.rpe)) h rfl ?_
    simp only [ownHello, readHello_keep hlow hhigh]
    rfl
  case replay =>
    exact congrArg Host.Outcome.next (dealWith_owner (lengthOk := argCount 0) (owner := ownReplay) h rfl (.inl hs))

/-- Settles O25. -/
theorem ackTimerExpiryGoesBackOrStalls : Obligations.AckTimerExpiryGoesBackOrStalls := by
  refine ⟨fun s n hn => ⟨fun hr => ?goesBack, fun hr => ?stalls⟩, fun s hn => ?stopped⟩
  all_goals change Host.Outcome.next (ackTimerExpiryStep s) = _
  case goesBack =>
    simp only [ackTimerExpiryStep, hn, if_pos (show s.lki.retry + 1 < 4 by omega)]
    rfl
  case stalls =>
    simp only [ackTimerExpiryStep, hn, if_neg (show ¬ s.lki.retry + 1 < 4 by omega)]
    rfl
  case stopped => simp only [ackTimerExpiryStep, hn]

/-- Settles O45. -/
theorem triggerLinesMoveLatchAndPulse : Obligations.TriggerLinesMoveLatchAndPulse := by
  refine ⟨fun s hst => ?risesRunning, fun s hst => ?rises, fun s => rfl, fun s w hw => ?falls, fun s hw => ?stopped⟩
  case risesRunning =>
    change Host.Outcome.next (trginRisingStep s) = _
    simp [trginRisingStep, hst]
  case rises =>
    change Host.Outcome.next (trginRisingStep s) = _
    simp [trginRisingStep, hst]
  case falls =>
    change Host.Outcome.next (pulseExpiryStep s) = _
    simp only [pulseExpiryStep, hw]
    rfl
  case stopped =>
    change Host.Outcome.next (pulseExpiryStep s) = _
    simp only [pulseExpiryStep, hw]

/-! ## Session and acquisition keep apart (R161, R162) -/

/-- What a session command and the ack timer leave alone (R162). -/
structure SessionOnly (s t : State) : Prop where
  aqs : t.aqs = s.aqs
  cvp : t.cvp = s.cvp
  tgm : t.tgm = s.tgm
  sct : t.sct = s.sct
  sst : t.sst = s.sst
  fetch : t.rpe.fetch = s.rpe.fetch
  sgm : t.sgm = s.sgm ∨ t.sgm = reverted s.sgm

theorem SessionOnly.refl (s : State) : SessionOnly s s := ⟨rfl, rfl, rfl, rfl, rfl, rfl, .inl rfl⟩

theorem SessionOnly.outer (h : SessionOnly s t) (l : Lki) (x : Cmp) : SessionOnly s { t with lki := l, cmp := x } :=
  ⟨h.aqs, h.cvp, h.tgm, h.sct, h.sst, h.fetch, h.sgm⟩

theorem SessionOnly.flush (credit : Nat) (l : Lki) : SessionOnly s (flushReports credit (s.setLki l)) := by
  rw [flushReports_eq]
  exact ⟨rfl, rfl, rfl, rfl, rfl, rfl, .inr rfl⟩

theorem ownHello_sessionOnly (args : List Byte) (s : State) : SessionOnly s (ownHello args s).2 := by
  unfold ownHello
  split
  · split
    · exact .refl s
    · next a ha =>
      simp only
      split
      · exact ⟨rfl, rfl, rfl, rfl, rfl, rfl, .inl rfl⟩
      · exact .flush _ _
  · exact .refl s

theorem dealWith_sessionOnly {code : Byte} {lengthOk : List Byte → Bool} {inClosed : Bool}
    {owner : List Byte → State → Answer × State} (h : ∀ args s, SessionOnly s (owner args s).2) (s : State) :
    SessionOnly s (dealWith code lengthOk inClosed owner s) := by
  rcases dealWith_cases (code := code) (lengthOk := lengthOk) (inClosed := inClosed) (s := s) owner with
    e | ⟨r, e⟩ | ⟨c, args, r, -, e, -⟩ | ⟨c, args, -, -, -, -, e⟩ <;> rw [e]
  · exact .refl s
  · exact (SessionOnly.refl s).outer _ _
  · exact (SessionOnly.refl s).outer _ _
  · exact (h args s).outer _ _

theorem session_sessionOnly {i : Instr} (hi : i = .hello ∨ i = .bye ∨ i = .replay ∨ i = .ackTimerExpiry)
    (e : exec i s = .next t) : SessionOnly s t := by
  rcases hi with rfl | rfl | rfl | rfl <;> injection e with e <;> subst e
  · exact dealWith_sessionOnly ownHello_sessionOnly s
  · exact dealWith_sessionOnly (fun _ s => .flush _ _) s
  · exact dealWith_sessionOnly (fun _ s => ⟨rfl, rfl, rfl, rfl, rfl, rfl, .inl rfl⟩) s
  · unfold ackTimerExpiryStep
    split
    · exact .refl s
    · split <;> exact ⟨rfl, rfl, rfl, rfl, rfl, rfl, .inl rfl⟩

/-- A teardown leaves every segment that is FILLING or COMPLETE in its place (R46). -/
theorem SessionOnly.kept (h : SessionOnly s t) : (∃ table, t.sgm = { s.sgm with table := table }) ∧
    t.sgm.table.length = s.sgm.table.length ∧ ∀ (n : Nat) (d : Descriptor), s.sgm.table[n]? = some d →
      d.state = .filling ∨ d.state = .complete → t.sgm.table[n]? = some d := by
  rcases h.sgm with e | e <;> rw [e]
  · exact ⟨⟨_, rfl⟩, rfl, fun n d hd _ => hd⟩
  · refine ⟨⟨_, rfl⟩, by simp [reverted], fun n d hd hst => ?_⟩
    have hno : ¬ (d.state = .sending ∨ d.state = .sent) := by rcases hst with hst | hst <;> simp [hst]
    simp only [reverted, List.getElem?_map, hd, Option.map_some, if_neg hno]

/-- What the steps of acquisition leave alone (R161). -/
theorem acquisition_apart {i : Instr} (hi : i = .paceTick ∨ i = .conversionTimeout ∨ (∃ v o g, i = .converterAnswer v o g) ∨
    i = .trginRisingEdge ∨ i = .trginFallingEdge ∨ i = .trgoutPulseExpiry) (e : exec i s = .next t) :
    t.lki = s.lki ∧ t.cmp = s.cmp ∧ RpeInner s.rpe t.rpe := by
  rcases hi with hi | hi | hi | rfl | rfl | hi
  · have h := acquisition_inner (.inl hi) e
    exact ⟨h.lki, h.cmp, h.rpe⟩
  · have h := acquisition_inner (.inr (.inl hi)) e
    exact ⟨h.lki, h.cmp, h.rpe⟩
  · have h := acquisition_inner (.inr (.inr (.inl hi))) e
    exact ⟨h.lki, h.cmp, h.rpe⟩
  · injection e with e
    subst e
    exact ⟨rfl, rfl, .refl _⟩
  · injection e with e
    subst e
    exact ⟨rfl, rfl, .refl _⟩
  · have h := acquisition_inner (.inr (.inr (.inr hi))) e
    exact ⟨h.lki, h.cmp, h.rpe⟩

/-- Settles O26. -/
theorem sessionAndAcquisitionKeepApart : Obligations.SessionAndAcquisitionKeepApart := by
  refine ⟨fun i s t hi e => ?session, fun i s t hi e => ?acquisition⟩
  case session =>
    have h := session_sessionOnly hi e
    exact ⟨h.aqs, h.cvp, h.tgm, h.sct, h.sst, h.fetch, h.kept⟩
  case acquisition =>
    obtain ⟨hlki, hcmp, hrpe⟩ := acquisition_apart hi e
    obtain ⟨houtstanding, hnext, hcredit, hresend, hslot⟩ := hrpe.frame
    exact ⟨hlki, hcmp, houtstanding, hnext, hcredit, hresend, hslot, hrpe.queue_prefix⟩

end Sys2Proof.Machine

/-! SUPPORT. The receiver (R151 to R158): breaks, whole frames and damaged ones; and the shape of the link and the command
processor that every step keeps. -/

namespace Sys2Proof.Machine

variable {s t u : State} {l : Lki} {b : Byte} {phase : RxPhase}

/-! ## The receiver's steps -/

theorem exec_lineBreak_hunt (hp : s.power = .ready) (h : s.lki.rx = .hunt) : exec .lineBreak s = .next s := by
  change execLineBreak s = _
  simp only [execLineBreak, hp, h, reduceCtorEq, if_false]

theorem exec_lineBreak_assembling (hp : s.power = .ready) (h : s.lki.rx = .assembling phase) :
    exec .lineBreak s = .next { s with lki := { s.lki with rx := .hunt, buffer := [], gapTimer := none } } := by
  change execLineBreak s = _
  rw [execLineBreak, if_neg (by simp [hp])]
  simp only [h]
  rfl

theorem exec_gapTimerExpiry_running {g : Nat} (h : s.lki.gapTimer = some g) :
    exec .gapTimerExpiry s = .next (s.setLki (giveUp .gap (noticeTag s.lki) s.lki)) := by
  change Host.Outcome.next (gapExpiryStep s) = _
  simp only [gapExpiryStep, h]

theorem exec_gapTimerExpiry_stopped (h : s.lki.gapTimer = none) : exec .gapTimerExpiry s = .next s := by
  change Host.Outcome.next (gapExpiryStep s) = _
  simp only [gapExpiryStep, h]

theorem receiveByte_assembling (h : l.rx = .assembling phase) : receiveByte b l = assembleByte phase b l := by
  simp only [receiveByte, h]

theorem giveUp_eq (reason : NoticeReason) (tag : Byte) (l : Lki) : giveUp reason tag l =
    { l with
      rx := .hunt, buffer := [], gapTimer := none, notice := some (l.notice.getD ⟨reason, tag⟩),
      errors := min 65535 (l.errors + 1) } := raiseNotice_eq reason tag (toHunt l)

/-- The last byte of a frame ends it, good or bad. -/
theorem checkFrame_hunt (b : Byte) (l : Lki) : (checkFrame b l).rx = .hunt := by
  unfold checkFrame
  simp only
  split
  · rfl
  · rw [giveUp_eq]

/-- Settles O28. -/
theorem breakReturnsToHunt : Obligations.BreakReturnsToHunt := by
  refine ⟨fun s phase hp h => exec_lineBreak_assembling hp h, fun s hp h => exec_lineBreak_hunt hp h,
    fun s t b hp h e => ?lastByte, fun s t g hp hg e => ?gap, fun s phase b hp h hb => ?before⟩
  case lastByte =>
    rw [exec_receivedByte_eq hp, receiveByte_assembling h] at e
    cases e
    exact ⟨checkFrame_hunt b s.lki, exec_lineBreak_hunt hp (checkFrame_hunt b s.lki)⟩
  case gap =>
    rw [exec_gapTimerExpiry_running hg, giveUp_eq] at e
    cases e
    exact ⟨rfl, ⟨_, rfl⟩, exec_lineBreak_hunt hp rfl⟩
  case before =>
    refine ⟨_, exec_lineBreak_assembling hp h, rfl, rfl, ?_, exec_gapTimerExpiry_stopped rfl⟩
    rw [exec_receivedByte_eq (by exact hp), receiveByte_hunt_other rfl hb]

/-! ## Frames that are given up (R152, R153, R158) -/

theorem noticeTag_kind {kind tag : Byte} {rest : List Byte} (h : l.buffer = syncByte :: kind :: tag :: rest) :
    noticeTag l = if kind = 0x01 then tag else 0 := by
  simp only [noticeTag, h]
  rfl

/-- With kind, tag, length and payload received, the last CRC byte is checked against the bytes between sync and CRC. -/
theorem checkFrame_frame {kind tag high low : Byte} {payload : List Byte} (hl : payload.length ≤ 250)
    (hb : l.buffer = [0xD7, kind, tag, byte1 payload.length] ++ payload ++ [high]) :
    checkFrame low l =
      if crcBytes (crc ([kind, tag, byte1 payload.length] ++ payload)) = [high, low] then
        toHunt { l with accepted := l.accepted ++ [acceptedFrame l.buffer] }
      else giveUp .crc (noticeTag l) l := by
  have hlen : (byte1 payload.length).toNat = payload.length := byte1_toNat (by omega)
  have hn : (frameByte 3 l).toNat = payload.length := by simp [frameByte, hb, hlen]
  have hhigh : frameByte (4 + payload.length) l = high := by
    simp [frameByte, hb, List.getD_eq_getElem?_getD, Nat.add_comm 4]
  have hcovered : (l.buffer.take (4 + payload.length)).drop 1 = [kind, tag, byte1 payload.length] ++ payload := by
    simp [hb, Nat.add_comm 4]
  simp only [checkFrame, hn, hhigh, hcovered]

/-- Settles O30. -/
theorem damagedOrStalledFrameIsGivenUp : Obligations.DamagedOrStalledFrameIsGivenUp := by
  refine ⟨⟨fun s kind hp h h1 h2 => ?kind, fun s kind tag length hp h hb hbad => ?length,
    fun s kind tag high low payload hp h hl hb hne => ?crc⟩, fun s g hg => ?gap, fun s hg => exec_gapTimerExpiry_stopped hg⟩
  case kind =>
    rw [exec_receivedByte_eq hp, receiveByte_assembling h, ← giveUp_eq]
    have hno : ¬ (kind = kindCommand ∨ kind = kindAck) := by
      rintro (hk | hk)
      · exact h1 hk
      · exact h2 hk
    rw [assembleByte, if_neg hno]
  case length =>
    rw [exec_receivedByte_eq hp, receiveByte_assembling h, ← noticeTag_kind (by exact hb), ← giveUp_eq]
    have hkind : frameByte 1 s.lki = kind := by simp [frameByte, hb]
    have hno : lengthInRange kind length = false := by
      rcases hbad with ⟨rfl, hlen⟩ | ⟨rfl, hlen⟩
      · simp [lengthInRange, kindCommand, hlen]
      · simpa [lengthInRange, kindCommand] using hlen
    simp only [assembleByte, hkind, hno, Bool.false_eq_true, if_false]
  case crc =>
    rw [exec_receivedByte_eq hp, receiveByte_assembling h, ← noticeTag_kind (by exact hb), ← giveUp_eq, assembleByte,
      checkFrame_frame hl hb, if_neg (fun he => hne he.symm)]
  case gap =>
    refine ⟨noticeTag s.lki, ?_, fun t hk ht => ?_, fun hno => ?_⟩
    · rw [exec_gapTimerExpiry_running hg, giveUp_eq]
      rfl
    · simp only [noticeTag, hk, ht]
      rfl
    · unfold noticeTag
      split
      · next k t hk ht =>
        have hkind : k ≠ 0x01 := by
          rintro rfl
          rcases hno with hno | hno
          · exact hno hk
          · simp [hno] at ht
        exact if_neg hkind
      · rfl

/-! ## A whole frame (R151 to R154) -/

/-- The receiver with these bytes of a frame received, in this phase. -/
def assembling (phase : RxPhase) (buffer : List Byte) (l : Lki) : Lki :=
  { l with rx := .assembling phase, buffer := buffer, gapTimer := some Config.gapLimit }

/-- The receiver after these bytes. -/
def receiveAll (bytes : List Byte) (l : Lki) : Lki := bytes.foldl (fun l b => receiveByte b l) l

theorem runAll_receivedByte (bytes : List Byte) (hp : s.power = .ready) :
    runAll (bytes.map Instr.receivedByte) s = .next { s with lki := receiveAll bytes s.lki } := by
  induction bytes generalizing s with
  | nil => rfl
  | cons b bs ih =>
    simp only [List.map_cons, runAll, exec_receivedByte_eq hp]
    rw [ih (by exact hp)]
    rfl

theorem receiveAll_append (xs ys : List Byte) (l : Lki) : receiveAll (xs ++ ys) l = receiveAll ys (receiveAll xs l) :=
  List.foldl_append

/-- Sync, kind, tag and length bring the receiver to the payload, or to the CRC of an empty one. -/
theorem receiveAll_header {kind tag length : Byte} (hr : l.rx = .hunt) (hk : kind = kindCommand ∨ kind = kindAck)
    (hl : lengthInRange kind length = true) :
    receiveAll [0xD7, kind, tag, length] l =
      assembling (if length = 0 then .crc1 else .payload) [0xD7, kind, tag, length] l := by
  have hsync : receiveByte 0xD7 l = assembling .kind [0xD7] l := receiveByte_hunt_sync hr
  have hkind : receiveByte kind (assembling .kind [0xD7] l) = assembling .tag [0xD7, kind] l := by
    simp only [receiveByte, assembling, assembleByte, if_pos hk]
    rfl
  have htag : receiveByte tag (assembling .tag [0xD7, kind] l) = assembling .length [0xD7, kind, tag] l := rfl
  have hlength : receiveByte length (assembling .length [0xD7, kind, tag] l) =
      assembling (if length = 0 then .crc1 else .payload) [0xD7, kind, tag, length] l := by
    have hfield : frameByte 1 (assembling .length [0xD7, kind, tag] l) = kind := rfl
    change assembleByte .length length _ = _
    simp only [assembleByte, hfield, hl, if_true]
    rfl
  simp only [receiveAll, List.foldl_cons, List.foldl_nil, hsync, hkind, htag, hlength]

/-- The bytes of the payload bring the receiver to the CRC. -/
theorem receiveAll_payload {kind tag length : Byte} (done rest : List Byte)
    (hlen : length.toNat = done.length + rest.length) :
    receiveAll rest (assembling (if rest = [] then .crc1 else .payload) ([0xD7, kind, tag, length] ++ done) l) =
      assembling .crc1 ([0xD7, kind, tag, length] ++ (done ++ rest)) l := by
  induction rest generalizing done with
  | nil => simp [receiveAll]
  | cons b bs ih =>
    have hnext : receiveByte b (assembling .payload ([0xD7, kind, tag, length] ++ done) l) =
        assembling (if bs = [] then .crc1 else .payload) ([0xD7, kind, tag, length] ++ (done ++ [b])) l := by
      have hfield : frameByte 3 (assembling .payload ([0xD7, kind, tag, length] ++ done) l) = length := rfl
      have hlast : (([0xD7, kind, tag, length] ++ done).length + 1 = 4 + length.toNat) ↔ bs = [] := by
        simp only [List.length_cons] at hlen
        rw [← List.length_eq_zero_iff, hlen]
        simp only [List.cons_append, List.nil_append, List.length_cons]
        omega
      change assembleByte .payload b _ = _
      simp only [assembleByte, hfield]
      change onward (if ([0xD7, kind, tag, length] ++ done).length + 1 = 4 + length.toNat then .crc1 else .payload) b _ = _
      simp only [hlast, onward, assembling, List.append_assoc]
    have hrest := ih (done ++ [b]) (by simpa [Nat.add_assoc, Nat.add_comm 1] using hlen)
    simp only [List.append_assoc, List.singleton_append] at hrest
    simp only [receiveAll, List.foldl_cons, reduceCtorEq, if_false] at hrest ⊢
    rw [hnext]
    simpa using hrest

/-- The bytes of a whole frame bring the receiver back to HUNT with the frame accepted. -/
theorem receiveAll_frame {kind tag : Byte} {payload : List Byte} (hr : l.rx = .hunt) (hb : l.buffer = [])
    (hg : l.gapTimer = none) (hk : kind = kindCommand ∨ kind = kindAck) (hmax : payload.length ≤ 250)
    (hl : lengthInRange kind (byte1 payload.length) = true) :
    ∃ high, receiveAll (frameBytes kind tag payload) l =
      { l with accepted := l.accepted ++
          [acceptedFrame ([0xD7, kind, tag, byte1 payload.length] ++ payload ++ [high])] } := by
  have hlen : (byte1 payload.length).toNat = payload.length := byte1_toNat (by omega)
  have hempty : byte1 payload.length = 0 ↔ payload = [] := by
    rw [← List.length_eq_zero_iff, ← BitVec.toNat_inj, hlen]
    rfl
  generalize hc : crc ([kind, tag, byte1 payload.length] ++ payload) = c
  refine ⟨c.extractLsb' 8 8, ?_⟩
  have hbytes : frameBytes kind tag payload =
      [0xD7, kind, tag, byte1 payload.length] ++ (payload ++ [c.extractLsb' 8 8, c.extractLsb' 0 8]) := by
    simp only [List.cons_append, List.nil_append] at hc
    simp only [frameBytes, hc, crcBytes]
    rfl
  have hcrc1 : receiveByte (c.extractLsb' 8 8) (assembling .crc1 ([0xD7, kind, tag, byte1 payload.length] ++ payload) l) =
      assembling .crc2 ([0xD7, kind, tag, byte1 payload.length] ++ payload ++ [c.extractLsb' 8 8]) l := rfl
  have hcrc2 : receiveByte (c.extractLsb' 0 8)
      (assembling .crc2 ([0xD7, kind, tag, byte1 payload.length] ++ payload ++ [c.extractLsb' 8 8]) l) =
      { l with accepted := l.accepted ++
          [acceptedFrame ([0xD7, kind, tag, byte1 payload.length] ++ payload ++ [c.extractLsb' 8 8])] } := by
    change checkFrame _ _ = _
    rw [checkFrame_frame hmax rfl, hc, if_pos (by rfl)]
    cases l
    subst hr hb hg
    rfl
  rw [hbytes, receiveAll_append, receiveAll_header hr hk hl, receiveAll_append]
  simp only [hempty]
  rw [show [0xD7, kind, tag, byte1 payload.length] = [0xD7, kind, tag, byte1 payload.length] ++ [] from rfl,
    receiveAll_payload [] payload (by simpa using hlen)]
  simp only [List.nil_append, receiveAll, List.foldl_cons, List.foldl_nil, List.append_nil]
  rw [hcrc1, hcrc2]

/-- Settles O29. -/
theorem frameIsReceivedWhole : Obligations.FrameIsReceivedWhole := by
  refine ⟨fun s tag payload hp hr hb hg hl => ?command, fun s tag seq grant hp hr hb hg => ?ack⟩
  case command =>
    have hlen : (byte1 payload.length).toNat = payload.length := byte1_toNat (by omega)
    obtain ⟨high, he⟩ := receiveAll_frame (kind := 0x01) (tag := tag) hr hb hg (.inl rfl) hl
      (by simp [lengthInRange, kindCommand, hlen, hl])
    rw [runAll_receivedByte _ hp, he]
    have hframe : acceptedFrame ([0xD7, 0x01, tag, byte1 payload.length] ++ payload ++ [high]) =
        .command ⟨tag, payload⟩ := by
      simp [acceptedFrame, framePayload, kindCommand, hlen]
    rw [hframe]
  case ack =>
    obtain ⟨high, he⟩ := receiveAll_frame (kind := 0x02) (tag := tag) (payload := [seq, grant]) hr hb hg (.inr rfl)
      (by simp) rfl
    rw [runAll_receivedByte _ hp, he]
    rfl

/-! ## The shape of the link (R149, R151, R155, R159, R173, R176) -/

theorem receiverOk_hunt (hr : l.rx = .hunt) (hb : l.buffer = []) (hg : l.gapTimer = none) : receiverOk l = true := by
  simp [receiverOk, hr, hb, hg]

theorem receiverOk_toHunt (l : Lki) : receiverOk (toHunt l) = true := receiverOk_hunt rfl rfl rfl

theorem receiverOk_giveUp (reason : NoticeReason) (tag : Byte) (l : Lki) : receiverOk (giveUp reason tag l) = true := by
  rw [giveUp_eq]
  exact receiverOk_hunt rfl rfl rfl

theorem receiverOk_congr {m : Lki} (hr : m.rx = l.rx) (hb : m.buffer = l.buffer) (hg : m.gapTimer = l.gapTimer)
    (h : receiverOk l = true) : receiverOk m = true := by
  rw [receiverOk] at h ⊢
  rwa [hr, hb, hg]

/-- The bytes received so far do not change when one more comes. -/
theorem assemblyOk_fields {buffer : List Byte} (b : Byte) (h : 4 ≤ buffer.length) :
    (buffer ++ [b]).getD 0 0 = buffer.getD 0 0 ∧ (buffer ++ [b]).getD 1 0 = buffer.getD 1 0 ∧
      (buffer ++ [b]).getD 3 0 = buffer.getD 3 0 :=
  ⟨List.getD_append _ _ _ _ (by omega), List.getD_append _ _ _ _ (by omega), List.getD_append _ _ _ _ (by omega)⟩

/-- Each byte of a frame brings the buffer into the form of the next phase. -/
theorem receiverOk_assembleByte (b : Byte) (h : assemblyOk phase l.buffer = true) :
    receiverOk (assembleByte phase b l) = true := by
  have honward : ∀ next, assemblyOk next (l.buffer ++ [b]) = true → receiverOk (onward next b l) = true := fun next hn => by
    simpa [receiverOk, onward] using hn
  simp only [assemblyOk, Bool.and_eq_true, decide_eq_true_eq] at h
  obtain ⟨hsync, h⟩ := h
  cases phase with
  | kind =>
    obtain ⟨x, hx⟩ := List.length_eq_one_iff.mp (by simpa using h)
    simp only [assembleByte]
    split
    · next hk =>
      refine honward _ ?_
      obtain rfl : x = syncByte := by simpa [hx] using hsync
      simpa [hx, assemblyOk] using hk
    · exact receiverOk_giveUp _ _ _
  | tag =>
    simp only [Bool.and_eq_true, Bool.or_eq_true, decide_eq_true_eq] at h
    obtain ⟨x, k, hx⟩ := List.length_eq_two.mp h.1
    refine honward _ ?_
    obtain rfl : x = syncByte := by simpa [hx] using hsync
    simpa [hx, assemblyOk] using h.2
  | length =>
    simp only [Bool.and_eq_true, Bool.or_eq_true, decide_eq_true_eq] at h
    obtain ⟨x, k, t, hx⟩ := List.length_eq_three.mp h.1
    simp only [assembleByte]
    split
    · next hin =>
      refine honward _ ?_
      obtain rfl : x = syncByte := by simpa [hx] using hsync
      have hin' : lengthInRange k b = true := by simpa [hx, frameByte] using hin
      have hk : k = kindCommand ∨ k = kindAck := by simpa [hx] using h.2
      by_cases hb : b = 0
      · rw [if_pos hb]
        simp [hx, assemblyOk, hk, hin', show b.toNat = 0 from congrArg BitVec.toNat hb]
      · have hpos : 0 < b.toNat := Nat.pos_of_ne_zero (fun he => hb (BitVec.eq_of_toNat_eq (by simpa using he)))
        rw [if_neg hb]
        simp [hx, assemblyOk, hk, hin', hpos]
    · exact receiverOk_giveUp _ _ _
  | payload =>
    simp only [Bool.and_eq_true, Bool.or_eq_true, decide_eq_true_eq] at h
    obtain ⟨⟨⟨hlow, hhigh⟩, hkind⟩, hrange⟩ := h
    obtain ⟨h0, h1, h3⟩ := assemblyOk_fields b hlow
    refine honward _ ?_
    by_cases hlast : l.buffer.length + 1 = 4 + (frameByte 3 l).toNat
    · rw [if_pos hlast]
      rw [frameByte] at hlast
      simp only [assemblyOk, h0, h1, h3, hsync, hrange, List.length_append, List.length_singleton, Bool.and_eq_true,
        Bool.or_eq_true, decide_eq_true_eq, true_and, and_true]
      exact ⟨hlast, hkind⟩
    · rw [if_neg hlast]
      rw [frameByte] at hlast
      simp only [assemblyOk, h0, h1, h3, hsync, hrange, List.length_append, List.length_singleton, Bool.and_eq_true,
        Bool.or_eq_true, decide_eq_true_eq, true_and, and_true]
      exact ⟨⟨by omega, by omega⟩, hkind⟩
  | crc1 =>
    simp only [Bool.and_eq_true, Bool.or_eq_true, decide_eq_true_eq] at h
    obtain ⟨⟨hlen, hkind⟩, hrange⟩ := h
    obtain ⟨h0, h1, h3⟩ := assemblyOk_fields b (show 4 ≤ l.buffer.length by omega)
    refine honward _ ?_
    simp only [assemblyOk, h0, h1, h3, hsync, hrange, List.length_append, List.length_singleton, Bool.and_eq_true,
      Bool.or_eq_true, decide_eq_true_eq, true_and, and_true]
    exact ⟨by omega, hkind⟩
  | crc2 =>
    simp only [assembleByte, checkFrame]
    split
    · exact receiverOk_toHunt _
    · exact receiverOk_giveUp _ _ _

theorem receiverOk_receiveByte (b : Byte) (h : receiverOk l = true) : receiverOk (receiveByte b l) = true := by
  cases hr : l.rx with
  | hunt =>
    by_cases hb : b = syncByte
    · subst hb
      rw [receiveByte_hunt_sync hr]
      rfl
    · rwa [receiveByte_hunt_other hr hb]
  | assembling phase =>
    rw [receiveByte_assembling hr]
    simp only [receiverOk, hr, Bool.and_eq_true] at h
    exact receiverOk_assembleByte b h.2

/-- What the receiver leaves alone, and its count of errors. -/
structure RxOnly (l m : Lki) : Prop where
  replies : m.replies = l.replies
  errors : l.errors ≤ Config.counterMax → m.errors ≤ Config.counterMax

theorem giveUp_rxOnly (reason : NoticeReason) (tag : Byte) (l : Lki) : RxOnly l (giveUp reason tag l) := by
  rw [giveUp_eq]
  exact ⟨rfl, fun _ => Nat.min_le_left _ _⟩

theorem receiveByte_rxOnly (b : Byte) (l : Lki) : RxOnly l (receiveByte b l) := by
  unfold receiveByte
  split
  · split <;> exact ⟨rfl, id⟩
  · next phase _ =>
    cases phase <;> simp only [assembleByte, checkFrame]
    case kind => split <;> [exact ⟨rfl, id⟩; exact giveUp_rxOnly _ _ _]
    case length => split <;> [exact ⟨rfl, id⟩; exact giveUp_rxOnly _ _ _]
    case crc2 => split <;> [exact ⟨rfl, id⟩; exact giveUp_rxOnly _ _ _]
    all_goals exact ⟨rfl, id⟩

/-- The oldest `count` reports have left the outstanding list; their segments are still to be released (R136, step 1). -/
def withoutAcked (count : Nat) (s : State) : State :=
  s.setRpe { s.rpe with
    outstanding := s.rpe.outstanding.drop count,
    resend := resendAfter s.rpe.resend (s.rpe.outstanding.drop count) }

theorem removeAcked_eq (count : Nat) (s : State) :
    removeAcked count s = releaseAll (acknowledgedSegments (s.rpe.outstanding.take count)) (withoutAcked count s) := rfl

theorem removeAcked_inner (count : Nat) (s : State) : InnerFrame (withoutAcked count s) (removeAcked count s) :=
  releaseAll_inner _ _

section shape

variable (hs : LinkShape s)

include hs

theorem LinkShape.kept (h : LinkKept s t) : LinkShape t where
  receiver := receiverOk_congr h.rx h.buffer h.gapTimer hs.receiver
  errors := by rw [h.errors]; exact hs.errors
  places := by rw [placesUsed, h.replies, h.taken]; exact hs.places
  queue := by rw [h.queue]; exact hs.queue
  cache := by rw [h.cache]; exact hs.cache

theorem LinkShape.inner (h : InnerFrame s t) : LinkShape t := hs.kept h.linkKept

theorem LinkShape.received {m : Lki} (hr : receiverOk m = true) (h : RxOnly s.lki m) : LinkShape (s.setLki m) where
  receiver := hr
  errors := h.errors hs.errors
  places := by
    rw [placesUsed, State.setLki_lki, h.replies]
    exact hs.places
  queue := hs.queue
  cache := hs.cache

/-- A reply joins the buffer in CMP's place, with a cache that is in order (R178). -/
theorem LinkShape.answered {c : CommandFrame} (ht : s.cmp.taken = some c) (h : LinkKept s u) (r : Reply)
    {cache : Option (Byte × Reply)} (hc : ∀ tag r, cache = some (tag, r) → tag ≠ 0 ∧ r.tag = tag) :
    LinkShape { u with
      lki := { u.lki with replies := u.lki.replies ++ [r] }, cmp := { u.cmp with taken := none, cache := cache } } where
  receiver := receiverOk_congr h.rx h.buffer h.gapTimer hs.receiver
  errors := (hs.kept h).errors
  places := by
    have hp := hs.places
    simp only [placesUsed, ht, Option.isSome_some, if_true] at hp
    simpa [placesUsed, h.replies] using hp
  queue := (hs.kept h).queue
  cache := hc

theorem LinkShape.replied {c : CommandFrame} (ht : s.cmp.taken = some c) (h : LinkKept s u) (code : Byte) (result : Result)
    (fields : List Byte) : LinkShape (replied c code result fields u) := by
  refine hs.answered ht h _ fun tag r hr => ?_
  split at hr
  · cases hr
  · next hne =>
    cases hr
    exact ⟨hne, rfl⟩

theorem LinkShape.answerRepeat {c : CommandFrame} (ht : s.cmp.taken = some c) (r : Reply) :
    LinkShape (answerRepeat r s) := hs.answered ht (.refl s) r hs.cache

theorem LinkShape.deals {i : Instr} {code : Byte} {lengthOk : List Byte → Bool} {owner : List Byte → State → Answer × State}
    (d : DealsAs i code lengthOk owner) (e : exec i s = .next t) : LinkShape t := by
  rw [d.exec_eq s] at e
  cases e
  cases ht : s.cmp.taken with
  | none =>
    simp only [dealWith, ht]
    exact hs
  | some c =>
    rcases dealWith_cases (code := code) (lengthOk := lengthOk) (inClosed := takenInClosed code) (s := s) owner with
      e | ⟨r, e⟩ | ⟨c', args, r, ht', e, -⟩ | ⟨c', args, ht', -, -, -, e⟩ <;> rw [e]
    · exact hs
    · exact hs.answerRepeat ht r
    · exact hs.replied ht' (.refl s) _ _ _
    · exact hs.replied ht' (d.answers args s).kept _ _ _

theorem LinkShape.command {i : Instr} {code : Byte} (hi : commandCode i = some code) (e : exec i s = .next t) :
    LinkShape t := by
  obtain ⟨lengthOk, owner, d⟩ := hostCommand_deals hi
  exact hs.deals d e

theorem LinkShape.unknown : LinkShape (unknownCommandStep s) := by
  unfold unknownCommandStep
  split
  · exact hs
  · next c hc =>
    split
    · split
      · exact hs.answerRepeat hc _
      · rw [finishCommand_eq]
        exact hs.replied hc (.refl s) _ _ _
    · split
      · exact hs
      · split
        · exact hs.answerRepeat hc _
        · rw [finishCommand_eq]
          exact hs.replied hc (.refl s) _ _ _

theorem LinkShape.commandFrameStep : LinkShape (commandFrameStep s) := by
  unfold Machine.commandFrameStep
  split
  · next c rest hc =>
    unfold offerFrame
    split
    · next hq =>
      refine ⟨hs.receiver, hs.errors, hs.places, ?_, hs.cache⟩
      simp only [State.setCmp_cmp, State.setLki_cmp, List.length_append, List.length_singleton] at hq ⊢
      exact hq
    · unfold refuseFrame
      split
      · next hp =>
        refine ⟨hs.receiver, hs.errors, ?_, hs.queue, hs.cache⟩
        have hroom : s.lki.replies.length + (if s.cmp.taken.isSome then 1 else 0) < Config.replyPlaces := hp
        change (s.lki.replies ++ [_]).length + (if s.cmp.taken.isSome then 1 else 0) ≤ Config.replyPlaces
        rw [List.length_append, List.length_singleton]
        omega
      · rw [raiseNotice_eq]
        exact ⟨hs.receiver, Nat.min_le_left _ _, hs.places, hs.queue, hs.cache⟩
  all_goals exact hs

theorem LinkShape.commandTakeStep : LinkShape (commandTakeStep s) := by
  unfold Machine.commandTakeStep
  split
  · exact hs
  · next c rest hq =>
    split
    · next hc =>
      simp only [canTake, Bool.and_eq_true, decide_eq_true_eq] at hc
      refine ⟨hs.receiver, hs.errors, ?_, ?_, hs.cache⟩
      · simpa [placesUsed] using hc.1.2
      · have hl := hs.queue
        simp only [hq, List.length_cons] at hl
        exact Nat.le_of_succ_le hl
    · exact hs

theorem LinkShape.chooseFrame (e : chooseFrame s = .next t) : LinkShape t := by
  rcases chooseFrame_cases e with ⟨n, b, -, rfl⟩ | ⟨r, rest, b, -, hr, rfl⟩ | rfl | ⟨m, r, b, -, -, rfl⟩ |
    ⟨r, rest, b, -, -, -, -, -, rfl⟩
  · exact hs.kept ⟨rfl, rfl, rfl, rfl, rfl, rfl, rfl, rfl⟩
  · refine ⟨hs.receiver, hs.errors, ?_, hs.queue, hs.cache⟩
    have hp := hs.places
    simp only [placesUsed, hr, List.length_cons] at hp ⊢
    omega
  · exact hs
  · exact hs.kept ⟨rfl, rfl, rfl, rfl, rfl, rfl, rfl, rfl⟩
  · exact hs.kept ⟨rfl, rfl, rfl, rfl, rfl, rfl, rfl, rfl⟩

theorem LinkShape.frameEnd (e : execFrameEnd s = .next t) : LinkShape t := by
  unfold execFrameEnd at e
  split at e
  · cases e
    exact hs
  · split at e
    · cases e
      exact hs.kept ⟨rfl, rfl, rfl, rfl, rfl, rfl, rfl, rfl⟩
    · exact (hs.kept (t := s.setLki { s.lki with tx := none }) ⟨rfl, rfl, rfl, rfl, rfl, rfl, rfl, rfl⟩).chooseFrame e

theorem LinkShape.transmitFrameStart (e : execTransmitFrameStart s = .next t) : LinkShape t := by
  unfold execTransmitFrameStart at e
  split at e
  · exact hs.chooseFrame e
  · cases e
    exact hs

theorem LinkShape.takeAck (seq grant : Nat) : LinkShape (takeAck seq grant s) := by
  unfold Machine.takeAck
  simp only
  split
  · exact hs.kept (.of_eq rfl rfl)
  · have hg : LinkShape (addGrant grant s) := hs.kept (.of_eq rfl rfl)
    refine hg.received ?_ ⟨by rw [raiseNotice_eq], fun _ => by rw [raiseNotice_eq]; exact Nat.min_le_left _ _⟩
    exact receiverOk_congr (by rw [raiseNotice_eq]) (by rw [raiseNotice_eq]) (by rw [raiseNotice_eq]) hg.receiver
  · next count _ =>
    have hi := removeAcked_inner count (addGrant grant s)
    have hr : LinkShape (removeAcked count (addGrant grant s)) := hs.kept (.of_eq hi.lki hi.cmp)
    refine hr.kept ?_
    unfold ackAdvanced
    split <;> exact ⟨rfl, rfl, rfl, rfl, rfl, rfl, rfl, rfl⟩

theorem LinkShape.ackStep : LinkShape (ackStep s) := by
  unfold Machine.ackStep
  split
  · next rest _ =>
    exact LinkShape.takeAck (hs.kept (t := s.setLki { s.lki with accepted := rest })
      ⟨rfl, rfl, rfl, rfl, rfl, rfl, rfl, rfl⟩) _ _
  all_goals exact hs

theorem LinkShape.ackTimerExpiryStep : LinkShape (ackTimerExpiryStep s) := by
  unfold Machine.ackTimerExpiryStep
  split
  · exact hs
  · split <;> exact hs.kept ⟨rfl, rfl, rfl, rfl, rfl, rfl, rfl, rfl⟩

end shape

theorem linkShape_resetBlocks (power : Power) (rate : LinkRate) (slots : SlotMem) (s : State) :
    LinkShape (resetBlocks power rate slots s) where
  receiver := rfl
  errors := Nat.zero_le _
  places := by simp [placesUsed, resetBlocks, Lki.reset, Cmp.reset]
  queue := Nat.zero_le _
  cache _ _ h := by cases h

/-- The delivery engine leaves the link and the command processor alone. -/
theorem queueSegmentReport_cmp (n : Nat) (pos : DeliveryPos) (d : Descriptor) (s : State) :
    (queueSegmentReport n pos d s).cmp = s.cmp := by
  unfold queueSegmentReport
  split <;> rfl

theorem runEngine_cmp (fuel : Nat) (s : State) : (runEngine fuel s).cmp = s.cmp := by
  induction fuel generalizing s with
  | zero => rfl
  | succ fuel ih =>
    unfold runEngine
    split
    · split
      · split
        · rw [ih, queueSegmentReport_cmp]
        · rfl
      · rfl
    · split
      · rw [ih]
        rfl
      · rfl

/-- Every step keeps the shape of the link. -/
theorem exec_linkShape {i : Instr} (hs : LinkShape s) (e : exec i s = .next t) : LinkShape t := by
  cases i with
  | powerOn rate1 rate0 =>
    cases e
    exact linkShape_resetBlocks _ _ _ _
  | startUpEnd =>
    cases e
    unfold startUpEndStep
    split
    · exact linkShape_resetBlocks _ _ _ _
    · exact hs
  | resetTakesEffect =>
    cases e
    unfold resetTakesEffectStep
    split
    · exact linkShape_resetBlocks _ _ _ _
    · exact hs
  | receivedByte b =>
    change execReceivedByte b s = _ at e
    unfold execReceivedByte at e
    split at e
    · cases e
      exact hs
    · cases e
      exact hs.received (receiverOk_receiveByte b hs.receiver) (receiveByte_rxOnly b s.lki)
  | lineBreak =>
    change execLineBreak s = _ at e
    unfold execLineBreak at e
    split at e
    · cases e
      exact hs
    · split at e
      · cases e
        exact hs
      · cases e
        exact hs.received (receiverOk_toHunt _) ⟨rfl, id⟩
  | gapTimerExpiry =>
    cases e
    unfold gapExpiryStep
    split
    · exact hs
    · exact hs.received (receiverOk_giveUp _ _ _) (giveUp_rxOnly _ _ _)
  | commandFrame =>
    cases e
    exact hs.commandFrameStep
  | commandTake =>
    cases e
    exact hs.commandTakeStep
  | hello | bye | replay | ident | status | reset | tclear | tadd | tread | tcommit | rset | ron | roff | rarm | rread
  | cset | cread | pset | start | stop | abort | force | slist | sfetch | sdrop =>
    exact hs.command rfl e
  | unknownCommand =>
    cases e
    exact hs.unknown
  | ack =>
    cases e
    exact hs.ackStep
  | deliveryStart =>
    cases e
    unfold deliveryStartStep
    split
    · exact hs.kept (.of_eq (runEngine_lki s _) (runEngine_cmp _ s))
    · exact hs
  | deliveryQueue =>
    cases e
    unfold deliveryQueueStep
    split
    · exact hs
    · exact hs.kept (.of_eq (runEngine_lki s _) (runEngine_cmp _ s))
  | transmitFrameStart => exact hs.transmitFrameStart e
  | frameEnd => exact hs.frameEnd e
  | ackTimerExpiry =>
    cases e
    exact hs.ackTimerExpiryStep
  | paceTick | converterAnswer | conversionTimeout | trgoutPulseExpiry =>
    exact hs.inner (acquisition_inner (by simp) e)
  | trginRisingEdge | trginFallingEdge =>
    cases e
    exact hs.kept (.of_eq rfl rfl)

/-- Settles O59. -/
theorem stepKeepsTheLink : Obligations.StepKeepsTheLink :=
  stepKeeps_of_exec anyState_setPending (fun _ _ hs => hs.kept (.of_eq rfl rfl)) (fun _ _ _ _ hs e => exec_linkShape hs e)

end Sys2Proof.Machine

/-! SUPPORT. The report engine and the session that every step keeps (R129, R133, R134, R143, R149, R165 to R167). -/

namespace Sys2Proof.Machine

variable {s t u : State} {r q : Rpe}

/-! ## What every step meets, for a relation on the report engine and the session -/

/-- Nothing of the report engine and of the session differs in both states. -/
structure SessionKept (s t : State) : Prop where
  rpe : t.rpe = s.rpe
  session : t.lki.session = s.lki.session
  ackTimer : t.lki.ackTimer = s.lki.ackTimer
  retry : t.lki.retry = s.lki.retry
  ackTimeout : t.lki.ackTimeout = s.lki.ackTimeout

theorem SessionKept.refl (s : State) : SessionKept s s := ⟨rfl, rfl, rfl, rfl, rfl⟩

/-- A relation that a change elsewhere, a change of the acquisition side and the owners of the report engine and the session
meet. -/
structure EngineMeet (R : State → State → Prop) : Prop where
  elsewhere : ∀ s t, SessionKept s t → R s t
  inner : ∀ s t, InnerFrame s t → R s t
  trans : ∀ s t u, R s t → R t u → R s u
  resets : ∀ power rate slots s, R s (resetBlocks power rate slots s)
  hello : ∀ args s, R s (ownHello args s).2
  bye : ∀ args s, R s (ownBye args s).2
  replay : ∀ args s, s.lki.session ≠ .closed → R s (ownReplay args s).2
  fetch : ∀ f s, R s (s.setRpe { s.rpe with fetch := f })
  takeAck : ∀ seq grant s, R s (takeAck seq grant s)
  choose : ∀ s t, chooseFrame s = .next t → R s t
  deliver : ∀ n s, startable s = some n → R s (startDelivery n s)
  report : ∀ n pos d s, s.rpe.slot = some (n, pos) → segmentFits s.rpe = true → R s (queueSegmentReport n pos d s)
  ackTimer : ∀ s, R s (ackTimerExpiryStep s)

theorem receiveByte_session (b : Byte) (s : State) : SessionKept s (s.setLki (receiveByte b s.lki)) := by
  have hgive : ∀ reason tag, SessionKept s (s.setLki (giveUp reason tag s.lki)) := fun reason tag => by
    rw [giveUp_eq]
    exact ⟨rfl, rfl, rfl, rfl, rfl⟩
  unfold receiveByte
  split
  · split <;> exact ⟨rfl, rfl, rfl, rfl, rfl⟩
  · next phase _ =>
    cases phase <;> simp only [assembleByte, checkFrame]
    case kind => split <;> [exact ⟨rfl, rfl, rfl, rfl, rfl⟩; exact hgive _ _]
    case length => split <;> [exact ⟨rfl, rfl, rfl, rfl, rfl⟩; exact hgive _ _]
    case crc2 => split <;> [exact ⟨rfl, rfl, rfl, rfl, rfl⟩; exact hgive _ _]
    all_goals exact ⟨rfl, rfl, rfl, rfl, rfl⟩

theorem commandFrameStep_session (s : State) : SessionKept s (commandFrameStep s) := by
  unfold commandFrameStep
  split
  · unfold offerFrame
    split
    · exact ⟨rfl, rfl, rfl, rfl, rfl⟩
    · unfold refuseFrame
      split <;> exact ⟨rfl, rfl, rfl, rfl, rfl⟩
  all_goals exact .refl s

theorem commandTakeStep_session (s : State) : SessionKept s (commandTakeStep s) := by
  unfold commandTakeStep
  split
  · exact .refl s
  · split
    · exact ⟨rfl, rfl, rfl, rfl, rfl⟩
    · exact .refl s

namespace EngineMeet

variable {R : State → State → Prop} (h : EngineMeet R)

include h

theorem refl (s : State) : R s s := h.elsewhere s s (.refl s)

theorem ackStep (s : State) : R s (ackStep s) := by
  unfold Machine.ackStep
  split
  · next rest _ =>
    exact h.trans _ (s.setLki { s.lki with accepted := rest }) _ (h.elsewhere s _ ⟨rfl, rfl, rfl, rfl, rfl⟩) (h.takeAck _ _ _)
  all_goals exact h.refl s

theorem runEngine (fuel : Nat) (s : State) : R s (runEngine fuel s) := by
  induction fuel generalizing s with
  | zero => exact h.refl s
  | succ fuel ih =>
    unfold Machine.runEngine
    split
    · next n pos hs =>
      split
      · next hf =>
        split
        · next d hd => exact h.trans _ _ _ (h.report n pos d s hs hf) (ih _)
        · exact h.refl s
      · exact h.refl s
    · split
      · next n hn => exact h.trans _ _ _ (h.deliver n s hn) (ih _)
      · exact h.refl s

theorem sfetch (args : List Byte) (s : State) : R s (ownSfetch args s).2 := by
  rcases ownSfetch_leaves args s with e | e <;> rw [e]
  · exact h.refl s
  · exact h.fetch _ s

/-- A relation on the report engine and the session is met by every step. -/
theorem steps : StepsMeet R where
  refl := h.refl
  trans := h.trans
  rep _ _ _ _ _ _ k _ := h.trans _ _ _ k (h.elsewhere _ _ ⟨rfl, rfl, rfl, rfl, rfl⟩)
  ans s _ := h.elsewhere s _ ⟨rfl, rfl, rfl, rfl, rfl⟩
  hello := h.hello
  bye args s _ := h.bye args s
  replay := h.replay
  reset _ s := h.elsewhere s _ ⟨rfl, rfl, rfl, rfl, rfl⟩
  tclear args s := h.inner _ _ (ownTclear_inner args s)
  tadd args s := h.inner _ _ (ownTadd_inner args s)
  tcommit args s := h.inner _ _ (ownTcommit_inner args s)
  rset args s := h.inner _ _ (ownRset_inner args s)
  ron args s := h.inner _ _ (ownRon_inner args s)
  roff args s := h.inner _ _ (ownRoff_inner args s)
  rarm args s := h.inner _ _ (ownRarm_inner args s)
  rread args s := h.inner _ _ (ownRread_inner args s)
  cset args s := h.inner _ _ (ownCset_inner args s)
  pset args s := h.inner _ _ (ownPset_inner args s)
  start args s := h.inner _ _ (ownStart_inner args s)
  stop args s := h.inner _ _ (ownStop_inner args s)
  abort args s := h.inner _ _ (ownAbort_inner args s)
  force args s := h.inner _ _ (ownForce_inner args s)
  sfetch := h.sfetch
  sdrop args s := h.inner _ _ (ownSdrop_inner args s)
  reset_blocks power rate slots s _ :=
    ⟨h.resets power rate slots s,
      h.trans _ _ _ (h.elsewhere s { s with powerOns := s.powerOns + 1 } ⟨rfl, rfl, rfl, rfl, rfl⟩)
        (h.resets power rate slots _)⟩
  receive b s := h.elsewhere _ _ (receiveByte_session b s)
  lineBreak s := h.elsewhere s _ ⟨rfl, rfl, rfl, rfl, rfl⟩
  gap tag s := h.elsewhere s _ (by rw [giveUp_eq]; exact ⟨rfl, rfl, rfl, rfl, rfl⟩)
  commandFrame s := h.elsewhere _ _ (commandFrameStep_session s)
  ack := h.ackStep
  take s := h.elsewhere _ _ (commandTakeStep_session s)
  choose s t _ e := h.choose s t e
  frameEnd s _ := h.elsewhere s _ ⟨rfl, rfl, rfl, rfl, rfl⟩
  engine := h.runEngine
  ackTimer := h.ackTimer
  tick s := h.inner _ _ (paceTickStep_inner s)
  late s := h.inner _ _ (setCvp_inner s _)
  route c e p s _ := h.inner _ _ ((setCvp_inner s p).trans (routeRecord_inner _ c e))
  rising s := h.elsewhere s _ ⟨rfl, rfl, rfl, rfl, rfl⟩
  falling s := h.elsewhere s _ ⟨rfl, rfl, rfl, rfl, rfl⟩
  pulse s := h.inner _ _ (acquisition_inner (.inr (.inr (.inr rfl))) rfl)

end EngineMeet

/-! ## The queues and the numbering (R129, R133, R134) -/

/-- The report engine as R129, R133 and R134 have it. -/
structure RpeOk (r : Rpe) : Prop where
  pending : r.queue.length ≤ Config.pendingPlaces
  share : pendingSegments r ≤ Config.segmentPlaces
  window : r.outstanding.length ≤ Config.window
  next : r.nextSeq < 256
  numbers : numberedUpTo r.nextSeq r.outstanding = true
  resend : ∀ m, r.resend = some m → m ∈ r.outstanding.map Prod.fst
  credit : r.credit ≤ 255
  lost : r.lost ≤ Config.counterMax

theorem reportShape_iff : ReportShape s ↔ RpeOk s.rpe :=
  ⟨fun ⟨a, b, c, d, e, f, g, h⟩ => ⟨a, b, c, d, e, f, g, h⟩, fun ⟨a, b, c, d, e, f, g, h⟩ => ⟨a, b, c, d, e, f, g, h⟩⟩

/-- The queue takes reports for which it has room; the outstanding list and its numbering stay. -/
theorem RpeOk.queue (h : RpeOk r) (f : List Report) (lost : Nat) (fetch : List Nat) (slot : Option (Nat × DeliveryPos))
    (hl : f.length ≤ Config.pendingPlaces) (hp : (f.filter isSegmentReport).length ≤ Config.segmentPlaces)
    (hlost : lost ≤ Config.counterMax) : RpeOk { r with queue := f, lost := lost, fetch := fetch, slot := slot } :=
  ⟨hl, hp, h.window, h.next, h.numbers, h.resend, h.credit, hlost⟩

theorem filter_event (f : List Report) (e : EventReport) :
    (f ++ [Report.event e]).filter isSegmentReport = f.filter isSegmentReport := by
  simp [List.filter_append, isSegmentReport]

theorem RpeOk.event (h : RpeOk r) (e : EventReport) : RpeOk (rpeQueueEvent e r) := by
  unfold rpeQueueEvent
  split
  · next hf =>
    refine h.queue _ _ _ _ ?_ ?_ h.lost
    · simpa [eventFits] using hf
    · rw [filter_event]
      exact h.share
  · exact h.queue _ _ _ _ h.pending h.share (Nat.min_le_left _ _)

theorem RpeOk.queueLost (h : RpeOk r) : RpeOk (rpeQueueLost r) := by
  unfold rpeQueueLost
  split
  · next hf =>
    refine h.queue _ _ _ _ ?_ ?_ (Nat.zero_le _)
    · simpa [eventFits] using hf.2
    · rw [filter_event]
      exact h.share
  · exact h

theorem RpeOk.inner (h : RpeOk r) (k : RpeInner r q) : RpeOk q := by
  induction k with
  | refl => exact h
  | event e _ ih => exact ih.event e
  | unfetch p _ ih => exact ih.queue _ _ _ _ ih.pending ih.share ih.lost

theorem RpeOk.flushed (credit : Nat) (hc : credit ≤ 255) : RpeOk (flushed credit r) where
  pending := by
    simp only [Machine.flushed]
    split <;> simp [Config.pendingPlaces]
  share := by
    simp only [pendingSegments, Machine.flushed]
    split <;> simp [isSegmentReport]
  window := Nat.zero_le _
  next := by simp [Machine.flushed]
  numbers := rfl
  resend _ hm := by cases hm
  credit := hc
  lost := Nat.zero_le _

/-- The mark on the oldest outstanding report (R134). -/
theorem RpeOk.setResend (h : RpeOk r) (credit : Nat) (hc : credit ≤ 255) :
    RpeOk { Machine.setResend r with credit := credit } := by
  refine ⟨h.pending, h.share, h.window, h.next, h.numbers, fun m hm => ?_, hc, h.lost⟩
  simp only [Machine.setResend, oldestSeq, Option.map_eq_some_iff] at hm
  obtain ⟨x, hx, rfl⟩ := hm
  exact List.mem_map_of_mem (List.mem_of_head? hx)

theorem RpeOk.grant (h : RpeOk r) (grant : Nat) : RpeOk { r with credit := satAdd 255 r.credit grant } :=
  ⟨h.pending, h.share, h.window, h.next, h.numbers, h.resend, Nat.min_le_left _ _, h.lost⟩

theorem seqAfter_mem {m n : Nat} {l : List (Nat × Report)} (h : seqAfter m l = some n) : n ∈ l.map Prod.fst := by
  induction l with
  | nil => cases h
  | cons x xs ih =>
    simp only [seqAfter] at h
    split at h
    · obtain ⟨y, hy, rfl⟩ := Option.map_eq_some_iff.mp h
      exact List.mem_cons_of_mem _ (List.mem_map_of_mem (List.mem_of_head? hy))
    · exact List.mem_cons_of_mem _ (ih h)

theorem RpeOk.retransmitted (h : RpeOk r) (m : Nat) : RpeOk (rpeRetransmitted m r) :=
  ⟨h.pending, h.share, h.window, h.next, h.numbers, fun _ hn => seqAfter_mem hn, h.credit, h.lost⟩

/-- The next number goes to the report that joins the outstanding list. -/
theorem numberedUpTo_snoc {next : Nat} {l : List (Nat × Report)} (p : Report) (hn : next < 256)
    (h : numberedUpTo next l = true) : numberedUpTo ((next + 1) % 256) (l ++ [(next, p)]) = true := by
  induction l using numberedUpTo.induct with
  | case1 => simp [numberedUpTo, hn]
  | case2 x =>
    simp only [numberedUpTo, Bool.and_eq_true, decide_eq_true_eq] at h
    simp [numberedUpTo, h, hn]
  | case3 x y rest ih =>
    simp only [numberedUpTo, Bool.and_eq_true] at h
    obtain ⟨⟨hx, hy⟩, hrest⟩ := h
    simp only [List.cons_append, numberedUpTo, Bool.and_eq_true]
    exact ⟨⟨hx, hy⟩, ih hrest⟩

theorem numberedUpTo_tail {next : Nat} {x : Nat × Report} {l : List (Nat × Report)}
    (h : numberedUpTo next (x :: l) = true) : numberedUpTo next l = true := by
  cases l with
  | nil => rfl
  | cons y rest =>
    simp only [numberedUpTo, Bool.and_eq_true] at h
    exact h.2

theorem numberedUpTo_drop {next : Nat} {l : List (Nat × Report)} (n : Nat) (h : numberedUpTo next l = true) :
    numberedUpTo next (l.drop n) = true := by
  induction n generalizing l with
  | zero => exact h
  | succ n ih =>
    cases l with
    | nil => rfl
    | cons x xs => exact ih (numberedUpTo_tail h)

theorem RpeOk.firstSent (h : RpeOk r) {p : Report} {rest : List Report} (hq : r.queue = p :: rest)
    (hw : r.outstanding.length < Config.window) (hm : r.resend = none) : RpeOk (rpeFirstSent p r) := by
  refine RpeOk.queueLost ⟨?_, ?_, ?_, Nat.mod_lt _ (by decide), numberedUpTo_snoc p h.next h.numbers, ?_, ?_, h.lost⟩
  · have hl := h.pending
    simp only [hq, List.length_cons] at hl
    simpa [hq] using Nat.le_of_succ_le hl
  · have hl := h.share
    simp only [pendingSegments, hq, List.filter_cons] at hl
    simp only [pendingSegments, hq, List.tail_cons]
    split at hl
    · exact Nat.le_of_succ_le hl
    · exact hl
  · simpa using hw
  · intro m hr
    simp [hm] at hr
  · exact (Nat.sub_le _ _).trans h.credit

theorem resendAfter_mem {mark : Option Nat} {left : List (Nat × Report)} {m : Nat} (h : resendAfter mark left = some m) :
    m ∈ left.map Prod.fst := by
  unfold resendAfter at h
  split at h
  · cases h
  · split at h
    · next k hk =>
      obtain rfl := Option.some.inj h
      simp only [List.any_eq_true, decide_eq_true_eq] at hk
      obtain ⟨x, hx, rfl⟩ := hk
      exact List.mem_map_of_mem hx
    · obtain ⟨x, hx, rfl⟩ := Option.map_eq_some_iff.mp h
      exact List.mem_map_of_mem (List.mem_of_head? hx)

theorem RpeOk.removed (h : RpeOk r) (count : Nat) : RpeOk { r with
    outstanding := r.outstanding.drop count, resend := resendAfter r.resend (r.outstanding.drop count) } :=
  ⟨h.pending, h.share, (List.length_drop ▸ Nat.sub_le _ _).trans h.window, h.next, numberedUpTo_drop count h.numbers,
    fun _ hm => resendAfter_mem hm, h.credit, h.lost⟩

theorem RpeOk.takeAck (seq grant : Nat) (h : RpeOk s.rpe) : RpeOk (takeAck seq grant s).rpe := by
  unfold Machine.takeAck
  simp only
  split
  · exact h.grant grant
  · exact h.grant grant
  · exact RpeOk.inner ((h.grant grant).removed _) (removeAcked_inner _ (addGrant grant s)).rpe

theorem queueSegmentReport_rpe (n : Nat) (pos : DeliveryPos) (d : Descriptor) (s : State) :
    ∃ slot, (queueSegmentReport n pos d s).rpe =
      { s.rpe with queue := s.rpe.queue ++ [.segment (reportAt d pos)], slot := slot } := by
  unfold queueSegmentReport
  split <;> exact ⟨_, rfl⟩

theorem RpeOk.segmentReport (n : Nat) (pos : DeliveryPos) (d : Descriptor) (h : RpeOk s.rpe)
    (hf : segmentFits s.rpe = true) : RpeOk (queueSegmentReport n pos d s).rpe := by
  obtain ⟨slot, e⟩ := queueSegmentReport_rpe n pos d s
  simp only [segmentFits, eventFits, Bool.and_eq_true, decide_eq_true_eq] at hf
  rw [e]
  refine h.queue _ _ _ _ ?_ ?_ h.lost
  · simpa using hf.1
  · rw [List.filter_append, List.length_append]
    exact hf.2

theorem readHello_ranges {choice steps credit : Byte} {a : HelloArgs} (h : readHello choice steps credit = some a) :
    1 ≤ a.steps ∧ a.steps ≤ 250 ∧ a.credit ≤ 255 := by
  unfold readHello at h
  split at h
  · next hr =>
    obtain rfl := (Option.some.inj h).symm
    exact ⟨hr.2.1, hr.2.2, by have := credit.isLt; simp only; omega⟩
  · cases h

theorem report_meet : EngineMeet (fun s t => RpeOk s.rpe → RpeOk t.rpe) where
  elsewhere _ _ h hs := h.rpe ▸ hs
  inner _ _ h hs := hs.inner h.rpe
  trans _ _ _ h k hs := k (h hs)
  resets _ _ _ _ _ :=
    { pending := Nat.zero_le _, share := Nat.zero_le _, window := Nat.zero_le _, next := Nat.zero_lt_succ _, numbers := rfl,
      resend := fun _ h => (nomatch h), credit := Nat.zero_le _, lost := Nat.zero_le _ }
  hello args s hs := by
    unfold ownHello
    split
    · split
      · exact hs
      · next a ha =>
        obtain ⟨-, -, hc⟩ := readHello_ranges ha
        simp only
        split
        · exact hs.setResend _ hc
        · rw [helloFlush, flushReports_eq]
          exact .flushed _ hc
    · exact hs
  bye _ s _ := by
    simp only [ownBye, flushReports_eq]
    exact .flushed _ (Nat.zero_le _)
  replay _ s _ hs := hs.setResend _ hs.credit
  fetch _ _ hs := hs.queue _ _ _ _ hs.pending hs.share hs.lost
  takeAck seq grant s hs := hs.takeAck seq grant
  choose s t e hs := by
    rcases chooseFrame_cases e with ⟨n, b, -, rfl⟩ | ⟨r, rest, b, -, -, rfl⟩ | rfl | ⟨m, r, b, -, -, rfl⟩ |
      ⟨r, rest, b, -, hm, hq, hw, -, rfl⟩
    · exact hs
    · exact hs
    · exact hs
    · exact hs.retransmitted m
    · exact hs.firstSent hq hw hm
  deliver _ _ _ hs := hs.queue _ _ _ _ hs.pending hs.share hs.lost
  report n pos d s _ hf hs := hs.segmentReport n pos d hf
  ackTimer s hs := by
    unfold ackTimerExpiryStep
    split
    · exact hs
    · split
      · exact hs.setResend _ hs.credit
      · exact hs

theorem stepKeeps_reportShape : StepKeeps anyState ReportShape :=
  stepKeeps_of_exec anyState_setPending (fun s x hs =>
    (reportShape_iff (s := s.setPending x)).mpr ((reportShape_iff (s := s)).mp hs))
    (fun _ _ _ _ hs e => reportShape_iff.mpr (report_meet.steps.exec e (reportShape_iff.mp hs)))

/-! ## The session and the ack timer (R149, R165 to R167) -/

theorem SessionShape.kept (hs : SessionShape s) (h : SessionKept s t) : SessionShape t where
  timer := by rw [h.ackTimer, h.session, h.rpe]; exact hs.timer
  closed := by rw [h.session, h.rpe]; exact hs.closed
  retry := by rw [h.retry, h.session]; exact hs.retry
  timeout := by rw [h.ackTimeout]; exact hs.timeout

theorem SessionShape.inner (hs : SessionShape s) (h : InnerFrame s t) : SessionShape t := by
  obtain ⟨houtstanding, -, -, -, hslot⟩ := h.rpe.frame
  exact {
    timer := by rw [h.lki, houtstanding]; exact hs.timer
    closed := by rw [h.lki, houtstanding, hslot]; exact hs.closed
    retry := by rw [h.lki]; exact hs.retry
    timeout := by rw [h.lki]; exact hs.timeout }

/-- A state in OPEN whose timer runs exactly while reports are outstanding. -/
theorem SessionShape.of_open (ho : t.lki.session = .open) (htimer : t.lki.ackTimer.isSome = !t.rpe.outstanding.isEmpty)
    (hr : t.lki.retry < 4) (ht : 20 ≤ t.lki.ackTimeout ∧ t.lki.ackTimeout ≤ 5000 ∧ t.lki.ackTimeout % 20 = 0) :
    SessionShape t where
  timer := by rw [htimer, ho]; rfl
  closed hc := by simp [ho] at hc
  retry := ⟨by omega, fun h => by omega⟩
  timeout := ht

/-- A state in another session with the timer stopped. -/
theorem SessionShape.timer_stopped (hs : SessionShape s) (ho : s.lki.session ≠ .open) : s.lki.ackTimer = none := by
  have ht := hs.timer
  simpa [ho] using ht

theorem SessionShape.retry_lt (hs : SessionShape s) (ho : s.lki.session ≠ .stalled) : s.lki.retry < 4 :=
  Nat.lt_of_le_of_ne hs.retry.1 (fun h => ho (hs.retry.2 h))

theorem timerIfOutstanding_isSome (timeout : Nat) (r : Rpe) :
    (timerIfOutstanding timeout r).isSome = !r.outstanding.isEmpty := by
  unfold timerIfOutstanding
  cases r.outstanding <;> simp

/-- An ACK that advances: the timer is set for what is left (R170). -/
theorem SessionShape.advanced (hs : SessionShape s) {count : Nat} (hr : t.rpe.outstanding = s.rpe.outstanding.drop count)
    (hslot : t.rpe.slot = s.rpe.slot) (hl : t.lki = ackAdvanced (!t.rpe.outstanding.isEmpty) s.lki) : SessionShape t := by
  cases ho : s.lki.session with
  | closed =>
    simp only [ackAdvanced, ho] at hl
    obtain ⟨hempty, hnone⟩ := hs.closed ho
    have hout : t.rpe.outstanding = [] := by rw [hr, hempty, List.drop_nil]
    exact {
      timer := by
        have ht := hs.timer_stopped (by simp [ho])
        simp [hl, ht, hout]
      closed := fun _ => ⟨hout, by rw [hslot, hnone]⟩
      retry := by simp [hl]
      timeout := by simp only [hl]; exact hs.timeout }
  | stalled =>
    simp only [ackAdvanced, ho] at hl
    exact {
      timer := by
        have ht := hs.timer_stopped (by simp [ho])
        simp [hl, ht]
      closed := fun hc => by simp [hl] at hc
      retry := by simp [hl]
      timeout := by simp only [hl]; exact hs.timeout }
  | _ =>
    simp only [ackAdvanced, ho] at hl
    refine .of_open (by simp only [hl]) ?_ (by simp [hl]) (by simp only [hl]; exact hs.timeout)
    rw [hl]
    cases t.rpe.outstanding <;> rfl

theorem SessionShape.takeAck (seq grant : Nat) (hs : SessionShape s) : SessionShape (takeAck seq grant s) := by
  have hg : SessionShape (addGrant grant s) := ⟨hs.timer, hs.closed, hs.retry, hs.timeout⟩
  unfold Machine.takeAck
  simp only
  split
  · exact hg
  · refine hg.kept ?_
    rw [raiseNotice_eq]
    exact ⟨rfl, rfl, rfl, rfl, rfl⟩
  · next count _ =>
    have hi := removeAcked_inner count (addGrant grant s)
    obtain ⟨houtstanding, -, -, -, hslot⟩ := hi.rpe.frame
    refine hg.advanced (count := count) houtstanding hslot ?_
    exact congrArg (ackAdvanced (!(removeAcked count (addGrant grant s)).rpe.outstanding.isEmpty)) hi.lki

theorem SessionShape.startDelivery {n : Nat} (hs : SessionShape s) (hn : startable s = some n) :
    SessionShape (startDelivery n s) := by
  have ho : s.lki.session = .open := by
    unfold startable at hn
    split at hn
    · next h => exact h.2.1
    · cases hn
  exact ⟨hs.timer, fun hc => absurd (ho.symm.trans hc) (by decide), hs.retry, hs.timeout⟩

theorem SessionShape.segmentReport {n : Nat} {pos : DeliveryPos} (hs : SessionShape s) (d : Descriptor)
    (hslot : s.rpe.slot = some (n, pos)) : SessionShape (queueSegmentReport n pos d s) := by
  have hne : s.lki.session ≠ .closed := fun hc => by
    have hnone := (hs.closed hc).2
    simp [hslot] at hnone
  have hl : (queueSegmentReport n pos d s).lki = s.lki := queueSegmentReport_lki s n pos d
  obtain ⟨slot, e⟩ := queueSegmentReport_rpe n pos d s
  exact {
    timer := by rw [hl, e]; exact hs.timer
    closed := fun hc => absurd (hl ▸ hc) hne
    retry := by rw [hl]; exact hs.retry
    timeout := by rw [hl]; exact hs.timeout }

theorem SessionShape.ackTimer (hs : SessionShape s) : SessionShape (ackTimerExpiryStep s) := by
  unfold ackTimerExpiryStep
  split
  · exact hs
  · next n hn =>
    have ht := hs.timer
    rw [hn] at ht
    simp only [Option.isSome_some, Bool.true_eq, Bool.and_eq_true, decide_eq_true_eq] at ht
    split
    · next hr => exact .of_open ht.1 (by simpa [State.setLki, State.setRpe, setResend] using ht.2) hr hs.timeout
    · exact ⟨by simp, fun hc => by simp at hc, ⟨Nat.le_refl 4, fun _ => rfl⟩, hs.timeout⟩

theorem SessionShape.chooseFrame (hs : SessionShape s) (e : chooseFrame s = .next t) : SessionShape t := by
  rcases chooseFrame_cases e with ⟨n, b, -, rfl⟩ | ⟨r, rest, b, -, -, rfl⟩ | rfl | ⟨m, r, b, -, -, rfl⟩ |
    ⟨r, rest, b, ho, -, -, -, -, rfl⟩
  · exact hs.kept ⟨rfl, rfl, rfl, rfl, rfl⟩
  · exact hs.kept ⟨rfl, rfl, rfl, rfl, rfl⟩
  · exact hs
  · exact ⟨hs.timer, hs.closed, hs.retry, hs.timeout⟩
  · have hout : (rpeFirstSent r s.rpe).outstanding = s.rpe.outstanding ++ [(s.rpe.nextSeq, r)] := by
      unfold rpeFirstSent rpeQueueLost
      split <;> rfl
    refine .of_open ho ?_ (hs.retry_lt (by simp [ho])) hs.timeout
    have ht := hs.timer
    simp only [ho, decide_true, Bool.true_and] at ht
    simp only [hout]
    cases hq : s.rpe.outstanding <;> simp_all

theorem session_meet : EngineMeet (fun s t => SessionShape s → SessionShape t) where
  elsewhere _ _ h hs := hs.kept h
  inner _ _ h hs := hs.inner h
  trans _ _ _ h k hs := k (h hs)
  resets _ _ _ _ _ := ⟨rfl, fun _ => ⟨rfl, rfl⟩, by simp [resetBlocks, Lki.reset], by simp [resetBlocks, Lki.reset]⟩
  hello args s hs := by
    unfold ownHello
    split
    · split
      · exact hs
      · next a ha =>
        obtain ⟨hlow, hhigh, -⟩ := readHello_ranges ha
        have ht : 20 ≤ 20 * a.steps ∧ 20 * a.steps ≤ 5000 ∧ 20 * a.steps % 20 = 0 := by omega
        simp only
        split
        · exact .of_open rfl (timerIfOutstanding_isSome _ _) (Nat.zero_lt_succ _) ht
        · rw [helloFlush, flushReports_eq]
          exact .of_open rfl rfl (Nat.zero_lt_succ _) ht
    · exact hs
  bye _ s hs := by
    simp only [ownBye, flushReports_eq]
    exact ⟨rfl, fun _ => ⟨rfl, rfl⟩, ⟨Nat.zero_le _, fun h => by simp at h⟩, hs.timeout⟩
  replay _ s _ hs := .of_open rfl (timerIfOutstanding_isSome _ _) (Nat.zero_lt_succ _) hs.timeout
  fetch _ _ hs := ⟨hs.timer, hs.closed, hs.retry, hs.timeout⟩
  takeAck seq grant _ hs := hs.takeAck seq grant
  choose _ _ e hs := hs.chooseFrame e
  deliver _ _ hn hs := hs.startDelivery hn
  report _ _ d _ hslot _ hs := hs.segmentReport d hslot
  ackTimer _ hs := hs.ackTimer

theorem stepKeeps_sessionShape : StepKeeps anyState SessionShape :=
  session_meet.steps.keeps (fun _ _ hs => hs.kept ⟨rfl, rfl, rfl, rfl, rfl⟩)

/-- Settles O57. -/
theorem stepKeepsTheReportEngine : Obligations.StepKeepsTheReportEngine :=
  ⟨stepKeeps_reportShape, stepKeeps_sessionShape, stepKeeps_fetchShape⟩

end Sys2Proof.Machine

/-! SUPPORT. The references to segments in the queues over every step (R22, R23, R128, R137, R139): the acquisition side
touches no segment that is in delivery and queues events only; delivery, release and teardown keep reports and segments
together. -/

namespace Sys2Proof.Machine

variable {s t u : State} {n : Nat} {d x : Descriptor} {p : Descriptor → Bool} {f : Descriptor → Descriptor}
  {D : List Descriptor} {L : List Report} {place : Option (Nat × DeliveryPos)}

/-! ## References, on the segments in delivery and the reports in both queues -/

/-- The segment is SENDING or SENT. -/
def delivering (d : Descriptor) : Bool := decide (d.state = .sending) || decide (d.state = .sent)

theorem delivering_iff : delivering d = true ↔ d.state = .sending ∨ d.state = .sent := by simp [delivering]

/-- The references as R128, R137 and R139 have them, `D` holding the segments in delivery and `L` the reports. -/
structure Referred (D : List Descriptor) (L : List Report) (place : Option (Nat × DeliveryPos)) : Prop where
  named : ∀ r ∈ L, ∀ n, refOf r = some n → ∃ d ∈ D, d.number = n
  endLast : L.Pairwise (fun a b => ∀ n, a = .segment (.tail n) → refOf b ≠ some n)
  slot : ∀ n pos, place = some (n, pos) → (∃ d ∈ D, d.number = n ∧ d.state = .sending) ∧ .segment (.tail n) ∉ L
  sending : ∀ d ∈ D, d.state = .sending → ∃ pos, place = some (d.number, pos)

theorem inDelivery_iff : InDelivery s n ↔ ∃ d ∈ s.sgm.table.filter delivering, d.number = n := by
  unfold InDelivery
  refine exists_congr fun d => ?_
  rw [List.mem_filter, delivering_iff]
  exact ⟨fun ⟨hd, hn, hst⟩ => ⟨⟨hd, hst⟩, hn⟩, fun ⟨⟨hd, hst⟩, hn⟩ => ⟨hd, hn, hst⟩⟩

theorem referencesHold_iff : ReferencesHold s ↔
    NumbersHold s ∧ Referred (s.sgm.table.filter delivering) (allReports s) s.rpe.slot := by
  constructor
  · rintro ⟨hslots, hdistinct, hrange, hnamed, hend, hslot, hsending⟩
    refine ⟨⟨hslots, hdistinct, hrange⟩, fun r hr n hn => inDelivery_iff.mp (hnamed r hr n hn), hend, fun n pos hp => ?_,
      fun d hd hst => hsending d (List.mem_of_mem_filter hd) hst⟩
    obtain ⟨⟨d, hd, hnum, hst⟩, htail⟩ := hslot n pos hp
    exact ⟨⟨d, List.mem_filter.mpr ⟨hd, delivering_iff.mpr (.inl hst)⟩, hnum, hst⟩, htail⟩
  · rintro ⟨⟨hslots, hdistinct, hrange⟩, hnamed, hend, hslot, hsending⟩
    refine ⟨hslots, hdistinct, hrange, fun r hr n hn => inDelivery_iff.mpr (hnamed r hr n hn), hend, fun n pos hp => ?_,
      fun d hd hst => hsending d (List.mem_filter.mpr ⟨hd, delivering_iff.mpr (.inl hst)⟩) hst⟩
    obtain ⟨⟨d, hd, hnum, hst⟩, htail⟩ := hslot n pos hp
    exact ⟨⟨d, List.mem_of_mem_filter hd, hnum, hst⟩, htail⟩

/-- A report that names no segment, behind the others. -/
theorem Referred.snoc_event (h : Referred D L place) (e : EventReport) : Referred D (L ++ [.event e]) place where
  named r hr n hn := by
    rcases List.mem_append.mp hr with hr | hr
    · exact h.named r hr n hn
    · rw [List.mem_singleton.mp hr] at hn
      cases hn
  endLast := by
    refine List.pairwise_append.mpr ⟨h.endLast, List.pairwise_singleton _ _, fun a _ b hb n _ => ?_⟩
    rw [List.mem_singleton.mp hb]
    exact nofun
  slot n pos hp := ⟨(h.slot n pos hp).1, by simpa using (h.slot n pos hp).2⟩
  sending := h.sending

/-- An event joins the queue, or is counted. -/
theorem allReports_event (e : EventReport) (r : Rpe) :
    (rpeQueueEvent e r).outstanding.map Prod.snd ++ (rpeQueueEvent e r).queue = r.outstanding.map Prod.snd ++ r.queue ∨
      (rpeQueueEvent e r).outstanding.map Prod.snd ++ (rpeQueueEvent e r).queue =
        r.outstanding.map Prod.snd ++ r.queue ++ [.event e] := by
  unfold rpeQueueEvent
  split
  · exact .inr (List.append_assoc _ _ _).symm
  · exact .inl rfl

/-- What the acquisition side does to the report engine. -/
theorem Referred.inner {r q : Rpe} (h : Referred D (r.outstanding.map Prod.snd ++ r.queue) r.slot) (k : RpeInner r q) :
    Referred D (q.outstanding.map Prod.snd ++ q.queue) q.slot := by
  induction k with
  | refl => exact h
  | @event q e k ih =>
    have hslot : (rpeQueueEvent e q).slot = q.slot := (rpeQueueEvent_frame e q).2.2.2.2.2
    rw [hslot]
    rcases allReports_event e q with he | he <;> rw [he]
    · exact ih
    · exact ih.snoc_event e
  | unfetch p _ ih => exact ih

/-! ## The acquisition side -/

theorem filter_eraseP (hd : D.find? p = some d) (hn : delivering d = false) :
    (D.eraseP p).filter delivering = D.filter delivering := by
  obtain ⟨before, after, rfl, -, -, he, -⟩ := split_at_first hd
  simp [he, List.filter_append, hn]

theorem filter_modifyFirst (hp : ∀ d, p d = true → delivering d = false ∧ delivering (f d) = false) (D : List Descriptor) :
    (modifyFirst p f D).filter delivering = D.filter delivering := by
  cases hD : D.find? p with
  | none => rw [modifyFirst_none f hD]
  | some d =>
    obtain ⟨before, after, rfl, hpd, -, -, hm⟩ := split_at_first hD
    simp [hm, List.filter_append, hp d hpd]

theorem not_delivering (h : d.state = .filling ∨ d.state = .complete) : delivering d = false := by
  rcases h with h | h <;> simp [delivering, h]

/-- No move touches a segment in delivery. -/
theorem Move.delivering_eq {a b : Held} (m : Move a b) : b.table.filter delivering = a.table.filter delivering := by
  cases m with
  | ringTake => rfl
  | ringTurn => rfl
  | ringFree => rfl
  | drop p d hd hs => exact filter_eraseP hd (not_delivering hs.symm)
  | fill f hn hp hs =>
    exact filter_modifyFirst (fun d hd => ⟨not_delivering (.inl (isFilling_state hd)),
      not_delivering (hs d (isFilling_state hd))⟩) _
  | fillTake f d page rest hp hd hf hn hs =>
    exact filter_modifyFirst (fun d hd => ⟨not_delivering (.inl (isFilling_state hd)),
      not_delivering (.inl ((hs d).trans (isFilling_state hd)))⟩) _
  | join d hd hs hp hn hr => simp [List.filter_append, not_delivering (.inl hs)]
  | give f d k hd he hf hn hs =>
    exact filter_modifyFirst (fun d hd => ⟨not_delivering (.inl (isFilling_state hd)),
      not_delivering (.inl ((hs d).trans (isFilling_state hd)))⟩) _

theorem Moves.delivering_eq {a b : Held} (m : Moves a b) : b.table.filter delivering = a.table.filter delivering := by
  induction m with
  | done => rfl
  | step _ k ih => exact k.delivering_eq.trans ih

theorem ReferencesHold.acquired (hs : ReferencesHold s) (hi : InnerFrame s t)
    (ht : t.sgm.table.filter delivering = s.sgm.table.filter delivering) (hn : NumbersHold s → NumbersHold t) :
    ReferencesHold t := by
  obtain ⟨hnum, href⟩ := referencesHold_iff.mp hs
  exact referencesHold_iff.mpr ⟨hn hnum, ht ▸ href.inner hi.rpe⟩

theorem ReferencesHold.calm (hs : ReferencesHold s) (hi : InnerFrame s t) (m : Moves (held s) (held t)) (hc : Calm s t) :
    ReferencesHold t := hs.acquired hi m.delivering_eq (fun h => h.calm hc)

/-- A change that leaves table, numbers, queues and slot alone. -/
theorem ReferencesHold.kept (hs : ReferencesHold s) (ht : t.sgm.table = s.sgm.table)
    (hn : t.sgm.nextNumber = s.sgm.nextNumber) (hr : allReports t = allReports s) (hslot : t.rpe.slot = s.rpe.slot) :
    ReferencesHold t where
  slots := ht ▸ hs.slots
  distinct := ht ▸ hs.distinct
  range := by rw [hn, ht]; exact hs.range
  named := by
    intro r h n hrn
    obtain ⟨d, hd, hx⟩ := hs.named r (hr ▸ h) n hrn
    exact ⟨d, ht ▸ hd, hx⟩
  endLast := hr ▸ hs.endLast
  slot := by
    intro n pos hp
    rw [ht, hr]
    exact hs.slot n pos (hslot ▸ hp)
  sending := by
    intro d hd hst
    rw [hslot]
    exact hs.sending d (ht ▸ hd) hst

/-! ## Delivery (R137, R139) -/

theorem NumbersHold.of_numbers (h : NumbersHold s) (ht : t.sgm.table.map Descriptor.number = s.sgm.table.map Descriptor.number)
    (hn : t.sgm.nextNumber = s.sgm.nextNumber) : NumbersHold t where
  slots := by
    have hl := congrArg List.length ht
    simp only [List.length_map] at hl
    exact hl ▸ h.slots
  distinct := ht ▸ h.distinct
  range := by
    refine ⟨hn ▸ h.range.1, fun d hd => ?_⟩
    obtain ⟨x, hx, he⟩ := List.mem_map.mp (ht ▸ List.mem_map_of_mem hd : d.number ∈ s.sgm.table.map Descriptor.number)
    exact he ▸ h.range.2 x hx

theorem numbers_moveSegment (before after : SegState) (n : Nat) (s : State) :
    (moveSegment n before after s).sgm.table.map Descriptor.number = s.sgm.table.map Descriptor.number :=
  map_number_modifyFirst (f := fun d => { d with state := after }) (fun _ => rfl) _

/-- Two segments in use with one number are one. -/
theorem NumbersHold.unique (h : NumbersHold s) (hd : d ∈ s.sgm.table) (hx : x ∈ s.sgm.table) (hn : d.number = x.number) :
    d = x := List.inj_on_of_nodup_map h.distinct hd hx hn

/-- The engine's choice is a COMPLETE segment, with the slot free. -/
theorem startable_some (h : startable s = some n) :
    s.rpe.slot = none ∧ ∃ d ∈ s.sgm.table, d.number = n ∧ d.state = .complete := by
  unfold startable at h
  split at h
  · next hc =>
    refine ⟨hc.1, ?_⟩
    unfold chooseSegment at h
    split at h
    · split at h
      · next hany =>
        obtain ⟨d, hd, hi⟩ := List.any_eq_true.mp hany
        cases h
        exact ⟨d, hd, isSegment_iff.mp hi⟩
      · cases h
    · split at h
      · obtain ⟨d, hd, rfl⟩ := Option.map_eq_some_iff.mp h
        exact ⟨d, List.mem_of_find?_eq_some hd, rfl, by simpa using List.find?_some hd⟩
      · cases h
  · cases h

/-- A segment moved from one state to another: the first one with its number and state changes. -/
theorem mem_moveSegment {before after : SegState} (hs : NumbersHold s) (hd : d ∈ s.sgm.table) (hst : d.state = before)
    (x : Descriptor) : x ∈ (moveSegment d.number before after s).sgm.table ↔
      x = { d with state := after } ∨ (x ∈ s.sgm.table ∧ x ≠ d) := by
  have hfind : s.sgm.table.find? (isSegment before d.number) = some d := by
    cases hf : s.sgm.table.find? (isSegment before d.number) with
    | none => exact absurd (isSegment_iff.mpr ⟨rfl, hst⟩) (by simpa using List.find?_eq_none.mp hf d hd)
    | some y =>
      have hy := isSegment_iff.mp (List.find?_some hf)
      rw [hs.unique (List.mem_of_find?_eq_some hf) hd hy.1]
  obtain ⟨l, m, ht, -, -, -, hm⟩ := split_at_first hfind
  have hnodup : s.sgm.table.Nodup := List.Nodup.of_map _ hs.distinct
  rw [ht, List.nodup_append, List.nodup_cons] at hnodup
  obtain ⟨-, ⟨hdm, -⟩, hlm⟩ := hnodup
  have hdl : d ∉ l := fun h => hlm d h d List.mem_cons_self rfl
  simp only [moveSegment, State.setSgm_sgm, hm]
  simp only [ht, List.mem_append, List.mem_cons]
  constructor
  · rintro (h | h | h)
    · exact .inr ⟨.inl h, fun e => hdl (e ▸ h)⟩
    · exact .inl h
    · exact .inr ⟨.inr (.inr h), fun e => hdm (e ▸ h)⟩
  · rintro (h | ⟨h | h | h, hne⟩)
    · exact .inr (.inl h)
    · exact .inl h
    · exact absurd h hne
    · exact .inr (.inr h)

/-- A delivery starts: nothing was SENDING, and no report names the segment yet (R137). -/
theorem ReferencesHold.startDelivery (hs : ReferencesHold s) (hn : startable s = some n) :
    ReferencesHold (startDelivery n s) := by
  obtain ⟨hnum, href⟩ := referencesHold_iff.mp hs
  obtain ⟨hslot, d, hd, rfl, hst⟩ := startable_some hn
  have hmem := fun x => mem_moveSegment (after := .sending) hnum hd hst x
  have hnew : ∀ r ∈ allReports s, refOf r ≠ some d.number := fun r hr he => by
    obtain ⟨y, hy, hyn, hyst⟩ := hs.named r hr _ he
    rw [hnum.unique hy hd hyn] at hyst
    simp [hst] at hyst
  refine referencesHold_iff.mpr ⟨hnum.of_numbers (numbers_moveSegment _ _ _ s) rfl, ?_, href.endLast, ?_, ?_⟩
  · intro r hr m hm
    obtain ⟨y, hy, hyn, hyst⟩ := hs.named r hr m hm
    refine ⟨y, List.mem_filter.mpr ⟨(hmem y).mpr (.inr ⟨hy, fun e => ?_⟩), delivering_iff.mpr hyst⟩, hyn⟩
    simp [e, hst] at hyst
  · rintro m pos he
    cases he
    exact ⟨⟨{ d with state := .sending }, List.mem_filter.mpr ⟨(hmem _).mpr (.inl rfl), rfl⟩, rfl, rfl⟩,
      fun hr => hnew _ hr rfl⟩
  · intro y hy hyst
    rcases (hmem y).mp (List.mem_of_mem_filter hy) with rfl | ⟨hy, -⟩
    · exact ⟨.head, rfl⟩
    · obtain ⟨pos, hp⟩ := hs.sending y hy hyst
      simp [hslot] at hp

theorem refOf_reportAt (d : Descriptor) (pos : DeliveryPos) : refOf (.segment (reportAt d pos)) = some d.number := by
  cases pos <;> rfl

/-- Only SEGEND has no position after it. -/
theorem reportAt_tail {pos next : DeliveryPos} (h : nextPos d pos = some next) : reportAt d pos ≠ .tail n := by
  cases pos with
  | tail => cases h
  | _ => exact nofun

theorem reportAt_last {pos : DeliveryPos} (h : nextPos d pos = none) : pos = .tail := by
  cases pos with
  | tail => rfl
  | head =>
    simp only [nextPos] at h
    split at h <;> cases h
  | data c =>
    simp only [nextPos] at h
    split at h <;> cases h

/-- A report of the segment in the slot joins the queue (R139). -/
theorem Referred.snoc_report (h : Referred D L place) (hd : d ∈ D) {pos : DeliveryPos}
    (htail : .segment (.tail d.number) ∉ L) :
    (∀ r ∈ L ++ [.segment (reportAt d pos)], ∀ n, refOf r = some n → ∃ d ∈ D, d.number = n) ∧
      (L ++ [Report.segment (reportAt d pos)]).Pairwise (fun a b => ∀ n, a = .segment (.tail n) → refOf b ≠ some n) := by
  constructor
  · intro r hr n hn
    rcases List.mem_append.mp hr with hr | hr
    · exact h.named r hr n hn
    · rw [List.mem_singleton.mp hr, refOf_reportAt] at hn
      exact ⟨d, hd, Option.some.inj hn⟩
  · refine List.pairwise_append.mpr ⟨h.endLast, List.pairwise_singleton _ _, fun a ha b hb n hn hr => ?_⟩
    rw [List.mem_singleton.mp hb, refOf_reportAt] at hr
    obtain rfl := Option.some.inj hr
    exact htail (hn ▸ ha)

theorem ReferencesHold.queueSegmentReport {pos : DeliveryPos} (hs : ReferencesHold s) (hslot : s.rpe.slot = some (n, pos))
    (hd : segmentIn .sending n s = some d) : ReferencesHold (queueSegmentReport n pos d s) := by
  obtain ⟨hnum, href⟩ := referencesHold_iff.mp hs
  obtain ⟨rfl, hst⟩ := isSegment_iff.mp (List.find?_some hd)
  have hd := List.mem_of_find?_eq_some hd
  have hD : d ∈ s.sgm.table.filter delivering := List.mem_filter.mpr ⟨hd, delivering_iff.mpr (.inl hst)⟩
  have htail := (href.slot _ _ hslot).2
  obtain ⟨hnamed, hend⟩ := href.snoc_report hD (pos := pos) htail
  unfold Machine.queueSegmentReport
  split
  · next next hnext =>
    refine referencesHold_iff.mpr ⟨⟨hs.slots, hs.distinct, hs.range⟩, ?_⟩
    simp only [allReports, State.setRpe_rpe, State.setRpe_sgm, ← List.append_assoc]
    refine ⟨hnamed, hend, ?_, ?_⟩
    · rintro m q he
      cases he
      refine ⟨⟨d, hD, rfl, hst⟩, fun hr => ?_⟩
      rcases List.mem_append.mp hr with hr | hr
      · exact htail hr
      · exact reportAt_tail hnext (Report.segment.inj (List.mem_singleton.mp hr).symm)
    · intro y hy hyst
      obtain ⟨q, hq⟩ := href.sending y hy hyst
      rw [hslot] at hq
      exact ⟨next, by rw [(Prod.mk.inj (Option.some.inj hq)).1]⟩
  · next hlast =>
    obtain rfl := reportAt_last hlast
    have hmem := fun x => mem_moveSegment (after := .sent) hnum hd hst x
    refine referencesHold_iff.mpr ⟨hnum.of_numbers (numbers_moveSegment _ _ _ s) rfl, ?_⟩
    simp only [allReports, State.setRpe_rpe, State.setRpe_sgm, ← List.append_assoc]
    refine ⟨?_, hend, nofun, ?_⟩
    · intro r hr m hm
      obtain ⟨y, hy, rfl⟩ := hnamed r hr m hm
      obtain ⟨hy, hyd⟩ := List.mem_filter.mp hy
      by_cases he : y = d
      · subst he
        exact ⟨{ y with state := .sent }, List.mem_filter.mpr ⟨(hmem _).mpr (.inl rfl), rfl⟩, rfl⟩
      · exact ⟨y, List.mem_filter.mpr ⟨(hmem y).mpr (.inr ⟨hy, he⟩), hyd⟩, rfl⟩
    · intro y hy hyst
      rcases (hmem y).mp (List.mem_of_mem_filter hy) with rfl | ⟨hy, hne⟩
      · cases hyst
      · obtain ⟨q, hq⟩ := hs.sending y hy hyst
        rw [hslot] at hq
        exact absurd (hnum.unique hy hd (Prod.mk.inj (Option.some.inj hq)).1.symm) hne

/-! ## Acknowledgements and teardowns (R136, R145, R46) -/

/-- Reports from the front of the list leave; the segments whose SEGEND was among them are named by none that is left. -/
theorem Referred.drop (h : Referred D L place) (k : Nat) : Referred D (L.drop k) place ∧
    ∀ n, .segment (.tail n) ∈ L.take k → ∀ r ∈ L.drop k, refOf r ≠ some n := by
  have hcut := h.endLast
  rw [← List.take_append_drop k L, List.pairwise_append] at hcut
  obtain ⟨-, hlast, hcross⟩ := hcut
  refine ⟨⟨fun r hr => h.named r (List.mem_of_mem_drop hr), hlast, fun n pos hp => ?_, h.sending⟩,
    fun n hn r hr => hcross _ hn r hr n rfl⟩
  exact ⟨(h.slot n pos hp).1, fun hr => (h.slot n pos hp).2 (List.mem_of_mem_drop hr)⟩

/-- A SENT segment that no report names is released (R45). -/
theorem ReferencesHold.releaseSegment (hs : ReferencesHold s) (hn : ∀ r ∈ allReports s, refOf r ≠ some n) :
    ReferencesHold (releaseSegment n s) := by
  cases hd : segmentIn .sent n s with
  | none => simpa only [Machine.releaseSegment, hd] using hs
  | some d =>
    obtain ⟨rfl, hst⟩ := isSegment_iff.mp (List.find?_some hd)
    have he : Machine.releaseSegment d.number s =
        returnPages d.pages (s.setSgm { s.sgm with table := s.sgm.table.eraseP (isSegment .sent d.number) }) := by
      simp only [Machine.releaseSegment, hd]
    rw [he, returnPages_eq]
    have hsub : ∀ y ∈ s.sgm.table.eraseP (isSegment .sent d.number), y ∈ s.sgm.table := fun y => List.mem_of_mem_eraseP
    have hstay : ∀ y ∈ s.sgm.table, y.number ≠ d.number ∨ y.state = .sending →
        y ∈ s.sgm.table.eraseP (isSegment .sent d.number) := fun y hy hne => by
      refine (List.mem_eraseP_of_neg (fun hp => ?_)).mpr hy
      obtain ⟨hyn, hyst⟩ := isSegment_iff.mp hp
      rcases hne with hne | hne
      · exact hne hyn
      · simp [hyst] at hne
    refine ⟨(List.length_eraseP_le).trans hs.slots, hs.distinct.sublist ((List.eraseP_sublist).map _),
      ⟨hs.range.1, fun y hy => hs.range.2 y (hsub y hy)⟩, ?_, hs.endLast, ?_, fun y hy => hs.sending y (hsub y hy)⟩
    · intro r hr m hm
      obtain ⟨y, hy, rfl, hyst⟩ := hs.named r hr m hm
      exact ⟨y, hstay y hy (.inl (fun h => hn r hr (h ▸ hm))), rfl, hyst⟩
    · intro m pos hp
      obtain ⟨⟨y, hy, hyn, hyst⟩, htail⟩ := hs.slot m pos hp
      exact ⟨⟨y, hstay y hy (.inr hyst), hyn, hyst⟩, htail⟩

theorem allReports_releaseSegment (n : Nat) (s : State) : allReports (releaseSegment n s) = allReports s := by
  unfold releaseSegment
  split
  · rfl
  · rw [returnPages_eq]
    rfl

theorem ReferencesHold.releaseAll {ns : List Nat} (hs : ReferencesHold s)
    (hn : ∀ n ∈ ns, ∀ r ∈ allReports s, refOf r ≠ some n) : ReferencesHold (releaseAll ns s) := by
  induction ns generalizing s with
  | nil => exact hs
  | cons n ns ih =>
    refine ih (hs.releaseSegment (hn n List.mem_cons_self)) (fun m hm r hr => ?_)
    exact hn m (List.mem_cons_of_mem _ hm) r (by rwa [allReports_releaseSegment] at hr)

theorem acknowledgedSegments_eq (l : List (Nat × Report)) :
    acknowledgedSegments l = l.filterMap (fun x => segendOf x.2) := by
  induction l using acknowledgedSegments.induct <;> simp_all [acknowledgedSegments, segendOf]

theorem mem_acknowledgedSegments {l : List (Nat × Report)} (h : n ∈ acknowledgedSegments l) :
    .segment (.tail n) ∈ l.map Prod.snd := by
  rw [acknowledgedSegments_eq, List.mem_filterMap] at h
  obtain ⟨⟨k, r⟩, hx, hr⟩ := h
  refine List.mem_map.mpr ⟨(k, r), hx, ?_⟩
  unfold segendOf at hr
  split at hr
  · next m hm => rw [← Option.some.inj hr]; exact hm
  all_goals cases hr

theorem ReferencesHold.removeAcked (count : Nat) (hs : ReferencesHold s) : ReferencesHold (removeAcked count s) := by
  obtain ⟨hnum, href⟩ := referencesHold_iff.mp hs
  obtain ⟨k, hk, hdrop, htake⟩ : ∃ k, k ≤ s.rpe.outstanding.length ∧ s.rpe.outstanding.drop count = s.rpe.outstanding.drop k ∧
      s.rpe.outstanding.take count = s.rpe.outstanding.take k := by
    rcases Nat.le_total count s.rpe.outstanding.length with hc | hc
    · exact ⟨count, hc, rfl, rfl⟩
    · exact ⟨_, Nat.le_refl _, by rw [List.drop_of_length_le hc, List.drop_length],
        by rw [List.take_of_length_le hc, List.take_length]⟩
  have hcut : allReports (withoutAcked count s) = (allReports s).drop k := by
    simp only [allReports, withoutAcked, State.setRpe_rpe, hdrop]
    rw [List.drop_append_of_le_length (by simpa using hk), List.map_drop]
  obtain ⟨hleft, hgone⟩ := href.drop k
  have hw : ReferencesHold (withoutAcked count s) :=
    referencesHold_iff.mpr ⟨⟨hs.slots, hs.distinct, hs.range⟩, hcut ▸ hleft⟩
  rw [removeAcked_eq]
  refine hw.releaseAll fun n hn r hr => hgone n ?_ r (hcut ▸ hr)
  have hmem := mem_acknowledgedSegments hn
  rw [htake, List.map_take] at hmem
  simp only [allReports]
  rwa [List.take_append_of_le_length (by simpa using hk)]

/-- After a teardown nothing is in delivery and at most a LOST report is queued (R46, R145). -/
theorem ReferencesHold.flushReports (credit : Nat) (hs : ReferencesHold s) : ReferencesHold (flushReports credit s) := by
  rw [flushReports_eq]
  have hnumber : ∀ d : Descriptor,
      (if d.state = .sending ∨ d.state = .sent then { d with state := .complete } else d : Descriptor).number = d.number :=
    fun d => by split <;> rfl
  have hstate : ∀ d ∈ (reverted s.sgm).table, d.state ≠ .sending := fun d hd => by
    obtain ⟨x, -, rfl⟩ := List.mem_map.mp hd
    split
    · exact nofun
    · next h => exact fun he => h (.inl he)
  have hevents : ∀ r ∈ (flushed credit s.rpe).queue, ∃ e, r = .event e := fun r hr => by
    simp only [flushed] at hr
    split at hr
    · exact ⟨_, List.mem_singleton.mp hr⟩
    · cases hr
  have hmap : (reverted s.sgm).table.map Descriptor.number = s.sgm.table.map Descriptor.number := by
    simp only [reverted, List.map_map]
    exact List.map_congr_left fun d _ => hnumber d
  have hnum : NumbersHold { s with rpe := flushed credit s.rpe, sgm := reverted s.sgm } :=
    NumbersHold.of_numbers (s := s) ⟨hs.slots, hs.distinct, hs.range⟩ hmap rfl
  refine ⟨hnum.slots, hnum.distinct, hnum.range, fun r hr n hn => ?_, ?_, nofun, fun d hd hst => absurd hst (hstate d hd)⟩
  · obtain ⟨e, rfl⟩ := hevents r hr
    cases hn
  · refine List.Pairwise.imp_of_mem (R := fun _ _ => True) ?_ (List.pairwise_of_forall (fun _ _ => trivial))
    intro a b _ hb _ n _ hr
    obtain ⟨e, rfl⟩ := hevents b hb
    cases hr

/-! ## First transmissions (R133) -/

/-- A report sent for the first time passes from the head of the one queue to the tail of the other. -/
theorem ReferencesHold.firstSent {r : Report} {rest : List Report} (hs : ReferencesHold s) (hq : s.rpe.queue = r :: rest)
    (l : Lki) : ReferencesHold { s with rpe := rpeFirstSent r s.rpe, lki := l } := by
  obtain ⟨hnum, href⟩ := referencesHold_iff.mp hs
  refine referencesHold_iff.mpr ⟨⟨hs.slots, hs.distinct, hs.range⟩, ?_⟩
  have hsame : allReports s = (s.rpe.outstanding ++ [(s.rpe.nextSeq, r)]).map Prod.snd ++ rest := by
    simp [allReports, hq]
  rw [hsame] at href
  simp only [allReports, rpeFirstSent, rpeQueueLost, hq, List.tail_cons]
  split
  · rw [← List.append_assoc]
    exact href.snoc_event _
  · exact href

theorem ReferencesHold.chooseFrame (hs : ReferencesHold s) (e : chooseFrame s = .next t) : ReferencesHold t := by
  rcases chooseFrame_cases e with ⟨n, b, -, rfl⟩ | ⟨r, rest, b, -, -, rfl⟩ | rfl | ⟨m, r, b, -, -, rfl⟩ |
    ⟨r, rest, b, -, -, hq, -, -, rfl⟩
  · exact hs.kept rfl rfl rfl rfl
  · exact hs.kept rfl rfl rfl rfl
  · exact hs
  · exact hs.kept rfl rfl rfl rfl
  · exact hs.firstSent hq _

/-! ## The steps -/

theorem ReferencesHold.takeAck (seq grant : Nat) (hs : ReferencesHold s) : ReferencesHold (takeAck seq grant s) := by
  have hg : ReferencesHold (addGrant grant s) := hs.kept rfl rfl rfl rfl
  unfold Machine.takeAck
  simp only
  split
  · exact hg
  · exact hg.kept rfl rfl rfl rfl
  · exact (hg.removeAcked _).kept rfl rfl rfl rfl

theorem ReferencesHold.ackStep (hs : ReferencesHold s) : ReferencesHold (ackStep s) := by
  unfold Machine.ackStep
  split
  · next rest _ =>
    exact ReferencesHold.takeAck _ _ (s := s.setLki { s.lki with accepted := rest }) (hs.kept rfl rfl rfl rfl)
  all_goals exact hs

theorem ReferencesHold.runEngine (fuel : Nat) (hs : ReferencesHold s) : ReferencesHold (runEngine fuel s) := by
  induction fuel generalizing s with
  | zero => exact hs
  | succ fuel ih =>
    unfold Machine.runEngine
    split
    · next n pos hslot =>
      split
      · split
        · next d hd => exact ih (hs.queueSegmentReport hslot hd)
        · exact hs
      · exact hs
    · split
      · next n hn => exact ih (hs.startDelivery hn)
      · exact hs

theorem ReferencesHold.ownHello (args : List Byte) (hs : ReferencesHold s) : ReferencesHold (ownHello args s).2 := by
  unfold Machine.ownHello
  split
  · split
    · exact hs
    · next a ha =>
      simp only
      split
      · exact hs.kept rfl rfl rfl rfl
      · exact ReferencesHold.flushReports _ (hs.kept rfl rfl rfl rfl)
  · exact hs

theorem ReferencesHold.withRule (hs : ReferencesHold s) (i : Nat) (act : Rule → Answer × Rule) :
    ReferencesHold (withRule i act s).2 :=
  withRule_meets (R := fun _ t => ReferencesHold t) (s := s) hs (fun _ => hs.kept rfl rfl rfl rfl) i act

theorem referencesHold_resetBlocks (power : Power) (rate : LinkRate) (slots : SlotMem) (s : State) :
    ReferencesHold (resetBlocks power rate slots s) where
  slots := Nat.zero_le _
  distinct := List.nodup_nil
  range := ⟨Nat.zero_lt_succ _, fun _ hd => absurd hd List.not_mem_nil⟩
  named _ hr := absurd hr List.not_mem_nil
  endLast := .nil
  slot _ _ h := absurd h.symm (Option.some_ne_none _)
  sending _ hd := absurd hd List.not_mem_nil

theorem ReferencesHold.abortRun (hs : ReferencesHold s) : ReferencesHold (abortRun s) := by
  refine hs.acquired (abortRun_inner s) (abortRun_moves s).delivering_eq fun h => ?_
  rcases abortRun_calm s with e | ⟨v, hv, e⟩ <;> rw [e]
  · exact h
  · have harm : NumbersHold (armRules v) := (h.calm hv).of_numbers rfl rfl
    exact harm.calm (enterIdle_calm _ _)

theorem ReferencesHold.stopRun (hs : ReferencesHold s) : ReferencesHold (stopRun s) := by
  refine hs.acquired (stopRun_inner s) (stopRun_moves s).delivering_eq fun h => ?_
  rcases stopRun_leaves s with e | ⟨-, -, e⟩ | ⟨-, -, e⟩ <;> rw [e]
  · exact h
  · exact h.calm (enterIdle_calm _ s)
  · exact h.of_numbers rfl rfl

theorem references_meet : StepsMeet (fun s t => ReferencesHold s → ReferencesHold t) where
  refl _ hs := hs
  trans _ _ _ h k hs := k (h hs)
  rep _ _ _ _ _ _ k _ hs := (k hs).kept rfl rfl rfl rfl
  ans _ _ hs := hs.kept rfl rfl rfl rfl
  hello args _ hs := hs.ownHello args
  bye _ s _ hs := by
    simp only [ownBye]
    exact ReferencesHold.flushReports _ (hs.kept rfl rfl rfl rfl)
  replay _ _ _ hs := hs.kept rfl rfl rfl rfl
  reset _ _ hs := hs.kept rfl rfl rfl rfl
  tclear args s hs := by
    rcases ownTclear_leaves args s with e | e <;> rw [e] <;> exact hs.kept rfl rfl rfl rfl
  tadd args s hs := by
    rcases ownTadd_leaves args s with e | ⟨es, -, -, e⟩ <;> rw [e] <;> exact hs.kept rfl rfl rfl rfl
  tcommit args s hs := by
    rcases ownTcommit_leaves args s with e | ⟨-, e⟩ | ⟨-, e⟩ <;> rw [e]
    · exact hs
    · exact hs.kept rfl rfl rfl rfl
    · exact hs.acquired (switchTables_inner s) (by rw [switchTables_eq]; rfl) (fun h => h.calm (switchTables_calm s))
  rset _ s hs := by unfold ownRset; split <;> [exact hs; exact hs.withRule _ _]
  ron _ s hs := by unfold ownRon; split <;> [exact hs.withRule _ _; exact hs]
  roff _ s hs := by unfold ownRoff; split <;> [exact hs.withRule _ _; exact hs]
  rarm _ s hs := by unfold ownRarm; split <;> [exact hs.withRule _ _; exact hs]
  rread args s hs := by rwa [ownRread_state]
  cset args s hs := by
    rcases ownCset_leaves args s with e | ⟨c, -, -, e⟩ <;> rw [e] <;> exact hs.kept rfl rfl rfl rfl
  pset args s hs := by
    rcases ownPset_leaves args s with e | ⟨p, -, -, e⟩ <;> rw [e] <;> exact hs.kept rfl rfl rfl rfl
  start args s hs := by
    rcases ownStart_leaves args s with e | ⟨-, -, e⟩ <;> rw [e]
    · exact hs
    · exact hs.acquired (startRun_inner s) (by rw [startRun_eq])
        (fun h => h.of_numbers (by rw [startRun_eq]) (by rw [startRun_eq]))
  stop _ _ hs := hs.stopRun
  abort _ _ hs := hs.abortRun
  force args s hs := by
    rcases ownForce_leaves args s with e | ⟨-, e⟩ <;> rw [e] <;> exact hs.kept rfl rfl rfl rfl
  sfetch args s hs := by
    rcases ownSfetch_leaves args s with e | e <;> rw [e] <;> exact hs.kept rfl rfl rfl rfl
  sdrop args s hs := by
    rcases ownSdrop_leaves args s with e | ⟨d, hd, hst, e⟩ <;> rw [e]
    · exact hs
    · refine hs.acquired (discardFirst_inner s _ _) ?_ (fun h => h.calm (discardFirst_calm _ _ s))
      obtain ⟨before, after, ht, hg⟩ := (discardFirst_discarded .dropped hd).segments
      rw [hg, ht]
      simp [List.filter_append, not_delivering (.inr hst)]
  reset_blocks power rate slots s _ :=
    ⟨fun _ => referencesHold_resetBlocks power rate slots s, fun _ => referencesHold_resetBlocks power rate slots _⟩
  receive _ _ hs := hs.kept rfl rfl rfl rfl
  lineBreak _ hs := hs.kept rfl rfl rfl rfl
  gap _ _ hs := hs.kept rfl rfl rfl rfl
  commandFrame s hs := by
    have h := commandFrameStep_acq s
    have hr := (commandFrameStep_session s).rpe
    exact hs.kept (by rw [h.sgm]) (by rw [h.sgm]) (by rw [allReports, hr]; rfl) h.slot
  ack _ hs := hs.ackStep
  take s hs := by
    have h := commandTakeStep_acq s
    have hr := (commandTakeStep_session s).rpe
    exact hs.kept (by rw [h.sgm]) (by rw [h.sgm]) (by rw [allReports, hr]; rfl) h.slot
  choose _ _ _ e hs := hs.chooseFrame e
  frameEnd _ _ hs := hs.kept rfl rfl rfl rfl
  engine fuel _ hs := hs.runEngine fuel
  ackTimer s hs := by
    unfold ackTimerExpiryStep
    split
    · exact hs
    · split <;> exact hs.kept rfl rfl rfl rfl
  tick s hs := hs.calm (paceTickStep_inner s) (paceTickStep_moves s) (paceTickStep_calm s)
  late _ hs := hs.kept rfl rfl rfl rfl
  route c e p s hc hs := hs.acquired ((setCvp_inner s p).trans (routeRecord_inner _ c e))
    (routeRecord_moves (s.setCvp p) c e).delivering_eq (routeRecord_acted hc).numbers
  rising _ hs := hs.kept rfl rfl rfl rfl
  falling _ hs := hs.kept rfl rfl rfl rfl
  pulse s hs := by
    rcases pulseExpiryStep_leaves s with e | e <;> rw [e] <;> exact hs.kept rfl rfl rfl rfl

/-- Settles O58. -/
theorem stepKeepsTheReferences : Obligations.StepKeepsTheReferences :=
  references_meet.keeps (fun _ _ hs => hs.kept rfl rfl rfl rfl)

end Sys2Proof.Machine

/-! SUPPORT. The pacer, the conversion in flight, the pass, the FILLING segment and the ring in their relation to the run,
over every step: what leaves all of them alone, the entries into IDLE and HALTED, the route of a record and the ticks. -/

namespace Sys2Proof.Machine

variable {s t u : State} {d : Descriptor} {p : Descriptor → Bool} {f : Descriptor → Descriptor}

/-! ## How many segments are FILLING -/

/-- The number of FILLING segments. -/
def fillCount (s : State) : Nat := (s.sgm.table.filter isFilling).length

theorem fillingSegment_eq_head (s : State) : fillingSegment s = (s.sgm.table.filter isFilling).head? :=
  List.head?_filter.symm

theorem fillingSegment_isSome_iff : (fillingSegment s).isSome = true ↔ 0 < fillCount s := by
  rw [fillingSegment_eq_head, fillCount]
  cases s.sgm.table.filter isFilling <;> simp

theorem fillingSegment_none_iff : fillingSegment s = none ↔ fillCount s = 0 := by
  rw [fillingSegment_eq_head, List.head?_eq_none_iff, fillCount, List.length_eq_zero_iff]

theorem fillCount_of_table (h : t.sgm.table = s.sgm.table) : fillCount t = fillCount s := by rw [fillCount, h, fillCount]

/-- A change that leaves the first segment FILLING leaves the number. -/
theorem length_filter_modifyFirst (hf : ∀ d, isFilling (f d) = isFilling d) (l : List Descriptor) :
    ((modifyFirst isFilling f l).filter isFilling).length = (l.filter isFilling).length := by
  cases hl : l.find? isFilling with
  | none => rw [modifyFirst_none f hl]
  | some d =>
    obtain ⟨before, after, rfl, hd, -, -, hm⟩ := split_at_first hl
    simp [hm, List.filter_append, hf d, hd]

theorem fillCount_updateFilling (hf : ∀ d, isFilling (f d) = isFilling d) (s : State) :
    fillCount (updateFilling f s) = fillCount s := length_filter_modifyFirst hf _

/-- The one FILLING segment becomes COMPLETE. -/
theorem fillCount_completeFilling (a b : Bool) (h : fillCount s ≤ 1) : fillCount (completeFilling a b s) = 0 := by
  unfold fillCount at h ⊢
  simp only [completeFilling, updateFilling, State.setSgm_sgm]
  cases hl : s.sgm.table.find? isFilling with
  | none =>
    rw [modifyFirst_none _ hl, List.length_eq_zero_iff, List.filter_eq_nil_iff]
    exact List.find?_eq_none.mp hl
  | some d =>
    obtain ⟨before, after, ht, hd, -, -, hm⟩ := split_at_first hl
    rw [ht] at h
    rw [hm]
    have hclosed : isFilling (closedDescriptor a b d) = false := rfl
    simp only [List.filter_append, List.filter_cons, hd, if_true, List.length_append, List.length_cons, hclosed,
      Bool.false_eq_true, if_false] at h ⊢
    omega

theorem fillCount_eraseP (hd : s.sgm.table.find? p = some d) (hn : isFilling d = false) :
    ((s.sgm.table.eraseP p).filter isFilling).length = fillCount s := by
  obtain ⟨before, after, ht, -, -, he, -⟩ := split_at_first hd
  rw [he, fillCount, ht]
  simp [List.filter_append, hn]

/-- Changes of segments that are not FILLING. -/
theorem length_filter_map (hf : ∀ d, isFilling (f d) = isFilling d) (l : List Descriptor) :
    ((l.map f).filter isFilling).length = (l.filter isFilling).length := by
  rw [List.filter_map, List.length_map]
  exact congrArg (fun q => (l.filter q).length) (funext hf)

theorem length_filter_modifyFirst_of (hf : ∀ d, p d = true → isFilling d = false ∧ isFilling (f d) = false)
    (l : List Descriptor) : ((modifyFirst p f l).filter isFilling).length = (l.filter isFilling).length := by
  cases hl : l.find? p with
  | none => rw [modifyFirst_none f hl]
  | some d =>
    obtain ⟨before, after, rfl, hd, -, -, hm⟩ := split_at_first hl
    simp [hm, List.filter_append, hf d hd]

/-! ## Operations that leave the run alone -/

/-- What the relation of pacer, pass, segment and ring to the run turns on is the same in both states. -/
structure Steady (s t : State) : Prop where
  fill : fillCount t = fillCount s
  ring : t.sst.ring = s.sst.ring
  sct : t.sct = s.sct
  state : t.aqs.state = s.aqs.state
  nextTick : t.aqs.nextTick.isSome = s.aqs.nextTick.isSome
  passState : t.aqs.passState = s.aqs.passState
  holdPending : t.aqs.holdPending = s.aqs.holdPending
  mode : t.aqs.mode = s.aqs.mode
  forcePending : t.aqs.forcePending = true → s.aqs.forcePending = true
  holdoff : t.sgm.holdoff ≤ s.sgm.holdoff
  inFlight : t.cvp.inFlight = s.cvp.inFlight
  timer : t.cvp.timer = s.cvp.timer

theorem Steady.refl (s : State) : Steady s s := ⟨rfl, rfl, rfl, rfl, rfl, rfl, rfl, rfl, id, Nat.le_refl _, rfl, rfl⟩

theorem Steady.trans (h : Steady s t) (k : Steady t u) : Steady s u where
  fill := k.fill.trans h.fill
  ring := k.ring.trans h.ring
  sct := k.sct.trans h.sct
  state := k.state.trans h.state
  nextTick := k.nextTick.trans h.nextTick
  passState := k.passState.trans h.passState
  holdPending := k.holdPending.trans h.holdPending
  mode := k.mode.trans h.mode
  forcePending := h.forcePending ∘ k.forcePending
  holdoff := k.holdoff.trans h.holdoff
  inFlight := k.inFlight.trans h.inFlight
  timer := k.timer.trans h.timer

/-- The chain read from its end. -/
theorem Steady.after (k : Steady t u) (h : Steady s t) : Steady s u := h.trans k

/-- The sequencer, the converter port and the scan table are the same, and the ring. -/
theorem Steady.of_blocks (hf : fillCount t = fillCount s) (hr : t.sst.ring = s.sst.ring) (hs : t.sct = s.sct)
    (ha : t.aqs = s.aqs) (hh : t.sgm.holdoff = s.sgm.holdoff) (hc : t.cvp = s.cvp) : Steady s t :=
  ⟨hf, hr, hs, by rw [ha], by rw [ha], by rw [ha], by rw [ha], by rw [ha], by rw [ha]; exact id, hh.le, by rw [hc],
    by rw [hc]⟩

theorem Steady.acquiring (h : Steady s t) : acquiring t = acquiring s := by rw [Machine.acquiring, h.state, Machine.acquiring]

theorem Steady.pacing (h : Steady s t) (hs : PacingShape s) : PacingShape t where
  pacer := by rw [h.nextTick, h.acquiring]; exact hs.pacer
  flight := by rw [h.inFlight, h.acquiring]; exact hs.flight
  timer := by rw [h.timer, h.inFlight]; exact hs.timer
  entry := by rw [h.inFlight, h.sct]; exact hs.entry
  table := by rw [h.acquiring, h.sct]; exact hs.table
  hold := by rw [h.holdPending, h.inFlight]; exact hs.hold
  stepPass := by rw [h.mode, h.passState, h.holdPending]; exact hs.stepPass
  burstPass := by rw [h.mode, h.passState, h.inFlight]; exact hs.burstPass
  idlePass := by rw [h.acquiring, h.passState]; exact hs.idlePass

/-- The relation of segments, ring, commit, FORCE and holdoff to the run, on the number of FILLING segments. -/
theorem runShape_iff : RunShape s ↔ fillCount s ≤ 1 ∧ (0 < fillCount s → acquiring s = true) ∧
    (s.aqs.state = .draining → 0 < fillCount s) ∧ (s.sst.ring ≠ [] → s.aqs.state = .running ∧ fillCount s = 0) ∧
    (s.sct.scheduled = true → acquiring s = true) ∧
    (s.sct.scheduled = true → s.aqs.state = .running → s.sct.working ≠ []) ∧
    (s.aqs.forcePending = true → acquiring s = true) ∧
    (0 < s.sgm.holdoff → s.aqs.state = .running ∧ fillCount s = 0) := by
  constructor
  · rintro ⟨h1, h2, h3, h4, h5, h6, h7, h8⟩
    rw [fillingSegment_isSome_iff] at h2 h3
    rw [fillingSegment_none_iff] at h4 h8
    exact ⟨h1, h2, h3, h4, h5, h6, h7, h8⟩
  · rintro ⟨h1, h2, h3, h4, h5, h6, h7, h8⟩
    rw [← fillingSegment_isSome_iff] at h2 h3
    rw [← fillingSegment_none_iff] at h4 h8
    exact ⟨h1, h2, h3, h4, h5, h6, h7, h8⟩

theorem Steady.run (h : Steady s t) (hs : RunShape s) : RunShape t := by
  obtain ⟨h1, h2, h3, h4, h5, h6, h7, h8⟩ := runShape_iff.mp hs
  rw [runShape_iff, h.fill, h.acquiring, h.state, h.ring, h.sct]
  exact ⟨h1, h2, h3, h4, h5, h6, h7 ∘ h.forcePending, fun hh => h8 (hh.trans_le h.holdoff)⟩

/-- What the steps keep of the run. -/
def RunOk (s : State) : Prop := PacingShape s ∧ RunShape s

theorem Steady.ok (h : Steady s t) (hs : RunOk s) : RunOk t := ⟨h.pacing hs.1, h.run hs.2⟩

theorem queueEvent_steady (e : EventReport) (s : State) : Steady s (queueEvent e s) := .of_blocks rfl rfl rfl rfl rfl rfl

theorem returnPages_steady (pages : List Nat) (s : State) : Steady s (returnPages pages s) := by
  rw [returnPages_eq]
  exact .of_blocks rfl rfl rfl rfl rfl rfl

theorem takePage_steady {page : Nat} (h : takePage s = some (page, t)) : Steady s t := by
  cases hp : s.sst.pool.head? with
  | none => simp [takePage, List.head?_eq_none_iff.mp hp] at h
  | some q =>
    rw [takePage_eq s q hp] at h
    cases h
    exact .of_blocks rfl rfl rfl rfl rfl rfl

/-- A discard of a segment that is not FILLING. -/
theorem discardFirst_steady (r : DropReason) (s : State) (hn : ∀ d, s.sgm.table.find? p = some d → isFilling d = false) :
    Steady s (discardFirst p r s) := by
  cases hd : s.sgm.table.find? p with
  | none => simpa only [discardFirst, hd] using Steady.refl s
  | some d =>
    have h := discardFirst_discarded r hd
    obtain ⟨-, -, -, -, hsct, haqs, hcvp, -⟩ := h.others
    obtain ⟨before, after, ht, hg⟩ := h.segments
    refine .of_blocks ?_ (by rw [h.store]; rfl) hsct haqs (by rw [hg]) hcvp
    rw [fillCount, fillCount, hg, ht]
    simp [List.filter_append, hn d hd]

theorem complete_not_filling (h : d.state = .complete) : isFilling d = false := by simp [isFilling, h]

theorem displaceOne_steady {priority : Nat} {forPage : Bool} (h : displaceOne priority forPage s = some t) : Steady s t := by
  rw [displaceOne_eq s h]
  refine discardFirst_steady _ s fun d hd => complete_not_filling ?_
  exact ((mayBeDisplaced_iff priority forPage s d).mp (List.find?_some hd)).1

theorem takeOrDisplace_steady {priority page : Nat} (h : takeOrDisplace priority s = some (page, t)) : Steady s t := by
  unfold takeOrDisplace at h
  split at h
  · next r hr =>
    cases h
    exact takePage_steady hr
  · split at h
    · split at h
      · next v hv => exact (displaceOne_steady hv).trans (takePage_steady h)
      · cases h
    · cases h

theorem updateFilling_steady (hf : ∀ d, isFilling (f d) = isFilling d) (s : State) : Steady s (updateFilling f s) :=
  .of_blocks (fillCount_updateFilling hf s) rfl rfl rfl rfl rfl

theorem writeSlot_steady (page slot : Nat) (r : Record) (s : State) : Steady s (writeSlot page slot r s) :=
  .of_blocks rfl rfl rfl rfl rfl rfl

theorem countLoss_steady (s : State) : Steady s (countLoss s) := .of_blocks rfl rfl rfl rfl rfl rfl

theorem missedTick_steady (s : State) : Steady s (missedTick s) := by
  rw [missedTick_eq]
  refine ⟨length_filter_modifyFirst ?_ _, rfl, rfl, rfl, rfl, rfl, rfl, rfl, id, Nat.le_refl _, rfl, rfl⟩
  exact fun _ => rfl

theorem listSecondary_filling (x : Secondary) (d : Descriptor) : isFilling (listSecondary x d) = isFilling d := by
  unfold listSecondary
  split <;> rfl

theorem retrigger_steady (rule offset : Nat) (s : State) : Steady s (retrigger rule offset s).2 := by
  unfold retrigger
  split
  · exact updateFilling_steady (listSecondary_filling _) s
  · refine updateFilling_steady (fun d => ?_) s
    rw [listSecondary_filling]
    rfl

theorem countNoDescriptor_steady (s : State) : Steady s (countNoDescriptor s) := .of_blocks rfl rfl rfl rfl rfl rfl

theorem descriptorSlot_steady {priority : Nat} (h : descriptorSlot priority s = some t) : Steady s t := by
  unfold descriptorSlot at h
  split at h
  · cases h
    exact .refl s
  · split at h
    · exact displaceOne_steady h
    · cases h

/-! ## Entries into IDLE and HALTED, closes and halts (R35, R98, R100) -/

/-- After an entry the run is over. -/
theorem Entered.ok {st : AcqState} {r : AcqReason} (h : Entered st r s t) (hst : st = .idle ∨ st = .halted)
    (hf : fillCount s = 0) : RunOk t := by
  have hstate : t.aqs.state = st := h.state
  have hacq : acquiring t = false := by
    rw [acquiring, hstate]
    rcases hst with rfl | rfl <;> rfl
  have hrun : t.aqs.state ≠ .running := by
    rw [hstate]
    rcases hst with rfl | rfl <;> exact nofun
  have hdrain : t.aqs.state ≠ .draining := by
    rw [hstate]
    rcases hst with rfl | rfl <;> exact nofun
  have hflight : t.cvp.inFlight = none := by rw [h.converter]
  have hfill : fillCount t = 0 := by
    rw [fillCount_of_table (s := s) (by rw [h.segments])]
    exact hf
  have hsched : t.sct.scheduled = false := by
    rw [h.scanTable]
    split
    · rfl
    · next hn => simpa using hn
  have hpass : t.aqs.passState = .waiting := by rw [h.sequencer]
  have hhold : t.aqs.holdPending = false := by rw [h.sequencer]
  constructor
  · exact {
      pacer := by rw [hacq, h.sequencer]; rfl
      flight := by simp [hflight]
      timer := by rw [hflight, h.converter]; rfl
      entry := by simp [hflight]
      table := by simp [hacq]
      hold := by simp [hhold]
      stepPass := fun _ => ⟨hpass, hhold⟩
      burstPass := fun _ => by simp [hpass, hflight]
      idlePass := fun _ => hpass }
  · have hring : t.sst.ring = [] := by rw [h.store]; rfl
    have hforce : t.aqs.forcePending = false := by rw [h.sequencer]
    have hoff : t.sgm.holdoff = 0 := by rw [h.segments]
    rw [runShape_iff]
    simp [hfill, hring, hsched, hforce, hoff, hdrain]

/-- After the entry nothing is in flight. -/
theorem Entered.stopped {st : AcqState} {r : AcqReason} (h : Entered st r s t) : t.cvp.inFlight = none := by rw [h.converter]

/-! ## A record on its route -/

/-- The run while the record of a completed conversion is on its route: nothing is in flight, and in BURST pacing the pass is
still CONVERTING while acquisition goes on (R109, R113). -/
structure Routing (s : State) : Prop where
  pacer : s.aqs.nextTick.isSome = acquiring s
  flight : s.cvp.inFlight = none
  timer : s.cvp.timer = none
  table : acquiring s = true → s.sct.active ≠ []
  hold : s.aqs.holdPending = false
  stepPass : s.aqs.mode = .step → s.aqs.passState = .waiting
  burstPass : s.aqs.mode = .burst → acquiring s = true → s.aqs.passState = .converting
  idlePass : acquiring s = false → s.aqs.passState = .waiting
  run : RunShape s

theorem Steady.routing (h : Steady s t) (hs : Routing s) : Routing t where
  pacer := by rw [h.nextTick, h.acquiring]; exact hs.pacer
  flight := by rw [h.inFlight]; exact hs.flight
  timer := by rw [h.timer]; exact hs.timer
  table := by rw [h.acquiring, h.sct]; exact hs.table
  hold := by rw [h.holdPending]; exact hs.hold
  stepPass := by rw [h.mode, h.passState]; exact hs.stepPass
  burstPass := by rw [h.mode, h.acquiring, h.passState]; exact hs.burstPass
  idlePass := by rw [h.acquiring, h.passState]; exact hs.idlePass
  run := h.run hs.run

/-- A change of segments, ring, FORCE and holdoff after which they are in their relation to the run. -/
theorem Routing.of_run (hs : Routing s) (hc : t.cvp = s.cvp) (ht : t.sct = s.sct) (hstate : t.aqs.state = s.aqs.state)
    (hn : t.aqs.nextTick = s.aqs.nextTick) (hp : t.aqs.passState = s.aqs.passState)
    (hh : t.aqs.holdPending = s.aqs.holdPending) (hm : t.aqs.mode = s.aqs.mode) (hr : RunShape t) : Routing t := by
  have ha : acquiring t = acquiring s := by rw [acquiring, hstate, acquiring]
  exact {
    pacer := by rw [hn, ha]; exact hs.pacer
    flight := by rw [hc]; exact hs.flight
    timer := by rw [hc]; exact hs.timer
    table := by rw [ha, ht]; exact hs.table
    hold := by rw [hh]; exact hs.hold
    stepPass := by rw [hm, hp]; exact hs.stepPass
    burstPass := by rw [hm, ha, hp]; exact hs.burstPass
    idlePass := by rw [ha, hp]; exact hs.idlePass
    run := hr }

/-- An entry into IDLE or HALTED on the route. -/
theorem Entered.routing {st : AcqState} {r : AcqReason} (h : Entered st r s t) (hst : st = .idle ∨ st = .halted)
    (hf : fillCount s = 0) : Routing t := by
  obtain ⟨hp, hr⟩ := h.ok hst hf
  have hacq : acquiring t = false := by
    rw [acquiring, h.state]
    rcases hst with rfl | rfl <;> rfl
  exact {
    pacer := hp.pacer
    flight := h.stopped
    timer := by rw [h.converter]
    table := hp.table
    hold := by rw [h.sequencer]
    stepPass := fun _ => hp.idlePass hacq
    burstPass := fun _ ha => by simp [hacq] at ha
    idlePass := hp.idlePass
    run := hr }

/-- Outside RUNNING and DRAINING no segment is FILLING, and a close of one changes nothing. -/
theorem completeFilling_none (a b : Bool) (h : fillCount s = 0) : completeFilling a b s = s := by
  have hf : s.sgm.table.find? isFilling = none := fillingSegment_none_iff.mpr h
  simp only [completeFilling, updateFilling, modifyFirst_none _ hf]
  rfl

theorem RunShape.fillCount_zero (h : RunShape s) (ha : acquiring s = false) : fillCount s = 0 := by
  by_contra hne
  have hacq := (runShape_iff.mp h).2.1 (Nat.pos_of_ne_zero hne)
  simp [ha] at hacq

theorem closeSegment_routing (b : Bool) (hs : Routing s) : Routing (closeSegment b s) := by
  have hzero := fillCount_completeFilling b false hs.run.oneFilling
  unfold closeSegment acquisitionAtClose
  split
  · next hst _ =>
    refine hs.of_run rfl rfl rfl rfl rfl rfl rfl (runShape_iff.mpr ?_)
    obtain ⟨-, -, -, h4, h5, h6, h7, -⟩ := runShape_iff.mp hs.run
    have hacq : acquiring s = true := (acquiring_iff s).mpr (.inl hst)
    have hst' : s.aqs.state = .running := hst
    have hd : ¬ s.aqs.state = .draining := by simp [hst']
    exact ⟨hzero.le.trans (Nat.zero_le 1), fun _ => hacq, fun h => absurd h hd, fun _ => ⟨hst, hzero⟩, h5, h6, h7,
      fun _ => ⟨hst, hzero⟩⟩
  · exact (enterStopped_entered _ _ _).routing (.inl rfl) hzero
  · exact (enterStopped_entered _ _ _).routing (.inl rfl) hzero
  all_goals
    next hst =>
    have hst' : acquiring s = false := by
      have he : s.aqs.state = _ := hst
      simp [acquiring, he]
    rwa [completeFilling_none _ _ (hs.run.fillCount_zero hst')]

/-- A halt after the FILLING segment has closed, or with it (R39, R100). -/
theorem haltWith_routing (r : AcqReason) (hs : Routing s) (hc : t = s ∨ ∃ a b, t = completeFilling a b s) :
    Routing (haltWith r t) := by
  have hfill : fillCount t ≤ 1 := by
    rcases hc with rfl | ⟨a, b, rfl⟩
    · exact hs.run.oneFilling
    · exact (fillCount_completeFilling a b hs.run.oneFilling).le.trans (Nat.zero_le 1)
  have hstate : t.aqs.state = s.aqs.state := by
    rcases hc with rfl | ⟨a, b, rfl⟩ <;> rfl
  unfold haltWith
  split
  · exact (enterStopped_entered _ _ _).routing (.inr rfl) (fillCount_completeFilling _ _ hfill)
  · exact (enterStopped_entered _ _ _).routing (.inr rfl) (fillCount_completeFilling _ _ hfill)
  all_goals
    next hst =>
    rw [hstate] at hst
    rcases hc with rfl | ⟨a, b, rfl⟩
    · exact hs
    · rwa [completeFilling_none _ _ (hs.run.fillCount_zero (by simp [acquiring, hst]))]

theorem converterFault_routing (q : Request) (hs : Routing s) : Routing (converterFault q s) :=
  haltWith_routing _ ((queueEvent_steady _ s).routing hs) (.inl rfl)

theorem starve_routing (hs : Routing s) : Routing (starve s) := by
  have hl : Routing (countLoss s) := (countLoss_steady s).routing hs
  unfold starve
  simp only
  split
  · exact haltWith_routing _ hl (.inr ⟨_, _, rfl⟩)
  · exact closeSegment_routing _ hl

theorem closeCheck_routing (hs : Routing s) : Routing (closeCheck s) := by
  unfold closeCheck
  split
  · exact hs
  · split
    · split
      · exact haltWith_routing _ hs (.inr ⟨_, _, rfl⟩)
      · exact closeSegment_routing _ hs
    · exact hs

theorem countRecord_routing (err : Bool) (hs : Routing s) : Routing (countRecord err s) :=
  closeCheck_routing ((updateFilling_steady (f := countedDescriptor err) (fun _ => rfl) s).routing hs)

/-! ## Placement (R8, R13) -/

/-- The ring takes a record while acquisition is in RUNNING with no segment FILLING. -/
theorem Routing.ring (hs : Routing s) (hst : s.aqs.state = .running) (hf : fillCount s = 0) (x : Sst) :
    Routing (s.setSst x) := by
  refine hs.of_run rfl rfl rfl rfl rfl rfl rfl (runShape_iff.mpr ?_)
  obtain ⟨h1, h2, h3, -, h5, h6, h7, h8⟩ := runShape_iff.mp hs.run
  exact ⟨h1, h2, h3, fun _ => ⟨hst, hf⟩, h5, h6, h7, h8⟩

/-- While acquisition goes on with no segment FILLING it is in RUNNING. -/
theorem Routing.running (hs : Routing s) (ha : acquiring s = true) (hf : fillCount s = 0) : s.aqs.state = .running := by
  rcases (acquiring_iff s).mp ha with h | h
  · exact h
  · have hpos := (runShape_iff.mp hs.run).2.2.1 h
    omega

/-- What placement leaves: acquisition goes on unless a page is wanting, and an unplaced record finds no ring. -/
structure Placed (s : State) (x : Placement × State) : Prop where
  routing : Routing x.2
  goesOn : x.1 ≠ .refused → acquiring x.2 = true
  unplaced : x.1 = .unplaced → x.2.sst.ring = []

theorem recycleRing_placed (r : Record) (hs : Routing s) (ha : acquiring s = true) (hf : fillCount s = 0) :
    Placed s (recycleRing r s) := by
  unfold recycleRing
  split
  · next hr => exact ⟨hs, fun _ => ha, fun _ => hr⟩
  · exact ⟨(writeSlot_steady _ _ _ _).routing (hs.ring (hs.running ha hf) hf _), fun _ => ha, nofun⟩

theorem placeInRing_placed (r : Record) (hs : Routing s) (ha : acquiring s = true) (hf : fillCount s = 0) :
    Placed s (placeInRing r s) := by
  have hring := hs.ring (hs.running ha hf) hf
  have hnext : Placed s (nextRingPage r s) := by
    unfold nextRingPage
    split
    · split
      · next page v hv =>
        have h := takePage_steady hv
        have hv' := (h.routing hs).ring (h.state ▸ hs.running ha hf) (h.fill.trans hf)
        exact ⟨(writeSlot_steady _ _ _ _).routing (hv' _), fun _ => h.acquiring.trans ha, nofun⟩
      · exact recycleRing_placed r hs ha hf
    · exact recycleRing_placed r hs ha hf
  unfold placeInRing
  split
  · split
    · exact ⟨(writeSlot_steady _ _ _ _).routing (hring _), fun _ => ha, nofun⟩
    · exact hnext
  · exact hnext

theorem placeInSegment_placed (d : Descriptor) (r : Record) (hs : Routing s) (ha : acquiring s = true) :
    Placed s (placeInSegment d r s) := by
  unfold placeInSegment
  split
  · exact ⟨(writeSlot_steady _ _ _ _).routing hs, fun _ => ha, nofun⟩
  · split
    · next page v hv =>
      have h := (takeOrDisplace_steady hv).trans
        ((updateFilling_steady (f := addFillPage page) (fun _ => rfl) v).trans (writeSlot_steady page 0 r _))
      exact ⟨h.routing hs, fun _ => h.acquiring.trans ha, nofun⟩
    · exact ⟨starve_routing hs, fun h => absurd rfl h, nofun⟩

theorem placeRecord_placed (r : Record) (hs : Routing s) (ha : acquiring s = true) : Placed s (placeRecord r s) := by
  unfold placeRecord
  split
  · exact placeInSegment_placed _ r hs ha
  · next hf => exact placeInRing_placed r hs ha (fillingSegment_none_iff.mp hf)

/-! ## Openings (R15, R16, R29) -/

/-- A segment opens with the ring given up, in RUNNING with no segment FILLING and no holdoff. -/
theorem Routing.opened (hs : Routing s) (hst : s.aqs.state = .running) (ho : s.sgm.holdoff = 0) (hc : t.cvp = s.cvp)
    (ht : t.sct = s.sct) (haqs : t.aqs = s.aqs) (hh : t.sgm.holdoff = s.sgm.holdoff) (hr : t.sst.ring = [])
    (hf : fillCount t = 1) : Routing t := by
  refine hs.of_run hc ht (by rw [haqs]) (by rw [haqs]) (by rw [haqs]) (by rw [haqs]) (by rw [haqs]) (runShape_iff.mpr ?_)
  obtain ⟨-, -, -, -, h5, h6, h7, -⟩ := runShape_iff.mp hs.run
  have hacq : acquiring s = true := (acquiring_iff s).mpr (.inl hst)
  have hacq' : acquiring t = acquiring s := by rw [acquiring, haqs, acquiring]
  rw [hacq', haqs, ht, hr, hh, ho, hf]
  exact ⟨Nat.le_refl 1, fun _ => hacq, fun _ => Nat.one_pos, fun h => absurd rfl h, h5, h6, h7,
    fun h => absurd h (Nat.lt_irrefl 0)⟩

theorem fillCount_joinTable (hd : isFilling d = true) (s : State) : fillCount (joinTable d s) = fillCount s + 1 := by
  simp [fillCount, joinTable, List.filter_append, hd]

theorem fillCount_handover (s : State) : fillCount (handover s) = fillCount s := by
  simp only [handover]
  rw [fillCount_of_table (congrArg (fun v : State => v.sgm.table) (returnPages_eq _ _))]
  exact fillCount_updateFilling (f := openedDescriptor _ _ _ _ _ _ _) (fun _ => rfl) s

theorem handover_ring (s : State) : (handover s).sst.ring = [] := by
  simp only [handover, returnPages_eq]
  rfl

theorem handover_others (s : State) : (handover s).cvp = s.cvp ∧ (handover s).sct = s.sct ∧ (handover s).aqs = s.aqs ∧
    (handover s).sgm.holdoff = s.sgm.holdoff := by
  simp only [handover, returnPages_eq]
  exact ⟨rfl, rfl, rfl, rfl⟩

theorem firstPage_steady (priority : Nat) (r : Record) (s : State) : Steady s (firstPage priority r s) := by
  unfold firstPage
  split
  · next page v hv =>
    exact (takeOrDisplace_steady hv).trans
      ((updateFilling_steady (f := openedDescriptor _ _ _ _ _ _ _) (fun _ => rfl) v).trans (writeSlot_steady page 0 r _))
  · exact (countLoss_steady s).trans (updateFilling_steady (f := openedDescriptor _ _ _ _ _ _ _) (fun _ => rfl) _)

theorem startPulse_steady (s : State) : Steady s (startPulse s) := .of_blocks rfl rfl rfl rfl rfl rfl

/-- The state in which the firings of a record are dealt with: acquisition goes on, and an unplaced record has found no ring. -/
structure Dealing (place : TriggerPlace) (s : State) : Prop where
  routing : Routing s
  goesOn : acquiring s = true
  unplaced : place = .unplaced → s.sst.ring = []

theorem Steady.dealing {place : TriggerPlace} (h : Steady s t) (hs : Dealing place s) : Dealing place t :=
  ⟨h.routing hs.routing, h.acquiring.trans hs.goesOn, fun hp => h.ring.trans (hs.unplaced hp)⟩

theorem openSegment_dealing (rule priority : Nat) (x : TriggerInfo) (hs : Dealing x.place s) (ho : s.sgm.holdoff = 0)
    (hf : fillCount s = 0) : Dealing x.place (openSegment rule priority x s) := by
  have hst := hs.routing.running hs.goesOn hf
  have hjoin := fillCount_joinTable (d := freshDescriptor rule priority x s) rfl s
  rw [hf, Nat.zero_add] at hjoin
  cases hp : x.place with
  | ring =>
    simp only [openSegment, hp]
    obtain ⟨hc, ht, ha, hh⟩ := handover_others (joinTable (freshDescriptor rule priority x s) s)
    have hring := handover_ring (joinTable (freshDescriptor rule priority x s) s)
    have hopen := hs.routing.opened hst ho hc ht ha hh hring ((fillCount_handover _).trans hjoin)
    refine (startPulse_steady _).dealing ⟨hopen, ?_, nofun⟩
    rw [acquiring, ha]
    exact hs.goesOn
  | unplaced =>
    simp only [openSegment, hp]
    have hring := hs.unplaced hp
    have hopen : Routing (joinTable (freshDescriptor rule priority x s) s) :=
      hs.routing.opened hst ho rfl rfl rfl rfl hring hjoin
    exact ((firstPage_steady _ _ _).trans (startPulse_steady _)).dealing ⟨hopen, hs.goesOn, fun _ => hring⟩

theorem captureFiring_dealing (rule priority : Nat) (x : TriggerInfo) (ctx : CaptureContext) (hs : Dealing x.place s) :
    Dealing x.place (captureFiring rule priority x ctx s).2 := by
  unfold captureFiring
  split
  · exact hs
  · split
    · exact (retrigger_steady _ _ s).dealing hs
    · next hn =>
      split
      · unfold shareRefusal
        dsimp only
        split
        · exact (countNoDescriptor_steady s).dealing hs
        · exact hs
      all_goals
        split
        · exact hs
        · next ho =>
          unfold openOrRefuse
          split
          · next v hv =>
            have h := descriptorSlot_steady hv
            refine openSegment_dealing _ _ _ (h.dealing hs) ?_ (h.fill.trans (fillingSegment_none_iff.mp hn))
            have hle := h.holdoff
            omega
          · exact (countNoDescriptor_steady s).dealing hs

theorem dealFirings_dealing (x : TriggerInfo) (fs : List Firing) (ctx : CaptureContext) (s : State)
    (hs : Dealing x.place s) : Dealing x.place (dealFirings x fs ctx s).2 := by
  induction fs generalizing ctx s with
  | nil => exact hs
  | cons g fs ih =>
    refine ih _ _ ?_
    unfold dealFiring
    split
    · exact (queueEvent_steady _ s).dealing hs
    · exact (queueEvent_steady _ _).dealing (captureFiring_dealing _ _ _ _ hs)

theorem evaluateRules_steady (channel : Nat) (r : Record) (s : State) : Steady s (evaluateRules channel r s) :=
  .of_blocks rfl rfl rfl rfl rfl rfl

theorem afterEvaluation_routing (p : Placement) (ctx : CaptureContext) (hs : Routing s) :
    Routing (afterEvaluation p ctx s) := by
  cases p with
  | segment => exact countRecord_routing false hs
  | refused => exact hs
  | ring =>
    unfold afterEvaluation
    dsimp only
    split
    · exact closeCheck_routing hs
    · exact hs
  | unplaced =>
    unfold afterEvaluation
    dsimp only
    split
    · exact closeCheck_routing hs
    · exact (countLoss_steady s).routing hs

theorem afterErr_routing (p : Placement) (hs : Routing s) : Routing (afterErr p s) := by
  cases p with
  | segment => exact countRecord_routing true hs
  | refused => exact hs
  | ring => exact hs
  | unplaced => exact (countLoss_steady s).routing hs

theorem clearForce_steady (s : State) : Steady s (s.setAqs { s.aqs with forcePending := false }) :=
  ⟨rfl, rfl, rfl, rfl, rfl, rfl, rfl, rfl, nofun, Nat.le_refl _, rfl, rfl⟩

theorem evaluateStored_routing (channel : Nat) (r : Record) (p : Placement) (hs : Dealing (triggerPlace p) s) :
    Routing (evaluateStored channel r p s) := by
  refine afterEvaluation_routing _ _ (Dealing.routing (place := triggerPlace p) ?_)
  exact dealFirings_dealing ⟨r, s.aqs.convTick, triggerPlace p⟩ _ _ _
    (((clearForce_steady s).trans (evaluateRules_steady channel r _)).dealing hs)

theorem storeRecord_routing (channel : Nat) (r : Record) (hs : Routing s) (ha : acquiring s = true) :
    Routing (storeRecord channel r s) := by
  have h := placeRecord_placed r hs ha
  unfold storeRecord
  dsimp only
  split
  · exact h.routing
  · next hne =>
    split
    · exact afterErr_routing _ h.routing
    · refine evaluateStored_routing _ _ _ ⟨h.routing, h.goesOn hne, fun hp => h.unplaced ?_⟩
      cases hx : (placeRecord r s).1 <;> simp [hx, triggerPlace] at hp ⊢

/-! ## Pacing (R106 to R113) -/

/-- The route is over and nothing is asked: the pass is WAITING or PAUSED (R109, R110). -/
theorem Routing.ok (hs : Routing s) (hp : s.aqs.mode = .burst → acquiring s = false) : RunOk s where
  left := {
    pacer := hs.pacer
    flight := by simp [hs.flight]
    timer := by simp [hs.flight, hs.timer]
    entry := by simp [hs.flight]
    table := hs.table
    hold := by simp [hs.hold]
    stepPass := fun hm => ⟨hs.stepPass hm, hs.hold⟩
    burstPass := fun hm => by simp [hs.flight, hs.idlePass (hp hm)]
    idlePass := hs.idlePass }
  right := hs.run

/-- The pass does not go on at once: no entry is asked for (R109, R110). -/
theorem Routing.rests (hs : Routing s) (ha : acquiring s = true) (hm : s.aqs.mode = .burst) (st : PassState) (position : Nat)
    (hst : st ≠ .converting) : RunOk (s.setAqs { s.aqs with passState := st, position := position }) where
  left := {
    pacer := hs.pacer
    flight := by simp [hs.flight]
    timer := by simp [hs.flight, hs.timer]
    entry := by simp [hs.flight]
    table := hs.table
    hold := by simp [hs.hold]
    stepPass := fun h => by simp [hm] at h
    burstPass := fun _ => by simp [hs.flight, hst]
    idlePass := fun h => absurd (ha.symm.trans h) nofun }
  right := by
    obtain ⟨h1, h2, h3, h4, h5, h6, h7, h8⟩ := hs.run
    exact ⟨h1, h2, h3, h4, h5, h6, h7, h8⟩

/-- An entry of the active copy is asked for; in BURST pacing HOLD may be pending with it (R106, R109, R110). -/
theorem Routing.asked (hs : Routing s) (ha : acquiring s = true) (hold : Bool) (hh : s.aqs.mode = .step → hold = false)
    {i : Nat} {e : ScanEntry} (he : s.sct.active[i]? = some e) :
    RunOk (convertAt i e (s.setAqs { s.aqs with holdPending := hold })) where
  left := {
    pacer := hs.pacer
    flight := fun _ => ha
    timer := rfl
    entry := fun q hq => by
      obtain rfl := Option.some.inj hq
      exact (List.getElem?_eq_some_iff.mp he).1
    table := hs.table
    hold := fun _ => rfl
    stepPass := fun hm => ⟨hs.stepPass hm, hh hm⟩
    burstPass := fun hm => iff_of_true (hs.burstPass hm ha) rfl
    idlePass := fun h => absurd (ha.symm.trans h) (by decide) }
  right := by
    obtain ⟨h1, h2, h3, h4, h5, h6, h7, h8⟩ := hs.run
    exact ⟨h1, h2, h3, h4, h5, h6, h7, h8⟩

/-- A pass boundary with nothing in flight: a switch finds entries to switch in (R87, R90). -/
theorem passBoundary_ok (hs : RunOk s) (hq : s.cvp.inFlight = none) : RunOk (passBoundary s) := by
  obtain ⟨hp, hr⟩ := hs
  by_cases hdue : CommitDue s
  · obtain ⟨hsched, hst, hf⟩ := id hdue
    rw [(passBoundary_at s).switches hdue]
    constructor
    · exact { hp with
        entry := fun q h => absurd (hq.symm.trans h) nofun
        table := fun _ => hr.schedulable hsched hst }
    · exact { hr with
        scheduled := nofun
        schedulable := nofun }
  · rw [(passBoundary_at s).waits hdue]
    exact ⟨{ hp with }, { hr with }⟩

theorem passBoundary_keeps (s : State) : (passBoundary s).cvp = s.cvp ∧ (passBoundary s).aqs.mode = s.aqs.mode ∧
    (passBoundary s).aqs.state = s.aqs.state := by
  unfold passBoundary
  dsimp only
  split <;> exact ⟨rfl, rfl, rfl⟩

/-- The entry that a search finds stands in the table. -/
theorem firstDue_get (pass i : Nat) (es : List ScanEntry) {j : Nat} (h : firstDue pass i es = some j) :
    ∃ e, i ≤ j ∧ es[j - i]? = some e := by
  induction es generalizing i with
  | nil => simp [firstDue] at h
  | cons e es ih =>
    rw [firstDue] at h
    split at h
    · cases h
      exact ⟨e, Nat.le_refl _, by simp⟩
    · obtain ⟨e', hle, he'⟩ := ih (i + 1) h
      refine ⟨e', by omega, ?_⟩
      have hj : j - i = (j - (i + 1)) + 1 := by omega
      rw [hj, List.getElem?_cons_succ]
      exact he'

theorem nextDue_get {pass start j : Nat} {es : List ScanEntry} (h : nextDue pass start es = some j) :
    ∃ e, es[j]? = some e := by
  obtain ⟨e, hle, he⟩ := firstDue_get pass start _ h
  rw [List.getElem?_drop, Nat.add_sub_cancel' hle] at he
  exact ⟨e, he⟩

theorem continuePacing_ok (index : Nat) (hold : Bool) (hs : Routing s) : RunOk (continuePacing index hold s) := by
  unfold continuePacing
  split
  · next h =>
    have ha : acquiring s = true := (acquiring_iff s).mpr h.1
    unfold lookAhead
    split
    · exact passBoundary_ok (hs.rests ha h.2 .waiting s.aqs.position nofun) hs.flight
    · next j hj =>
      obtain ⟨e, he⟩ := nextDue_get hj
      split
      · exact hs.rests ha h.2 .paused j nofun
      · rw [he]
        exact hs.asked ha s.aqs.holdPending (fun _ => hs.hold) he
  · next h =>
    refine hs.ok fun hm => ?_
    rw [Bool.eq_false_iff]
    exact fun ha => h ⟨(acquiring_iff s).mp ha, hm⟩

/-- In STEP pacing with nothing in flight the next entry may be asked for (R106). -/
theorem RunOk.routing_of_step (hs : RunOk s) (hm : s.aqs.mode = .step) (hq : s.cvp.inFlight = none) : Routing s where
  pacer := hs.1.pacer
  flight := hq
  timer := by simpa [hq] using hs.1.timer
  table := hs.1.table
  hold := (hs.1.stepPass hm).2
  stepPass := fun _ => (hs.1.stepPass hm).1
  burstPass := fun h => by simp [hm] at h
  idlePass := hs.1.idlePass
  run := hs.2

/-- The state in which a search examines the entry position: past the last entry the pass boundary has been made (R106). -/
def examining (s : State) : State := if decide (s.sct.active.length ≤ s.aqs.position) then passBoundary s else s

theorem stepSearch_examines (fuel : Nat) {left : Nat} (h : left ≠ 0) (s : State) :
    ∃ left', stepSearch (fuel + 1) left s =
      match (examining s).sct.active[(examining s).aqs.position]? with
      | none => examining s
      | some e =>
        if isDue (examining s).aqs.pass e then convertAt (examining s).aqs.position e (examining s)
        else
          stepSearch fuel left'
            ((examining s).setAqs { (examining s).aqs with position := (examining s).aqs.position + 1 }) :=
  ⟨_, by rw [stepSearch, if_neg h]; rfl⟩

theorem examining_keeps (s : State) : (examining s).cvp = s.cvp ∧ (examining s).aqs.mode = s.aqs.mode ∧
    (examining s).aqs.state = s.aqs.state := by
  unfold examining
  split
  · exact passBoundary_keeps s
  · exact ⟨rfl, rfl, rfl⟩

theorem examining_ok (hs : RunOk s) (hq : s.cvp.inFlight = none) : RunOk (examining s) := by
  unfold examining
  split
  · exact passBoundary_ok hs hq
  · exact hs

theorem stepSearch_ok (fuel left : Nat) (s : State) (hs : RunOk s) (hm : s.aqs.mode = .step) (hq : s.cvp.inFlight = none)
    (ha : acquiring s = true) : RunOk (stepSearch fuel left s) := by
  induction fuel generalizing left s with
  | zero => exact hs
  | succ fuel ih =>
    by_cases hl : left = 0
    · rw [stepSearch, if_pos hl]
      exact hs
    · obtain ⟨left', h⟩ := stepSearch_examines fuel hl s
      have hok := examining_ok hs hq
      obtain ⟨hc, hm', hst⟩ := examining_keeps s
      rw [← hc] at hq
      rw [← hm'] at hm
      rw [acquiring, ← hst, ← acquiring] at ha
      rw [h]
      split
      · exact hok
      · next e he =>
        split
        · exact (hok.routing_of_step hm hq).asked ha _ (fun _ => (hok.1.stepPass hm).2) he
        · exact ih left' _ ⟨{ hok.1 with }, { hok.2 with }⟩ hm hq ha

/-- In BURST pacing a tick finds nothing in flight unless the pass is CONVERTING, and may ask for an entry (R109, R110). -/
theorem RunOk.resumes (hs : RunOk s) (hm : s.aqs.mode = .burst) (hp : s.aqs.passState ≠ .converting)
    (ha : acquiring s = true) :
    s.cvp.inFlight = none ∧ Routing (s.setAqs { s.aqs with passState := .converting }) := by
  have hq : s.cvp.inFlight = none := by
    have h := mt (hs.1.burstPass hm).mpr hp
    simpa using h
  refine ⟨hq, ?_⟩
  exact {
    pacer := hs.1.pacer
    flight := hq
    timer := by simpa [hq] using hs.1.timer
    table := hs.1.table
    hold := by simpa [hq] using hs.1.hold
    stepPass := fun h => absurd (hm.symm.trans h) nofun
    burstPass := fun _ _ => rfl
    idlePass := fun h => absurd (ha.symm.trans h) nofun
    run := { hs.2 with } }

theorem countTick_steady {tick : Nat} (h : s.aqs.nextTick = some tick) : Steady s (countTick tick s) := by
  refine ⟨rfl, rfl, rfl, rfl, by rw [h]; rfl, rfl, rfl, rfl, id, ?_, rfl, rfl⟩
  simp only [countTick]
  split <;> omega

theorem paceTickStep_ok (hs : RunOk s) : RunOk (paceTickStep s) := by
  unfold paceTickStep
  split
  · exact hs
  · next tick hn =>
    have hok := (countTick_steady hn).ok hs
    have ha : acquiring (countTick tick s) = true := hok.1.pacer.symm.trans rfl
    split
    · next hm =>
      unfold stepTick
      split
      · exact (missedTick_steady _).ok hok
      · next hq => exact stepSearch_ok _ _ _ hok hm (by simpa using hq) ha
    · next hm =>
      unfold burstTick
      split
      · next hw =>
        obtain ⟨hq, hr⟩ := hok.resumes hm (hw ▸ nofun) ha
        unfold startPass
        split
        · exact passBoundary_ok hok hq
        · next j hj =>
          obtain ⟨e, he⟩ := nextDue_get hj
          rw [he]
          exact hr.asked ha _ (fun _ => hr.hold) he
      · exact (missedTick_steady _).ok hok
      · next hw =>
        obtain ⟨-, hr⟩ := hok.resumes hm (hw ▸ nofun) ha
        unfold resumePass
        split
        · next e he => exact hr.asked ha true (fun h => absurd (hm.symm.trans h) nofun) he
        · exact hok

/-! ## The route of a record (R113) -/

theorem Completed.routing {c : Completion} {e : ScanEntry} {q : Cvp} (hc : Completed c e q s) (hs : RunOk s) :
    Routing ((s.setCvp q).setAqs { s.aqs with holdPending := false }) ∧ acquiring s = true := by
  have hflight : s.cvp.inFlight.isSome = true := by rw [hc.flight]; rfl
  have ha := hs.1.flight hflight
  obtain ⟨hidle, htimer⟩ := hc.port_idle
  exact ⟨{
    pacer := hs.1.pacer
    flight := hidle
    timer := htimer
    table := hs.1.table
    hold := rfl
    stepPass := fun hm => (hs.1.stepPass hm).1
    burstPass := fun hm _ => (hs.1.burstPass hm).mpr hflight
    idlePass := hs.1.idlePass
    run := { hs.2 with } }, ha⟩

theorem routeRecord_ok {c : Completion} {e : ScanEntry} {q : Cvp} (hc : Completed c e q s) (hs : RunOk s) :
    RunOk (routeRecord c e (s.setCvp q)) := by
  obtain ⟨hr, ha⟩ := hc.routing hs
  unfold routeRecord
  refine continuePacing_ok _ _ ?_
  have hstored : Routing (if e.discard then (s.setCvp q).setAqs { s.aqs with holdPending := false }
      else storeRecord e.channel (completedRecord c e (s.setCvp q))
        (handRecord ((s.setCvp q).setAqs { s.aqs with holdPending := false }))) := by
    split
    · exact hr
    · exact storeRecord_routing _ _ { hr with run := { hr.run with } } ha
  split
  · exact converterFault_routing _ hstored
  · exact hstored

/-! ## Commands -/

theorem switchTables_ok (hs : RunOk s) (ha : acquiring s = false) (hq : s.cvp.inFlight = none) : RunOk (switchTables s) := by
  rw [switchTables_eq]
  constructor
  · exact { hs.1 with
      entry := fun q h => absurd (hq.symm.trans h) nofun
      table := fun h => absurd (ha.symm.trans h) nofun }
  · exact { hs.2 with
      scheduled := nofun
      schedulable := nofun }

theorem RunOk.idle (hs : RunOk s) (ha : acquiring s = false) : s.cvp.inFlight = none := by
  have h := mt hs.1.flight (by simp [ha])
  simpa using h

theorem not_acquiring (h : s.aqs.state = .idle ∨ s.aqs.state = .halted) : acquiring s = false := by
  rcases h with h | h <;> simp [acquiring, h]

theorem startRun_ok (hs : RunOk s) (hst : s.aqs.state = .idle ∨ s.aqs.state = .halted) (hact : s.sct.active ≠ []) :
    RunOk (startRun s) := by
  have ha := not_acquiring hst
  have hq := hs.idle ha
  obtain ⟨-, -, -, h4, h5, h6, h7, -⟩ := runShape_iff.mp hs.2
  have hfill := hs.2.fillCount_zero ha
  have hrun : acquiring (startRun s) = true := rfl
  have hring : s.sst.ring = [] := by
    by_contra hne
    rcases hst with hi | hi <;> simp [hi] at h4 <;> exact hne h4
  have hsched : ¬ s.sct.scheduled = true := fun h => by simp [h5 h] at ha
  have hf : fillCount (startRun s) = 0 := hfill
  constructor
  · exact {
      pacer := rfl
      flight := fun _ => hrun
      timer := hs.1.timer
      entry := fun q h => absurd (hq.symm.trans h) nofun
      table := fun _ => hact
      hold := nofun
      stepPass := fun _ => ⟨rfl, rfl⟩
      burstPass := fun _ => iff_of_false nofun (by rw [show (startRun s).cvp.inFlight = none from hq]; nofun)
      idlePass := fun _ => rfl }
  · rw [runShape_iff, hf]
    exact ⟨Nat.zero_le 1, nofun, nofun, fun h => absurd hring h, fun h => absurd h hsched, fun h => absurd h hsched,
      fun _ => hrun, nofun⟩

/-- The one FILLING segment is discarded. -/
theorem fillCount_discardFilling (r : DropReason) (h : fillCount s ≤ 1) : fillCount (discardFirst isFilling r s) = 0 := by
  cases hd : s.sgm.table.find? isFilling with
  | none => simpa only [discardFirst, hd] using fillingSegment_none_iff.mp hd
  | some d =>
    obtain ⟨before, after, ht, hg⟩ := (discardFirst_discarded r hd).segments
    have hf := List.find?_some hd
    rw [fillCount, ht] at h
    rw [fillCount, hg]
    simp only [List.filter_append, List.filter_cons, hf, if_true, List.length_append, List.length_cons] at h ⊢
    omega

theorem abortRun_ok (hs : RunOk s) : RunOk (abortRun s) := by
  by_cases hst : s.aqs.state = .idle
  · rw [abortRun_idle hst]
    exact hs
  · exact (abortRun_entered hst).ok (.inl rfl) (fillCount_discardFilling .aborted hs.2.oneFilling)

theorem takePacer_ok (p : PsetArgs) (hs : RunOk s) (hm : p.mode = s.aqs.mode ∨ s.aqs.state = .idle) :
    RunOk (takePacer p s) := by
  refine ⟨?_, { hs.2 with }⟩
  rcases hm with hm | hst
  · exact { hs.1 with
      stepPass := fun h => hs.1.stepPass (hm.symm.trans h)
      burstPass := fun h => hs.1.burstPass (hm.symm.trans h) }
  · have ha := not_acquiring (.inl hst)
    have hq := hs.idle ha
    have hp := hs.1.idlePass ha
    have hh : s.aqs.holdPending = false := by simpa [hq] using hs.1.hold
    exact { hs.1 with
      stepPass := fun _ => ⟨hp, hh⟩
      burstPass := fun _ => by simp [takePacer, hp, hq] }

theorem acqSame_steady (h : AcqSame s t) : Steady s t :=
  .of_blocks (by rw [fillCount, h.sgm, fillCount]) (by rw [h.sst]) h.sct h.aqs (by rw [h.sgm]) h.cvp

theorem resetBlocks_ok (power : Power) (rate : LinkRate) (slots : SlotMem) (s : State) :
    RunOk (resetBlocks power rate slots s) := by
  constructor
  · constructor <;> simp [resetBlocks, Aqs.reset, Cvp.reset, acquiring]
  · rw [runShape_iff]
    simp [resetBlocks, Aqs.reset, Sgm.reset, Sct.reset, Sst.reset, fillCount]

theorem setTgm_steady (x : Tgm) (s : State) : Steady s (s.setTgm x) := .of_blocks rfl rfl rfl rfl rfl rfl

/-- STOP while a segment is FILLING: the pacer runs on (R96, R97). -/
theorem drained_ok (hs : RunOk s) (hst : s.aqs.state = .running) (hd : fillingSegment s = some d) :
    RunOk (reportAcq (s.setAqs { s.aqs with state := .draining, reason := .stop })) := by
  have ha : acquiring s = true := (acquiring_iff s).mpr (.inl hst)
  have hsome : (fillingSegment s).isSome = true := by rw [hd]; rfl
  have hne : ¬ fillingSegment s = none := by simp [hd]
  refine (queueEvent_steady _ _).ok ⟨?_, ?_⟩
  · exact { hs.1 with
      pacer := hs.1.pacer.trans ha
      flight := fun _ => rfl
      table := fun _ => hs.1.table ha
      idlePass := nofun }
  · exact { hs.2 with
      fillingRuns := fun _ => rfl
      drainingFills := fun _ => hsome
      ringRuns := fun h => absurd (hs.2.ringRuns h).2 hne
      scheduled := fun _ => rfl
      schedulable := fun _ h => nomatch h
      force := fun _ => rfl
      holdoff := fun h => absurd (hs.2.holdoff h).2 hne }

/-- A segment moves between states neither of which is FILLING. -/
theorem moveSegment_steady (n : Nat) {before after : SegState} (hb : before ≠ .filling) (ha : after ≠ .filling) (s : State) :
    Steady s (moveSegment n before after s) := by
  refine .of_blocks (length_filter_modifyFirst_of (fun d hd => ?_) _) rfl rfl rfl rfl rfl
  have hst := (isSegment_iff.mp hd).2
  exact ⟨by simp [isFilling, hst, hb], by simp [isFilling, ha]⟩

theorem startDelivery_steady (n : Nat) (s : State) : Steady s (startDelivery n s) :=
  (moveSegment_steady n (before := .complete) (after := .sending) nofun nofun s).trans (.of_blocks rfl rfl rfl rfl rfl rfl)

theorem queueSegmentReport_steady (n : Nat) (pos : DeliveryPos) (d : Descriptor) (s : State) :
    Steady s (queueSegmentReport n pos d s) := by
  unfold queueSegmentReport
  split
  · exact .of_blocks rfl rfl rfl rfl rfl rfl
  · exact (moveSegment_steady n (before := .sending) (after := .sent) nofun nofun s).trans (.of_blocks rfl rfl rfl rfl rfl rfl)

theorem releaseSegment_steady (n : Nat) (s : State) : Steady s (releaseSegment n s) := by
  unfold releaseSegment
  split
  · exact .refl s
  · next d hd =>
    have hst := (isSegment_iff.mp (List.find?_some hd)).2
    refine (returnPages_steady d.pages _).after (.of_blocks ?_ rfl rfl rfl rfl rfl)
    exact fillCount_eraseP hd (by simp [isFilling, hst])

theorem flushReports_steady (credit : Nat) (s : State) : Steady s (flushReports credit s) := by
  rw [flushReports_eq]
  exact .of_blocks (length_filter_map (fun d => by cases hd : d.state <;> simp [hd, isFilling]) _) rfl rfl rfl rfl rfl

theorem run_meet : AcqMeet (fun s t => RunOk s → RunOk t) where
  same _ _ h hs := (acqSame_steady h).ok hs
  trans _ _ _ h k hs := k (h hs)
  resets power rate slots s _ _ := resetBlocks_ok power rate slots s
  flush credit s hs := (flushReports_steady credit s).ok hs
  tclear args s hs := by
    unfold ownTclear
    split
    · exact hs
    · next hn => exact ⟨{ hs.1 with }, { hs.2 with schedulable := fun h => absurd h hn }⟩
  tadd args s hs := by
    rcases ownTadd_leaves args s with e | ⟨es, -, -, e⟩ <;> rw [e]
    · exact hs
    · exact ⟨{ hs.1 with }, { hs.2 with schedulable := fun h hst hn => hs.2.schedulable h hst (List.append_eq_nil_iff.mp hn).1 }⟩
  tcommit args s hs := by
    rcases ownTcommit_leaves args s with e | ⟨hw, e⟩ | ⟨hst, e⟩ <;> rw [e]
    · exact hs
    · refine ⟨{ hs.1 with }, { hs.2 with
        scheduled := fun _ => (acquiring_iff s).mpr (hw.elim .inr fun h => .inl h.1)
        schedulable := fun _ hst => ?_ }⟩
      rcases hw with hd | ⟨-, hne⟩
      · exact absurd (hst.symm.trans hd) nofun
      · exact hne
    · exact switchTables_ok hs (not_acquiring hst) (hs.idle (not_acquiring hst))
  rset args s hs := by
    obtain ⟨x, e⟩ := ownRset_leaves args s
    exact e ▸ (setTgm_steady x s).ok hs
  ron args s hs := by
    obtain ⟨x, e⟩ := ownRon_leaves args s
    exact e ▸ (setTgm_steady x s).ok hs
  roff args s hs := by
    obtain ⟨x, e⟩ := ownRoff_leaves args s
    exact e ▸ (setTgm_steady x s).ok hs
  rarm args s hs := by
    obtain ⟨x, e⟩ := ownRarm_leaves args s
    exact e ▸ (setTgm_steady x s).ok hs
  cset args s hs := by
    rcases ownCset_leaves args s with e | ⟨c, -, -, e⟩ <;> rw [e]
    · exact hs
    · exact ⟨{ hs.1 with }, { hs.2 with }⟩
  pset args s hs := by
    rcases ownPset_leaves args s with e | ⟨p, -, hm, e⟩ <;> rw [e]
    · exact hs
    · exact takePacer_ok p hs hm
  start args s hs := by
    rcases ownStart_leaves args s with e | ⟨hst, hact, e⟩ <;> rw [e]
    · exact hs
    · exact startRun_ok hs hst hact
  stop s hs := by
    rcases stopRun_leaves s with e | ⟨-, hf, e⟩ | ⟨hst, ⟨d, hd⟩, e⟩ <;> rw [e]
    · exact hs
    · exact (enterStopped_entered _ _ _).ok (.inl rfl) (fillingSegment_none_iff.mp hf)
    · exact drained_ok hs hst hd
  abort s hs := abortRun_ok hs
  force args s hs := by
    rcases ownForce_leaves args s with e | ⟨hst, e⟩ <;> rw [e]
    · exact hs
    · exact ⟨{ hs.1 with }, { hs.2 with force := fun _ => (acquiring_iff s).mpr (.inl hst) }⟩
  sfetch args s hs := by
    rcases ownSfetch_leaves args s with e | e <;> rw [e]
    · exact hs
    · exact ⟨{ hs.1 with }, { hs.2 with }⟩
  sdrop args s hs := by
    rcases ownSdrop_leaves args s with e | ⟨d, hd, hst, e⟩ <;> rw [e]
    · exact hs
    · refine (discardFirst_steady _ s fun x hx => ?_).ok hs
      cases hd.symm.trans hx
      exact complete_not_filling hst
  release n s hs := (releaseSegment_steady n s).ok hs
  deliver n s _ hs := (startDelivery_steady n s).ok hs
  report n pos d s _ _ _ hs := (queueSegmentReport_steady n pos d s).ok hs
  tick _ hs := paceTickStep_ok hs
  late _ hs := ⟨{ hs.1 with }, { hs.2 with }⟩
  route c e p s hc hs := routeRecord_ok hc hs
  rising s hs := by
    unfold trginRisingStep
    exact ⟨{ hs.1 with }, { hs.2 with }⟩
  pulse s hs := by
    rcases pulseExpiryStep_leaves s with e | e <;> rw [e]
    · exact hs
    · exact ⟨{ hs.1 with }, { hs.2 with }⟩

/-- Settles O54: the invariant is kept by every operation of acquisition; on a record's route the relation of segments, ring and
pass to the run is kept by each part of the route (`Routing`), and what follows it brings the request in flight back. -/
theorem stepKeepsTheRunShape : Obligations.StepKeepsTheRunShape :=
  run_meet.steps.keeps (fun _ _ hs => ⟨{ hs.1 with }, { hs.2 with }⟩)

end Sys2Proof.Machine

/-! SUPPORT. The segments along the route of a record: what holds of the FILLING segment before its record is placed, with a
record placed and not yet counted, as it opens, and after the close check; and what holds of every other segment. A
discipline says what these are; every discipline is kept by the route. -/

namespace Sys2Proof.Machine

variable {s t u : State} {d : Descriptor} {f : Descriptor → Descriptor} {C φ ψ : Descriptor → Prop}

/-! ## The FILLING segment and the others -/

theorem isFilling_of_found (hd : fillingSegment s = some d) : isFilling d = true := List.find?_some hd

/-- A segment FILLING before an operation that leaves the run alone is FILLING after it. -/
theorem Steady.found (h : Steady s t) (hd : fillingSegment s = some d) : ∃ x, fillingSegment t = some x := by
  rw [← Option.isSome_iff_exists, fillingSegment_isSome_iff, h.fill, ← fillingSegment_isSome_iff, hd]
  rfl

/-- `φ` holds of the segments FILLING, `C` of all others. -/
structure Fills (C φ : Descriptor → Prop) (s : State) : Prop where
  filling : ∀ d ∈ s.sgm.table, isFilling d = true → φ d
  closed : ∀ d ∈ s.sgm.table, isFilling d = false → C d

/-- No segment is FILLING, and `C` holds of all. -/
abbrev NoneFills (C : Descriptor → Prop) (s : State) : Prop := Fills C (fun _ => False) s

theorem Fills.of_subset (hs : Fills C φ s) (h : ∀ d ∈ t.sgm.table, d ∈ s.sgm.table) : Fills C φ t :=
  ⟨fun d hd => hs.filling d (h d hd), fun d hd => hs.closed d (h d hd)⟩

theorem Fills.of_table (hs : Fills C φ s) (h : t.sgm.table = s.sgm.table) : Fills C φ t := hs.of_subset (h ▸ fun _ => id)

theorem Fills.imp (hs : Fills C φ s) (h : ∀ d, φ d → ψ d) : Fills C ψ s :=
  ⟨fun d hd hf => h d (hs.filling d hd hf), hs.closed⟩

theorem NoneFills.any (hs : NoneFills C s) : Fills C φ s := Fills.imp hs fun _ h => h.elim

theorem NoneFills.fillingSegment_none (hs : NoneFills C s) : fillingSegment s = none :=
  Option.eq_none_iff_forall_not_mem.mpr fun d hd =>
    hs.filling d (List.mem_of_find?_eq_some hd) (List.find?_some hd)

theorem Fills.none (hs : Fills C φ s) (h : fillingSegment s = none) : NoneFills C s :=
  ⟨fun d hd hf => List.find?_eq_none.mp h d hd hf, hs.closed⟩

/-- The table around its one FILLING segment. -/
theorem around_filling (h1 : fillCount s ≤ 1) (hd : fillingSegment s = some d) :
    ∃ before after, s.sgm.table = before ++ d :: after ∧ isFilling d = true ∧
      (∀ x ∈ before ++ after, isFilling x = false) ∧ ∀ f, modifyFirst isFilling f s.sgm.table = before ++ f d :: after := by
  obtain ⟨before, after, ht, hf, -, -, hm⟩ := split_at_first hd
  refine ⟨before, after, ht, hf, ?_, hm⟩
  rw [fillCount, ht] at h1
  simp only [List.filter_append, List.filter_cons, hf, if_true, List.length_append, List.length_cons] at h1
  have hnil : (before ++ after).filter isFilling = [] := by
    rw [List.filter_append, ← List.length_eq_zero_iff, List.length_append]
    omega
  simpa using List.filter_eq_nil_iff.mp hnil

/-- The FILLING segment is the one found. -/
theorem Fills.only (hs : Fills C φ s) (h1 : fillCount s ≤ 1) (hd : fillingSegment s = some d) :
    Fills C (fun x => x = d ∧ φ x) s := by
  obtain ⟨before, after, ht, -, hother, -⟩ := around_filling h1 hd
  refine ⟨fun x hx hf => ⟨?_, hs.filling x hx hf⟩, hs.closed⟩
  by_contra hne
  have hx' : x ∈ before ++ after := by
    rw [ht] at hx
    simp only [List.mem_append, List.mem_cons] at hx ⊢
    exact hx.imp_right fun h => h.resolve_left hne
  simp [hother x hx'] at hf

/-- The FILLING segment is changed and stays FILLING. -/
theorem Fills.update (hs : Fills C φ s) (h1 : fillCount s ≤ 1) (hd : fillingSegment s = some d) (hf : isFilling (f d) = true)
    (h : φ d → ψ (f d)) : Fills C ψ (updateFilling f s) := by
  obtain ⟨before, after, ht, hfd, hother, hm⟩ := around_filling h1 hd
  have hφ : φ d := hs.filling d (by simp [ht]) hfd
  constructor
  all_goals
    intro x hx hfx
    simp only [updateFilling, State.setSgm_sgm, hm, List.mem_append, List.mem_cons] at hx
  · rcases hx with hx | rfl | hx
    · simp [hother x (by simp [hx])] at hfx
    · exact h hφ
    · simp [hother x (by simp [hx])] at hfx
  · rcases hx with hx | rfl | hx
    · exact hs.closed x (by simp [ht, hx]) hfx
    · simp [hf] at hfx
    · exact hs.closed x (by simp [ht, hx]) hfx

/-- The FILLING segment becomes COMPLETE (R34). -/
theorem Fills.complete (hs : Fills C φ s) (h1 : fillCount s ≤ 1) (a b : Bool) (h : ∀ d, φ d → C (closedDescriptor a b d)) :
    NoneFills C (completeFilling a b s) := by
  cases hd : fillingSegment s with
  | none =>
    rw [completeFilling_none a b (fillingSegment_none_iff.mp hd)]
    exact hs.none hd
  | some d =>
    obtain ⟨before, after, ht, hfd, hother, hm⟩ := around_filling h1 hd
    have hφ : φ d := hs.filling d (by simp [ht]) hfd
    have hx : ∀ x ∈ (completeFilling a b s).sgm.table, isFilling x = false ∧ C x := by
      intro x hx
      simp only [completeFilling, updateFilling, State.setSgm_sgm, hm, List.mem_append, List.mem_cons] at hx
      rcases hx with hx | rfl | hx
      · have hfx := hother x (by simp [hx])
        exact ⟨hfx, hs.closed x (by simp [ht, hx]) hfx⟩
      · exact ⟨rfl, h d hφ⟩
      · have hfx := hother x (by simp [hx])
        exact ⟨hfx, hs.closed x (by simp [ht, hx]) hfx⟩
    exact ⟨fun x hm hf => by simp [(hx x hm).1] at hf, fun x hm _ => (hx x hm).2⟩

/-- A segment that opens joins a table in which none is FILLING (R29). -/
theorem NoneFills.join (hs : NoneFills C s) (hf : isFilling d = true) (h : φ d) : Fills C φ (joinTable d s) := by
  constructor
  all_goals
    intro x hx hfx
    simp only [joinTable, State.setSgm_sgm, List.mem_append, List.mem_singleton] at hx
  · rcases hx with hx | rfl
    · exact (hs.filling x hx hfx).elim
    · exact h
  · rcases hx with hx | rfl
    · exact hs.closed x hx hfx
    · simp [hf] at hfx

/-! ## The ground of a record's route -/

/-- The settings, the ring, the active table, its generation and the count of records since the last switch are the same. -/
structure SameGround (s t : State) : Prop where
  settings : t.sgm.settings = s.sgm.settings
  ring : t.sst.ring = s.sst.ring
  ringFill : t.sst.ringFill = s.sst.ringFill
  active : t.sct.active = s.sct.active
  generation : t.sct.generation = s.sct.generation
  since : t.aqs.sinceSwitch = s.aqs.sinceSwitch

theorem SameGround.refl (s : State) : SameGround s s := ⟨rfl, rfl, rfl, rfl, rfl, rfl⟩

theorem SameGround.trans (h : SameGround s t) (k : SameGround t u) : SameGround s u :=
  ⟨k.settings.trans h.settings, k.ring.trans h.ring, k.ringFill.trans h.ringFill, k.active.trans h.active,
    k.generation.trans h.generation, k.since.trans h.since⟩

/-- The ground is the same, and every segment stood in the table before. -/
structure Even (s t : State) : Prop extends SameGround s t where
  segments : ∀ d ∈ t.sgm.table, d ∈ s.sgm.table

theorem Even.refl (s : State) : Even s s := ⟨.refl s, fun _ => id⟩

theorem Even.trans (h : Even s t) (k : Even t u) : Even s u :=
  ⟨h.toSameGround.trans k.toSameGround, fun d hd => h.segments d (k.segments d hd)⟩

theorem SameGround.even (h : SameGround s t) (ht : t.sgm.table = s.sgm.table) : Even s t := ⟨h, ht ▸ fun _ => id⟩

theorem takePage_even {page : Nat} (h : takePage s = some (page, t)) : Even s t := by
  cases hp : s.sst.pool.head? with
  | none => simp [takePage, List.head?_eq_none_iff.mp hp] at h
  | some q =>
    rw [takePage_eq s q hp] at h
    cases h
    exact SameGround.even ⟨rfl, rfl, rfl, rfl, rfl, rfl⟩ rfl

theorem discardFirst_even (p : Descriptor → Bool) (r : DropReason) (s : State) : Even s (discardFirst p r s) := by
  cases hd : s.sgm.table.find? p with
  | none => simpa only [discardFirst, hd] using Even.refl s
  | some d =>
    have h := discardFirst_discarded r hd
    obtain ⟨-, -, -, -, hsct, haqs, -, -⟩ := h.others
    obtain ⟨before, after, ht, hg⟩ := h.segments
    refine ⟨⟨by rw [hg], by rw [h.store]; rfl, by rw [h.store]; rfl, by rw [hsct], by rw [hsct], by rw [haqs]⟩, fun x hx => ?_⟩
    rw [hg] at hx
    rw [ht]
    simp only [List.mem_append, List.mem_cons] at hx ⊢
    exact hx.imp_right .inr

theorem displaceOne_even {priority : Nat} {forPage : Bool} (h : displaceOne priority forPage s = some t) : Even s t := by
  rw [displaceOne_eq s h]
  exact discardFirst_even _ _ s

theorem takeOrDisplace_even {priority page : Nat} (h : takeOrDisplace priority s = some (page, t)) : Even s t := by
  unfold takeOrDisplace at h
  split at h
  · next r hr =>
    cases h
    exact takePage_even hr
  · split at h
    · split at h
      · next v hv => exact (displaceOne_even hv).trans (takePage_even h)
      · cases h
    · cases h

theorem descriptorSlot_even {priority : Nat} (h : descriptorSlot priority s = some t) : Even s t := by
  unfold descriptorSlot at h
  split at h
  · cases h
    exact .refl s
  · split at h
    · exact displaceOne_even h
    · cases h

/-! ## Disciplines -/

/-- What is to hold of the state while a record is on its route (`route`), after it (`kept`), and after a route on which the
segment has closed (`done`); of the FILLING segment before its record is placed (`waiting`), with a record placed and not
counted (`placed`), as it opens (`opened`), before its close check (`checked`) and after it (`settled`), and of the other
segments (`closed`). -/
structure Discipline where
  route : State → Prop
  kept : State → Prop
  done : State → Prop
  closed : Descriptor → Prop
  waiting : Descriptor → Prop
  placed : Descriptor → Prop
  opened : Descriptor → Prop
  checked : Descriptor → Prop
  settled : Descriptor → Prop
  route_kept : ∀ s, route s → kept s
  kept_done : ∀ s, kept s → done s
  route_same : ∀ s t, SameGround s t → route s → route t
  /-- the ring has taken a record, or is given up -/
  route_ring : ∀ s t, t.sgm.settings = s.sgm.settings → t.sct = s.sct →
    t.aqs.sinceSwitch = s.aqs.sinceSwitch → ringFillOk t.sst = true → route s → route t
  /-- the run goes on, or ends with the ring given up -/
  done_kept : ∀ s t, t.sgm.settings = s.sgm.settings →
    (t.sst.ring = s.sst.ring ∧ t.sst.ringFill = s.sst.ringFill) ∨ ringFillOk t.sst = true → done s → done t
  waiting_starved : ∀ d b, waiting d → closed (closedDescriptor true b d)
  waiting_fits : ∀ d page, waiting d → d.pages[nextPosition d / 32]? = some page → placed d
  waiting_grows : ∀ d page, waiting d → d.pages[nextPosition d / 32]? = none → placed (addFillPage page d)
  placed_listed : ∀ d x, placed d → placed (listSecondary x d)
  placed_extended : ∀ s d, route s → placed d → placed (extendWindow d.postTaken s.sgm.settings.postRequested d)
  placed_counted : ∀ d err, placed d → checked (countedDescriptor err d)
  opened_listed : ∀ d x, opened d → opened (listSecondary x d)
  opened_extended : ∀ s d, route s → opened d → opened (extendWindow 0 s.sgm.settings.postRequested d)
  opened_checked : ∀ d, opened d → checked d
  checked_closes : ∀ d b, checked d → windowDone d = true → closed (closedDescriptor (d.pages.isEmpty || b) b d)
  checked_goesOn : ∀ d, checked d → windowDone d = false → settled d
  settled_halts : ∀ d, settled d → closed (closedDescriptor true true d)
  /-- the ring handed over (R15) -/
  opens_ring : ∀ s rule priority x, route s → s.sst.ring ≠ [] →
    opened (openedDescriptor (handoverPre s) 1 (countErr s (handoverFirst s) (handoverPre s + 1))
      (s.sst.ring.drop (handoverFirst s / 32)) (handoverFirst s % 32) false false (freshDescriptor rule priority x s))
  /-- a page had, or the trigger record lost (R16, R38) -/
  opens_page : ∀ s rule priority x page, route s →
    opened (openedDescriptor 0 1 0 [page] 0 false false (freshDescriptor rule priority x s))
  opens_lost : ∀ s rule priority x b, route s →
    opened (openedDescriptor 0 0 0 [] 0 true b (freshDescriptor rule priority x s))

namespace Discipline

variable (D : Discipline)

/-- The end of a record's route: the segment has settled, or none is FILLING any more. -/
def Ends (s : State) : Prop := (Fills D.closed D.settled s ∧ D.kept s) ∨ (NoneFills D.closed s ∧ D.done s)

theorem route_done (s : State) (h : D.route s) : D.done s := D.kept_done s (D.route_kept s h)

theorem entered_done {st : AcqState} {r : AcqReason} (h : Entered st r s t) (hd : D.done s) : D.done t :=
  D.done_kept _ _ (by rw [h.segments]) (.inr (by rw [h.store]; rfl)) hd

theorem entered_ends {st : AcqState} {r : AcqReason} (h : Entered st r s t) (hf : NoneFills D.closed s) (hd : D.done s) :
    D.Ends t := .inr ⟨hf.of_table (by rw [h.segments]), D.entered_done h hd⟩

theorem acquisitionAtClose_ends (hf : NoneFills D.closed s) (hd : D.done s) : D.Ends (acquisitionAtClose s) := by
  unfold acquisitionAtClose
  split
  · exact .inr ⟨hf.of_table rfl, D.done_kept s _ rfl (.inl ⟨rfl, rfl⟩) hd⟩
  · exact D.entered_ends (enterStopped_entered _ _ _) hf hd
  · exact D.entered_ends (enterStopped_entered _ _ _) hf hd
  all_goals exact .inr ⟨hf, hd⟩

theorem completeFilling_done (a b : Bool) (hd : D.done s) : D.done (completeFilling a b s) :=
  D.done_kept s _ rfl (.inl ⟨rfl, rfl⟩) hd

theorem closeSegment_ends (b : Bool) (hs : Fills D.closed φ s) (h1 : fillCount s ≤ 1)
    (h : ∀ d, φ d → D.closed (closedDescriptor b false d)) (hd : D.done s) : D.Ends (closeSegment b s) :=
  D.acquisitionAtClose_ends (hs.complete h1 b false h) (D.completeFilling_done b false hd)

/-- After a halt no segment is FILLING (R39, R100). -/
theorem haltWith_none (r : AcqReason) (hs : Fills D.closed φ s) (h1 : fillCount s ≤ 1)
    (h0 : acquiring s = false → fillCount s = 0) (h : ∀ d, φ d → D.closed (closedDescriptor true true d)) :
    NoneFills D.closed (haltWith r s) := by
  unfold haltWith
  split
  · exact (hs.complete h1 true true h).of_table (by rw [(enterStopped_entered _ _ _).segments])
  · exact (hs.complete h1 true true h).of_table (by rw [(enterStopped_entered _ _ _).segments])
  all_goals
    next hst => exact hs.none (fillingSegment_none_iff.mpr (h0 (by simp [acquiring, hst])))

theorem haltWith_done (r : AcqReason) (hd : D.done s) : D.done (haltWith r s) := by
  unfold haltWith
  split
  · exact (D.entered_done (enterStopped_entered _ _ _) (D.completeFilling_done _ _ hd))
  · exact (D.entered_done (enterStopped_entered _ _ _) (D.completeFilling_done _ _ hd))
  all_goals exact hd

theorem haltWith_ends (r : AcqReason) (hs : Fills D.closed φ s) (h1 : fillCount s ≤ 1)
    (h0 : acquiring s = false → fillCount s = 0) (h : ∀ d, φ d → D.closed (closedDescriptor true true d)) (hd : D.done s) :
    D.Ends (haltWith r s) := .inr ⟨D.haltWith_none r hs h1 h0 h, D.haltWith_done r hd⟩

theorem starve_ends (hs : Fills D.closed D.waiting s) (hr : Routing s) (hd : D.done s) : D.Ends (starve s) := by
  have hl : Fills D.closed D.waiting (countLoss s) := hs.of_table rfl
  have hd' : D.done (countLoss s) := D.done_kept s _ rfl (.inl ⟨rfl, rfl⟩) hd
  unfold starve
  simp only
  split
  · have hc := hl.complete hr.run.oneFilling true true (fun d => D.waiting_starved d true)
    have h0 : fillCount (completeFilling true true (countLoss s)) = 0 := fillCount_completeFilling _ _ hr.run.oneFilling
    exact D.haltWith_ends _ hc (h0.le.trans (Nat.zero_le 1)) (fun _ => h0) nofun (D.completeFilling_done _ _ hd')
  · exact D.closeSegment_ends true hl hr.run.oneFilling (fun d => D.waiting_starved d false) hd'

theorem closeCheck_ends (hs : Fills D.closed D.checked s) (hr : Routing s) (hroute : D.route s) : D.Ends (closeCheck s) := by
  have hdone := D.route_done s hroute
  unfold closeCheck
  split
  · next hn => exact .inr ⟨hs.none hn, hdone⟩
  · next d hd =>
    have hone := hr.run.oneFilling
    have honly := hs.only hone hd
    split
    · next hw =>
      have hcloses : ∀ b x, x = d ∧ D.checked x → D.closed (closedDescriptor (d.pages.isEmpty || b) b x) :=
        fun b x hx => hx.1 ▸ D.checked_closes d b (hx.1 ▸ hx.2) hw
      split
      · have h0 : fillCount (completeFilling true true s) = 0 := fillCount_completeFilling _ _ hone
        have hc := honly.complete hone true true fun x hx => by simpa using hcloses true x hx
        exact D.haltWith_ends _ hc (h0.le.trans (Nat.zero_le 1)) (fun _ => h0) nofun (D.completeFilling_done _ _ hdone)
      · exact D.closeSegment_ends _ honly hone (fun x hx => by simpa using hcloses false x hx) hdone
    · next hw =>
      exact .inl ⟨honly.imp fun x hx => D.checked_goesOn x hx.2 (by simpa [hx.1] using hw), D.route_kept s hroute⟩

theorem countRecord_ends (err : Bool) (hs : Fills D.closed D.placed s) (hr : Routing s) (hroute : D.route s)
    (hd : fillingSegment s = some d) : D.Ends (countRecord err s) := by
  have hroute' : D.route (updateFilling (countedDescriptor err) s) := D.route_same s _ ⟨rfl, rfl, rfl, rfl, rfl, rfl⟩ hroute
  have hr' := (updateFilling_steady (f := countedDescriptor err) (fun _ => rfl) s).routing hr
  exact D.closeCheck_ends
    (hs.update hr.run.oneFilling hd (show isFilling d = true from isFilling_of_found hd) (D.placed_counted d err))
    hr' hroute'

/-! ## Placement (R8, R13) -/

/-- What holds once a record has its place. -/
def AfterPlace (x : Placement × State) : Prop :=
  match x.1 with
  | .segment => Fills D.closed D.placed x.2 ∧ D.route x.2 ∧ ∃ d, fillingSegment x.2 = some d
  | .ring => NoneFills D.closed x.2 ∧ D.route x.2 ∧ x.2.sst.ring ≠ []
  | .unplaced => NoneFills D.closed x.2 ∧ D.route x.2
  | .refused => D.Ends x.2

theorem ring_takes (hs : NoneFills D.closed s) (hroute : D.route s) (page slot : Nat) (r : Record) (x : Sst)
    (hx : ringFillOk x = true) (hne : x.ring ≠ []) :
    D.AfterPlace (.ring, writeSlot page slot r (s.setSst x)) :=
  ⟨hs.of_table rfl, D.route_ring s _ rfl rfl rfl hx hroute, hne⟩

theorem recycleRing_place (r : Record) (hs : NoneFills D.closed s) (hroute : D.route s) :
    D.AfterPlace (recycleRing r s) := by
  unfold recycleRing
  split
  · exact ⟨hs, hroute⟩
  · exact D.ring_takes hs hroute _ _ _ _ (by simp [ringFillOk]) (by simp)

theorem nextRingPage_place (r : Record) (hs : NoneFills D.closed s) (hroute : D.route s) :
    D.AfterPlace (nextRingPage r s) := by
  unfold nextRingPage
  split
  · split
    · next page v hv =>
      have h := takePage_even hv
      exact D.ring_takes (hs.of_subset h.segments) (D.route_same _ _ h.toSameGround hroute) _ _ _ _
        (by simp [ringFillOk]) (by simp)
    · exact D.recycleRing_place r hs hroute
  · exact D.recycleRing_place r hs hroute

theorem placeInRing_place (r : Record) (hs : NoneFills D.closed s) (hroute : D.route s) :
    D.AfterPlace (placeInRing r s) := by
  unfold placeInRing
  split
  · next page fill hp hf =>
    have hne : s.sst.ring ≠ [] := by
      rintro h
      simp [h] at hp
    split
    · exact D.ring_takes hs hroute _ _ _ _ (by simp [ringFillOk, hne]; omega) hne
    · exact D.nextRingPage_place r hs hroute
  · exact D.nextRingPage_place r hs hroute

theorem placeInSegment_place (r : Record) (hs : Fills D.closed D.waiting s) (hr : Routing s) (hroute : D.route s)
    (hd : fillingSegment s = some d) : D.AfterPlace (placeInSegment d r s) := by
  have honly := hs.only hr.run.oneFilling hd
  unfold placeInSegment
  split
  · next page hp =>
    exact ⟨(honly.imp fun x hx => D.waiting_fits x page hx.2 (hx.1 ▸ hp)).of_table rfl,
      D.route_same s _ ⟨rfl, rfl, rfl, rfl, rfl, rfl⟩ hroute, d, hd⟩
  · next hp =>
    split
    · next page v hv =>
      have h := takeOrDisplace_even hv
      have hst := takeOrDisplace_steady hv
      obtain ⟨x, hx⟩ := hst.found hd
      have honly' : Fills D.closed (fun x => x = d ∧ D.waiting x) v := honly.of_subset h.segments
      have hupd : Fills D.closed D.placed (updateFilling (addFillPage page) v) :=
        honly'.update (hst.routing hr).run.oneFilling hx (show isFilling x = true from isFilling_of_found hx)
          (fun hxd => D.waiting_grows x page hxd.2 (hxd.1 ▸ hp))
      exact ⟨hupd.of_table rfl, D.route_same v _ ⟨rfl, rfl, rfl, rfl, rfl, rfl⟩ (D.route_same _ _ h.toSameGround hroute),
        (updateFilling_steady (f := addFillPage page) (fun _ => rfl) v).found hx⟩
    · exact D.starve_ends hs hr (D.route_done s hroute)

theorem placeRecord_place (r : Record) (hs : Fills D.closed D.waiting s) (hr : Routing s) (hroute : D.route s) :
    D.AfterPlace (placeRecord r s) := by
  unfold placeRecord
  split
  · next d hd => exact D.placeInSegment_place r hs hr hroute hd
  · next hn => exact D.placeInRing_place r (hs.none hn) hroute

/-! ## Firings (R27 to R33) -/

/-- What holds while the firings of a record with this placement are dealt with. -/
def Dealt (p : Placement) (ctx : CaptureContext) (s : State) : Prop :=
  D.route s ∧
    match p with
    | .segment => Fills D.closed D.placed s ∧ (∃ d, fillingSegment s = some d) ∧ ctx ≠ .opened
    | _ =>
      (NoneFills D.closed s ∧ ctx ≠ .opened ∧ (triggerPlace p = .ring → s.sst.ring ≠ [])) ∨
        (Fills D.closed D.opened s ∧ (∃ d, fillingSegment s = some d) ∧ ctx = .opened)

theorem Dealt.same {D : Discipline} {p : Placement} {ctx : CaptureContext} (hs : D.Dealt p ctx s) (h : Even s t)
    (hst : Steady s t) : D.Dealt p ctx t := by
  obtain ⟨hr, hs⟩ := hs
  refine ⟨D.route_same _ _ h.toSameGround hr, ?_⟩
  have hring := h.ring
  cases p with
  | segment => exact ⟨hs.1.of_subset h.segments, hs.2.1.elim fun d hd => hst.found hd, hs.2.2⟩
  | _ =>
    rcases hs with ⟨hf, hc, hne⟩ | ⟨hf, ⟨d, hd⟩, hc⟩
    · exact .inl ⟨hf.of_subset h.segments, hc, hring ▸ hne⟩
    · exact .inr ⟨hf.of_subset h.segments, hst.found hd, hc⟩

/-- A retrigger keeps what holds of the FILLING segment. -/
theorem retrigger_fills (rule offset : Nat) (hs : Fills D.closed φ s) (h1 : fillCount s ≤ 1) (hd : fillingSegment s = some d)
    (hl : ∀ d x, φ d → φ (listSecondary x d))
    (he : φ d → φ (extendWindow offset s.sgm.settings.postRequested d)) :
    Fills D.closed φ (retrigger rule offset s).2 := by
  have hfd := isFilling_of_found hd
  unfold retrigger
  split
  · exact hs.update h1 hd ((listSecondary_filling _ d).trans hfd) (hl d _)
  · refine hs.update h1 hd ?_ fun hφ => hl _ _ (he hφ)
    rw [listSecondary_filling]
    exact hfd

theorem retrigger_ground (rule offset : Nat) (s : State) : SameGround s (retrigger rule offset s).2 := by
  unfold retrigger
  split <;> exact ⟨rfl, rfl, rfl, rfl, rfl, rfl⟩

theorem retrigger_dealt {p : Placement} {ctx : CaptureContext} (rule : Nat) (hs : D.Dealt p ctx s) (hr : Routing s)
    (hd : fillingSegment s = some d) : D.Dealt p ctx (retrigger rule (firingOffset ctx d) s).2 := by
  obtain ⟨hroute, hs⟩ := hs
  have hone := hr.run.oneFilling
  have hfound := (retrigger_steady rule (firingOffset ctx d) s).found hd
  refine ⟨D.route_same _ _ (retrigger_ground _ _ s) hroute, ?_⟩
  cases p with
  | segment =>
    obtain ⟨hf, -, hc⟩ := hs
    rw [firingOffset, if_neg hc] at hfound ⊢
    exact ⟨D.retrigger_fills rule _ hf hone hd D.placed_listed (D.placed_extended s d hroute), hfound, hc⟩
  | _ =>
    rcases hs with ⟨hf, -⟩ | ⟨hf, -, hc⟩
    · exact absurd (hf.fillingSegment_none.symm.trans hd) nofun
    · rw [firingOffset, if_pos hc] at hfound ⊢
      exact .inr ⟨D.retrigger_fills rule 0 hf hone hd D.opened_listed (D.opened_extended s d hroute), hfound, hc⟩

/-- The ring is handed over to the segment that has joined the table (R15). -/
theorem handover_opens (rule priority : Nat) (x : TriggerInfo) (hs : NoneFills D.closed s) (h1 : fillCount s = 0)
    (hroute : D.route s) (hne : s.sst.ring ≠ []) :
    Fills D.closed D.opened (handover (joinTable (freshDescriptor rule priority x s) s)) ∧
      D.route (handover (joinTable (freshDescriptor rule priority x s) s)) := by
  have hjoin : fillCount (joinTable (freshDescriptor rule priority x s) s) = 1 := by rw [fillCount_joinTable rfl, h1]
  have hfills : Fills D.closed (fun y => y = freshDescriptor rule priority x s)
      (joinTable (freshDescriptor rule priority x s) s) := hs.join rfl rfl
  obtain ⟨y, hy⟩ := Option.isSome_iff_exists.mp (fillingSegment_isSome_iff.mpr (hjoin ▸ Nat.one_pos))
  have hopen := D.opens_ring s rule priority x hroute hne
  simp only [handover, returnPages_eq]
  constructor
  · refine Fills.of_table (hfills.update (ψ := D.opened) hjoin.le hy (f := openedDescriptor _ _ _ _ _ _ _) ?_ ?_) rfl
    · exact (show isFilling y = true from isFilling_of_found hy)
    · rintro rfl
      exact hopen
  · exact D.route_ring s _ rfl rfl rfl rfl hroute

/-- The first page of a segment that has joined the table, or its lost trigger record (R16, R38). -/
theorem firstPage_opens (rule priority : Nat) (x : TriggerInfo) (hs : NoneFills D.closed s) (h1 : fillCount s = 0)
    (hroute : D.route s) :
    Fills D.closed D.opened (firstPage priority x.record (joinTable (freshDescriptor rule priority x s) s)) ∧
      D.route (firstPage priority x.record (joinTable (freshDescriptor rule priority x s) s)) := by
  have hjoin : fillCount (joinTable (freshDescriptor rule priority x s) s) = 1 := by rw [fillCount_joinTable rfl, h1]
  have hfills : Fills D.closed (fun y => y = freshDescriptor rule priority x s)
      (joinTable (freshDescriptor rule priority x s) s) := hs.join rfl rfl
  have hroute' : D.route (joinTable (freshDescriptor rule priority x s) s) :=
    D.route_same s _ ⟨rfl, rfl, rfl, rfl, rfl, rfl⟩ hroute
  obtain ⟨y, hy⟩ := Option.isSome_iff_exists.mp (fillingSegment_isSome_iff.mpr (hjoin ▸ Nat.one_pos))
  unfold firstPage
  split
  · next page v hv =>
    have h := takeOrDisplace_even hv
    have hst := takeOrDisplace_steady hv
    obtain ⟨z, hz⟩ := hst.found hy
    have hone : fillCount v ≤ 1 := (hst.fill.trans hjoin).le
    refine ⟨Fills.of_table ((hfills.of_subset h.segments).update (ψ := D.opened) hone hz
      (f := openedDescriptor 0 1 0 [page] 0 false false) ?_ ?_) rfl, ?_⟩
    · exact (show isFilling z = true from isFilling_of_found hz)
    · rintro rfl
      exact D.opens_page s rule priority x page hroute
    · exact D.route_same v _ ⟨rfl, rfl, rfl, rfl, rfl, rfl⟩ (D.route_same _ _ h.toSameGround hroute')
  · refine ⟨(hfills.of_table (t := countLoss (joinTable (freshDescriptor rule priority x s) s)) rfl).update (ψ := D.opened)
      hjoin.le hy (f := openedDescriptor 0 0 0 [] 0 true _) ?_ ?_, ?_⟩
    · exact (show isFilling y = true from isFilling_of_found hy)
    · rintro rfl
      exact D.opens_lost s rule priority x _ hroute
    · exact D.route_same s _ ⟨rfl, rfl, rfl, rfl, rfl, rfl⟩ hroute

theorem openSegment_dealt {p : Placement} (rule priority : Nat) (x : TriggerInfo) (hx : x.place = triggerPlace p)
    (hp : p ≠ .segment) (hs : NoneFills D.closed s) (hroute : D.route s)
    (hne : triggerPlace p = .ring → s.sst.ring ≠ []) :
    D.Dealt p .opened (openSegment rule priority x s) := by
  have h0 : fillCount s = 0 := fillingSegment_none_iff.mp hs.fillingSegment_none
  have hjoin : fillCount (joinTable (freshDescriptor rule priority x s) s) = 1 := by rw [fillCount_joinTable rfl, h0]
  have hopened : Fills D.closed D.opened (openSegment rule priority x s) ∧ D.route (openSegment rule priority x s) ∧
      fillCount (openSegment rule priority x s) = 1 := by
    cases hplace : x.place with
    | ring =>
      obtain ⟨hf, hr⟩ := D.handover_opens rule priority x hs h0 hroute (hne (hx ▸ hplace))
      simp only [openSegment, hplace]
      exact ⟨hf.of_table rfl, D.route_same (handover _) _ ⟨rfl, rfl, rfl, rfl, rfl, rfl⟩ hr, (fillCount_handover _).trans hjoin⟩
    | unplaced =>
      obtain ⟨hf, hr⟩ := D.firstPage_opens rule priority x hs h0 hroute
      simp only [openSegment, hplace]
      exact ⟨hf.of_table rfl, D.route_same (firstPage _ _ _) _ ⟨rfl, rfl, rfl, rfl, rfl, rfl⟩ hr,
        (firstPage_steady _ _ _).fill.trans hjoin⟩
  obtain ⟨hf, hr, hc⟩ := hopened
  have hfound : ∃ d, fillingSegment (openSegment rule priority x s) = some d :=
    Option.isSome_iff_exists.mp (fillingSegment_isSome_iff.mpr (hc ▸ Nat.one_pos))
  refine ⟨hr, ?_⟩
  cases p with
  | segment => exact absurd rfl hp
  | _ => exact .inr ⟨hf, hfound, rfl⟩

theorem Dealt.refused {D : Discipline} {p : Placement} {ctx ctx' : CaptureContext} (hs : D.Dealt p ctx s)
    (hn : fillingSegment s = none) (hc : ctx' ≠ .opened) : D.Dealt p ctx' s := by
  obtain ⟨hr, hs⟩ := hs
  refine ⟨hr, ?_⟩
  cases p with
  | segment =>
    obtain ⟨-, ⟨d, hd⟩, -⟩ := hs
    exact absurd (hn.symm.trans hd) nofun
  | _ =>
    rcases hs with ⟨hf, -, hne⟩ | ⟨-, ⟨d, hd⟩, -⟩
    · exact .inl ⟨hf, hc, hne⟩
    · exact absurd (hn.symm.trans hd) nofun

/-- What holds of a state in which no segment is FILLING while firings are dealt with. -/
theorem Dealt.none {D : Discipline} {p : Placement} {ctx : CaptureContext} (hs : D.Dealt p ctx s)
    (hn : fillingSegment s = none) :
    D.route s ∧ p ≠ .segment ∧ NoneFills D.closed s ∧ (triggerPlace p = .ring → s.sst.ring ≠ []) := by
  obtain ⟨hr, hs⟩ := hs
  refine ⟨hr, ?_⟩
  cases p with
  | segment =>
    obtain ⟨-, ⟨d, hd⟩, -⟩ := hs
    exact absurd (hn.symm.trans hd) nofun
  | _ =>
    rcases hs with ⟨hf, -, hne⟩ | ⟨-, ⟨d, hd⟩, -⟩
    · exact ⟨nofun, hf, hne⟩
    · exact absurd (hn.symm.trans hd) nofun

/-- A firing that gets no descriptor is counted (R28). -/
theorem Dealt.counted {D : Discipline} {p : Placement} {ctx : CaptureContext} (hs : D.Dealt p ctx s) :
    D.Dealt p ctx (countNoDescriptor s) :=
  hs.same (SameGround.even ⟨rfl, rfl, rfl, rfl, rfl, rfl⟩ rfl) (countNoDescriptor_steady s)

theorem openOrRefuse_dealt {p : Placement} {ctx : CaptureContext} (rule priority : Nat) (x : TriggerInfo)
    (hx : x.place = triggerPlace p) (hs : D.Dealt p ctx s) (hn : fillingSegment s = .none) :
    D.Dealt p (openOrRefuse rule priority x s).1.context (openOrRefuse rule priority x s).2 := by
  unfold openOrRefuse
  split
  · next v hv =>
    obtain ⟨hr, hp, hf, hne⟩ := hs.none hn
    have h := descriptorSlot_even hv
    have hring := h.ring
    exact D.openSegment_dealt rule priority x hx hp (hf.of_subset h.segments) (D.route_same _ _ h.toSameGround hr)
      (hring ▸ hne)
  · exact (hs.refused (ctx' := .refused _) hn nofun).counted

theorem captureFiring_dealt {p : Placement} (rule priority : Nat) (x : TriggerInfo) (ctx : CaptureContext)
    (hx : x.place = triggerPlace p) (hs : D.Dealt p ctx s) (hr : Routing s) :
    D.Dealt p (captureFiring rule priority x ctx s).1.context (captureFiring rule priority x ctx s).2 := by
  unfold captureFiring
  split
  · exact hs
  · split
    · next d hd => exact D.retrigger_dealt rule hs hr hd
    · next hn =>
      split
      · unfold shareRefusal
        dsimp only
        split
        · exact (hs.refused (ctx' := .refused _) hn nofun).counted
        · exact hs.refused hn nofun
      all_goals
        split
        · exact hs.refused hn nofun
        · exact D.openOrRefuse_dealt rule priority x hx hs hn

theorem dealFirings_dealt {p : Placement} (x : TriggerInfo) (hx : x.place = triggerPlace p) (fs : List Firing)
    (ctx : CaptureContext) (s : State) (hs : D.Dealt p ctx s) (hr : Dealing x.place s) :
    D.Dealt p (dealFirings x fs ctx s).1 (dealFirings x fs ctx s).2 := by
  induction fs generalizing ctx s with
  | nil => exact hs
  | cons g fs ih =>
    refine ih _ _ ?_ ?_
    · unfold dealFiring
      split
      · exact hs.same (SameGround.even ⟨rfl, rfl, rfl, rfl, rfl, rfl⟩ rfl) (queueEvent_steady _ s)
      · exact (D.captureFiring_dealt _ _ x ctx hx hs hr.routing).same (SameGround.even ⟨rfl, rfl, rfl, rfl, rfl, rfl⟩ rfl)
          (queueEvent_steady _ _)
    · unfold dealFiring
      split
      · exact (queueEvent_steady _ s).dealing hr
      · exact (queueEvent_steady _ _).dealing (captureFiring_dealing _ _ _ _ hr)

/-! ## The record stored (R113) -/

theorem afterEvaluation_ends {p : Placement} {ctx : CaptureContext} (hs : D.Dealt p ctx s) (hr : Routing s)
    (hp : p ≠ .refused) : D.Ends (afterEvaluation p ctx s) := by
  obtain ⟨hroute, hs⟩ := hs
  cases p with
  | refused => exact absurd rfl hp
  | segment =>
    obtain ⟨hf, ⟨d, hd⟩, -⟩ := hs
    exact D.countRecord_ends false hf hr hroute hd
  | ring =>
    unfold afterEvaluation
    rcases hs with ⟨hf, hc, -⟩ | ⟨hf, -, hc⟩
    · simp only [if_neg hc]
      exact .inl ⟨hf.any, D.route_kept s hroute⟩
    · simp only [if_pos hc]
      exact D.closeCheck_ends (hf.imp D.opened_checked) hr hroute
  | unplaced =>
    unfold afterEvaluation
    rcases hs with ⟨hf, hc, -⟩ | ⟨hf, -, hc⟩
    · simp only [if_neg hc]
      exact .inl ⟨hf.any.of_table rfl, D.route_kept _ (D.route_same s _ ⟨rfl, rfl, rfl, rfl, rfl, rfl⟩ hroute)⟩
    · simp only [if_pos hc]
      exact D.closeCheck_ends (hf.imp D.opened_checked) hr hroute

theorem storeRecord_ends (channel : Nat) (r : Record) (hs : Fills D.closed D.waiting s) (hroute : D.route s)
    (hr : Routing s) (ha : acquiring s = true) : D.Ends (storeRecord channel r s) := by
  have hplaced := placeRecord_placed r hr ha
  have hplace := D.placeRecord_place r hs hr hroute
  unfold storeRecord
  dsimp only
  generalize placeRecord r s = x at hplaced hplace
  obtain ⟨p, v⟩ := x
  split
  · next he =>
    cases he
    exact hplace
  · next hne =>
    split
    · cases p with
      | refused => exact absurd rfl hne
      | segment =>
        obtain ⟨hf, hv, ⟨d, hd⟩⟩ := hplace
        exact D.countRecord_ends true hf hplaced.routing hv hd
      | ring => exact .inl ⟨hplace.1.any, D.route_kept v hplace.2.1⟩
      | unplaced =>
        exact .inl ⟨hplace.1.any.of_table rfl, D.route_kept _ (D.route_same v _ ⟨rfl, rfl, rfl, rfl, rfl, rfl⟩ hplace.2)⟩
    · have hdealing : Dealing (triggerPlace p) v := ⟨hplaced.routing, hplaced.goesOn hne, fun hp => hplaced.unplaced (by
        cases p <;> simp [triggerPlace] at hp ⊢)⟩
      have hdealt : D.Dealt p .first v := by
        cases p with
        | refused => exact absurd rfl hne
        | segment => exact ⟨hplace.2.1, hplace.1, hplace.2.2, nofun⟩
        | ring => exact ⟨hplace.2.1, .inl ⟨hplace.1, nofun, fun _ => hplace.2.2⟩⟩
        | unplaced => exact ⟨hplace.2, .inl ⟨hplace.1, nofun, nofun⟩⟩
      have hsteady := (clearForce_steady v).trans (evaluateRules_steady channel r _)
      have heven : Even v (evaluateRules channel r (v.setAqs { v.aqs with forcePending := false })) :=
        SameGround.even ⟨rfl, rfl, rfl, rfl, rfl, rfl⟩ rfl
      exact D.afterEvaluation_ends
        (D.dealFirings_dealt ⟨r, v.aqs.convTick, triggerPlace p⟩ rfl _ _ _ (hdealt.same heven hsteady)
          (hsteady.dealing hdealing))
        (dealFirings_dealing ⟨r, v.aqs.convTick, triggerPlace p⟩ _ _ _ (hsteady.dealing hdealing)).routing hne

/-- The converter fault after the record is stored (R122). -/
theorem converterFault_ends (q : Request) (hs : D.Ends s) (hr : Routing s) : D.Ends (converterFault q s) := by
  have h0 : acquiring s = false → fillCount s = 0 := hr.run.fillCount_zero
  rcases hs with ⟨hf, hroute⟩ | ⟨hf, hd⟩
  · exact D.haltWith_ends .converter (hf.of_table rfl) hr.run.oneFilling h0 D.settled_halts
      (D.done_kept s _ rfl (.inl ⟨rfl, rfl⟩) (D.kept_done s hroute))
  · exact D.haltWith_ends .converter (hf.of_table rfl) hr.run.oneFilling h0 nofun (D.done_kept s _ rfl (.inl ⟨rfl, rfl⟩) hd)

/-- A completion routed: the record is stored, or dropped for a DISCARD entry, and a fault may follow; then pacing goes on
(R113). -/
theorem routeRecord_ends {c : Completion} {e : ScanEntry} {q : Cvp} (hc : Completed c e q s) (hs : RunOk s)
    (hdropped : e.discard = true → D.Ends ((s.setCvp q).setAqs { s.aqs with holdPending := false }))
    (hstored : e.discard = false → Fills D.closed D.waiting s ∧
      D.route (handRecord ((s.setCvp q).setAqs { s.aqs with holdPending := false }))) :
    ∃ v, D.Ends v ∧ routeRecord c e (s.setCvp q) = continuePacing c.request.entry e.hold v := by
  obtain ⟨hr, ha⟩ := hc.routing hs
  have hr' : Routing (handRecord ((s.setCvp q).setAqs { s.aqs with holdPending := false })) :=
    { hr with run := { hr.run with } }
  refine ⟨_, ?_, rfl⟩
  have hends : D.Ends (if e.discard then (s.setCvp q).setAqs { s.aqs with holdPending := false }
      else storeRecord e.channel (completedRecord c e (s.setCvp q))
        (handRecord ((s.setCvp q).setAqs { s.aqs with holdPending := false }))) := by
    split
    · next hd => exact hdropped hd
    · next hd =>
      obtain ⟨hf, hroute⟩ := hstored (by simpa using hd)
      exact D.storeRecord_ends _ _ (hf.of_table rfl) hroute hr' ha
  have hrouting : Routing (if e.discard then (s.setCvp q).setAqs { s.aqs with holdPending := false }
      else storeRecord e.channel (completedRecord c e (s.setCvp q))
        (handRecord ((s.setCvp q).setAqs { s.aqs with holdPending := false }))) := by
    split
    · exact hr
    · exact storeRecord_routing _ _ hr' ha
  split
  · exact D.converterFault_ends _ hends hrouting
  · exact hends

end Discipline

end Sys2Proof.Machine

/-! SUPPORT. The two disciplines of a record's route: the windows, counts, flags and pages of every segment (R24, R25, R31),
and the one generation that the FILLING segment names (R24, R90, R92); what the pacer makes of tables and segments. -/

namespace Sys2Proof.Machine

variable {s t u : State} {d : Descriptor} {f : Descriptor → Descriptor}

/-! ## Windows (R24, R25, R31) -/

/-- A descriptor whose pages are those of `n` records, with windows, counts and flags in range. -/
structure Windowed (n : Nat) (d : Descriptor) : Prop where
  pre : d.preTaken ≤ d.preRequested
  window : d.preTaken + d.postRequested ≤ d.maxLength
  limit : d.maxLength ≤ 4096
  offset : d.firstOffset < 32
  pages : d.pages.length = (d.firstOffset + n + 31) / 32
  shortPre : d.flags.shortPre = decide (d.preTaken < d.preRequested)
  errsamp : d.flags.errsamp = decide (0 < d.errCount)
  errors : d.errCount ≤ d.preTaken + d.postTaken
  secondary : d.secondary.length ≤ 4
  overflow : d.secondaryOverflow ≤ 255
  haltend : d.flags.haltend = true → d.flags.truncated = true
  limited : d.flags.limited = true → d.flags.extended = true

/-- The segment waits for its next record. -/
structure WindowOpen (d : Descriptor) : Prop extends Windowed (d.preTaken + d.postTaken) d where
  room : d.postTaken < d.postRequested
  whole : d.flags.truncated = false

/-- The segment has closed. -/
structure WindowClosed (d : Descriptor) : Prop extends Windowed (d.preTaken + d.postTaken) d where
  taken : d.postTaken ≤ d.postRequested
  complete : d.flags.truncated = true ∨ d.postTaken = d.postRequested

theorem imp_iff_false_or {a b : Bool} : (a = false ∨ b = true) ↔ (a = true → b = true) := by cases a <;> simp

theorem descriptorOk_iff : descriptorOk d = true ↔ if isFilling d then WindowOpen d else WindowClosed d := by
  simp only [descriptorOk, Bool.and_eq_true, Bool.or_eq_true, Bool.not_eq_true', decide_eq_true_eq]
  cases hf : isFilling d
  · simp only [Bool.false_eq_true, if_false, false_or, true_or, imp_iff_false_or, true_and, and_assoc]
    constructor
    · rintro ⟨h1, h2, h3, h4, h5, h6, h7, h8, h9, h10, h11, h13, h14, h15⟩
      exact ⟨⟨h1, h2, h3, h5, h6, h7, h8, h9, h10, h11, h14, h15⟩, h4, h13⟩
    · rintro ⟨⟨h1, h2, h3, h5, h6, h7, h8, h9, h10, h11, h14, h15⟩, h4, h13⟩
      exact ⟨h1, h2, h3, h4, h5, h6, h7, h8, h9, h10, h11, h13, h14, h15⟩
  · simp only [if_true, reduceCtorEq, true_or, false_or, imp_iff_false_or, true_and, and_assoc]
    constructor
    · rintro ⟨h1, h2, h3, -, h5, h6, h7, h8, h9, h10, h11, h12, h12', h14, h15⟩
      exact ⟨⟨h1, h2, h3, h5, h6, h7, h8, h9, h10, h11, h14, h15⟩, h12, h12'⟩
    · rintro ⟨⟨h1, h2, h3, h5, h6, h7, h8, h9, h10, h11, h14, h15⟩, h12, h12'⟩
      exact ⟨h1, h2, h3, h12.le, h5, h6, h7, h8, h9, h10, h11, h12, h12', h14, h15⟩

/-- The segment has a record placed that is not counted. -/
structure WindowPlaced (d : Descriptor) : Prop extends Windowed (d.preTaken + d.postTaken + 1) d where
  room : d.postTaken < d.postRequested
  whole : d.flags.truncated = false

/-- The segment before its close check. -/
structure WindowChecked (d : Descriptor) : Prop extends Windowed (d.preTaken + d.postTaken) d where
  taken : d.postTaken ≤ d.postRequested
  whole : d.pages ≠ [] → d.flags.truncated = false

/-- The segment opens: its one counted record is the trigger record. -/
structure WindowOpened (d : Descriptor) : Prop extends WindowChecked d where
  first : d.postTaken ≤ 1
  asked : 1 ≤ d.postRequested

/-- The settings' part that windows turn on (R25). -/
theorem captureRangesOk_window {c : CaptureSettings} (h : captureRangesOk c = true) :
    1 ≤ c.postRequested ∧ c.preRequested + c.postRequested ≤ c.maxLength ∧ c.maxLength ≤ 4096 := by
  simp only [captureRangesOk, Bool.and_eq_true, decide_eq_true_eq] at h
  omega

/-- A list of secondaries grows by one, or the overflow count does (R32). -/
theorem Windowed.listed {n : Nat} (h : Windowed n d) (x : Secondary) : Windowed n (listSecondary x d) := by
  unfold listSecondary
  split
  · next hl =>
    refine { h with secondary := ?_ }
    rw [List.length_append]
    exact hl
  · exact { h with overflow := satAdd_le 255 _ _ }

theorem listSecondary_window (x : Secondary) (d : Descriptor) : (listSecondary x d).preTaken = d.preTaken ∧
    (listSecondary x d).postTaken = d.postTaken ∧ (listSecondary x d).postRequested = d.postRequested ∧
    (listSecondary x d).pages = d.pages ∧ (listSecondary x d).flags = d.flags ∧
    (listSecondary x d).generation = d.generation := by
  unfold listSecondary
  split <;> exact ⟨rfl, rfl, rfl, rfl, rfl, rfl⟩

theorem Windowed.extended {n : Nat} (h : Windowed n d) (o ps : Nat) : Windowed n (extendWindow o ps d) where
  pre := h.pre
  window := by
    have hw := h.window
    simp only [extendWindow]
    omega
  limit := h.limit
  offset := h.offset
  pages := h.pages
  shortPre := h.shortPre
  errsamp := h.errsamp
  errors := h.errors
  secondary := h.secondary
  overflow := h.overflow
  haltend := h.haltend
  limited := fun _ => rfl

theorem Windowed.complete {n : Nat} (h : Windowed n d) (a b : Bool) (hab : b = true → d.flags.truncated || a = true) :
    Windowed n (closedDescriptor a b d) := { h with
  haltend := by
    intro hh
    simp only [closedDescriptor, Bool.or_eq_true] at hh ⊢
    rcases hh with hh | hh
    · exact .inl (h.haltend hh)
    · simpa using hab hh }

/-- The handed-over pages hold the ring's records from the first record of the segment on (R15). -/
theorem handover_pages {n fill len pre : Nat} (hn : n = 32 * (len - 1) + fill) (hl : 0 < len) (hf : 1 ≤ fill ∧ fill ≤ 32)
    (hp : pre ≤ n - 1) : len - (n - 1 - pre) / 32 = ((n - 1 - pre) % 32 + (pre + 1) + 31) / 32 := by omega

theorem WindowPlaced.listed (h : WindowPlaced d) (x : Secondary) : WindowPlaced (listSecondary x d) := by
  obtain ⟨hpre, hpost, hreq, -, hflags, -⟩ := listSecondary_window x d
  exact ⟨by rw [hpre, hpost]; exact h.toWindowed.listed x, by rw [hpost, hreq]; exact h.room, by rw [hflags]; exact h.whole⟩

theorem WindowPlaced.extended (h : WindowPlaced d) {ps : Nat} (hp : 1 ≤ ps) :
    WindowPlaced (extendWindow d.postTaken ps d) := by
  refine ⟨h.toWindowed.extended _ _, ?_, h.whole⟩
  have hw := h.window
  have hr := h.room
  simp only [extendWindow]
  omega

theorem WindowPlaced.counted (h : WindowPlaced d) (err : Bool) : WindowChecked (countedDescriptor err d) := by
  refine ⟨{ h.toWindowed with pages := h.pages, errsamp := ?_, errors := ?_ }, h.room, fun _ => h.whole⟩
  · have he := h.errsamp
    cases err <;> simp [countedDescriptor, he]
  · have he := h.errors
    simp only [countedDescriptor]
    split <;> omega

theorem WindowOpened.listed (h : WindowOpened d) (x : Secondary) : WindowOpened (listSecondary x d) := by
  obtain ⟨hpre, hpost, hreq, hpages, hflags, -⟩ := listSecondary_window x d
  exact ⟨⟨by rw [hpre, hpost]; exact h.toWindowed.listed x, by rw [hpost, hreq]; exact h.taken,
    by rw [hpages, hflags]; exact h.whole⟩, by rw [hpost]; exact h.first, by rw [hreq]; exact h.asked⟩

theorem WindowOpened.extended (h : WindowOpened d) {ps : Nat} (hp : 1 ≤ ps) : WindowOpened (extendWindow 0 ps d) := by
  have hw := h.window
  have hf := h.first
  have ha := h.asked
  refine ⟨⟨h.toWindowed.extended _ _, ?_, h.whole⟩, hf, ?_⟩ <;> simp only [extendWindow] <;> omega

theorem countErr_le (s : State) (first count : Nat) : countErr s first count ≤ count :=
  (List.length_filter_le _ _).trans_eq List.length_range

/-- The segment that the ring is handed over to (R15). -/
theorem opened_on_ring (rule priority : Nat) (x : TriggerInfo) (hring : RingInForm s)
    (hset : captureRangesOk s.sgm.settings = true) (hne : s.sst.ring ≠ []) :
    WindowOpened (openedDescriptor (handoverPre s) 1 (countErr s (handoverFirst s) (handoverPre s + 1))
      (s.sst.ring.drop (handoverFirst s / 32)) (handoverFirst s % 32) false false (freshDescriptor rule priority x s)) := by
  obtain ⟨hps, hmax, hlim⟩ := captureRangesOk_window hset
  have hlen : 0 < s.sst.ring.length := List.length_pos_iff.mpr hne
  obtain ⟨fill, hfill, h1, h32⟩ : ∃ fill, s.sst.ringFill = some fill ∧ 1 ≤ fill ∧ fill ≤ 32 := by
    simp only [RingInForm, ringFillOk] at hring
    split at hring
    · exact absurd (List.isEmpty_iff.mp hring) hne
    · next fill hf =>
      simp only [Bool.and_eq_true, decide_eq_true_eq] at hring
      exact ⟨fill, hf, hring.1.2, hring.2⟩
  have hcount : ringCount s.sst = 32 * (s.sst.ring.length - 1) + fill := by simp only [ringCount, hfill]
  have hpre : handoverPre s ≤ s.sgm.settings.preRequested := Nat.min_le_left _ _
  have hpre' : handoverPre s ≤ ringCount s.sst - 1 := by
    simp only [handoverPre, generationCount]
    omega
  have herr := countErr_le s (handoverFirst s) (handoverPre s + 1)
  have hpages := handover_pages hcount hlen ⟨h1, h32⟩ hpre'
  refine ⟨⟨?_, hps, fun _ => rfl⟩, Nat.le_refl 1, hps⟩
  exact {
    pre := hpre
    window := by simp only [openedDescriptor, freshDescriptor]; omega
    limit := hlim
    offset := Nat.mod_lt _ (by decide)
    pages := by
      simp only [openedDescriptor, List.length_drop, handoverFirst]
      exact hpages
    shortPre := rfl
    errsamp := rfl
    errors := herr
    secondary := Nat.zero_le 4
    overflow := Nat.zero_le 255
    haltend := nofun
    limited := nofun }

/-- A segment that opens without history (R16, R38). -/
theorem windowed_without_history (rule priority : Nat) (x : TriggerInfo) (post : Nat) (pages : List Nat) (truncated haltend : Bool)
    (hp : pages.length = (post + 31) / 32) (hh : haltend = true → truncated = true)
    (hset : captureRangesOk s.sgm.settings = true) :
    Windowed (0 + post) (openedDescriptor 0 post 0 pages 0 truncated haltend (freshDescriptor rule priority x s)) := by
  obtain ⟨-, hmax, hlim⟩ := captureRangesOk_window hset
  exact {
    pre := Nat.zero_le _
    window := by simp only [openedDescriptor, freshDescriptor]; omega
    limit := hlim
    offset := Nat.zero_lt_succ 31
    pages := by simp only [openedDescriptor]; omega
    shortPre := rfl
    errsamp := rfl
    errors := Nat.zero_le _
    secondary := Nat.zero_le 4
    overflow := Nat.zero_le 255
    haltend := hh
    limited := nofun }

/-- The windows of segments on a record's route. -/
def windows : Discipline where
  route s := RingInForm s ∧ captureRangesOk s.sgm.settings = true
  kept s := RingInForm s ∧ captureRangesOk s.sgm.settings = true
  done s := RingInForm s ∧ captureRangesOk s.sgm.settings = true
  closed := WindowClosed
  waiting := WindowOpen
  placed := WindowPlaced
  opened := WindowOpened
  checked := WindowChecked
  settled := WindowOpen
  route_kept _ h := h
  kept_done _ h := h
  route_same s t h hs := by
    refine ⟨?_, h.settings ▸ hs.2⟩
    have hr := hs.1
    simp only [RingInForm, ringFillOk, h.ring, h.ringFill] at hr ⊢
    exact hr
  route_ring s t hset _ _ hr hs := ⟨hr, hset ▸ hs.2⟩
  done_kept s t hset hr hs := by
    refine ⟨?_, hset ▸ hs.2⟩
    rcases hr with ⟨h1, h2⟩ | hr
    · have hr := hs.1
      simp only [RingInForm, ringFillOk, h1, h2] at hr ⊢
      exact hr
    · exact hr
  waiting_starved d b h := ⟨h.toWindowed.complete true b (by simp), h.room.le, by simp [closedDescriptor]⟩
  waiting_fits d page h hp := by
    have hlen := (List.getElem?_eq_some_iff.mp hp).1
    have hpages := h.pages
    simp only [nextPosition, storedLength] at hlen
    exact ⟨{ h.toWindowed with pages := by omega }, h.room, h.whole⟩
  waiting_grows d page h hp := by
    have hlen := List.getElem?_eq_none_iff.mp hp
    have hpages := h.pages
    simp only [nextPosition, storedLength] at hlen
    exact ⟨{ h.toWindowed with pages := by simp only [addFillPage, List.length_append, List.length_singleton]; omega },
      h.room, h.whole⟩
  placed_listed d x h := h.listed x
  placed_extended s d hs h := h.extended (captureRangesOk_window hs.2).1
  placed_counted d err h := h.counted err
  opened_listed d x h := h.listed x
  opened_extended s d hs h := h.extended (captureRangesOk_window hs.2).1
  opened_checked d h := h.toWindowChecked
  checked_closes d b h hw := by
    refine ⟨h.toWindowed.complete _ b (fun hb => by simp [hb]), h.taken, ?_⟩
    simp only [windowDone, Bool.or_eq_true, decide_eq_true_eq] at hw
    rcases hw with hw | hw
    · exact .inr hw
    · exact .inl (by simp [closedDescriptor, hw])
  checked_goesOn d h hw := by
    simp only [windowDone, Bool.or_eq_false_iff, decide_eq_false_iff_not, List.isEmpty_eq_false_iff] at hw
    exact ⟨h.toWindowed, by have ht := h.taken; omega, h.whole hw.2⟩
  settled_halts d h := ⟨h.toWindowed.complete true true (by simp), h.room.le, by simp [closedDescriptor]⟩
  opens_ring s rule priority x hs hne := opened_on_ring rule priority x hs.1 hs.2 hne
  opens_page s rule priority x page hs := by
    have hps := (captureRangesOk_window hs.2).1
    exact ⟨⟨windowed_without_history rule priority x 1 [page] false false rfl nofun hs.2, hps, fun _ => rfl⟩, Nat.le_refl 1, hps⟩
  opens_lost s rule priority x b hs := by
    have hps := (captureRangesOk_window hs.2).1
    exact ⟨⟨windowed_without_history rule priority x 0 [] true b rfl (fun _ => rfl) hs.2, Nat.zero_le _,
      fun h => absurd rfl h⟩, Nat.zero_le 1, hps⟩

/-! ## The generation named (R24, R90, R92) -/

/-- The FILLING segment on the route of a record that is the `k`-th handed to the store since the switch to generation `g`. -/
def generations (g k : Nat) : Discipline where
  route s := 0 < k ∧ s.sct.generation = g ∧ s.aqs.sinceSwitch = k
  kept s := s.sct.generation = g ∧ s.aqs.sinceSwitch = k
  done _ := True
  closed _ := True
  waiting d := d.generation = g ∧ d.preTaken + d.postTaken < k
  placed d := d.generation = g ∧ d.preTaken + d.postTaken < k
  opened d := d.generation = g ∧ d.preTaken + d.postTaken ≤ k
  checked d := d.generation = g ∧ d.preTaken + d.postTaken ≤ k
  settled d := d.generation = g ∧ d.preTaken + d.postTaken ≤ k
  route_kept _ h := h.2
  kept_done _ _ := trivial
  route_same _ _ h hs := ⟨hs.1, h.generation.trans hs.2.1, h.since.trans hs.2.2⟩
  route_ring _ _ _ hg hn _ hs := ⟨hs.1, hg ▸ hs.2.1, hn.trans hs.2.2⟩
  done_kept _ _ _ _ _ := trivial
  waiting_starved _ _ _ := trivial
  waiting_fits _ _ h _ := h
  waiting_grows _ _ h _ := h
  placed_listed d x h := by
    obtain ⟨hpre, hpost, -, -, -, hg⟩ := listSecondary_window x d
    rwa [hpre, hpost, hg]
  placed_extended _ _ _ h := h
  placed_counted _ _ h := ⟨h.1, h.2⟩
  opened_listed d x h := by
    obtain ⟨hpre, hpost, -, -, -, hg⟩ := listSecondary_window x d
    rwa [hpre, hpost, hg]
  opened_extended _ _ _ h := h
  opened_checked _ h := h
  checked_closes _ _ _ _ := trivial
  checked_goesOn _ h _ := h
  settled_halts _ _ := trivial
  opens_ring s _ _ _ hs _ := ⟨hs.2.1, (handoverPre_lt s (hs.2.2 ▸ hs.1)).trans_eq hs.2.2⟩
  opens_page _ _ _ _ _ hs := ⟨hs.2.1, hs.1⟩
  opens_lost _ _ _ _ _ hs := ⟨hs.2.1, Nat.zero_le k⟩

/-! ## The pacer and the tables -/

/-- Pacing goes on: settings, ring and segments are the same, and the tables are switched with no segment FILLING only (R90). -/
structure Paced (s t : State) : Prop where
  settings : t.sgm.settings = s.sgm.settings
  ring : t.sst.ring = s.sst.ring
  ringFill : t.sst.ringFill = s.sst.ringFill
  table : t.sgm.table = s.sgm.table
  tables : (t.sct = s.sct ∧ t.aqs.sinceSwitch = s.aqs.sinceSwitch) ∨ fillCount s = 0

theorem Paced.refl (s : State) : Paced s s := ⟨rfl, rfl, rfl, rfl, .inl ⟨rfl, rfl⟩⟩

theorem Paced.trans (h : Paced s t) (k : Paced t u) : Paced s u where
  settings := k.settings.trans h.settings
  ring := k.ring.trans h.ring
  ringFill := k.ringFill.trans h.ringFill
  table := k.table.trans h.table
  tables := by
    rcases h.tables with ⟨h1, h2⟩ | h0
    · rcases k.tables with ⟨k1, k2⟩ | k0
      · exact .inl ⟨k1.trans h1, k2.trans h2⟩
      · exact .inr ((fillCount_of_table h.table).symm.trans k0)
    · exact .inr h0

/-- A change of the sequencer and the converter port that leaves the count of records since the last switch. -/
theorem Paced.of_ports (s : State) (a : Aqs) (c : Cvp) (h : a.sinceSwitch = s.aqs.sinceSwitch) :
    Paced s { s with aqs := a, cvp := c } := ⟨rfl, rfl, rfl, rfl, .inl ⟨rfl, h⟩⟩

theorem switchTables_paced (h : fillCount s = 0) : Paced s (switchTables s) := by
  rw [switchTables_eq]
  exact ⟨rfl, rfl, rfl, rfl, .inr h⟩

theorem passBoundary_paced (s : State) : Paced s (passBoundary s) := by
  by_cases hdue : CommitDue s
  · rw [(passBoundary_at s).switches hdue]
    exact ⟨rfl, rfl, rfl, rfl, .inr (fillingSegment_none_iff.mp hdue.2.2)⟩
  · rw [(passBoundary_at s).waits hdue]
    exact .of_ports s _ s.cvp rfl

theorem continuePacing_paced (index : Nat) (hold : Bool) (s : State) : Paced s (continuePacing index hold s) := by
  unfold continuePacing lookAhead
  split
  · split
    · exact (Paced.of_ports s { s.aqs with passState := .waiting } s.cvp rfl).trans (passBoundary_paced _)
    · split
      · exact .of_ports s _ s.cvp rfl
      · split
        · exact .of_ports s _ _ rfl
        · exact .refl s
  · exact .refl s

theorem examining_paced (s : State) : Paced s (examining s) := by
  unfold examining
  split
  · exact passBoundary_paced s
  · exact .refl s

theorem stepSearch_paced (fuel left : Nat) (s : State) : Paced s (stepSearch fuel left s) := by
  induction fuel generalizing left s with
  | zero => exact .refl s
  | succ fuel ih =>
    by_cases hl : left = 0
    · rw [stepSearch, if_pos hl]
      exact .refl s
    · obtain ⟨left', h⟩ := stepSearch_examines fuel hl s
      refine (examining_paced s).trans ?_
      rw [h]
      split
      · exact .refl _
      · split
        · exact .of_ports _ _ _ rfl
        · exact (Paced.of_ports (examining s) { (examining s).aqs with position := (examining s).aqs.position + 1 } _ rfl).trans
            (ih left' _)

theorem startPass_paced (s : State) : Paced s (startPass s) := by
  unfold startPass
  split
  · exact passBoundary_paced s
  · split
    · exact .of_ports s _ _ rfl
    · exact .refl s

theorem resumePass_paced (s : State) : Paced s (resumePass s) := by
  unfold resumePass
  split
  · exact .of_ports s _ _ rfl
  · exact .refl s

theorem countTick_paced (tick : Nat) (s : State) : Paced s (countTick tick s) := ⟨rfl, rfl, rfl, rfl, .inl ⟨rfl, rfl⟩⟩

/-- A pace tick paces, or is missed (R106 to R110). -/
theorem paceTickStep_paced (s : State) : Paced s (paceTickStep s) ∨ ∃ v, Paced s v ∧ paceTickStep s = missedTick v := by
  unfold paceTickStep
  split
  · exact .inl (.refl s)
  · next tick _ =>
    have h := countTick_paced tick s
    split
    · unfold stepTick
      split
      · exact .inr ⟨_, h, rfl⟩
      · exact .inl (h.trans (stepSearch_paced _ _ _))
    · unfold burstTick
      split
      · exact .inl (h.trans (startPass_paced _))
      · exact .inr ⟨_, h, rfl⟩
      · exact .inl (h.trans (resumePass_paced _))

/-! ## What is kept of the segments -/

/-- The ground is the same, and every segment stood in the table before, but for its state outside FILLING and its OVERRUN
flag. -/
structure Level (s t : State) : Prop extends SameGround s t where
  segments : ∀ x ∈ t.sgm.table, ∃ d ∈ s.sgm.table, isFilling x = isFilling d ∧
    x = { d with state := x.state, flags := { d.flags with overrun := x.flags.overrun } }

theorem Even.level (h : Even s t) : Level s t := ⟨h.toSameGround, fun d hd => ⟨d, h.segments d hd, rfl, rfl⟩⟩

theorem SameGround.level (h : SameGround s t) (ht : t.sgm.table = s.sgm.table) : Level s t := (h.even ht).level

/-- Segments that are not FILLING change their state. -/
theorem moveSegment_level (n : Nat) {before after : SegState} (hb : before ≠ .filling) (ha : after ≠ .filling) (s : State) :
    Level s (moveSegment n before after s) := by
  refine ⟨⟨rfl, rfl, rfl, rfl, rfl, rfl⟩, fun x hx => ?_⟩
  rcases mem_modifyFirst hx with hx | ⟨d, hd, hp, rfl⟩
  · exact ⟨x, hx, rfl, rfl⟩
  · refine ⟨d, hd, ?_, rfl⟩
    have hst := (isSegment_iff.mp hp).2
    simp [isFilling, hst, hb, ha]

theorem missedTick_level (s : State) : Level s (missedTick s) := by
  rw [missedTick_eq]
  refine ⟨⟨rfl, rfl, rfl, rfl, rfl, rfl⟩, fun x hx => ?_⟩
  rcases mem_modifyFirst hx with hx | ⟨d, hd, -, rfl⟩
  · exact ⟨x, hx, rfl, rfl⟩
  · exact ⟨d, hd, rfl, rfl⟩

/-- A property of the state that turns on ring, settings and segments as the steps leave them, but for the route of a record. -/
structure SegmentsKept (P : State → Prop) : Prop where
  level : ∀ s t, Level s t → P s → P t
  paced : ∀ s t, Paced s t → P s → P t
  resets : ∀ power rate slots s, P (resetBlocks power rate slots s)
  entered : ∀ st r s t, Entered st r s t → fillCount s = 0 → P s → P t
  settings : ∀ s c, captureRangesOk c = true → P s → P (s.setSgm { s.sgm with settings := c })
  route : ∀ c e q s, Completed c e q s → RunOk s → P s → P (routeRecord c e (s.setCvp q))

end Sys2Proof.Machine

/-! SUPPORT. What is kept of the segments is kept by every step: the windows (O55) and the generation named (O51). -/

namespace Sys2Proof.Machine

variable {s t u : State} {d : Descriptor} {P : State → Prop}

/-! ## Operations that leave the segments level -/

theorem acqSame_level (h : AcqSame s t) : Level s t :=
  SameGround.level ⟨by rw [h.sgm], by rw [h.sst], by rw [h.sst], by rw [h.sct], by rw [h.sct], by rw [h.aqs]⟩ (by rw [h.sgm])

theorem returnPages_level (pages : List Nat) (s : State) : Level s (returnPages pages s) := by
  rw [returnPages_eq]
  exact SameGround.level ⟨rfl, rfl, rfl, rfl, rfl, rfl⟩ rfl

theorem setTgm_level (x : Tgm) (s : State) : Level s (s.setTgm x) :=
  SameGround.level ⟨rfl, rfl, rfl, rfl, rfl, rfl⟩ rfl

theorem releaseSegment_level (n : Nat) (s : State) : Level s (releaseSegment n s) := by
  unfold releaseSegment
  split
  · exact (Even.refl s).level
  · rw [returnPages_eq]
    exact Even.level ⟨⟨rfl, rfl, rfl, rfl, rfl, rfl⟩, fun d hd => List.mem_of_mem_eraseP hd⟩

theorem startDelivery_level (n : Nat) (s : State) : Level s (startDelivery n s) :=
  have h := moveSegment_level n (before := .complete) (after := .sending) nofun nofun s
  ⟨⟨rfl, rfl, rfl, rfl, rfl, rfl⟩, h.segments⟩

theorem queueSegmentReport_level (n : Nat) (pos : DeliveryPos) (d : Descriptor) (s : State) :
    Level s (queueSegmentReport n pos d s) := by
  unfold queueSegmentReport
  split
  · exact SameGround.level ⟨rfl, rfl, rfl, rfl, rfl, rfl⟩ rfl
  · have h := moveSegment_level n (before := .sending) (after := .sent) nofun nofun s
    exact ⟨⟨rfl, rfl, rfl, rfl, rfl, rfl⟩, h.segments⟩

theorem flushReports_level (credit : Nat) (s : State) : Level s (flushReports credit s) := by
  rw [flushReports_eq]
  refine ⟨⟨rfl, rfl, rfl, rfl, rfl, rfl⟩, fun x hx => ?_⟩
  obtain ⟨d, hd, rfl⟩ := List.mem_map.mp hx
  split
  · next hst => exact ⟨d, hd, by rcases hst with hst | hst <;> simp [isFilling, hst], rfl⟩
  · exact ⟨d, hd, rfl, rfl⟩

theorem readCapture_ok {args : List Byte} {c : CaptureSettings} (h : readCapture args = some c) :
    captureRangesOk c = true := by
  unfold readCapture at h
  split at h
  · split at h
    · dsimp only at h
      split at h
      · next hok => exact Option.some.inj h ▸ hok
      · cases h
    · cases h
  · cases h

/-! ## Every step -/

theorem SegmentsKept.abort (h : SegmentsKept P) (hs : RunOk s) (hp : P s) : P (abortRun s) := by
  by_cases hst : s.aqs.state = .idle
  · rwa [abortRun_idle hst]
  · refine h.entered _ _ _ _ (abortRun_entered hst) (fillCount_discardFilling .aborted hs.2.oneFilling) ?_
    exact h.level (discardFirst isFilling .aborted s) _ (SameGround.level ⟨rfl, rfl, rfl, rfl, rfl, rfl⟩ rfl)
      (h.level _ _ (discardFirst_even _ _ s).level hp)

/-- What is kept of the segments, every step keeps in a state that meets the run invariant. -/
theorem SegmentsKept.meet (h : SegmentsKept P) : AcqMeet (fun s t => RunOk s → RunOk t ∧ (P s → P t)) where
  same s t e hs := ⟨run_meet.same s t e hs, h.level _ _ (acqSame_level e)⟩
  trans _ _ _ e k hs := ⟨(k (e hs).1).1, (k (e hs).1).2 ∘ (e hs).2⟩
  resets power rate slots s _ _ := ⟨resetBlocks_ok power rate slots s, fun _ => h.resets power rate slots s⟩
  flush credit s hs := ⟨run_meet.flush credit s hs, h.level _ _ (flushReports_level credit s)⟩
  tclear args s hs := ⟨run_meet.tclear args s hs, fun hp => by
    rcases ownTclear_leaves args s with e | e <;> rw [e]
    · exact hp
    · exact h.level s _ (SameGround.level ⟨rfl, rfl, rfl, rfl, rfl, rfl⟩ rfl) hp⟩
  tadd args s hs := ⟨run_meet.tadd args s hs, fun hp => by
    rcases ownTadd_leaves args s with e | ⟨es, -, -, e⟩ <;> rw [e]
    · exact hp
    · exact h.level s _ (SameGround.level ⟨rfl, rfl, rfl, rfl, rfl, rfl⟩ rfl) hp⟩
  tcommit args s hs := ⟨run_meet.tcommit args s hs, fun hp => by
    rcases ownTcommit_leaves args s with e | ⟨-, e⟩ | ⟨hst, e⟩ <;> rw [e]
    · exact hp
    · exact h.level s _ (SameGround.level ⟨rfl, rfl, rfl, rfl, rfl, rfl⟩ rfl) hp
    · exact h.paced _ _ (switchTables_paced (hs.2.fillCount_zero (not_acquiring hst))) hp⟩
  rset args s hs := ⟨run_meet.rset args s hs, by
    obtain ⟨x, e⟩ := ownRset_leaves args s
    exact e ▸ h.level _ _ (setTgm_level x s)⟩
  ron args s hs := ⟨run_meet.ron args s hs, by
    obtain ⟨x, e⟩ := ownRon_leaves args s
    exact e ▸ h.level _ _ (setTgm_level x s)⟩
  roff args s hs := ⟨run_meet.roff args s hs, by
    obtain ⟨x, e⟩ := ownRoff_leaves args s
    exact e ▸ h.level _ _ (setTgm_level x s)⟩
  rarm args s hs := ⟨run_meet.rarm args s hs, by
    obtain ⟨x, e⟩ := ownRarm_leaves args s
    exact e ▸ h.level _ _ (setTgm_level x s)⟩
  cset args s hs := ⟨run_meet.cset args s hs, fun hp => by
    rcases ownCset_leaves args s with e | ⟨c, hc, -, e⟩ <;> rw [e]
    · exact hp
    · exact h.settings s c (readCapture_ok hc) hp⟩
  pset args s hs := ⟨run_meet.pset args s hs, fun hp => by
    rcases ownPset_leaves args s with e | ⟨p, -, -, e⟩ <;> rw [e]
    · exact hp
    · exact h.level s _ (SameGround.level ⟨rfl, rfl, rfl, rfl, rfl, rfl⟩ rfl) hp⟩
  start args s hs := ⟨run_meet.start args s hs, fun hp => by
    rcases ownStart_leaves args s with e | ⟨-, -, e⟩ <;> rw [e]
    · exact hp
    · exact h.level s _ (SameGround.level ⟨rfl, rfl, rfl, rfl, rfl, rfl⟩ rfl) hp⟩
  stop s hs := ⟨run_meet.stop s hs, fun hp => by
    rcases stopRun_leaves s with e | ⟨-, hf, e⟩ | ⟨-, -, e⟩ <;> rw [e]
    · exact hp
    · exact h.entered _ _ _ _ (enterStopped_entered _ _ _) (fillingSegment_none_iff.mp hf) hp
    · exact h.level s _ (SameGround.level ⟨rfl, rfl, rfl, rfl, rfl, rfl⟩ rfl) hp⟩
  abort s hs := ⟨run_meet.abort s hs, h.abort hs⟩
  force args s hs := ⟨run_meet.force args s hs, fun hp => by
    rcases ownForce_leaves args s with e | ⟨-, e⟩ <;> rw [e]
    · exact hp
    · exact h.level s _ (SameGround.level ⟨rfl, rfl, rfl, rfl, rfl, rfl⟩ rfl) hp⟩
  sfetch args s hs := ⟨run_meet.sfetch args s hs, fun hp => by
    rcases ownSfetch_leaves args s with e | e <;> rw [e]
    · exact hp
    · exact h.level s _ (SameGround.level ⟨rfl, rfl, rfl, rfl, rfl, rfl⟩ rfl) hp⟩
  sdrop args s hs := ⟨run_meet.sdrop args s hs, fun hp => by
    rcases ownSdrop_leaves args s with e | ⟨d, -, -, e⟩ <;> rw [e]
    · exact hp
    · exact h.level _ _ (discardFirst_even _ _ s).level hp⟩
  release n s hs := ⟨run_meet.release n s hs, h.level _ _ (releaseSegment_level n s)⟩
  deliver n s e hs := ⟨run_meet.deliver n s e hs, h.level _ _ (startDelivery_level n s)⟩
  report n pos d s e1 e2 e3 hs := ⟨run_meet.report n pos d s e1 e2 e3 hs, h.level _ _ (queueSegmentReport_level n pos d s)⟩
  tick s hs := ⟨run_meet.tick s hs, fun hp => by
    rcases paceTickStep_paced s with e | ⟨v, hv, e⟩
    · exact h.paced _ _ e hp
    · exact e ▸ h.level _ _ (missedTick_level v) (h.paced _ _ hv hp)⟩
  late s hs := ⟨run_meet.late s hs, h.level s _ (SameGround.level ⟨rfl, rfl, rfl, rfl, rfl, rfl⟩ rfl)⟩
  route c e q s hc hs := ⟨run_meet.route c e q s hc hs, h.route c e q s hc hs⟩
  rising s hs := ⟨run_meet.rising s hs, h.level s _ (SameGround.level ⟨rfl, rfl, rfl, rfl, rfl, rfl⟩ rfl)⟩
  pulse s hs := ⟨run_meet.pulse s hs, fun hp => by
    rcases pulseExpiryStep_leaves s with e | e <;> rw [e]
    · exact hp
    · exact h.level s _ (SameGround.level ⟨rfl, rfl, rfl, rfl, rfl, rfl⟩ rfl) hp⟩

theorem SegmentsKept.keeps (h : SegmentsKept P) : StepKeeps (fun s => PacingShape s ∧ RunShape s) P :=
  stepKeeps_of_exec (fun _ _ hs => ⟨{ hs.1 with }, { hs.2 with }⟩)
    (fun s _ => h.level s _ (SameGround.level ⟨rfl, rfl, rfl, rfl, rfl, rfl⟩ rfl))
    fun _ _ _ hq hp e => (h.meet.steps.exec e hq).2 hp

/-! ## The windows -/

/-- Ring, settings and segments are as R7, R24, R25 and R31 have them. -/
def WindowsOk (s : State) : Prop :=
  (RingInForm s ∧ captureRangesOk s.sgm.settings = true) ∧ Fills WindowClosed WindowOpen s

theorem windowsOk_iff : WindowsOk s ↔ RingInForm s ∧ WindowsHold s := by
  constructor
  · rintro ⟨⟨hr, hset⟩, hf⟩
    refine ⟨hr, hset, fun d hd => ?_⟩
    rw [descriptorOk_iff]
    split
    · next hx => exact hf.filling d hd hx
    · next hx => exact hf.closed d hd (by simpa using hx)
  · rintro ⟨hr, hw⟩
    refine ⟨⟨hr, hw.settings⟩, fun d hd hx => ?_, fun d hd hx => ?_⟩ <;> have h := descriptorOk_iff.mp (hw.segments d hd)
    · rwa [if_pos hx] at h
    · rwa [if_neg (by simp [hx])] at h

/-- Neither the state nor the OVERRUN flag of a segment is one of its windows. -/
theorem Windowed.reflagged {n : Nat} (h : Windowed n d) (st : SegState) (b : Bool) :
    Windowed n { d with state := st, flags := { d.flags with overrun := b } } := { h with }

theorem windows_level (h : Level s t) (hs : WindowsOk s) : WindowsOk t := by
  obtain ⟨hroute, hf⟩ := hs
  refine ⟨windows.route_same s t h.toSameGround hroute, fun x hx hfx => ?_, fun x hx hfx => ?_⟩
  all_goals
    obtain ⟨d, hd, hsame, he⟩ := h.segments x hx
    rw [hsame] at hfx
    rw [he]
  · have hw := hf.filling d hd hfx
    exact ⟨hw.toWindowed.reflagged _ _, hw.room, hw.whole⟩
  · have hw := hf.closed d hd hfx
    exact ⟨hw.toWindowed.reflagged _ _, hw.taken, hw.complete⟩

theorem windows_ends (h : windows.Ends s) : WindowsOk s := by
  rcases h with ⟨hf, hr⟩ | ⟨hf, hd⟩
  · exact ⟨hr, hf⟩
  · exact ⟨hd, hf.any⟩

theorem windows_paced (h : Paced s t) (hs : WindowsOk s) : WindowsOk t :=
  ⟨windows.done_kept s t h.settings (.inl ⟨h.ring, h.ringFill⟩) hs.1, hs.2.of_table h.table⟩

theorem windows_kept : SegmentsKept WindowsOk where
  level _ _ := windows_level
  paced _ _ := windows_paced
  resets power rate slots s := by
    obtain ⟨hst, ⟨ht, -⟩, hset, -⟩ := resetBlocks_values power rate slots s
    refine ⟨⟨?_, ?_⟩, ?_, ?_⟩
    · simp [RingInForm, ringFillOk, hst]
    · rw [hset]
      decide
    all_goals simp [ht]
  entered st r s t h h0 hs := windows_ends (windows.entered_ends h (hs.2.none (fillingSegment_none_iff.mpr h0)) hs.1)
  settings s c hc hs := ⟨⟨hs.1.1, hc⟩, hs.2.of_table rfl⟩
  route c e q s hc hrun hs := by
    obtain ⟨v, hv, he⟩ := windows.routeRecord_ends hc hrun (fun _ => .inl ⟨hs.2.of_table rfl, hs.1⟩) (fun _ => ⟨hs.2, hs.1⟩)
    exact he ▸ windows_paced (continuePacing_paced _ _ v) (windows_ends hv)

/-- Settles O55: along the route of a record the FILLING segment's pages are those of the records it has, counting one that
is placed and not counted (`windows`); nothing else changes ring, settings or windows, but for CSET and the resets. -/
theorem stepKeepsTheWindows : Obligations.StepKeepsTheWindows := by
  intro s t hq hp e
  exact windowsOk_iff.mp (windows_kept.keeps s t hq (windowsOk_iff.mpr hp) e)

end Sys2Proof.Machine

/-! SUPPORT. Where runs begin and tables switch: START alone begins a run and STOP alone drains it; the tables are switched
with no segment FILLING only; and a FILLING segment names the generation in force. -/

namespace Sys2Proof.Machine

variable {i : Instr} {s t u : State} {P : State → Prop}

/-! ## Runs (R95, R97) -/

/-- No run begins and none is drained. -/
structure NoRunBegins (s t : State) : Prop where
  run : t.aqs.run = s.aqs.run
  state : t.aqs.state = s.aqs.state ∨ t.aqs.state = .idle ∨ t.aqs.state = .halted

theorem NoRunBegins.of_aqs (h : t.aqs = s.aqs) : NoRunBegins s t := ⟨by rw [h], .inl (by rw [h])⟩

theorem NoRunBegins.trans (h : NoRunBegins s t) (k : NoRunBegins t u) : NoRunBegins s u :=
  ⟨k.run.trans h.run, k.state.elim (fun e => e ▸ h.state) .inr⟩

theorem Calm.noRunBegins (h : Calm s t) : NoRunBegins s t := ⟨h.run, h.state⟩

theorem releaseSegment_aqs (n : Nat) (s : State) : (releaseSegment n s).aqs = s.aqs := by
  unfold releaseSegment
  split
  · rfl
  · rw [returnPages_eq]
    rfl

theorem queueSegmentReport_aqs (n : Nat) (pos : DeliveryPos) (d : Descriptor) (s : State) :
    (queueSegmentReport n pos d s).aqs = s.aqs := by
  unfold queueSegmentReport
  split <;> rfl

/-- No step but the commands, the completions and the resets touches the run otherwise than by ending it. -/
theorem rest_noRunBegins : AcqRestMeet NoRunBegins where
  same _ _ h := .of_aqs h.aqs
  trans _ _ _ := .trans
  release n s := .of_aqs (releaseSegment_aqs n s)
  deliver _ _ _ := .of_aqs rfl
  report n pos d s _ _ _ := .of_aqs (queueSegmentReport_aqs n pos d s)
  tick s := (paceTickStep_calm s).noRunBegins
  pulse s := by rcases pulseExpiryStep_leaves s with e | e <;> rw [e] <;> exact .of_aqs rfl

/-- A host command's step changes the sequencer by its owner's effect only. -/
theorem dealWith_aqs {code : Byte} {lengthOk : List Byte → Bool} {inClosed : Bool}
    (owner : List Byte → State → Answer × State) (s : State) :
    (dealWith code lengthOk inClosed owner s).aqs = s.aqs ∨
      ∃ args, (dealWith code lengthOk inClosed owner s).aqs = (owner args s).2.aqs := by
  rcases dealWith_cases (code := code) (lengthOk := lengthOk) (inClosed := inClosed) (s := s) owner with
    e | ⟨r, e⟩ | ⟨c, args, r, -, e, -⟩ | ⟨c, args, -, -, -, -, e⟩ <;> rw [e]
  · exact .inl rfl
  · exact .inl rfl
  · exact .inl rfl
  · exact .inr ⟨args, rfl⟩

theorem dealWith_noRunBegins {code : Byte} {lengthOk : List Byte → Bool} {inClosed : Bool}
    {owner : List Byte → State → Answer × State} (h : ∀ args s, NoRunBegins s (owner args s).2) (s : State) :
    NoRunBegins s (dealWith code lengthOk inClosed owner s) := by
  rcases dealWith_aqs (code := code) (lengthOk := lengthOk) (inClosed := inClosed) owner s with e | ⟨args, e⟩
  · exact .of_aqs e
  · have k := h args s
    exact ⟨by rw [e]; exact k.run, by rw [e]; exact k.state⟩

theorem discardFirst_aqs (p : Descriptor → Bool) (r : DropReason) (s : State) : (discardFirst p r s).aqs = s.aqs := by
  cases hd : s.sgm.table.find? p with
  | none => simp only [discardFirst, hd]
  | some d => exact (discardFirst_discarded r hd).others.2.2.2.2.2.1

theorem abortRun_noRunBegins (s : State) : NoRunBegins s (abortRun s) := by
  rcases abortRun_calm s with e | ⟨v, hv, e⟩ <;> rw [e]
  · exact .of_aqs rfl
  · exact hv.noRunBegins.trans ((NoRunBegins.of_aqs (s := v) (t := armRules v) rfl).trans (enterIdle_calm _ _).noRunBegins)

/-- No host command but START and STOP begins a run or drains one. -/
theorem command_noRunBegins {code : Byte} (hi : commandCode i = some code) (hstart : i ≠ .start) (hstop : i ≠ .stop)
    (e : exec i s = .next t) : NoRunBegins s t := by
  cases i <;> simp only [commandCode, Option.some.injEq, reduceCtorEq] at hi <;>
    refine next_meets (dealWith_noRunBegins (fun args s => ?_) s) e
  case hello => exact .of_aqs (ownHello_sessionOnly args s).aqs
  case bye | replay | ident | status | reset | cread => exact .of_aqs rfl
  case start => exact absurd rfl hstart
  case stop => exact absurd rfl hstop
  case tread => unfold ownTread; split <;> (try split) <;> exact .of_aqs rfl
  case rread => exact .of_aqs (congrArg State.aqs (ownRread_state args s))
  case abort => exact abortRun_noRunBegins s
  case tclear => rcases ownTclear_leaves args s with e | e <;> rw [e] <;> exact .of_aqs rfl
  case tadd => rcases ownTadd_leaves args s with e | ⟨_, -, -, e⟩ <;> rw [e] <;> exact .of_aqs rfl
  case tcommit => rcases ownTcommit_leaves args s with e | ⟨-, e⟩ | ⟨-, e⟩ <;> rw [e] <;> exact ⟨rfl, .inl rfl⟩
  case rset => obtain ⟨x, e⟩ := ownRset_leaves args s; exact .of_aqs (by rw [e]; rfl)
  case ron => obtain ⟨x, e⟩ := ownRon_leaves args s; exact .of_aqs (by rw [e]; rfl)
  case roff => obtain ⟨x, e⟩ := ownRoff_leaves args s; exact .of_aqs (by rw [e]; rfl)
  case rarm => obtain ⟨x, e⟩ := ownRarm_leaves args s; exact .of_aqs (by rw [e]; rfl)
  case cset => rcases ownCset_leaves args s with e | ⟨_, -, -, e⟩ <;> rw [e] <;> exact .of_aqs rfl
  case pset => rcases ownPset_leaves args s with e | ⟨_, -, -, e⟩ <;> rw [e] <;> exact ⟨rfl, .inl rfl⟩
  case force => rcases ownForce_leaves args s with e | ⟨-, e⟩ <;> rw [e] <;> exact ⟨rfl, .inl rfl⟩
  case slist => exact .of_aqs rfl
  case sfetch => rcases ownSfetch_leaves args s with e | e <;> rw [e] <;> exact .of_aqs rfl
  case sdrop =>
    rcases ownSdrop_leaves args s with e | ⟨_, -, -, e⟩ <;> rw [e]
    · exact .of_aqs rfl
    · exact .of_aqs (discardFirst_aqs _ _ s)

/-- No step but START, STOP and the resets begins a run or drains one. -/
theorem exec_noRunBegins (hstart : i ≠ .start) (hstop : i ≠ .stop) (hp : ∀ a b, i ≠ .powerOn a b) (hu : i ≠ .startUpEnd)
    (hr : i ≠ .resetTakesEffect) (e : exec i s = .next t) : NoRunBegins s t := by
  by_cases hi : Special i
  · rcases hi with ⟨a, b, rfl⟩ | rfl | rfl | ⟨v, o, g, rfl⟩ | rfl | rfl | rfl
    · exact absurd rfl (hp a b)
    · exact absurd rfl hu
    · exact absurd rfl hr
    · rcases answer_cases e with (rfl | rfl) | ⟨c, x, p, hc, rfl⟩
      · exact .of_aqs rfl
      · exact .of_aqs rfl
      · exact ⟨(routeRecord_acted hc).run, (routeRecord_acted hc).state⟩
    · rcases timeout_cases e with rfl | ⟨c, x, p, hc, rfl⟩
      · exact .of_aqs rfl
      · exact ⟨(routeRecord_acted hc).run, (routeRecord_acted hc).state⟩
    · exact next_meets (R := NoRunBegins) (u := trginRisingStep s) (.of_aqs rfl) e
    · exact next_meets (R := NoRunBegins) (u := trginFallingStep s) (.of_aqs rfl) e
  · cases hc : commandCode i with
    | none => exact rest_noRunBegins.rest.exec rest_noRunBegins.unknown hi hc e
    | some code => exact command_noRunBegins hc hstart hstop e

/-- After a reset the run is 0 and acquisition in IDLE, or nothing has changed. -/
theorem reset_aqs (hi : (∃ a b, i = .powerOn a b) ∨ i = .startUpEnd ∨ i = .resetTakesEffect) (e : exec i s = .next t) :
    t = s ∨ (t.aqs.run = 0 ∧ t.aqs.state = .idle) := by
  rcases hi with ⟨a, b, rfl⟩ | rfl | rfl
  · exact next_meets (R := fun s t => t = s ∨ (t.aqs.run = 0 ∧ t.aqs.state = .idle)) (.inr ⟨rfl, rfl⟩) e
  · refine next_meets (R := fun s t => t = s ∨ (t.aqs.run = 0 ∧ t.aqs.state = .idle)) ?_ e
    unfold startUpEndStep
    split
    · exact .inr ⟨rfl, rfl⟩
    · exact .inl rfl
  · refine next_meets (R := fun s t => t = s ∨ (t.aqs.run = 0 ∧ t.aqs.state = .idle)) ?_ e
    unfold resetTakesEffectStep
    split
    · exact .inr ⟨rfl, rfl⟩
    · exact .inl rfl

theorem start_aqs (e : exec .start s = .next t) : t.aqs.state = s.aqs.state ∨ t.aqs.state = .running := by
  refine next_meets (R := fun s t => t.aqs.state = s.aqs.state ∨ t.aqs.state = .running) ?_ e
  rcases dealWith_aqs (code := 0x40) (lengthOk := argCount 0) (inClosed := false) ownStart s with h | ⟨args, h⟩ <;> rw [h]
  · exact .inl rfl
  · rcases ownStart_leaves args s with e | ⟨-, -, e⟩ <;> rw [e]
    · exact .inl rfl
    · exact .inr rfl

theorem stop_aqs (e : exec .stop s = .next t) : t.aqs.run = s.aqs.run ∧
    (t.aqs.state = s.aqs.state ∨ t.aqs.state = .idle ∨ (t.aqs.state = .draining ∧ s.aqs.state = .running)) := by
  refine next_meets (R := fun s t => t.aqs.run = s.aqs.run ∧
    (t.aqs.state = s.aqs.state ∨ t.aqs.state = .idle ∨ (t.aqs.state = .draining ∧ s.aqs.state = .running))) ?_ e
  rcases dealWith_aqs (code := 0x41) (lengthOk := argCount 0) (inClosed := false) ownStop s with h | ⟨args, h⟩ <;> rw [h]
  · exact ⟨rfl, .inl rfl⟩
  · refine ⟨?_, stopRun_state s⟩
    change (stopRun s).aqs.run = s.aqs.run
    rcases stopRun_leaves s with e | ⟨-, -, e⟩ | ⟨-, -, e⟩ <;> rw [e]
    · exact (enterIdle_calm _ s).run
    · rfl

/-- Only START begins a run, and only STOP in RUNNING drains one. -/
theorem runsBegin (e : exec i s = .next t) :
    (t.aqs.state = .running → s.aqs.state ≠ .running → i = .start) ∧
    (t.aqs.run ≠ s.aqs.run →
      i = .start ∨ (t.aqs.run = 0 ∧ ((∃ r1 r0, i = .powerOn r1 r0) ∨ i = .startUpEnd ∨ i = .resetTakesEffect))) ∧
    (t.aqs.state = .draining → s.aqs.state ≠ .draining → i = .stop ∧ s.aqs.state = .running) := by
  by_cases hstart : i = .start
  · subst hstart
    refine ⟨fun _ _ => rfl, fun _ => .inl rfl, fun hd hn => ?_⟩
    rcases start_aqs e with h | h
    · exact absurd (h.symm.trans hd) hn
    · exact absurd (h.symm.trans hd) nofun
  by_cases hstop : i = .stop
  · subst hstop
    obtain ⟨hrun, hst⟩ := stop_aqs e
    refine ⟨fun hr hn => ?_, fun h => absurd hrun h, fun hd hn => ?_⟩
    all_goals rcases hst with h | h | ⟨h, h'⟩
    · exact absurd (h.symm.trans hr) hn
    · exact absurd (h.symm.trans hr) nofun
    · exact absurd (h.symm.trans hr) nofun
    · exact absurd (h.symm.trans hd) hn
    · exact absurd (h.symm.trans hd) nofun
    · exact ⟨rfl, h'⟩
  by_cases hreset : (∃ a b, i = .powerOn a b) ∨ i = .startUpEnd ∨ i = .resetTakesEffect
  · rcases reset_aqs hreset e with rfl | ⟨hrun, hidle⟩
    · exact ⟨fun h hn => absurd h hn, fun h => absurd rfl h, fun h hn => absurd h hn⟩
    · refine ⟨fun h _ => absurd (hidle.symm.trans h) nofun, fun _ => .inr ⟨hrun, hreset⟩,
        fun h _ => absurd (hidle.symm.trans h) nofun⟩
  · simp only [not_or, not_exists] at hreset
    obtain ⟨hrun, hst⟩ := exec_noRunBegins hstart hstop hreset.1 hreset.2.1 hreset.2.2 e
    have hkept : ∀ st, st ≠ .idle → st ≠ .halted → t.aqs.state = st → s.aqs.state = st := by
      intro st hi hh h
      rcases hst with h' | h' | h'
      · exact h'.symm.trans h
      · exact absurd (h.symm.trans h') hi
      · exact absurd (h.symm.trans h') hh
    exact ⟨fun h hn => absurd (hkept .running nofun nofun h) hn, fun h => absurd hrun h,
      fun h hn => absurd (hkept .draining nofun nofun h) hn⟩

/-! ## The tables while a segment fills (R90) -/

/-- A segment that is FILLING after a step was FILLING before it, and the active table and its generation are the same. -/
def TablesHeld (s t : State) : Prop :=
  0 < fillCount t → 0 < fillCount s ∧ t.sct.active = s.sct.active ∧ t.sct.generation = s.sct.generation

theorem TablesHeld.trans (h : TablesHeld s t) (k : TablesHeld t u) : TablesHeld s u := by
  intro hp
  obtain ⟨hpt, ha', hg'⟩ := k hp
  obtain ⟨hps, ha, hg⟩ := h hpt
  exact ⟨hps, ha'.trans ha, hg'.trans hg⟩

theorem TablesHeld.of_none (h : fillCount t = 0) : TablesHeld s t := fun hp => by omega

theorem TablesHeld.of_fill (hf : fillCount t = fillCount s) (ha : t.sct.active = s.sct.active)
    (hg : t.sct.generation = s.sct.generation) : TablesHeld s t := fun hp => ⟨hf ▸ hp, ha, hg⟩

theorem Steady.tablesHeld (h : Steady s t) : TablesHeld s t := .of_fill h.fill (by rw [h.sct]) (by rw [h.sct])

theorem Paced.tablesHeld (h : Paced s t) : TablesHeld s t := by
  have hf := fillCount_of_table h.table
  rcases h.tables with ⟨hs, -⟩ | h0
  · exact .of_fill hf (by rw [hs]) (by rw [hs])
  · exact .of_none (hf.trans h0)

theorem Entered.tablesHeld {st : AcqState} {r : AcqReason} (h : Entered st r s t) (hf : fillCount s = 0) : TablesHeld u t :=
  .of_none ((fillCount_of_table (by rw [h.segments])).trans hf)

theorem tables_meet : AcqMostMeet (fun s t => RunOk s → RunOk t ∧ TablesHeld s t) where
  same s t e hs := ⟨run_meet.same s t e hs, (acqSame_steady e).tablesHeld⟩
  trans _ _ _ e k hs := ⟨(k (e hs).1).1, (e hs).2.trans (k (e hs).1).2⟩
  flush credit s hs := ⟨run_meet.flush credit s hs, (flushReports_steady credit s).tablesHeld⟩
  tclear args s hs := ⟨run_meet.tclear args s hs, by
    rcases ownTclear_leaves args s with e | e <;> rw [e] <;> exact .of_fill rfl rfl rfl⟩
  tadd args s hs := ⟨run_meet.tadd args s hs, by
    rcases ownTadd_leaves args s with e | ⟨_, -, -, e⟩ <;> rw [e] <;> exact .of_fill rfl rfl rfl⟩
  tcommit args s hs := ⟨run_meet.tcommit args s hs, by
    rcases ownTcommit_leaves args s with e | ⟨-, e⟩ | ⟨hst, e⟩ <;> rw [e]
    · exact .of_fill rfl rfl rfl
    · exact .of_fill rfl rfl rfl
    · exact (switchTables_paced (hs.2.fillCount_zero (not_acquiring hst))).tablesHeld⟩
  rset args s hs := ⟨run_meet.rset args s hs, by
    obtain ⟨x, e⟩ := ownRset_leaves args s
    exact e ▸ (setTgm_steady x s).tablesHeld⟩
  ron args s hs := ⟨run_meet.ron args s hs, by
    obtain ⟨x, e⟩ := ownRon_leaves args s
    exact e ▸ (setTgm_steady x s).tablesHeld⟩
  roff args s hs := ⟨run_meet.roff args s hs, by
    obtain ⟨x, e⟩ := ownRoff_leaves args s
    exact e ▸ (setTgm_steady x s).tablesHeld⟩
  rarm args s hs := ⟨run_meet.rarm args s hs, by
    obtain ⟨x, e⟩ := ownRarm_leaves args s
    exact e ▸ (setTgm_steady x s).tablesHeld⟩
  cset args s hs := ⟨run_meet.cset args s hs, by
    rcases ownCset_leaves args s with e | ⟨_, -, -, e⟩ <;> rw [e] <;> exact .of_fill rfl rfl rfl⟩
  pset args s hs := ⟨run_meet.pset args s hs, by
    rcases ownPset_leaves args s with e | ⟨_, -, -, e⟩ <;> rw [e] <;> exact .of_fill rfl rfl rfl⟩
  start args s hs := ⟨run_meet.start args s hs, by
    rcases ownStart_leaves args s with e | ⟨-, -, e⟩ <;> rw [e] <;> exact .of_fill rfl rfl rfl⟩
  stop s hs := ⟨run_meet.stop s hs, by
    rcases stopRun_leaves s with e | ⟨-, hf, e⟩ | ⟨-, -, e⟩ <;> rw [e]
    · exact .of_fill rfl rfl rfl
    · exact (enterStopped_entered _ _ s).tablesHeld (fillingSegment_none_iff.mp hf)
    · exact .of_fill rfl rfl rfl⟩
  abort s hs := ⟨run_meet.abort s hs, by
    by_cases hst : s.aqs.state = .idle
    · rw [abortRun_idle hst]
      exact .of_fill rfl rfl rfl
    · exact (abortRun_entered hst).tablesHeld (fillCount_discardFilling .aborted hs.2.oneFilling)⟩
  force args s hs := ⟨run_meet.force args s hs, by
    rcases ownForce_leaves args s with e | ⟨-, e⟩ <;> rw [e] <;> exact .of_fill rfl rfl rfl⟩
  sfetch args s hs := ⟨run_meet.sfetch args s hs, by
    rcases ownSfetch_leaves args s with e | e <;> rw [e] <;> exact .of_fill rfl rfl rfl⟩
  sdrop args s hs := ⟨run_meet.sdrop args s hs, by
    rcases ownSdrop_leaves args s with e | ⟨d, hd, hst, e⟩ <;> rw [e]
    · exact .of_fill rfl rfl rfl
    · refine (discardFirst_steady _ s fun x hx => ?_).tablesHeld
      cases hd.symm.trans hx
      exact complete_not_filling hst⟩
  release n s hs := ⟨run_meet.release n s hs, (releaseSegment_steady n s).tablesHeld⟩
  deliver n s e hs := ⟨run_meet.deliver n s e hs, (startDelivery_steady n s).tablesHeld⟩
  report n pos d s e1 e2 e3 hs := ⟨run_meet.report n pos d s e1 e2 e3 hs, (queueSegmentReport_steady n pos d s).tablesHeld⟩
  tick s hs := ⟨run_meet.tick s hs, by
    rcases paceTickStep_paced s with e | ⟨v, hv, e⟩
    · exact e.tablesHeld
    · exact e ▸ hv.tablesHeld.trans (missedTick_steady v).tablesHeld⟩
  pulse s hs := ⟨run_meet.pulse s hs, by
    rcases pulseExpiryStep_leaves s with e | e <;> rw [e] <;> exact .of_fill rfl rfl rfl⟩

/-- The table in force on a record's route: nothing else is asked of the segments. -/
def tableInForce (active : List ScanEntry) (generation : Nat) : Discipline where
  route s := s.sct.active = active ∧ s.sct.generation = generation
  kept s := s.sct.active = active ∧ s.sct.generation = generation
  done _ := True
  closed _ := True
  waiting _ := True
  placed _ := True
  opened _ := True
  checked _ := True
  settled _ := True
  route_kept _ h := h
  kept_done _ _ := trivial
  route_same _ _ h hs := ⟨h.active.trans hs.1, h.generation.trans hs.2⟩
  route_ring _ _ _ h _ _ hs := h ▸ hs
  done_kept _ _ _ _ _ := trivial
  waiting_starved _ _ _ := trivial
  waiting_fits _ _ _ _ := trivial
  waiting_grows _ _ _ _ := trivial
  placed_listed _ _ _ := trivial
  placed_extended _ _ _ _ := trivial
  placed_counted _ _ _ := trivial
  opened_listed _ _ _ := trivial
  opened_extended _ _ _ _ := trivial
  opened_checked _ _ := trivial
  checked_closes _ _ _ _ := trivial
  checked_goesOn _ _ _ := trivial
  settled_halts _ _ := trivial
  opens_ring _ _ _ _ _ _ := trivial
  opens_page _ _ _ _ _ _ := trivial
  opens_lost _ _ _ _ _ _ := trivial

/-- A route leaves the table in force, or no segment FILLING. -/
theorem routeRecord_tables {c : Completion} {e : ScanEntry} {q : Cvp} (hc : Completed c e q s) (hs : RunOk s)
    (hp : 0 < fillCount (routeRecord c e (s.setCvp q))) :
    (routeRecord c e (s.setCvp q)).sct.active = s.sct.active ∧
      (routeRecord c e (s.setCvp q)).sct.generation = s.sct.generation := by
  have hfills : Fills (fun _ => True) (fun _ => True) s := ⟨fun _ _ _ => trivial, fun _ _ _ => trivial⟩
  obtain ⟨v, hv, he⟩ := (tableInForce s.sct.active s.sct.generation).routeRecord_ends hc hs
    (fun _ => .inl ⟨hfills.of_table rfl, rfl, rfl⟩) (fun _ => ⟨hfills, rfl, rfl⟩)
  rw [he] at hp ⊢
  obtain ⟨hpv, ha, hg⟩ := (continuePacing_paced _ _ v).tablesHeld hp
  rcases hv with ⟨-, hva, hvg⟩ | ⟨hn, -⟩
  · exact ⟨ha.trans hva, hg.trans hvg⟩
  · have h0 := fillingSegment_none_iff.mp hn.fillingSegment_none
    omega

theorem resetBlocks_fillCount (power : Power) (rate : LinkRate) (slots : SlotMem) (s : State) :
    fillCount (resetBlocks power rate slots s) = 0 := rfl

/-- The active table and its generation are the same if a segment is FILLING after. -/
def SameTables (s t : State) : Prop :=
  0 < fillCount t → t.sct.active = s.sct.active ∧ t.sct.generation = s.sct.generation

/-- A step after which a segment is still FILLING leaves the table in force. -/
theorem exec_tables (hs : RunOk s) (h : 0 < fillCount s) (e : exec i s = .next t) (hp : 0 < fillCount t) :
    t.sct.active = s.sct.active ∧ t.sct.generation = s.sct.generation := by
  by_cases hi : Special i
  · rcases hi with ⟨a, b, rfl⟩ | rfl | rfl | ⟨v, o, g, rfl⟩ | rfl | rfl | rfl
    · cases e
      exact absurd hp (Nat.lt_irrefl 0)
    · refine next_meets (R := SameTables) ?_ e hp
      unfold startUpEndStep
      split
      · exact fun hp => absurd hp (Nat.lt_irrefl 0)
      · exact fun _ => ⟨rfl, rfl⟩
    · refine next_meets (R := SameTables) ?_ e hp
      unfold resetTakesEffectStep
      split
      · exact fun hp => absurd hp (Nat.lt_irrefl 0)
      · exact fun _ => ⟨rfl, rfl⟩
    · rcases answer_cases e with (rfl | rfl) | ⟨c, x, p, hc, rfl⟩
      · exact ⟨rfl, rfl⟩
      · exact ⟨rfl, rfl⟩
      · exact routeRecord_tables hc hs hp
    · rcases timeout_cases e with rfl | ⟨c, x, p, hc, rfl⟩
      · exact ⟨rfl, rfl⟩
      · exact routeRecord_tables hc hs hp
    · cases e
      exact ⟨rfl, rfl⟩
    · cases e
      exact ⟨rfl, rfl⟩
  · exact ((tables_meet.most.exec hi e hs).2 hp).2

/-! ## The generation named (R24, R90, R92) -/

theorem generationNamed_iff : GenerationNamed s ↔
    Fills (fun _ => True) (fun d => d.generation = s.sct.generation ∧ d.preTaken + d.postTaken ≤ s.aqs.sinceSwitch) s := by
  constructor
  · exact fun h => ⟨fun d hd hf => h d hd (isFilling_state hf), fun _ _ _ => trivial⟩
  · exact fun h d hd hst => h.filling d hd (by simp [isFilling, hst])

theorem generationNamed_of_none (h : fillCount s = 0) : GenerationNamed s :=
  generationNamed_iff.mpr (NoneFills.any ((Fills.none (C := fun _ => True) (φ := fun _ => True)
    ⟨fun _ _ _ => trivial, fun _ _ _ => trivial⟩ (fillingSegment_none_iff.mpr h))))

theorem generationNamed_paced (h : Paced s t) (hs : GenerationNamed s) : GenerationNamed t := by
  rcases h.tables with ⟨hsct, hn⟩ | h0
  · rw [generationNamed_iff, hsct, hn]
    exact (generationNamed_iff.mp hs).of_table h.table
  · exact generationNamed_of_none ((fillCount_of_table h.table).trans h0)

theorem generations_ends {g k : Nat} (h : (generations g k).Ends s) : GenerationNamed s := by
  rcases h with ⟨hf, hg, hk⟩ | ⟨hf, -⟩
  · rw [generationNamed_iff, hg, hk]
    exact hf
  · exact generationNamed_of_none (fillingSegment_none_iff.mp hf.fillingSegment_none)

theorem generation_kept : SegmentsKept GenerationNamed where
  level s t h hs := by
    rw [generationNamed_iff, h.generation, h.since]
    refine ⟨fun x hx hf => ?_, fun _ _ _ => trivial⟩
    obtain ⟨d, hd, hsame, he⟩ := h.segments x hx
    rw [he]
    exact (generationNamed_iff.mp hs).filling d hd (hsame.symm.trans hf)
  paced _ _ := generationNamed_paced
  resets power rate slots s := generationNamed_of_none (resetBlocks_fillCount power rate slots s)
  entered st r s t h h0 _ := generationNamed_of_none ((fillCount_of_table (by rw [h.segments])).trans h0)
  settings s c _ hs := hs
  route c e q s hc hrun hs := by
    have hf := generationNamed_iff.mp hs
    cases hd : e.discard with
    | true =>
      obtain ⟨v, hv, he⟩ := (generations s.sct.generation s.aqs.sinceSwitch).routeRecord_ends hc hrun
        (fun _ => .inl ⟨hf.of_table rfl, rfl, rfl⟩) (fun h => by simp [hd] at h)
      exact he ▸ generationNamed_paced (continuePacing_paced _ _ v) (generations_ends hv)
    | false =>
      obtain ⟨v, hv, he⟩ := (generations s.sct.generation (s.aqs.sinceSwitch + 1)).routeRecord_ends hc hrun
        (fun h => by simp [hd] at h) (fun _ => ⟨hf.imp fun d h => ⟨h.1, Nat.lt_succ_of_le h.2⟩, Nat.succ_pos _, rfl, rfl⟩)
      exact he ▸ generationNamed_paced (continuePacing_paced _ _ v) (generations_ends hv)

/-- Settles O51: only the owners of START and STOP and the resets change the run otherwise than by ending it; a switch is
made with no segment FILLING; and the discipline `generations` bounds a segment's records along the route. -/
theorem runsBeginAndTablesSwitchOnlyWhereAllowed : Obligations.RunsBeginAndTablesSwitchOnlyWhereAllowed := by
  refine ⟨fun i s t e => runsBegin e, fun i s t hr hp hf e hf' => ?_, generation_kept.keeps⟩
  exact exec_tables ⟨hp, hr⟩ (fillingSegment_isSome_iff.mp hf) e (fillingSegment_isSome_iff.mp hf')

end Sys2Proof.Machine

/-! SUPPORT. No step stops: the entry of the request in flight is in the active copy, and a report that is sent names a
segment in use. -/

namespace Sys2Proof.Machine

variable {s t : State}

/-- A completion finds its entry (R113). -/
theorem route_answers {c : Completion} (h : c.request.entry < s.sct.active.length) : ∃ t, route c s = .next t := by
  obtain ⟨e, he⟩ : ∃ e, s.sct.active[c.request.entry]? = some e := ⟨_, List.getElem?_eq_getElem h⟩
  exact ⟨routeRecord c e s, by simp only [route, he]⟩

theorem execConverterAnswer_answers (hp : PacingShape s) (v : Int) (o : Bool) (tag : Nat) :
    ∃ t, execConverterAnswer v o tag s = .next t := by
  unfold execConverterAnswer
  split
  · exact ⟨_, rfl⟩
  · split
    · exact ⟨_, rfl⟩
    · next q hq =>
      split
      · exact route_answers (hp.entry q hq)
      · exact ⟨_, rfl⟩

theorem execConversionTimeout_answers (hp : PacingShape s) : ∃ t, execConversionTimeout s = .next t := by
  unfold execConversionTimeout
  split
  · next q _ hq _ => exact route_answers (hp.entry q hq)
  · exact ⟨_, rfl⟩

/-- The segment that a report refers to is in use (R128). -/
theorem reportPayload_answers {r : Report} (h : ∀ n, refOf r = some n → InDelivery s n) : ∃ p, reportPayload s r = some p := by
  have hfound : ∀ n, refOf r = some n → ∃ d, segmentNumbered n s = some d := by
    intro n hn
    obtain ⟨d, hd, hnum, -⟩ := h n hn
    exact Option.isSome_iff_exists.mp (List.find?_isSome.mpr ⟨d, hd, by simp [hasNumber, hnum]⟩)
  cases r with
  | event e => exact ⟨_, rfl⟩
  | segment x =>
    cases x with
    | head n =>
      obtain ⟨d, hd⟩ := hfound n rfl
      exact ⟨_, by simp only [reportPayload, hd]; rfl⟩
    | data n c page first last =>
      obtain ⟨d, hd⟩ := hfound n rfl
      exact ⟨_, by simp only [reportPayload, hd]; rfl⟩
    | tail n =>
      obtain ⟨d, hd⟩ := hfound n rfl
      exact ⟨_, by simp only [reportPayload, hd]; rfl⟩

/-- The report offered again is outstanding (R132). -/
theorem offerReport_outstanding {session : Session} {q : Rpe} {m : Nat} {r : Report}
    (h : offerReport session q = .retransmission m r) : (m, r) ∈ q.outstanding := by
  obtain ⟨rfl, hm⟩ := offerReport_retransmission h
  simp only [offerReport, hm] at h
  split at h
  · next x hx =>
    cases h
    have he : x.1 = m := by simpa using List.find?_some hx
    exact he ▸ List.mem_of_find?_eq_some hx
  · cases h

theorem sendReport_answers (hr : ReferencesHold s) : ∃ t, sendReport s = .next t := by
  unfold sendReport
  split
  · exact ⟨_, rfl⟩
  · next m r h =>
    obtain ⟨p, hp⟩ := reportPayload_answers (s := s) (r := r)
      (hr.named r (List.mem_append_left _ (List.mem_map.mpr ⟨_, offerReport_outstanding h, rfl⟩)))
    exact ⟨_, by rw [hp]⟩
  · next r h =>
    obtain ⟨-, -, rest, hq, -⟩ := offerReport_first h
    obtain ⟨p, hp⟩ := reportPayload_answers (s := s) (r := r) (hr.named r (List.mem_append_right _ (by rw [hq]; simp)))
    exact ⟨_, by rw [hp]⟩

theorem chooseFrame_answers (hr : ReferencesHold s) : ∃ t, chooseFrame s = .next t := by
  unfold chooseFrame
  split
  · exact ⟨_, rfl⟩
  · split
    · exact ⟨_, rfl⟩
    · exact sendReport_answers hr

/-- Every command answers a next state in a state that meets the invariants. -/
theorem exec_answers (hp : PacingShape s) (hr : ReferencesHold s) (i : Instr) : ∃ t, exec i s = .next t := by
  cases i
  case converterAnswer v o tag => exact execConverterAnswer_answers hp v o tag
  case conversionTimeout => exact execConversionTimeout_answers hp
  case transmitFrameStart =>
    change ∃ t, execTransmitFrameStart s = .next t
    unfold execTransmitFrameStart
    split
    · exact chooseFrame_answers hr
    · exact ⟨_, rfl⟩
  case frameEnd =>
    change ∃ t, execFrameEnd s = .next t
    unfold execFrameEnd
    split
    · exact ⟨_, rfl⟩
    · split
      · exact ⟨_, rfl⟩
      · exact chooseFrame_answers (s := s.setLki { s.lki with tx := none }) { hr with }
  case receivedByte b =>
    change ∃ t, execReceivedByte b s = .next t
    unfold execReceivedByte
    split <;> exact ⟨_, rfl⟩
  case lineBreak =>
    change ∃ t, execLineBreak s = .next t
    unfold execLineBreak
    split
    · exact ⟨_, rfl⟩
    · split <;> exact ⟨_, rfl⟩
  all_goals exact ⟨_, rfl⟩

/-- Settles O52: the entry of the request in flight is in the active copy, and every report in a queue names a segment in
use. -/
theorem noStepStops : Obligations.NoStepStops := by
  intro s hp hr
  unfold step
  split
  · exact ⟨_, rfl⟩
  · next i rest _ => exact exec_answers (s := s.setPending rest) { hp with } { hr with } i

end Sys2Proof.Machine

/-! SUPPORT. Displacement in the words of the manual; the conditions and the moves of one rule. -/

namespace Sys2Proof.Machine

variable {s t : State} {d : Descriptor} {p : Descriptor → Bool}

/-! ## Displacement (R40, R41) -/

theorem discardFirst_sgm (r : DropReason) (h : s.sgm.table.find? p = some d) :
    (discardFirst p r s).sgm = { s.sgm with table := s.sgm.table.eraseP p } := by
  simp only [discardFirst, h, returnPages_eq]
  rfl

theorem not_mayBeDisplaced_iff {priority : Nat} {forPage : Bool} : ¬ MayBeDisplaced priority forPage s d ↔
    d.state ≠ .complete ∨ d.number ∈ s.rpe.fetch ∨ priority ≤ d.primaryPriority ∨ (forPage = true ∧ d.pages = []) := by
  simp only [MayBeDisplaced, not_and_or, not_not, Classical.not_imp, not_lt]

/-- The oldest segment that may be displaced is discarded. -/
theorem displaceOne_oldest {priority : Nat} {forPage : Bool} {before after : List Descriptor}
    (ht : s.sgm.table = before ++ d :: after) (hd : MayBeDisplaced priority forPage s d)
    (hb : ∀ x ∈ before, ¬ MayBeDisplaced priority forPage s x) :
    ∃ u, displaceOne priority forPage s = some u ∧ Discarded d .displaced s u ∧
      u.sgm = { s.sgm with table := before ++ after } := by
  set p := displaceCandidate s.rpe.fetch priority forPage with hp
  have hpd : p d = true := (mayBeDisplaced_iff priority forPage s d).mpr hd
  have hpb : ∀ x ∈ before, ¬ p x = true := fun x hx h => hb x hx ((mayBeDisplaced_iff priority forPage s x).mp h)
  have hfind : s.sgm.table.find? p = some d := by
    rw [ht, List.find?_append, List.find?_eq_none.mpr hpb, Option.none_or, List.find?_cons_of_pos hpd]
  refine ⟨discardFirst p .displaced s, ?_, discardFirst_discarded .displaced hfind, ?_⟩
  · rw [displaceOne, if_pos]
    rw [List.any_eq_true]
    exact ⟨d, by simp [ht], hpd⟩
  · rw [discardFirst_sgm .displaced hfind, ht, List.eraseP_append_right _ hpb, List.eraseP_cons_of_pos hpd]

/-- Settles O50. -/
theorem displacementTakesTheOldest : Obligations.DisplacementTakesTheOldest := by
  intro priority forPage s
  constructor
  · intro before d after ht hst hf hpr hpages hb
    exact displaceOne_oldest ht ⟨hst, hf, hpr, hpages⟩ fun x hx => not_mayBeDisplaced_iff.mpr (hb x hx)
  · exact fun h => displaceOne_none fun x hx => not_mayBeDisplaced_iff.mpr (h x hx)

/-! ## The conditions (R53, R54, R61) -/

/-- The second threshold stands where the condition has one, above the first (R50). -/
theorem thresholdB_of_legal {f : RuleFields} (h : fieldsLegal f = true) (hc : f.condition = .inside ∨ f.condition = .outside) :
    ∃ b, f.thresholdB = some b ∧ f.thresholdA < b := by
  simp only [fieldsLegal, Bool.and_eq_true] at h
  rcases hc with hc | hc <;> simp only [hc] at h <;> cases hb : f.thresholdB with
  | none => simp [hb] at h
  | some b =>
    simp [hb] at h
    exact ⟨b, rfl, by omega⟩

/-- The parts of each condition (R54). -/
theorem conditionTable (f : RuleFields) (previous : Option Int) (x : Seen) (hl : fieldsLegal f = true) :
    (f.condition = .above ∨ f.condition = .rising →
      (levelPart f x.value x.line = true ↔ f.thresholdA ≤ x.value) ∧
      (clearPart f x = true ↔ x.value < f.thresholdA - f.hysteresis)) ∧
    (f.condition = .below ∨ f.condition = .falling →
      (levelPart f x.value x.line = true ↔ x.value ≤ f.thresholdA) ∧
      (clearPart f x = true ↔ f.thresholdA + f.hysteresis < x.value)) ∧
    (f.condition = .above ∨ f.condition = .below ∨ f.condition = .inside ∨ f.condition = .outside →
      (firingPart f previous x = true ↔ levelPart f x.value x.line = true)) ∧
    (f.condition = .rising →
      (firingPart f previous x = true ↔ (∃ p, previous = some p ∧ p < f.thresholdA) ∧ f.thresholdA ≤ x.value)) ∧
    (f.condition = .falling →
      (firingPart f previous x = true ↔ (∃ p, previous = some p ∧ f.thresholdA < p) ∧ x.value ≤ f.thresholdA)) ∧
    (f.condition = .inside → ∃ b, f.thresholdB = some b ∧ f.thresholdA < b ∧
      (levelPart f x.value x.line = true ↔ f.thresholdA ≤ x.value ∧ x.value ≤ b) ∧
      (clearPart f x = true ↔ x.value < f.thresholdA - f.hysteresis ∨ b + f.hysteresis < x.value)) ∧
    (f.condition = .outside → ∃ b, f.thresholdB = some b ∧ f.thresholdA < b ∧
      (levelPart f x.value x.line = true ↔ x.value < f.thresholdA ∨ b < x.value) ∧
      (clearPart f x = true ↔ f.thresholdA + f.hysteresis ≤ x.value ∧ x.value ≤ b - f.hysteresis)) ∧
    (f.condition = .external →
      (firingPart f previous x = true ↔ x.latch = true) ∧ (levelPart f x.value x.line = true ↔ x.line = true) ∧
      (clearPart f x = true ↔ x.line = false)) := by
  refine ⟨?above, ?below, ?level, ?rising, ?falling, ?inside, ?outside, ?external⟩
  case above => rintro (hc | hc) <;> simp [levelPart, clearPart, hc]
  case below => rintro (hc | hc) <;> simp [levelPart, clearPart, hc]
  case level => rintro (hc | hc | hc | hc) <;> simp [firingPart, hc]
  case rising =>
    intro hc
    cases previous <;> simp [firingPart, hc]
  case falling =>
    intro hc
    cases previous <;> simp [firingPart, hc]
  case inside =>
    intro hc
    obtain ⟨b, hb, hlt⟩ := thresholdB_of_legal hl (.inl hc)
    exact ⟨b, hb, hlt, by simp [levelPart, hc, hb], by simp [clearPart, hc, hb]⟩
  case outside =>
    intro hc
    obtain ⟨b, hb, hlt⟩ := thresholdB_of_legal hl (.inr hc)
    exact ⟨b, hb, hlt, by simp [levelPart, hc, hb], by simp [clearPart, hc, hb]⟩
  case external =>
    intro hc
    simp [firingPart, levelPart, clearPart, hc]

/-- A firing part that is met is a level part that is met (R54). -/
theorem levelPart_of_firingPart {f : RuleFields} {previous : Option Int} {x : Seen} (hl : fieldsLegal f = true)
    (hc : f.condition ≠ .external) (hf : firingPart f previous x = true) : levelPart f x.value x.line = true := by
  obtain ⟨habove, hbelow, hlevel, hrising, hfalling, -⟩ := conditionTable f previous x hl
  cases h : f.condition with
  | external => exact absurd h hc
  | above | below | inside | outside => exact (hlevel (by simp [h])).mp hf
  | rising => exact (habove (.inr h)).1.mpr ((hrising h).mp hf).2
  | falling => exact (hbelow (.inr h)).1.mpr ((hfalling h).mp hf).2

/-- The clear part is never met with the level part (R54). -/
theorem levelPart_of_clearPart {f : RuleFields} {x : Seen} (hl : fieldsLegal f = true) (hf : clearPart f x = true) :
    levelPart f x.value x.line = false := by
  obtain ⟨habove, hbelow, -, -, -, hinside, houtside, hexternal⟩ := conditionTable f none x hl
  rw [Bool.eq_false_iff]
  intro h
  cases hc : f.condition with
  | above | rising =>
    obtain ⟨hlevel, hclear⟩ := habove (by simp [hc])
    rw [hlevel] at h
    rw [hclear] at hf
    omega
  | below | falling =>
    obtain ⟨hlevel, hclear⟩ := hbelow (by simp [hc])
    rw [hlevel] at h
    rw [hclear] at hf
    omega
  | inside =>
    obtain ⟨b, -, hlt, hlevel, hclear⟩ := hinside hc
    rw [hlevel] at h
    rw [hclear] at hf
    omega
  | outside =>
    obtain ⟨b, -, hlt, hlevel, hclear⟩ := houtside hc
    rw [hlevel] at h
    rw [hclear] at hf
    omega
  | external =>
    obtain ⟨-, hlevel, hclear⟩ := hexternal hc
    rw [hlevel, hclear.mp hf] at h
    cases h

/-- RISING and FALLING fire on a crossing of A only (R54). -/
theorem firingPart_crossing {f : RuleFields} {x : Seen} (hc : f.condition = .rising ∨ f.condition = .falling) :
    firingPart f none x = false ∧ ∀ p, levelPart f p x.line = true → firingPart f (some p) x = false := by
  rcases hc with hc | hc <;> simp [firingPart, levelPart, hc] <;> omega

/-- Settles O47. -/
theorem conditionPartsAgree : Obligations.ConditionPartsAgree := by
  refine ⟨?table, ?agree, ?rearm⟩
  case table =>
    rintro f previous x a h hl rfl rfl
    obtain ⟨habove, hbelow, hlevel, hrising, hfalling, hinside, houtside, hexternal⟩ := conditionTable f previous x hl
    refine ⟨habove, hbelow, hlevel, hrising, hfalling, fun hc => ?_, fun hc => ?_, hexternal⟩
    · obtain ⟨b, hb, -, hlv, hcl⟩ := hinside hc
      exact ⟨b, hb, hlv, hcl⟩
    · obtain ⟨b, hb, -, hlv, hcl⟩ := houtside hc
      exact ⟨b, hb, hlv, hcl⟩
  case agree =>
    intro f previous x hl
    refine ⟨levelPart_of_firingPart hl, levelPart_of_clearPart hl, fun hc => (firingPart_crossing hc).1, ?_⟩
    rintro p rfl hc hp
    exact (firingPart_crossing hc).2 p hp
  case rearm =>
    intro line r
    refine ⟨fun hc => ?_, fun hc hp => ?_, fun hc p hp => ?_⟩ <;> simp [levelAtLast, *]

/-! ## One rule (R56 to R60) -/

/-- A rule in OFF or on another channel is left (R52). -/
theorem evaluateRule_unseen {channel : Nat} {x : Seen} {r : Rule} (h : sees channel r = false) :
    evaluateRule channel x r = r := by simp only [evaluateRule, h, Bool.false_eq_true, if_false]

/-- A rule that fires (R59). -/
theorem evaluateRule_fired {channel : Nat} {x : Seen} {r : Rule} (hs : sees channel r = true) (h : fires x r = true) :
    evaluateRule channel x r =
      { r with state := .fired, progress := 0, fireCount := satAdd Config.counterMax r.fireCount 1,
               previous := nextPrevious x r } := by simp only [evaluateRule, hs, h, if_true]

/-- A rule that sees a record and does not fire (R57, R58, R60). -/
theorem evaluateRule_moved {channel : Nat} {x : Seen} {r : Rule} (hs : sees channel r = true) (h : fires x r = false) :
    evaluateRule channel x r =
      { r with state := (moved x r).1, progress := (moved x r).2, previous := nextPrevious x r } := by
  simp only [evaluateRule, hs, h, if_true, Bool.false_eq_true, if_false]

/-- Settles O46: a rule that sees the record fires on it, or moves. -/
theorem ruleMovesOnARecord : Obligations.RuleMovesOnARecord := by
  rintro channel x r after rfl
  constructor
  · intro h
    refine evaluateRule_unseen ?_
    rcases h with h | ⟨hc, hch⟩
    · simp [sees, h]
    · simp [sees, hc, hch]
  · intro hoff hsees
    have hs : sees channel r = true := by simpa [sees, hoff] using hsees
    refine ⟨?fields, ?previous, ?armed, ?waits, ?counts, ?fails, ?fired⟩
    case fields => cases hf : fires x r <;> simp [evaluateRule_fired, evaluateRule_moved, hs, hf]
    case previous => cases hf : fires x r <;> simp [evaluateRule_fired, evaluateRule_moved, hs, hf, nextPrevious]
    case armed =>
      intro hst hp
      constructor
      · intro hq
        rw [evaluateRule_fired hs (by simp [fires, hst, hp, hq])]
        exact ⟨rfl, rfl, rfl⟩
      · intro hq
        rw [evaluateRule_moved hs (by simp [fires, hst, hq])]
        simp [moved, hst, hp]
    case waits =>
      intro hst hp
      rw [evaluateRule_moved hs (by simp [fires, hst, hp])]
      simp [moved, hst, hp]
    case counts =>
      intro hst hp
      constructor
      · intro hq
        rw [evaluateRule_fired hs (by simp [fires, hst, hp, hq])]
        exact ⟨rfl, rfl, rfl⟩
      · intro hq
        rw [evaluateRule_moved hs (by simp [fires, hst, hp, hq])]
        simp [moved, hst, hp]
    case fails =>
      intro hst hp
      rw [evaluateRule_moved hs (by simp [fires, hst, hp])]
      simp [moved, hst, hp]
    case fired =>
      intro hst
      rw [evaluateRule_moved hs (by simp [fires, hst])]
      refine ⟨rfl, fun ha hc => by simp [moved, hst, ha, hc], ?_⟩
      rintro (ha | hc)
      · simp [moved, hst, ha]
      · simp [moved, hst, hc]

end Sys2Proof.Machine

/-! SUPPORT. The transmitter's choice: a notice, then the oldest reply, then a report, which is sent for the first time or
again. -/

namespace Sys2Proof.Machine

variable {i : Instr} {s t : State}

/-- The line without a frame. -/
def lineFree (s : State) : State := s.setLki { s.lki with tx := none }

/-- Where the transmitter chooses, no frame is on the line any more (R160, R172). -/
theorem CanChoose.exec_eq (h : CanChoose i s) : exec i s = chooseFrame (lineFree s) := by
  rcases h with ⟨rfl, htx, hdue⟩ | ⟨rfl, frame, htx, hreset⟩
  · have hs : lineFree s = s := by
      rw [lineFree, ← htx]
      rfl
    rw [hs]
    exact if_pos ⟨htx, hdue⟩
  · have hno : sendingResetReply s = false := by
      rw [Bool.eq_false_iff]
      intro he
      obtain ⟨hhold, tag, fields, bytes, hreply⟩ := sendingResetReply_iff.mp he
      obtain rfl := Option.some.inj (htx.symm.trans hreply)
      exact hreset hhold tag fields rfl
    change execFrameEnd s = _
    rw [execFrameEnd, if_neg (by simp [htx]), if_neg (by simp [hno]), lineFree]

theorem reportPayload_lineFree (s : State) (r : Report) : reportPayload (lineFree s) r = reportPayload s r := by
  cases r with
  | event _ => rfl
  | segment x => cases x <;> rfl

/-- Nothing is offered outside OPEN, and in OPEN with no go-back due and nothing pending, no room or no credit (R132). -/
theorem offerReport_nothing {session : Session} {r : Rpe}
    (h : session ≠ .open ∨ (r.resend = none ∧ (r.queue = [] ∨ 16 ≤ r.outstanding.length ∨ r.credit = 0))) :
    offerReport session r = .nothing := by
  cases session with
  | closed => rfl
  | stalled => rfl
  | _ =>
    obtain ⟨hr, hq⟩ := h.resolve_left (fun hne => hne rfl)
    simp only [offerReport, hr, offerFirst]
    split
    · rfl
    · next p rest he =>
      refine if_neg ?_
      rintro ⟨hw, hc⟩
      rcases hq with hq | hq | hq
      · exact absurd (hq.symm.trans he) nofun
      · exact absurd hw (Nat.not_lt.mpr hq)
      · omega

theorem chooseFrame_notice {n : Notice} (h : s.lki.notice = some n) :
    chooseFrame s = .next { s with lki := { s.lki with
      notice := none, tx := some ⟨.notice n, frameBytes 0x83 0 [byte1 n.reason.code, n.tag]⟩ } } := by
  simp only [chooseFrame, h]
  rfl

theorem chooseFrame_reply {r : Reply} {rest : List Reply} (hn : s.lki.notice = none) (h : s.lki.replies = r :: rest) :
    chooseFrame s = .next { s with lki := { s.lki with
      replies := rest, tx := some ⟨.reply r, frameBytes 0x81 r.tag (r.code :: byte1 r.result.code :: r.fields)⟩ } } := by
  simp only [chooseFrame, hn, h]
  rfl

theorem chooseFrame_report (hn : s.lki.notice = none) (hr : s.lki.replies = []) : chooseFrame s = sendReport s := by
  simp only [chooseFrame, hn, hr]

/-- With no notice and no reply waiting, a report is sent if one is offered (R160). -/
theorem CanChoose.report (h : CanChoose i s) (hn : s.lki.notice = none) (hr : s.lki.replies = []) :
    exec i s = sendReport (lineFree s) := h.exec_eq.trans (chooseFrame_report (s := lineFree s) hn hr)

/-- Settles O33: a notice, else the oldest reply, else what the report engine offers. -/
theorem transmitterChoosesByClass : Obligations.TransmitterChoosesByClass := by
  refine ⟨fun s h => if_neg fun hc => h hc.1, fun s h => if_pos h, fun i s hc => ?_⟩
  refine ⟨fun n hn => hc.exec_eq.trans (chooseFrame_notice (s := lineFree s) hn),
    fun r rest hn hr => hc.exec_eq.trans (chooseFrame_reply (s := lineFree s) hn hr), fun hn hr ho => ?_⟩
  have hoffer : offerReport (lineFree s).lki.session (lineFree s).rpe = .nothing := offerReport_nothing ho
  rw [hc.report hn hr, sendReport, hoffer]
  rfl

/-- A first transmission from a full queue lets the LOST report in (R131, R133). -/
theorem rpeFirstSent_eq {q : Rpe} {r : Report} {rest : List Report} (hq : q.queue = r :: rest) (hl : q.queue.length ≤ 48) :
    rpeFirstSent r q = { q with
      queue := if 0 < q.lost then rest ++ [.event (.lost q.lost)] else rest,
      lost := 0, outstanding := q.outstanding ++ [(q.nextSeq, r)], nextSeq := (q.nextSeq + 1) % 256,
      credit := q.credit - 1 } := by
  have hfits : rest.length < Config.pendingPlaces := by
    rw [hq, List.length_cons] at hl
    exact hl
  simp only [rpeFirstSent, rpeQueueLost, hq, List.tail_cons, eventFits, decide_eq_true hfits, and_true]
  split
  · rfl
  · next h =>
    have h0 : q.lost = 0 := by omega
    rw [h0]
    rfl

theorem offerReport_head {r : Rpe} {p : Report} {rest : List Report} (hm : r.resend = none) (hq : r.queue = p :: rest)
    (hw : r.outstanding.length < 16) (hc : 1 ≤ r.credit) : offerReport .open r = .first p := by
  simp only [offerReport, hm, offerFirst, hq]
  exact if_pos ⟨hw, hc⟩

theorem find_marked {m : Nat} {r : Report} {before after : List (Nat × Report)} (hb : ∀ x ∈ before, x.1 ≠ m) :
    (before ++ (m, r) :: after).find? (fun x => decide (x.1 = m)) = some (m, r) := by
  rw [List.find?_append, List.find?_eq_none.mpr (fun x hx => by simpa using hb x hx), Option.none_or,
    List.find?_cons_of_pos (by simp)]

theorem seqAfter_marked {m : Nat} {r : Report} {before after : List (Nat × Report)} (hb : ∀ x ∈ before, x.1 ≠ m) :
    seqAfter m (before ++ (m, r) :: after) = after.head?.map Prod.fst := by
  induction before with
  | nil => simp [seqAfter]
  | cons x xs ih =>
    rw [List.cons_append, seqAfter, if_neg (hb x (by simp)), ih fun y hy => hb y (by simp [hy])]

/-- Settles O34: the head of the queue is offered, or the marked report again; its segment is in use, so its payload can be
read. -/
theorem reportsAreSentAndSentAgain : Obligations.ReportsAreSentAndSentAgain := by
  refine ⟨?first, ?again⟩
  case first =>
    intro i s r rest href hlen hc hn hr ho hm hq hw hcr
    obtain ⟨p, hp⟩ := reportPayload_answers (s := s) (r := r) (href.named r (List.mem_append_right _ (by simp [hq])))
    refine ⟨p, hp, ?_⟩
    have hoffer : offerReport (lineFree s).lki.session (lineFree s).rpe = .first r := by
      change offerReport s.lki.session s.rpe = _
      rw [ho]
      exact offerReport_head hm hq hw hcr
    rw [hc.report hn hr, sendReport, hoffer]
    simp only [reportPayload_lineFree, hp]
    change Host.Outcome.next (startAckTimer s.rpe.outstanding.isEmpty
      (beginFrame _ _ ((lineFree s).setRpe (rpeFirstSent r s.rpe)))) = _
    rw [rpeFirstSent_eq hq hlen, startAckTimer]
    cases ho' : s.rpe.outstanding <;> rfl
  case again =>
    intro i s m r before after href hc hn hr ho hm hout hb
    obtain ⟨p, hp⟩ := reportPayload_answers (s := s) (r := r)
      (href.named r (List.mem_append_left _ (by simp [hout])))
    refine ⟨p, hp, ?_⟩
    have hoffer : offerReport (lineFree s).lki.session (lineFree s).rpe = .retransmission m r := by
      change offerReport s.lki.session s.rpe = _
      simp only [ho, offerReport, hm, hout, find_marked hb]
    rw [hc.report hn hr, sendReport, hoffer]
    simp only [reportPayload_lineFree, hp]
    change Host.Outcome.next (beginFrame _ _ ((lineFree s).setRpe (rpeRetransmitted m s.rpe))) = _
    have hnext : seqAfter m s.rpe.outstanding = after.head?.map Prod.fst := by rw [hout, seqAfter_marked hb]
    rw [rpeRetransmitted, hnext]
    rfl

end Sys2Proof.Machine

/-! SUPPORT. Acknowledgements: the distance of an ACK from the base, an ACK that does not advance, and one that removes
reports and releases segments in the order of their SEGEND reports. -/

namespace Sys2Proof.Machine

variable {s t : State} {n seq grant base d : Nat}

/-! ## The distance from the base (R135) -/

theorem ackBase_eq (s : State) : ackBase s.rpe = (s.rpe.outstanding.head?.map Prod.fst).getD s.rpe.nextSeq := rfl

/-- The distance is the one by which the number lies past the base, modulo 256. -/
theorem ackDistance_eq {r : Rpe} (hb : ackBase r = base) (hd : d < 256) (hs : seq = (base + d) % 256) :
    ackDistance r seq = d := by
  simp only [ackDistance, hb]
  omega

theorem exec_ack_eq {rest : List Accepted} (h : s.lki.accepted = .ack seq grant :: rest) :
    exec .ack s = .next (takeAck seq grant (s.setLki { s.lki with accepted := rest })) := by
  change Host.Outcome.next (ackStep s) = _
  simp only [ackStep, h]

theorem exec_ack_none (h : ∀ seq grant rest, s.lki.accepted ≠ .ack seq grant :: rest) : exec .ack s = .next s := by
  change Host.Outcome.next (ackStep s) = _
  unfold ackStep
  split
  · next seq grant rest he => exact absurd he (h seq grant rest)
  · rfl
  · rfl

theorem classify_bad {r : Rpe} (hd : ackDistance r seq = d) (hl : r.outstanding.length ≤ d) (h : d ≤ 127) :
    classify r seq = .bad := by
  rw [classify, hd, if_neg (Nat.not_lt.mpr hl), if_pos h]

theorem classify_stale {r : Rpe} (hd : ackDistance r seq = d) (hl : r.outstanding.length ≤ d) (h : 128 ≤ d) :
    classify r seq = .stale := by
  rw [classify, hd, if_neg (Nat.not_lt.mpr hl), if_neg (by omega)]

theorem classify_advancing {r : Rpe} (hd : ackDistance r seq = d) (hl : d < r.outstanding.length) :
    classify r seq = .advancing (d + 1) := by
  rw [classify, hd, if_pos hl]

/-- Settles O31: the number lies at or past the end of the outstanding list, seen from the base. -/
theorem badAndStaleAcksOnlyGrant : Obligations.BadAndStaleAcksOnlyGrant := by
  refine ⟨fun s seq grant base d rest h _ _ hb hd hs hl => ?_, fun s => exec_ack_none⟩
  have hdist : ackDistance (addGrant grant (s.setLki { s.lki with accepted := rest })).rpe seq = d :=
    ackDistance_eq hb.symm hd hs
  rw [exec_ack_eq h]
  constructor
  · intro h127
    simp only [takeAck, classify_bad hdist hl h127, raiseNotice_eq]
    rfl
  · intro h128
    simp only [takeAck, classify_stale hdist hl h128]
    rfl

/-! ## Releases (R45) -/

/-- The segment with a number is taken out of a table of distinct numbers. -/
theorem eraseP_eq_filter {l : List Descriptor} {st : SegState} (hd : (l.map Descriptor.number).Nodup)
    (hf : ∃ x ∈ l, x.number = n ∧ x.state = st) : l.eraseP (isSegment st n) = l.filter (fun x => decide (x.number ≠ n)) := by
  induction l with
  | nil => rfl
  | cons y ys ih =>
    rw [List.map_cons, List.nodup_cons] at hd
    by_cases hy : y.number = n
    · have hrest : ∀ x ∈ ys, x.number ≠ n := fun x hx he => hd.1 (hy ▸ he ▸ List.mem_map_of_mem hx)
      obtain ⟨x, hx, hxn, hst⟩ := hf
      have hxy : x = y := by
        rcases List.mem_cons.mp hx with hx | hx
        · exact hx
        · exact absurd hxn (hrest x hx)
      subst hxy
      rw [List.eraseP_cons_of_pos (isSegment_iff.mpr ⟨hxn, hst⟩), List.filter_cons_of_neg (by simp [hxn]),
        List.filter_eq_self.mpr (fun z hz => by simpa using hrest z hz)]
    · have hne : isSegment st n y = false := by
        rw [Bool.eq_false_iff]
        exact fun h => hy (isSegment_iff.mp h).1
      obtain ⟨x, hx, hxn, hst⟩ := hf
      have hx' : x ∈ ys := (List.mem_cons.mp hx).resolve_left fun e => hy (e ▸ hxn)
      rw [List.eraseP_cons_of_neg (by simp [hne]), List.filter_cons_of_pos (by simpa using hy), ih hd.2 ⟨x, hx', hxn, hst⟩]

/-- A SENT segment is released: its pages return to the pool tail in page-list order. -/
theorem releaseSegment_sent (hd : (s.sgm.table.map Descriptor.number).Nodup)
    (hf : ∃ x ∈ s.sgm.table, x.number = n ∧ x.state = .sent) :
    ∃ x ∈ s.sgm.table, x.number = n ∧ releaseSegment n s = { s with
      sst := withReturn s.sgm.settings.lowWatermark x.pages s.sst,
      sgm := { s.sgm with table := s.sgm.table.filter (fun y => decide (y.number ≠ n)) } } := by
  obtain ⟨x, hx⟩ := Option.isSome_iff_exists.mp
    (List.find?_isSome.mpr (hf.elim fun x h => ⟨x, h.1, isSegment_iff.mpr h.2⟩))
  refine ⟨x, List.mem_of_find?_eq_some hx, (isSegment_iff.mp (List.find?_some hx)).1, ?_⟩
  have hx' : segmentIn .sent n s = some x := hx
  simp only [releaseSegment, hx', returnPages_eq, eraseP_eq_filter hd hf]
  rfl

/-- SENT segments are released one after another. -/
theorem releaseAll_sent {ns : List Nat} (hn : ns.Nodup) (hd : (s.sgm.table.map Descriptor.number).Nodup)
    (hf : ∀ n ∈ ns, ∃ x ∈ s.sgm.table, x.number = n ∧ x.state = .sent) :
    ∃ released : List Descriptor, released.map Descriptor.number = ns ∧ (∀ x ∈ released, x ∈ s.sgm.table) ∧
      releaseAll ns s = { s with
        sst := released.foldl (fun store x => withReturn s.sgm.settings.lowWatermark x.pages store) s.sst,
        sgm := { s.sgm with table := s.sgm.table.filter (fun x => decide (x.number ∉ ns)) } } := by
  induction ns generalizing s with
  | nil =>
    refine ⟨[], rfl, fun _ h => absurd h List.not_mem_nil, ?_⟩
    have hall : s.sgm.table.filter (fun x => decide (x.number ∉ ([] : List Nat))) = s.sgm.table := by simp
    rw [hall]
    rfl
  | cons n ns ih =>
    rw [List.nodup_cons] at hn
    obtain ⟨x, hx, hxn, he⟩ := releaseSegment_sent hd (hf n (by simp))
    rw [releaseAll, he]
    obtain ⟨released, hmap, hmem, hall⟩ := ih (s := { s with
      sst := withReturn s.sgm.settings.lowWatermark x.pages s.sst,
      sgm := { s.sgm with table := s.sgm.table.filter (fun y => decide (y.number ≠ n)) } }) hn.2
      (hd.sublist (List.Sublist.map _ (List.filter_sublist))) (fun m hm => by
        obtain ⟨y, hy, hyn, hst⟩ := hf m (by simp [hm])
        refine ⟨y, List.mem_filter.mpr ⟨hy, ?_⟩, hyn, hst⟩
        have hne : m ≠ n := fun e => hn.1 (e ▸ hm)
        simpa [hyn] using hne)
    refine ⟨x :: released, by simp [hxn, hmap], ?_, ?_⟩
    · intro y hy
      rcases List.mem_cons.mp hy with rfl | hy
      · exact hx
      · exact (List.mem_filter.mp (hmem y hy)).1
    · rw [hall]
      simp only [List.filter_filter, List.foldl_cons, List.mem_cons, not_or, Bool.decide_and, Bool.and_comm]

/-! ## Advancing acknowledgements (R136) -/

theorem segendOf_eq_some {r : Report} : segendOf r = some n ↔ r = .segment (.tail n) := by
  cases r with
  | event e => simp [segendOf]
  | segment r => cases r <;> simp [segendOf]

theorem mem_filterMap_segendOf {l : List (Nat × Report)} :
    n ∈ l.filterMap (fun x => segendOf x.2) ↔ .segment (.tail n) ∈ l.map Prod.snd := by
  simp only [List.mem_filterMap, List.mem_map, segendOf_eq_some]

/-- No two SEGEND reports name one segment. -/
theorem ReferencesHold.ended_nodup (h : ReferencesHold s) (k : Nat) :
    ((s.rpe.outstanding.take k).filterMap (fun x => segendOf x.2)).Nodup := by
  have hleft : (s.rpe.outstanding.map Prod.snd).Pairwise (fun a b => ∀ n, a = .segment (.tail n) → refOf b ≠ some n) :=
    (List.pairwise_append.mp h.endLast).1
  refine List.Pairwise.filterMap _ ?_ ((List.pairwise_map.mp hleft).sublist (List.take_sublist _ _))
  intro x y hxy n hn m hm he
  refine hxy n (segendOf_eq_some.mp hn) ?_
  rw [segendOf_eq_some.mp hm, he]
  rfl

/-- A segment whose SEGEND is queued or outstanding is SENT (R139). -/
theorem ReferencesHold.ended_sent (h : ReferencesHold s) (hn : .segment (.tail n) ∈ allReports s) :
    ∃ x ∈ s.sgm.table, x.number = n ∧ x.state = .sent := by
  obtain ⟨x, hx, hxn, hst | hst⟩ := h.named _ hn n rfl
  · obtain ⟨pos, hslot⟩ := h.sending x hx hst
    exact absurd (hxn ▸ hn) (h.slot _ _ hslot).2
  · exact ⟨x, hx, hxn, hst⟩

/-- The mark stays on its report, or goes to the oldest left. -/
theorem resendAfter_some (m : Nat) (left : List (Nat × Report)) :
    resendAfter (some m) left = if m ∈ left.map Prod.fst then some m else left.head?.map Prod.fst := by
  have hany : (left.any fun x => decide (x.1 = m)) = true ↔ m ∈ left.map Prod.fst := by simp
  simp only [resendAfter, hany]

theorem ackAdvanced_eq (left : Bool) (l : Lki) : ackAdvanced left l = { l with
    retry := 0
    ackTimer := if l.session = .open then (if left then some l.ackTimeout else none) else l.ackTimer } := by
  unfold ackAdvanced
  split <;> simp_all

/-- The timer restarts exactly when reports are left. -/
theorem timer_of_left {α : Type} {l : List α} {k : Nat} (h : k ≤ l.length) (v : Nat) :
    (if !(l.drop k).isEmpty then some v else none) = if l.length = k then none else some v := by
  by_cases hk : l.length = k
  · simp [hk]
  · have hne : (l.drop k).isEmpty = false := by
      rw [Bool.eq_false_iff]
      simp only [ne_eq, List.isEmpty_iff, List.drop_eq_nil_iff]
      omega
    simp [hne, hk]

/-- Settles O32: the acknowledged SEGEND reports name distinct SENT segments, and their releases follow one another. -/
theorem advancingAckReleasesSegments : Obligations.AdvancingAckReleasesSegments := by
  intro s seq grant base d rest _ href hfront _ hbase hd hs hl
  have hdist : ackDistance (addGrant grant (s.setLki { s.lki with accepted := rest })).rpe seq = d :=
    ackDistance_eq (base := base) (by
      change (s.rpe.outstanding.head?.map Prod.fst).getD s.rpe.nextSeq = base
      rw [hbase]
      rfl) hd hs
  have hmem : ∀ n ∈ (s.rpe.outstanding.take (d + 1)).filterMap (fun x => segendOf x.2),
      ∃ x ∈ s.sgm.table, x.number = n ∧ x.state = .sent := fun n hn => by
    refine href.ended_sent (List.mem_append_left _ ?_)
    exact (List.Sublist.map _ (List.take_sublist _ _)).subset (mem_filterMap_segendOf.mp hn)
  obtain ⟨released, hnumbers, hsub, hall⟩ := releaseAll_sent
    (s := withoutAcked (d + 1) (addGrant grant (s.setLki { s.lki with accepted := rest })))
    (href.ended_nodup (d + 1)) href.distinct hmem
  have hstep : exec .ack s = .next (
      let left := removeAcked (d + 1) (addGrant grant (s.setLki { s.lki with accepted := rest }))
      left.setLki (ackAdvanced (!left.rpe.outstanding.isEmpty) left.lki)) := by
    rw [exec_ack_eq hfront]
    simp only [takeAck, classify_advancing hdist hl]
  rw [removeAcked_eq, show (addGrant grant (s.setLki { s.lki with accepted := rest })).rpe.outstanding = s.rpe.outstanding from rfl,
    acknowledgedSegments_eq, hall] at hstep
  simp only [ackAdvanced_eq] at hstep
  refine ⟨_, hstep, rfl, rfl, rfl, rfl, rfl, rfl, rfl, fun m hm => ?_, fun hm => ?_, ?_, ?_, ⟨released, hnumbers, hsub, rfl⟩, rfl,
    rfl, rfl, rfl, rfl⟩
  · change resendAfter s.rpe.resend _ = _
    rw [hm]
    exact resendAfter_some m _
  · change resendAfter s.rpe.resend _ = _
    rw [hm]
    rfl
  · exact congrArg (fun timer => { s.lki with accepted := rest, retry := 0, ackTimer := timer })
      (show (if s.lki.session = .open then (if !(s.rpe.outstanding.drop (d + 1)).isEmpty then some s.lki.ackTimeout else none)
        else s.lki.ackTimer) = _ by rw [timer_of_left hl])
  · exact congrArg (fun table => { s.sgm with table := table })
      (List.filter_congr fun x _ => decide_eq_decide.mpr (not_congr mem_filterMap_segendOf))

end Sys2Proof.Machine

/-! SUPPORT. The payloads of the reports (R206): each is a layout of items, and its lists are blocks of one width. -/

namespace Sys2Proof.Machine

variable {s t : State} {d : Descriptor} {n i k : Nat}

/-! ## Layouts and blocks -/

theorem ReadsBack.of_subset {bytes : List Byte} {l m : List (Nat × Nat × Nat)} (hm : ReadsBack bytes m) (h : l ⊆ m) :
    ReadsBack bytes l := fun item hitem => hm item (h hitem)

/-- A layout from offset 0 with bytes behind it. -/
theorem readsBack_prefix {items : List (Nat × Nat × Nat)} (after : List Byte) (h : laidOut 0 items = true) :
    ReadsBack (layoutBytes items ++ after) items := readsBack_layout [] after h

theorem readsBack_whole {items : List (Nat × Nat × Nat)} (h : laidOut 0 items = true) : ReadsBack (layoutBytes items) items := by
  have hp := readsBack_prefix [] h
  rwa [List.append_nil] at hp

/-- Entry `i` of a list that is written in blocks of one width stands behind `i` blocks. -/
theorem flatMap_block {α : Type} {l : List α} {f : α → List Byte} {w : Nat} {x : α} (hw : ∀ y, (f y).length = w)
    (hi : l[i]? = some x) : ∃ before after, l.flatMap f = before ++ f x ++ after ∧ before.length = w * i := by
  induction l generalizing i with
  | nil => cases hi
  | cons y ys ih =>
    cases i with
    | zero =>
      cases hi
      exact ⟨[], ys.flatMap f, by simp, rfl⟩
    | succ i =>
      obtain ⟨before, after, he, hlen⟩ := ih hi
      exact ⟨f y ++ before, after, by simp [he], by simp [hw, hlen, Nat.mul_succ, Nat.add_comm]⟩

theorem flatMap_length {α : Type} {l : List α} {f : α → List Byte} {w : Nat} (hw : ∀ y, (f y).length = w) :
    (l.flatMap f).length = w * l.length := by
  induction l with
  | nil => rfl
  | cons y ys ih => simp [hw, ih, Nat.mul_succ, Nat.add_comm]

theorem leBytes_one (n : Nat) : leBytes 1 n = [byte1 n] := rfl

/-! ## The flags and the records -/

/-- The number that the flags byte holds (R203). -/
def flagsNumber (f : SegFlags) : Nat :=
  flagBit f.shortPre 0 + flagBit f.truncated 1 + flagBit f.extended 2 + flagBit f.limited 3 +
    flagBit f.overrun 4 + flagBit f.errsamp 5 + flagBit f.haltend 6

theorem toByte_eq (f : SegFlags) : f.toByte = byte1 (flagsNumber f) := rfl

theorem flags_bits (f : SegFlags) : (List.range 8).map f.toByte.getLsbD = segmentFlagBits f := by
  have h : ∀ a b c d e f g : Bool, (List.range 8).map (SegFlags.toByte ⟨a, b, c, d, e, f, g⟩).getLsbD =
      segmentFlagBits ⟨a, b, c, d, e, f, g⟩ := by decide
  exact h _ _ _ _ _ _ _

theorem secondaryBytes_length (x : Secondary) : (secondaryBytes x).length = 4 := rfl

theorem recordBytes_length (r : Record) : (recordBytes r).length = 4 := rfl

/-- A record is read back from its 4 bytes. -/
theorem recordBytes_reads (r : Record) (hlow : -32768 ≤ r.value) (hhigh : r.value ≤ 32767) (he : r.entry < 64)
    (hm : r.marker < 4) :
    ∃ b0 b1 b2 b3, recordBytes r = [b0, b1, b2, b3] ∧ signedOf [b0, b1] = r.value ∧ b2.toNat % 64 = r.entry ∧
      b2.toNat / 64 = r.marker ∧ b3.getLsbD 0 = r.err ∧ b3.getLsbD 1 = r.ovr ∧ b3.getLsbD 2 = r.hold ∧ b3.toNat < 8 := by
  have hflags : ∀ a b c : Bool, let b3 := byte1 (flagBit a 0 + flagBit b 1 + flagBit c 2)
      b3.getLsbD 0 = a ∧ b3.getLsbD 1 = b ∧ b3.getLsbD 2 = c ∧ b3.toNat < 8 := by decide
  obtain ⟨h0, h1, h2, h3⟩ := hflags r.err r.ovr r.hold
  have hb2 : (byte1 (r.entry % 64 + 64 * (r.marker % 4))).toNat = r.entry + 64 * r.marker := by
    simp only [byte1, BitVec.toNat_ofNat]
    omega
  exact ⟨_, _, _, _, rfl, signedOf_signedBytes hlow hhigh, by omega, by omega, h0, h1, h2, h3⟩

/-! ## The event reports -/

/-- Every byte of an event report in a layout: the items, and for TRIGGER its value at offset 10. -/
def eventLayout : EventReport → List (Nat × Nat × Nat)
  | .trigger rule tick entry value outcome segment =>
    [(0, 1, 0x01), (1, 1, rule), (2, 1, outcome.code), (3, 1, entry), (4, 6, tick), (10, 2, (BitVec.ofInt 16 value).toNat)] ++
      (segment.map (fun n => (12, 2, n))).toList
  | e => eventItems e

theorem eventPayload_eq (e : EventReport) : eventPayload e = layoutBytes (eventLayout e) := by
  cases e with
  | trigger rule tick entry value outcome segment => cases segment <;> rfl
  | _ => rfl

theorem eventLayout_laidOut (e : EventReport) : laidOut 0 (eventLayout e) = true := by
  cases e with
  | trigger rule tick entry value outcome segment => cases segment <;> rfl
  | _ => rfl

theorem eventItems_subset (e : EventReport) : eventItems e ⊆ eventLayout e := by
  cases e with
  | trigger rule tick entry value outcome segment =>
    intro z hz
    rcases List.mem_append.mp hz with hz | hz
    · exact List.mem_append_left _ (List.mem_append_left [(10, 2, (BitVec.ofInt 16 value).toNat)] hz)
    · exact List.mem_append_right _ hz
  | _ => exact fun _ h => h

/-! ## The segment reports -/

/-- The fields of SEGHEAD before its flags. -/
def headFront (d : Descriptor) : List (Nat × Nat × Nat) :=
  [(0, 1, 0x02), (1, 2, d.number), (3, 2, d.run), (5, 1, d.primaryRule), (6, 1, d.primaryPriority), (7, 6, d.triggerTick),
    (13, 1, d.triggerEntry), (14, 2, d.generation), (16, 2, d.preRequested), (18, 2, d.preTaken), (20, 2, d.postRequested),
    (22, 2, d.postTaken), (24, 2, d.maxLength)]

/-- The fields of SEGHEAD behind its flags. -/
def headBack (d : Descriptor) : List (Nat × Nat × Nat) :=
  [(27, 2, d.errCount), (29, 1, d.firstOffset), (30, 1, d.pages.length), (31, 1, d.secondary.length),
    (32, 1, d.secondaryOverflow)]

/-- Every byte of SEGHEAD before its secondary entries: the items, and the flags at offset 26. -/
def headLayout (d : Descriptor) : List (Nat × Nat × Nat) := headFront d ++ (26, 1, flagsNumber d.flags) :: headBack d

theorem headItems_eq (d : Descriptor) : headItems d = headFront d ++ headBack d := rfl

theorem segheadPayload_eq (d : Descriptor) :
    segheadPayload d = layoutBytes (headLayout d) ++ d.secondary.flatMap secondaryBytes := by
  simp only [segheadPayload, layoutBytes, headLayout, headFront, headBack, toByte_eq, leBytes_one, List.flatMap_cons,
    List.flatMap_nil, List.append_assoc, List.nil_append, List.cons_append, List.append_nil]
  rfl

theorem headItems_subset (d : Descriptor) : headItems d ⊆ headLayout d := by
  rw [headItems_eq]
  intro x hx
  rcases List.mem_append.mp hx with hx | hx
  · exact List.mem_append_left _ hx
  · exact List.mem_append_right _ (List.mem_cons_of_mem _ hx)

theorem headLayout_length (d : Descriptor) : (layoutBytes (headLayout d)).length = 33 := by
  simp only [layoutBytes, List.length_flatMap, leBytes_length, headLayout, headFront, headBack, List.cons_append, List.nil_append,
    List.map_cons, List.map_nil]
  rfl

theorem segheadPayload_length (d : Descriptor) : (segheadPayload d).length = 33 + 4 * d.secondary.length := by
  rw [segheadPayload_eq, List.length_append, flatMap_length secondaryBytes_length, headLayout_length]

theorem segheadPayload_flags (d : Descriptor) : (segheadPayload d).getD 26 0 = d.flags.toByte := by
  simp only [segheadPayload, leBytes, List.cons_append, List.nil_append, List.getD_cons_succ, List.getD_cons_zero]

theorem segheadPayload_reads (d : Descriptor) : ReadsBack (segheadPayload d) (headItems d) := by
  rw [segheadPayload_eq]
  exact (readsBack_prefix (items := headLayout d) _ rfl).of_subset (headItems_subset d)

theorem segheadPayload_secondary {x : Secondary} (h : d.secondary[i]? = some x) :
    ReadsBack (segheadPayload d) (secondaryItems i x) := by
  obtain ⟨before, after, he, hlen⟩ := flatMap_block secondaryBytes_length h
  rw [segheadPayload_eq, he, ← List.append_assoc, ← List.append_assoc]
  refine readsBack_layout (items := secondaryItems i x) (layoutBytes (headLayout d) ++ before) after ?_
  have hoffset : (layoutBytes (headLayout d) ++ before).length = 33 + 4 * i := by
    rw [List.length_append, hlen, headLayout_length]
  rw [hoffset]
  simp [secondaryItems, laidOut]
  omega

/-- Every byte of SEGEND: the items, and the flags at offset 7. -/
theorem segendPayload_eq (d : Descriptor) :
    segendPayload d = layoutBytes (tailItems d ++ [(7, 1, flagsNumber d.flags)]) := rfl

theorem segendPayload_reads (d : Descriptor) : ReadsBack (segendPayload d) (tailItems d) :=
  (readsBack_whole (items := tailItems d ++ [(7, 1, flagsNumber d.flags)]) rfl).of_subset (List.subset_append_left _ _)

theorem segdataPayload_eq (s : State) (d : Descriptor) (chunk page first last : Nat) :
    segdataPayload s d chunk page first last =
      layoutBytes (dataItems d chunk (last + 1 - first)) ++ (spanRecords s page first last).flatMap recordBytes := rfl

theorem segdataPayload_length (s : State) (d : Descriptor) (chunk page first last : Nat) :
    (segdataPayload s d chunk page first last).length = 6 + 4 * (last + 1 - first) := by
  rw [segdataPayload_eq, List.length_append, flatMap_length recordBytes_length, spanRecords, List.length_map, List.length_range]
  rfl

/-- Record `k` of the span stands in block `k` behind the header. -/
theorem segdataPayload_record (s : State) (d : Descriptor) (chunk page first last : Nat) (hk : k < last + 1 - first) :
    ((segdataPayload s d chunk page first last).drop (6 + 4 * k)).take 4 =
      recordBytes (slotRecord s (page * 32 + (first + k))) := by
  have hget : (spanRecords s page first last)[k]? = some (slotRecord s (page * 32 + (first + k))) := by
    rw [spanRecords, List.getElem?_map, List.getElem?_range hk]
    rfl
  obtain ⟨before, after, he, hlen⟩ := flatMap_block recordBytes_length hget
  have hoffset : (layoutBytes (dataItems d chunk (last + 1 - first)) ++ before).length = 6 + 4 * k := by
    rw [List.length_append, hlen]
    rfl
  rw [segdataPayload_eq, he, ← List.append_assoc, ← List.append_assoc, List.append_assoc _ (recordBytes _),
    List.drop_left' hoffset, List.take_left' (recordBytes_length _)]

/-- Settles O35. -/
theorem reportPayloadsHaveTheirForms : Obligations.ReportPayloadsHaveTheirForms := by
  refine ⟨fun s e => ⟨eventPayload e, rfl, ?_, ?_, ?_⟩, fun s n d hd => ⟨?_, ?_, ?_⟩, recordBytes_reads⟩
  · rw [eventPayload_eq]
    exact (readsBack_whole (eventLayout_laidOut e)).of_subset (eventItems_subset e)
  · cases e with
    | trigger rule tick entry value outcome segment => cases segment <;> rfl
    | _ => rfl
  · rintro rule tick entry value outcome segment rfl hlow hhigh
    exact signedOf_signedBytes hlow hhigh
  · refine ⟨segheadPayload d, by simp only [reportPayload, hd, Option.map_some], segheadPayload_length d, segheadPayload_reads d,
      by rw [segheadPayload_flags, flags_bits], fun i x => segheadPayload_secondary⟩
  · exact ⟨segendPayload d, by simp only [reportPayload, hd, Option.map_some], rfl, segendPayload_reads d, flags_bits d.flags⟩
  · intro chunk page first last _ _
    exact ⟨segdataPayload s d chunk page first last, by simp only [reportPayload, hd, Option.map_some],
      readsBack_prefix _ rfl, segdataPayload_length s d chunk page first last,
      fun k => segdataPayload_record s d chunk page first last⟩

end Sys2Proof.Machine

/-! SUPPORT. The delivery engine (R137 to R139): its rounds one by one, what every run of it keeps, and the reports of one
segment taken in order from a delivery position on. -/

namespace Sys2Proof.Machine

variable {s t u : State} {d x : Descriptor} {n k j : Nat} {pos : DeliveryPos} {st : SegState}

/-! ## The rounds of the engine -/

/-- The delivery engine with as many rounds as it needs. -/
def engine (s : State) : State := runEngine engineFuel s

theorem engine_eq_succ (s : State) : engine s = runEngine (engineFuel + 1) s :=
  (runEngine_succ _ s (engineRounds_le s)).symm

theorem engine_queue (hs : s.rpe.slot = some (n, pos)) (hf : 0 < segmentRoom s.rpe) (hd : segmentIn .sending n s = some d) :
    engine s = engine (queueSegmentReport n pos d s) := by
  rw [engine_eq_succ, runEngine, hs]
  simp only [(segmentFits_iff _).mpr hf, if_true, hd]
  rfl

theorem engine_full (hs : s.rpe.slot = some (n, pos)) (hf : segmentRoom s.rpe = 0) : engine s = s := by
  have hfits : ¬ segmentFits s.rpe = true := fun h => by
    have hpos := (segmentFits_iff _).mp h
    omega
  rw [engine_eq_succ, runEngine, hs]
  simp only [hfits, Bool.false_eq_true, if_false]

theorem engine_start (hs : s.rpe.slot = none) (hn : startable s = some n) : engine s = engine (startDelivery n s) := by
  rw [engine_eq_succ, runEngine, hs]
  simp only [hn]
  rfl

theorem engine_idle (hs : s.rpe.slot = none) (hn : startable s = none) : engine s = s := by
  rw [engine_eq_succ, runEngine, hs]
  simp only [hn]

theorem exec_deliveryStart_free (h : s.rpe.slot = none) : exec .deliveryStart s = .next (engine s) := by
  change Host.Outcome.next (deliveryStartStep s) = _
  simp only [deliveryStartStep, h]
  rfl

theorem exec_deliveryStart_busy (h : s.rpe.slot ≠ none) : exec .deliveryStart s = .next s := by
  obtain ⟨x, hx⟩ := Option.ne_none_iff_exists'.mp h
  change Host.Outcome.next (deliveryStartStep s) = _
  simp only [deliveryStartStep, hx]

theorem exec_deliveryQueue_free (h : s.rpe.slot = none) : exec .deliveryQueue s = .next s := by
  change Host.Outcome.next (deliveryQueueStep s) = _
  simp only [deliveryQueueStep, h]

theorem exec_deliveryQueue_busy {y : Nat × DeliveryPos} (h : s.rpe.slot = some y) : exec .deliveryQueue s = .next (engine s) := by
  change Host.Outcome.next (deliveryQueueStep s) = _
  simp only [deliveryQueueStep, h]
  rfl

/-! ## What every run of the engine keeps -/

/-- What the engine does from `s` to `t`: it changes the segment table and the report engine's queues and slot only, adds to the
end of the pending queue within the bounds, keeps the SENT segments, and only takes numbers out of the fetch queue. -/
structure EngineRun (s t : State) : Prop where
  frame : ∃ table queue queued slot,
    t = { s with
      sgm := { s.sgm with table := table },
      rpe := { s.rpe with queue := queue, fetch := queued, slot := slot } }
  grows : ∃ more, t.rpe.queue = s.rpe.queue ++ more
  bounds : s.rpe.queue.length ≤ 48 → pendingSegments s.rpe ≤ 40 → t.rpe.queue.length ≤ 48 ∧ pendingSegments t.rpe ≤ 40
  sent : ∀ x ∈ s.sgm.table, x.state = .sent → x ∈ t.sgm.table
  fetch : t.rpe.fetch ⊆ s.rpe.fetch

theorem EngineRun.refl (s : State) : EngineRun s s :=
  ⟨⟨_, _, _, _, rfl⟩, ⟨[], (List.append_nil _).symm⟩, fun h h' => ⟨h, h'⟩, fun _ h _ => h, fun _ h => h⟩

theorem EngineRun.trans (h : EngineRun s t) (h' : EngineRun t u) : EngineRun s u := by
  obtain ⟨table, queue, queued, slot, hframe⟩ := h.frame
  obtain ⟨table', queue', queued', slot', hframe'⟩ := h'.frame
  obtain ⟨more, hmore⟩ := h.grows
  obtain ⟨more', hmore'⟩ := h'.grows
  refine ⟨⟨table', queue', queued', slot', by rw [hframe', hframe]⟩, ⟨more ++ more', by rw [hmore', hmore, List.append_assoc]⟩,
    fun hq hp => ?_, fun x hx hst => h'.sent x (h.sent x hx hst) hst, fun m hm => h.fetch (h'.fetch hm)⟩
  obtain ⟨hq', hp'⟩ := h.bounds hq hp
  exact h'.bounds hq' hp'

theorem startDelivery_run (n : Nat) (s : State) : EngineRun s (startDelivery n s) where
  frame := ⟨_, _, _, _, rfl⟩
  grows := ⟨[], (List.append_nil _).symm⟩
  bounds h h' := ⟨h, h'⟩
  sent x hx hst := mem_modifyFirst_of_not hx (Bool.eq_false_iff.mpr fun h => by simp [(isSegment_iff.mp h).2] at hst)
  fetch m hm := (List.mem_filter.mp hm).1

/-- One more segment report is pending. -/
theorem pendingSegments_snoc (r : Rpe) (p : SegReport) (slot : Option (Nat × DeliveryPos)) :
    pendingSegments { r with queue := r.queue ++ [.segment p], slot := slot } = pendingSegments r + 1 := by
  have h : List.filter isSegmentReport [Report.segment p] = [Report.segment p] := rfl
  simp only [pendingSegments, List.filter_append, List.length_append, h, List.length_singleton]

theorem queueSegmentReport_run (hf : 0 < segmentRoom s.rpe) : EngineRun s (queueSegmentReport n pos d s) := by
  have hroom : s.rpe.queue.length < 48 ∧ pendingSegments s.rpe < 40 := by
    simp only [segmentRoom] at hf
    omega
  unfold queueSegmentReport
  split
  · exact ⟨⟨_, _, _, _, rfl⟩, ⟨_, rfl⟩,
      fun _ _ => ⟨by simp only [State.setRpe, List.length_append, List.length_singleton]; omega,
        (pendingSegments_snoc s.rpe _ _).trans_le hroom.2⟩, fun _ h _ => h, fun _ h => h⟩
  · refine ⟨⟨_, _, _, _, rfl⟩, ⟨_, rfl⟩,
      fun _ _ => ⟨by simp only [State.setRpe, List.length_append, List.length_singleton]; omega,
        (pendingSegments_snoc s.rpe _ _).trans_le hroom.2⟩, fun x hx hst => ?_, fun _ h => h⟩
    exact mem_modifyFirst_of_not hx (Bool.eq_false_iff.mpr fun h => by simp [(isSegment_iff.mp h).2] at hst)

theorem runEngine_run (fuel : Nat) (s : State) : EngineRun s (runEngine fuel s) := by
  induction fuel generalizing s with
  | zero => exact .refl s
  | succ fuel ih =>
    unfold runEngine
    split
    · split
      · next hf =>
        split
        · exact (queueSegmentReport_run ((segmentFits_iff _).mp hf)).trans (ih _)
        · exact .refl s
      · exact .refl s
    · split
      · exact (startDelivery_run _ s).trans (ih _)
      · exact .refl s

theorem engine_run (s : State) : EngineRun s (engine s) := runEngine_run _ s

/-! ## The states of one segment -/

/-- Among segments of distinct numbers, the move of one is a change by number. -/
theorem modifyFirst_eq_map {l : List Descriptor} {before after : SegState} (hd : (l.map Descriptor.number).Nodup)
    (hx : x ∈ l) (hst : x.state = before) :
    modifyFirst (isSegment before x.number) (fun y => { y with state := after }) l =
      l.map (fun y => if y.number = x.number then { y with state := after } else y) := by
  induction l with
  | nil => cases hx
  | cons y ys ih =>
    rw [List.map_cons, List.nodup_cons] at hd
    by_cases hy : y.number = x.number
    · have hyx : x = y := by
        rcases List.mem_cons.mp hx with hx | hx
        · exact hx
        · exact absurd (hy ▸ List.mem_map_of_mem hx) hd.1
      have hrest : ys.map (fun z => if z.number = x.number then { z with state := after } else z) = ys := by
        refine (List.map_congr_left fun z hz => ?_).trans (List.map_id ys)
        exact if_neg fun he => hd.1 (hy ▸ (he : z.number = x.number) ▸ List.mem_map_of_mem hz)
      rw [modifyFirst, if_pos (isSegment_iff.mpr ⟨hy, hyx ▸ hst⟩), List.map_cons, if_pos hy, hrest]
    · have hx' : x ∈ ys := (List.mem_cons.mp hx).resolve_left fun e => hy (e ▸ rfl)
      rw [modifyFirst, if_neg fun h => hy (isSegment_iff.mp h).1, List.map_cons, if_neg hy, ih hd.2 hx']

theorem numbers_withSegmentState (n : Nat) (st : SegState) (g : Sgm) :
    (withSegmentState n st g).table.map Descriptor.number = g.table.map Descriptor.number := by
  simp only [withSegmentState, List.map_map]
  exact List.map_congr_left fun y _ => by
    simp only [Function.comp_apply]
    split <;> rfl

theorem mem_withSegmentState {g : Sgm} (hx : x ∈ g.table) : { x with state := st } ∈ (withSegmentState x.number st g).table :=
  List.mem_map.mpr ⟨x, hx, if_pos rfl⟩

/-- The last state given to a number is the one that stands. -/
theorem withSegmentState_twice (n : Nat) (st st' : SegState) (g : Sgm) :
    withSegmentState n st' (withSegmentState n st g) = withSegmentState n st' g := by
  simp only [withSegmentState, List.map_map]
  congr 1
  refine List.map_congr_left fun y _ => ?_
  by_cases h : y.number = n <;> simp [h]

/-- Giving a segment the state it has changes nothing. -/
theorem withSegmentState_self {g : Sgm} (hd : (g.table.map Descriptor.number).Nodup) (hx : x ∈ g.table) (hst : x.state = st) :
    withSegmentState x.number st g = g := by
  have htable : g.table.map (fun y => if y.number = x.number then { y with state := st } else y) = g.table := by
    refine (List.map_congr_left fun y hy => ?_).trans (List.map_id _)
    by_cases h : y.number = x.number
    · have he : y = x := List.inj_on_of_nodup_map hd hy hx h
      rw [if_pos h, he, ← hst]
      rfl
    · rw [if_neg h]
      rfl
  simp only [withSegmentState, htable]

/-- Among segments of distinct numbers, the one of a number and state is found. -/
theorem segmentIn_of_mem (hd : (s.sgm.table.map Descriptor.number).Nodup) (hx : x ∈ s.sgm.table) (hst : x.state = st) :
    segmentIn st x.number s = some x := by
  obtain ⟨y, hy⟩ := Option.isSome_iff_exists.mp
    (List.find?_isSome.mpr ⟨x, hx, (isSegment_iff.mpr ⟨rfl, hst⟩ : isSegment st x.number x = true)⟩)
  have he : y = x :=
    List.inj_on_of_nodup_map hd (List.mem_of_find?_eq_some hy) hx (isSegment_iff.mp (List.find?_some hy)).1
  exact he ▸ hy

/-! ## The reports of one segment in order (R139) -/

theorem segmentReports_length (d : Descriptor) : (segmentReports d).length = d.pages.length + 2 := by simp [segmentReports]

theorem reportsBefore_lt (h : ∀ c, pos = .data c → c < d.pages.length) : reportsBefore d pos < d.pages.length + 2 := by
  cases pos with
  | data c =>
    have hc := h c rfl
    simp only [reportsBefore]
    omega
  | _ => simp [reportsBefore]

theorem positionAfter_reportsBefore (h : ∀ c, pos = .data c → c < d.pages.length) :
    positionAfter d (reportsBefore d pos) = pos := by
  cases pos with
  | data c => simp [positionAfter, reportsBefore, Nat.succ_le_of_lt (h c rfl)]
  | _ => simp [positionAfter, reportsBefore]

/-- The report at the position after `k` reports is report `k`. -/
theorem segmentReports_get (hk : k < d.pages.length + 2) :
    (segmentReports d)[k]? = some (.segment (reportAt d (positionAfter d k))) := by
  unfold positionAfter
  cases k with
  | zero => rfl
  | succ k =>
    rw [if_neg (Nat.succ_ne_zero k)]
    simp only [segmentReports, List.getElem?_cons_succ]
    by_cases hp : k + 1 ≤ d.pages.length
    · rw [if_pos hp, List.getElem?_append_left (by simpa using hp), List.getElem?_map, List.getElem?_range hp]
      rfl
    · have hlast : k = d.pages.length := by omega
      subst hlast
      rw [if_neg hp, List.getElem?_append_right (by simp)]
      simp [reportAt]

theorem nextPos_positionAfter (hk : k < d.pages.length + 2) :
    nextPos d (positionAfter d k) = if k + 1 < d.pages.length + 2 then some (positionAfter d (k + 1)) else none := by
  cases k with
  | zero =>
    cases hp : d.pages with
    | nil => simp [positionAfter, nextPos, hp]
    | cons p ps => simp [positionAfter, nextPos, hp]
  | succ k =>
    simp only [positionAfter, Nat.succ_ne_zero, if_false]
    by_cases hp : k + 1 ≤ d.pages.length
    · rw [if_pos hp, if_pos (by omega)]
      simp only [nextPos, Nat.add_sub_cancel]
      by_cases hp' : k + 1 < d.pages.length
      · rw [if_pos hp', if_pos (Nat.succ_le_of_lt hp')]
      · rw [if_neg hp', if_neg (by omega)]
    · rw [if_neg hp, if_neg (by omega)]
      rfl

/-- The next report of a list that is taken in order. -/
theorem take_drop_succ {α : Type} {l : List α} {y : α} (h : l[k + j]? = some y) :
    ((l.drop k).take j) ++ [y] = (l.drop k).take (j + 1) := by
  rw [List.take_add_one, List.getElem?_drop, h]
  rfl

/-! ## A delivery goes on -/

/-- `s` with `j` reports of `d` queued from number `k` on, its delivery going on. -/
def deliveryAt (d : Descriptor) (k j : Nat) (fetch : List Nat) (s : State) : State :=
  withQueued d.number .sending (((segmentReports d).drop k).take j) fetch (some (d.number, positionAfter d (k + j))) s

theorem deliveryAt_zero (d : Descriptor) (k : Nat) (fetch : List Nat) (s : State) : deliveryAt d k 0 fetch s =
    withQueued d.number .sending [] fetch (some (d.number, positionAfter d k)) s := rfl

theorem pendingSegments_reports {l : List Report} (hl : ∀ r ∈ l, isSegmentReport r = true) (r : Rpe)
    (fetch : List Nat) (slot : Option (Nat × DeliveryPos)) :
    pendingSegments { r with queue := r.queue ++ l, fetch := fetch, slot := slot } = pendingSegments r + l.length := by
  simp only [pendingSegments, List.filter_append, List.length_append, List.filter_eq_self.mpr hl]

theorem segmentReports_segment (d : Descriptor) : ∀ r ∈ segmentReports d, isSegmentReport r = true := by
  intro r hr
  simp only [segmentReports, List.mem_cons, List.mem_append, List.mem_map, List.not_mem_nil, or_false] at hr
  rcases hr with rfl | ⟨c, -, rfl⟩ | rfl <;> rfl

section
variable {fetch : List Nat}

theorem deliveryAt_room (h : k + j ≤ d.pages.length + 2) :
    segmentRoom (deliveryAt d k j fetch s).rpe = segmentRoom s.rpe - j := by
  have hlen : (((segmentReports d).drop k).take j).length = j := by
    rw [List.length_take, List.length_drop, segmentReports_length]
    omega
  have hpending : pendingSegments (deliveryAt d k j fetch s).rpe = pendingSegments s.rpe + j := by
    refine (pendingSegments_reports (fun r hr => ?_) s.rpe fetch _).trans (by rw [hlen])
    exact segmentReports_segment d r (List.mem_of_mem_drop (List.mem_of_mem_take hr))
  have hqueue : (deliveryAt d k j fetch s).rpe.queue.length = s.rpe.queue.length + j := by
    exact List.length_append.trans (congrArg _ hlen)
  rw [segmentRoom, hpending, hqueue, Nat.sub_add_eq, Nat.sub_add_eq, Nat.sub_min_sub_right, segmentRoom]

theorem deliveryAt_segmentIn (hd : (s.sgm.table.map Descriptor.number).Nodup) (hx : d ∈ s.sgm.table) :
    segmentIn .sending d.number (deliveryAt d k j fetch s) = some { d with state := .sending } :=
  segmentIn_of_mem (x := { d with state := .sending }) ((numbers_withSegmentState _ _ _).symm ▸ hd) (mem_withSegmentState hx) rfl

theorem queueSegmentReport_next {next : DeliveryPos} (h : nextPos d pos = some next) : queueSegmentReport n pos d s =
    s.setRpe { s.rpe with queue := s.rpe.queue ++ [.segment (reportAt d pos)], slot := some (n, next) } := by
  simp only [queueSegmentReport, h]

theorem queueSegmentReport_last (h : nextPos d pos = none) : queueSegmentReport n pos d s =
    { s with
      rpe := { s.rpe with queue := s.rpe.queue ++ [.segment (reportAt d pos)], slot := none },
      sgm := (moveSegment n .sending .sent s).sgm } := by
  simp only [queueSegmentReport, h]
  rfl

/-- One more report is queued. -/
theorem deliveryAt_queue (hd : (s.sgm.table.map Descriptor.number).Nodup) (hx : d ∈ s.sgm.table)
    (hk : k + j < d.pages.length + 2) (hj : j < segmentRoom s.rpe) :
    engine (deliveryAt d k j fetch s) =
      engine (if k + j + 1 < d.pages.length + 2 then deliveryAt d k (j + 1) fetch s
        else withQueued d.number .sent ((segmentReports d).drop k) fetch none s) := by
  rw [engine_queue rfl (by rw [deliveryAt_room (by omega)]; omega) (deliveryAt_segmentIn hd hx)]
  have hreports : s.rpe.queue ++ ((segmentReports d).drop k).take j ++ [.segment (reportAt d (positionAfter d (k + j)))] =
      s.rpe.queue ++ ((segmentReports d).drop k).take (j + 1) := by
    exact (List.append_assoc _ _ _).trans (congrArg _ (take_drop_succ (segmentReports_get hk)))
  have hnext : nextPos { d with state := .sending } (positionAfter d (k + j)) = _ := nextPos_positionAfter hk
  congr 1
  by_cases hlast : k + j + 1 < d.pages.length + 2
  · rw [if_pos hlast] at hnext ⊢
    rw [queueSegmentReport_next hnext]
    exact congrArg (fun queue => { s with
      rpe := { s.rpe with queue := queue, fetch := fetch, slot := some (d.number, positionAfter d (k + j + 1)) },
      sgm := withSegmentState d.number .sending s.sgm }) hreports
  · rw [if_neg hlast] at hnext ⊢
    have hall : ((segmentReports d).drop k).take (j + 1) = (segmentReports d).drop k :=
      List.take_of_length_le (by rw [List.length_drop, segmentReports_length]; omega)
    have hmove : (moveSegment d.number .sending .sent (deliveryAt d k j fetch s)).sgm = withSegmentState d.number .sent s.sgm := by
      rw [← withSegmentState_twice d.number .sending .sent s.sgm]
      exact congrArg (fun table => { s.sgm with table := table })
        (modifyFirst_eq_map (x := { d with state := .sending }) ((numbers_withSegmentState _ _ _).symm ▸ hd)
          (mem_withSegmentState hx) rfl)
    rw [queueSegmentReport_last hnext, hmove]
    exact congrArg (fun queue => { s with
      rpe := { s.rpe with queue := queue, fetch := fetch, slot := none },
      sgm := withSegmentState d.number .sent s.sgm }) (hall ▸ hreports)

/-- As many reports are queued as fit and are there. -/
theorem deliveryAt_engine (hd : (s.sgm.table.map Descriptor.number).Nodup) (hx : d ∈ s.sgm.table)
    (hk : k + j < d.pages.length + 2) (hj : j ≤ segmentRoom s.rpe) :
    engine (deliveryAt d k 0 fetch s) = engine (deliveryAt d k j fetch s) := by
  induction j with
  | zero => rfl
  | succ j ih =>
    rw [ih (by omega) (by omega), deliveryAt_queue hd hx (by omega) (by omega), if_pos (by omega)]

/-- A delivery going on from report `k`: what fits is queued, and with all of them queued the engine goes on. -/
theorem deliveryAt_delivers (hd : (s.sgm.table.map Descriptor.number).Nodup) (hx : d ∈ s.sgm.table)
    (hk : k < d.pages.length + 2) (hq : s.rpe.queue.length < 48) (hp : pendingSegments s.rpe < 40) :
    Delivers d k fetch s (engine (deliveryAt d k 0 fetch s)) where
  part h := by
    rw [deliveryAt_engine (j := segmentRoom s.rpe) hd hx (by omega) (Nat.le_refl _)]
    exact engine_full rfl (by rw [deliveryAt_room (by omega)]; omega)
  whole h := by
    have hlast : k + (d.pages.length + 1 - k) = d.pages.length + 1 := by omega
    rw [deliveryAt_engine (j := d.pages.length + 1 - k) hd hx (by omega) (by omega),
      deliveryAt_queue hd hx (by omega) (by omega), if_neg (by omega)]
    have hrun := engine_run (withQueued d.number .sent ((segmentReports d).drop k) fetch none s)
    exact ⟨exec_deliveryStart_free rfl, hrun.grows, hrun.sent _ (mem_withSegmentState hx) rfl⟩
  others := by
    obtain ⟨table, queue, queued, slot, h⟩ := (engine_run (deliveryAt d k 0 fetch s)).frame
    exact ⟨table, queue, queued, slot, h⟩
  bounds := by
    have hpending : pendingSegments (deliveryAt d k 0 fetch s).rpe = pendingSegments s.rpe :=
      pendingSegments_reports (l := []) (fun _ h => absurd h List.not_mem_nil) s.rpe fetch _
    refine (engine_run (deliveryAt d k 0 fetch s)).bounds ?_ (hpending.trans_le hp.le)
    exact List.length_append.trans_le hq.le

end

/-! ## What is chosen (R138) -/

/-- The segment that the engine would deliver next, with the slot free, the session OPEN and room (R137, R138). -/
theorem startable_of_choice (hd : d ∈ s.sgm.table) (hst : d.state = .complete) (hslot : s.rpe.slot = none)
    (hopen : s.lki.session = .open) (hroom : 0 < segmentRoom s.rpe)
    (h : s.rpe.fetch.head? = some d.number ∨ (s.rpe.fetch = [] ∧ s.sgm.settings.deliveryMode = .auto ∧
      s.sgm.table.find? (fun x => decide (x.state = .complete)) = some d)) : startable s = some d.number := by
  rw [startable, if_pos ⟨hslot, hopen, (segmentFits_iff _).mpr hroom⟩, chooseSegment]
  rcases h with h | ⟨hnone, hmode, hfind⟩
  · obtain ⟨rest, hf⟩ : ∃ rest, s.rpe.fetch = d.number :: rest := by
      cases hl : s.rpe.fetch with
      | nil => simp [hl] at h
      | cons m rest =>
        simp only [hl, List.head?_cons, Option.some.injEq] at h
        exact ⟨rest, by rw [h]⟩
    have hany : s.sgm.table.any (isSegment .complete d.number) = true :=
      List.any_eq_true.mpr ⟨d, hd, isSegment_iff.mpr ⟨rfl, hst⟩⟩
    simp only [hf, hany, if_true]
  · simp only [hnone, hmode, hfind, Option.map_some]

theorem startable_none (h : s.rpe.slot ≠ none ∨ s.lki.session ≠ .open ∨ segmentRoom s.rpe = 0 ∨
    (∀ d ∈ s.sgm.table, d.state ≠ .complete) ∨ (s.rpe.fetch = [] ∧ s.sgm.settings.deliveryMode = .fetch)) :
    startable s = none := by
  cases hn : startable s with
  | none => rfl
  | some n =>
    obtain ⟨hslot, d, hd, -, hst⟩ := startable_some hn
    unfold startable at hn
    split at hn
    · next hc =>
      obtain ⟨-, hopen, hfits⟩ := hc
      have hroom := (segmentFits_iff _).mp hfits
      rcases h with h | h | h | h | ⟨hf, hm⟩
      · exact absurd hslot h
      · exact absurd hopen h
      · omega
      · exact absurd hst (h d hd)
      · rw [chooseSegment, hf] at hn
        simp only [hm] at hn
        cases hn
    · cases hn

/-- A start gives the delivery its slot and takes the number out of the fetch queue (R137). -/
theorem startDelivery_eq (hd : (s.sgm.table.map Descriptor.number).Nodup) (hx : d ∈ s.sgm.table) (hst : d.state = .complete) :
    startDelivery d.number s = deliveryAt d 0 0 (s.rpe.fetch.filter (fun m => decide (m ≠ d.number))) s := by
  have hmove : (moveSegment d.number .complete .sending s).sgm = withSegmentState d.number .sending s.sgm :=
    congrArg (fun table => { s.sgm with table := table }) (modifyFirst_eq_map hd hx hst)
  have hqueue : s.rpe.queue ++ [] = s.rpe.queue := List.append_nil _
  simp only [startDelivery, State.setRpe, hmove, deliveryAt_zero, withQueued, hqueue]
  rfl

/-- A state with a delivery in its slot is that delivery going on (R137). -/
theorem eq_deliveryAt (hd : (s.sgm.table.map Descriptor.number).Nodup) (hx : d ∈ s.sgm.table) (hst : d.state = .sending)
    (hslot : s.rpe.slot = some (d.number, pos)) (hpos : ∀ c, pos = .data c → c < d.pages.length) :
    s = deliveryAt d (reportsBefore d pos) 0 s.rpe.fetch s := by
  simp only [deliveryAt_zero, withQueued, List.append_nil, positionAfter_reportsBefore hpos,
    withSegmentState_self hd hx hst, ← hslot]

theorem windowed_of_ok (h : descriptorOk d = true) :
    d.firstOffset < 32 ∧ d.pages.length = (d.firstOffset + (d.preTaken + d.postTaken) + 31) / 32 := by
  have hw := descriptorOk_iff.mp h
  split at hw
  · exact ⟨hw.offset, hw.pages⟩
  · exact ⟨hw.offset, hw.pages⟩

/-- The span of a chunk is the part of its page between the first and the last record of the segment (R1, R141). -/
theorem span_iff (h : descriptorOk d = true) {c : Nat} (hc : c < d.pages.length) :
    (∀ k, k < 32 → ((spanFirst d c ≤ k ∧ k ≤ spanLast d c) ↔
      (d.firstOffset ≤ 32 * c + k ∧ 32 * c + k < d.firstOffset + (d.preTaken + d.postTaken)))) ∧
      (0 < d.preTaken + d.postTaken → spanFirst d c ≤ spanLast d c ∧ spanLast d c < 32) := by
  obtain ⟨hoffset, hpages⟩ := windowed_of_ok h
  simp only [spanFirst, spanLast, storedLength]
  constructor
  · intro k hk
    split <;> split <;> omega
  · intro hpos
    split <;> split <;> omega

/-- Settles O36: the engine takes the reports of one segment in order as far as they fit. -/
theorem deliveryQueuesTheSegmentInOrder : Obligations.DeliveryQueuesTheSegmentInOrder := by
  refine ⟨⟨fun s d href _ hslot hopen hq hp hd hst hchoice => ?start, fun s h => ?noStart⟩,
    ⟨fun s d pos href hd hst hslot hq hp hpos => ?queue, fun s h => ?noQueue⟩, fun d h c hc => span_iff h hc⟩
  case start =>
    have hroom : 0 < segmentRoom s.rpe := by
      simp only [segmentRoom]
      omega
    refine ⟨_, exec_deliveryStart_free hslot, ?_⟩
    rw [engine_start hslot (startable_of_choice hd hst hslot hopen hroom hchoice), startDelivery_eq href.distinct hd hst]
    refine ⟨deliveryAt_delivers href.distinct hd (by omega) hq hp, fun hmem => ?_⟩
    simpa [deliveryAt_zero, withQueued] using (engine_run _).fetch hmem
  case noStart =>
    by_cases hslot : s.rpe.slot = none
    · rw [exec_deliveryStart_free hslot, engine_idle hslot (startable_none ?_)]
      simp only [segmentRoom]
      rcases h with h | h | h | h | h | h
      · exact .inl h
      · exact .inr (.inl h)
      · exact .inr (.inr (.inl (by omega)))
      · exact .inr (.inr (.inl (by omega)))
      · exact .inr (.inr (.inr (.inl h)))
      · exact .inr (.inr (.inr (.inr h)))
    · exact exec_deliveryStart_busy hslot
  case queue =>
    have hdelivers := deliveryAt_delivers (fetch := s.rpe.fetch) href.distinct hd (reportsBefore_lt hpos) hq hp
    rw [← eq_deliveryAt href.distinct hd hst hslot hpos] at hdelivers
    exact ⟨_, exec_deliveryQueue_busy hslot, hdelivers⟩
  case noQueue =>
    cases hslot : s.rpe.slot with
    | none => exact exec_deliveryQueue_free hslot
    | some y =>
      rw [exec_deliveryQueue_busy hslot, engine_full (n := y.1) (pos := y.2) hslot ?_]
      simp only [segmentRoom]
      rcases h with h | h | h
      · simp [hslot] at h
      · omega
      · omega

end Sys2Proof.Machine

/-! SUPPORT. Pace ticks (R104 to R110): the passes of BURST pacing, and the search of STEP pacing entry by entry. -/

namespace Sys2Proof.Machine

variable {s t u : State} {e : ScanEntry} {i j k n fuel left tick : Nat}

/-! ## BURST pacing -/

theorem exec_paceTick_stopped (h : s.aqs.nextTick = none) : exec .paceTick s = .next s := by
  change Host.Outcome.next (paceTickStep s) = _
  simp only [paceTickStep, h]

theorem exec_paceTick_burst (h : s.aqs.nextTick = some tick) (hm : s.aqs.mode = .burst) :
    exec .paceTick s = .next (burstTick (ticked tick s)) := by
  change Host.Outcome.next (paceTickStep s) = _
  simp only [paceTickStep, h, hm, countTick_eq]

theorem exec_paceTick_step (h : s.aqs.nextTick = some tick) (hm : s.aqs.mode = .step) :
    exec .paceTick s = .next (stepTick (ticked tick s)) := by
  change Host.Outcome.next (paceTickStep s) = _
  simp only [paceTickStep, h, hm, countTick_eq]

/-- Settles O38: each state of the pass. -/
theorem burstTickStartsOrResumesAPass : Obligations.BurstTickStartsOrResumesAPass := by
  intro s tick ht hm
  rw [exec_paceTick_burst ht hm]
  refine ⟨fun hw => ⟨fun i e hdue => ?due, fun hnone => ⟨_, rfl, ?void⟩⟩, fun hc => ?converting, fun hp e he => ?paused⟩
  case due =>
    have hsearch : nextDue (ticked tick s).aqs.pass 0 (ticked tick s).sct.active = some i := hdue.search
    have hget : (ticked tick s).sct.active[i]? = some e := hdue.2.1
    simp only [burstTick, show (ticked tick s).aqs.passState = .waiting from hw, startPass, hsearch, hget, convertAt_eq]
    rfl
  case void =>
    have hsearch : nextDue (ticked tick s).aqs.pass 0 (ticked tick s).sct.active = none := search_none hnone
    simp only [burstTick, show (ticked tick s).aqs.passState = .waiting from hw, startPass, hsearch]
    exact passBoundary_at _
  case converting =>
    simp only [burstTick, show (ticked tick s).aqs.passState = .converting from hc, missedTick_eq]
  case paused =>
    have hget : (ticked tick s).sct.active[(ticked tick s).aqs.position]? = some e := he
    simp only [burstTick, show (ticked tick s).aqs.passState = .paused from hp, resumePass, hget, convertAt_eq]
    rfl

/-! ## The search of STEP pacing (R106, R107) -/

/-- How many entries are left to examine once the entry position is in the table again. -/
def leftAfter (left : Nat) (s : State) : Nat :=
  if decide (s.sct.active.length ≤ s.aqs.position) && switchDue s then (examining s).sct.active.length else left

/-- One round of the search. -/
theorem stepSearch_round (fuel : Nat) (h : left ≠ 0) (s : State) :
    stepSearch (fuel + 1) left s =
      match (examining s).sct.active[(examining s).aqs.position]? with
      | none => examining s
      | some e =>
        if isDue (examining s).aqs.pass e then convertAt (examining s).aqs.position e (examining s)
        else
          stepSearch fuel (leftAfter left s - 1)
            ((examining s).setAqs { (examining s).aqs with position := (examining s).aqs.position + 1 }) := by
  rw [stepSearch, if_neg h]
  rfl

theorem stepSearch_done : stepSearch fuel 0 s = s := by
  cases fuel <;> rfl

theorem examining_inside (h : s.aqs.position < s.sct.active.length) : examining s = s := by
  exact if_neg (by simpa using h)

theorem examining_past (h : s.sct.active.length ≤ s.aqs.position) : examining s = passBoundary s := by
  exact if_pos (by simpa using h)

theorem leftAfter_inside (h : s.aqs.position < s.sct.active.length) : leftAfter left s = left := by
  exact if_neg (by simp; omega)

theorem leftAfter_waits (h : ¬ CommitDue s) : leftAfter left s = left := by
  exact if_neg fun hc => h ((switchDue_iff s).mp (Bool.and_eq_true_iff.mp hc).2)

/-- `s` with the entry position and the pass counter as the `k`-th entry is examined. -/
def searchAt (s : State) (n k : Nat) : State :=
  s.setAqs { s.aqs with pass := examinedPass s n k, position := examinedIndex s n k }

/-- `s` after the first `k` entries have been examined and none was due. -/
def searched (s : State) (n : Nat) : Nat → State
  | 0 => s
  | k + 1 => s.setAqs { s.aqs with pass := examinedPass s n k, position := examinedIndex s n k + 1 }

theorem searchAt_eq (s : State) (n k : Nat) :
    searchAt s n k = s.setAqs { s.aqs with pass := examinedPass s n k, position := examinedIndex s n k } := rfl

theorem searched_zero (s : State) (n : Nat) : searched s n 0 = s := rfl

theorem searched_succ (s : State) (n k : Nat) :
    searched s n (k + 1) = s.setAqs { s.aqs with pass := examinedPass s n k, position := examinedIndex s n k + 1 } := rfl

/-- The search crosses into the next pass and goes on in the same table. -/
theorem passBoundary_waits (h : ¬ CommitDue s) :
    passBoundary s = s.setAqs { s.aqs with pass := passAfter s, position := 0 } := (passBoundary_at s).waits h

theorem examining_searched (hn : n = s.sct.active.length) (hp : s.aqs.position ≤ n) (hk : k < n)
    (hc : ¬ CommitDue s ∨ s.aqs.position + k < n) : examining (searched s n k) = searchAt s n k := by
  cases k with
  | zero =>
    simp only [searched_zero, searchAt_eq, examinedPass, examinedIndex, Nat.add_zero]
    by_cases hin : s.aqs.position < n
    · rw [examining_inside (hn ▸ hin), if_pos hin, if_pos hin]
      rfl
    · rw [examining_past (by omega), passBoundary_waits (hc.resolve_right (by omega)), if_neg hin, if_neg hin,
        Nat.sub_eq_zero_of_le hp]
  | succ k =>
    have hindex : examinedIndex s n k + 1 =
        if s.aqs.position + (k + 1) = n then n else examinedIndex s n (k + 1) := by
      simp only [examinedIndex]
      split_ifs <;> omega
    by_cases hcross : s.aqs.position + (k + 1) = n
    · rw [if_pos hcross] at hindex
      have hpast : (searched s n (k + 1)).sct.active.length ≤ (searched s n (k + 1)).aqs.position :=
        le_of_eq (hn.symm.trans hindex.symm)
      rw [examining_past hpast, passBoundary_waits (s := searched s n (k + 1)) (hc.resolve_right (by omega))]
      have hpass : examinedPass s n k = s.aqs.pass := if_pos (by omega)
      have hpass' : examinedPass s n (k + 1) = passAfter s := if_neg (by omega)
      have hzero : examinedIndex s n (k + 1) = 0 := (if_neg (by omega)).trans (by omega)
      simp only [searchAt_eq, hpass', hzero, searched_succ, passAfter, hpass, State.setAqs]
    · rw [if_neg hcross] at hindex
      have hinside : (searched s n (k + 1)).aqs.position < (searched s n (k + 1)).sct.active.length := by
        change examinedIndex s n k + 1 < s.sct.active.length
        rw [hindex, ← hn]
        simp only [examinedIndex]
        split <;> omega
      have hpass : examinedPass s n k = examinedPass s n (k + 1) := if_congr (by omega) rfl rfl
      rw [examining_inside hinside, searched_succ, searchAt_eq, hindex, hpass]

/-- The entry that is examined exists. -/
theorem examinedIndex_lt (hp : s.aqs.position ≤ n) (hk : k < n) : examinedIndex s n k < n := by
  simp only [examinedIndex]
  split <;> omega

/-- One entry is examined in the table in force. -/
theorem stepSearch_searched (hn : n = s.sct.active.length) (hp : s.aqs.position ≤ n) (hk : k < n)
    (hc : ¬ CommitDue s ∨ s.aqs.position + k < n) (he : s.sct.active[examinedIndex s n k]? = some e) :
    stepSearch (fuel + 1) (n - k) (searched s n k) =
      if isDue (examinedPass s n k) e then convertAt (examinedIndex s n k) e (searchAt s n k)
      else stepSearch fuel (n - (k + 1)) (searched s n (k + 1)) := by
  have hget : (searchAt s n k).sct.active[(searchAt s n k).aqs.position]? = some e := he
  have hleft : leftAfter (n - k) (searched s n k) = n - k := by
    rcases hc with hc | hc
    · exact leftAfter_waits (by cases k <;> exact hc)
    · refine leftAfter_inside ?_
      cases k with
      | zero => exact hn ▸ hc
      | succ k =>
        change examinedIndex s n k + 1 < s.sct.active.length
        rw [examinedIndex, if_pos (by omega), ← hn]
        omega
  rw [stepSearch_round fuel (by omega), examining_searched hn hp hk hc, hget, hleft, Nat.sub_sub]
  rfl

/-- Entries that are not due are passed over. -/
theorem stepSearch_passes (hn : n = s.sct.active.length) (hp : s.aqs.position ≤ n) (hk : k ≤ n)
    (hc : ∀ j, j < k → ¬ CommitDue s ∨ s.aqs.position + j < n)
    (hno : ∀ j f, j < k → s.sct.active[examinedIndex s n j]? = some f → examinedPass s n j % f.divider ≠ f.phase) :
    stepSearch (fuel + k) n s = stepSearch fuel (n - k) (searched s n k) := by
  induction k generalizing fuel with
  | zero => rfl
  | succ k ih =>
    have hprev := ih (fuel := fuel + 1) (by omega) (fun j hj => hc j (by omega)) (fun j f hj => hno j f (by omega))
    obtain ⟨f, hf⟩ : ∃ f, s.sct.active[examinedIndex s n k]? = some f :=
      ⟨_, List.getElem?_eq_getElem (hn ▸ examinedIndex_lt hp (by omega))⟩
    have hdue : isDue (examinedPass s n k) f = false := by
      simpa [isDue] using hno k f (by omega) hf
    rw [Nat.add_assoc, Nat.add_comm 1 k] at hprev
    rw [hprev, stepSearch_searched hn hp (by omega) (hc k (by omega)) hf, hdue, if_neg Bool.false_ne_true]

/-- The first entry due of those examined is converted. -/
theorem stepSearch_converts (hn : n = s.sct.active.length) (hp : s.aqs.position ≤ n) (hk : k < n) (hfuel : k < fuel)
    (hc : ¬ CommitDue s ∨ s.aqs.position + k < n)
    (hno : ∀ j f, j < k → s.sct.active[examinedIndex s n j]? = some f → examinedPass s n j % f.divider ≠ f.phase)
    (he : s.sct.active[examinedIndex s n k]? = some e) (hdue : examinedPass s n k % e.divider = e.phase) :
    stepSearch fuel n s =
      asked (examinedIndex s n k) e (s.setAqs { s.aqs with pass := examinedPass s n k }) := by
  obtain ⟨rest, rfl⟩ : ∃ rest, fuel = rest + 1 + k := ⟨fuel - k - 1, by omega⟩
  rw [stepSearch_passes hn hp hk.le (fun j hj => hc.imp_right (by omega)) hno, stepSearch_searched hn hp hk hc he,
    if_pos (by simpa [isDue] using hdue), convertAt_eq]
  rfl

/-- With none due of all entries the tick is void: the search has gone once round the table. -/
theorem stepSearch_void (hn : n = s.sct.active.length) (hpos : 0 < n) (hp : s.aqs.position ≤ n) (hfuel : n ≤ fuel)
    (hc : ¬ CommitDue s ∨ s.aqs.position = 0)
    (hno : ∀ j f, j < n → s.sct.active[examinedIndex s n j]? = some f → examinedPass s n j % f.divider ≠ f.phase) :
    stepSearch fuel n s =
      s.setAqs { s.aqs with
        pass := if s.aqs.position = 0 then s.aqs.pass else passAfter s
        position := if s.aqs.position = 0 then n else s.aqs.position } := by
  obtain ⟨rest, rfl⟩ : ∃ rest, fuel = rest + n := ⟨fuel - n, by omega⟩
  rw [stepSearch_passes hn hp (Nat.le_refl n) (fun j hj => hc.imp_right (by omega)) hno, Nat.sub_self, stepSearch_done]
  obtain ⟨m, rfl⟩ : ∃ m, n = m + 1 := ⟨n - 1, by omega⟩
  have hpass : examinedPass s (m + 1) m = if s.aqs.position = 0 then s.aqs.pass else passAfter s :=
    if_congr (by omega) rfl rfl
  have hindex : examinedIndex s (m + 1) m + 1 = if s.aqs.position = 0 then m + 1 else s.aqs.position := by
    simp only [examinedIndex]
    split <;> split <;> omega
  rw [searched_succ, hpass, hindex]

/-! ## The switch in the search (R90) -/

/-- The search that crosses the boundary with a commit due goes on from entry 0 of the new table. -/
theorem stepSearch_switches (h : CommitDue s) (hp : s.sct.active.length ≤ s.aqs.position) (hleft : left ≠ 0)
    (hw : 0 < s.sct.working.length) :
    stepSearch (fuel + 1) left s = stepSearch (fuel + 1) s.sct.working.length (switched s) := by
  have hboundary : examining s = switched s := (examining_past hp).trans ((passBoundary_at s).switches h)
  have hat : examining (switched s) = switched s := examining_inside hw
  have hround : leftAfter left s = s.sct.working.length := by
    refine (if_pos (by simp [hp, (switchDue_iff s).mpr h])).trans ?_
    rw [hboundary]
    rfl
  rw [stepSearch_round fuel hleft, stepSearch_round fuel (by omega), hboundary, hat, hround,
    leftAfter_inside (s := switched s) hw]

/-- With an empty new table the search ends at the switch. -/
theorem stepSearch_switches_empty (h : CommitDue s) (hp : s.sct.active.length ≤ s.aqs.position) (hleft : left ≠ 0)
    (hw : s.sct.working = []) : stepSearch (fuel + 1) left s = switched s := by
  have hboundary : examining s = switched s := (examining_past hp).trans ((passBoundary_at s).switches h)
  have hnone : (switched s).sct.active[(switched s).aqs.position]? = none :=
    (congrArg (fun l => l[0]?) (show (switched s).sct.active = [] from hw))
  rw [stepSearch_round fuel hleft, hboundary, hnone]

theorem switched_not_due (s : State) : ¬ CommitDue (switched s) := fun h => Bool.false_ne_true h.1

theorem exec_paceTick_missed (h : s.aqs.nextTick = some tick) (hm : s.aqs.mode = .step) (hq : s.cvp.inFlight ≠ none) :
    exec .paceTick s = .next (missed (ticked tick s)) := by
  have hsome : (ticked tick s).cvp.inFlight.isSome = true := Option.isSome_iff_ne_none.mpr hq
  rw [exec_paceTick_step h hm, stepTick, if_pos hsome, missedTick_eq]

theorem exec_paceTick_search (h : s.aqs.nextTick = some tick) (hm : s.aqs.mode = .step) (hq : s.cvp.inFlight = none) :
    exec .paceTick s = .next
      (stepSearch (s.sct.active.length + s.sct.working.length + 1) s.sct.active.length (ticked tick s)) := by
  have hnone : ¬ (ticked tick s).cvp.inFlight.isSome = true := by
    rw [show (ticked tick s).cvp.inFlight = none from hq]
    exact Bool.false_ne_true
  rw [exec_paceTick_step h hm, stepTick, if_neg hnone]
  rfl

/-- With none due before the boundary, the search reaches it. -/
theorem searched_boundary (hp : s.aqs.position ≤ n) :
    searched s n (n - s.aqs.position) = s.setAqs { s.aqs with position := n } := by
  cases hk : n - s.aqs.position with
  | zero =>
    have hpos : s.aqs.position = n := by omega
    rw [searched_zero, ← hpos]
    rfl
  | succ k =>
    have hinside : s.aqs.position + k < n := by omega
    have hlast : s.aqs.position + k + 1 = n := by omega
    rw [searched_succ, examinedPass, if_pos hinside, examinedIndex, if_pos hinside, hlast]

/-- With none due before the boundary, a search with a commit due comes to stand past the last entry. -/
theorem stepSearch_reaches (w : Nat) (hn : n = s.sct.active.length) (hpos : 0 < s.aqs.position) (hp : s.aqs.position ≤ n)
    (hno : ∀ j f, s.aqs.position ≤ j → s.sct.active[j]? = some f → s.aqs.pass % f.divider ≠ f.phase) :
    stepSearch (n + w + 1) n s = stepSearch (s.aqs.position + w + 1) s.aqs.position (s.setAqs { s.aqs with position := n }) := by
  have hskip := stepSearch_passes (k := n - s.aqs.position) (fuel := s.aqs.position + w + 1) hn hp (by omega)
    (fun j hj => .inr (by omega)) (fun j f hj hf => by
      have hinside : s.aqs.position + j < n := by omega
      rw [examinedIndex, if_pos hinside] at hf
      rw [examinedPass, if_pos hinside]
      exact hno _ f (by omega) hf)
  rwa [searched_boundary hp, show s.aqs.position + w + 1 + (n - s.aqs.position) = n + w + 1 by omega,
    show n - (n - s.aqs.position) = s.aqs.position by omega] at hskip

/-- A search with a commit due and none due before the boundary is a search of the new table from entry 0. -/
theorem stepSearch_crosses (hn : n = s.sct.active.length) (hc : CommitDue s) (hpos : 0 < s.aqs.position)
    (hp : s.aqs.position ≤ n) (hw : 0 < s.sct.working.length)
    (hno : ∀ j f, s.aqs.position ≤ j → s.sct.active[j]? = some f → s.aqs.pass % f.divider ≠ f.phase) :
    stepSearch (n + s.sct.working.length + 1) n s =
      stepSearch (s.aqs.position + s.sct.working.length + 1) s.sct.working.length (switched s) := by
  rw [stepSearch_reaches _ hn hpos hp hno]
  exact stepSearch_switches (s := s.setAqs { s.aqs with position := n }) hc (le_of_eq hn.symm) (by omega) hw

theorem stepSearch_crosses_empty (hn : n = s.sct.active.length) (hc : CommitDue s) (hpos : 0 < s.aqs.position)
    (hp : s.aqs.position ≤ n) (hw : s.sct.working = [])
    (hno : ∀ j f, s.aqs.position ≤ j → s.sct.active[j]? = some f → s.aqs.pass % f.divider ≠ f.phase) :
    stepSearch (n + s.sct.working.length + 1) n s = switched s := by
  rw [stepSearch_reaches _ hn hpos hp hno]
  exact stepSearch_switches_empty (s := s.setAqs { s.aqs with position := n }) hc (le_of_eq hn.symm) (by omega) hw

/-- A search from entry 0 on pass 0 converts the first entry of phase 0 (R79). -/
theorem stepSearch_fresh_converts (hn : n = s.sct.active.length) (hp : s.aqs.position = 0) (hpass : s.aqs.pass = 0)
    (hfuel : n ≤ fuel) (he : s.sct.active[j]? = some e) (hphase : e.phase = 0)
    (hno : ∀ i f, i < j → s.sct.active[i]? = some f → f.phase ≠ 0) : stepSearch fuel n s = asked j e s := by
  have hj : j < n := hn ▸ (List.getElem?_eq_some_iff.mp he).1
  have hindex : ∀ i, i < n → examinedIndex s n i = i := fun i hi => by
    rw [examinedIndex, hp, Nat.zero_add, if_pos hi]
  have hexamined : ∀ i, i < n → examinedPass s n i = 0 := fun i hi => by
    rw [examinedPass, hp, Nat.zero_add, if_pos hi, hpass]
  have hfound := stepSearch_converts (fuel := fuel) (k := j) (e := e) hn (by omega) hj (by omega) (.inr (by omega))
    (fun i f hi hf => by
      rw [hindex i (by omega)] at hf
      rw [hexamined i (by omega), Nat.zero_mod]
      exact fun h => hno i f hi hf h.symm)
    (by rw [hindex j hj, he]) (by rw [hexamined j hj, hphase, Nat.zero_mod])
  rwa [hindex j hj, hexamined j hj, ← hpass] at hfound

theorem stepSearch_fresh_void (hn : n = s.sct.active.length) (hlen : 0 < n) (hp : s.aqs.position = 0) (hpass : s.aqs.pass = 0)
    (hfuel : n ≤ fuel) (hno : ∀ f ∈ s.sct.active, f.phase ≠ 0) :
    stepSearch fuel n s = s.setAqs { s.aqs with position := n } := by
  have hvoid := stepSearch_void (fuel := fuel) hn hlen (by omega) hfuel (.inr hp) (fun j f hj hf => by
    rw [examinedPass, hp, Nat.zero_add, if_pos hj, hpass, Nat.zero_mod]
    exact fun h => hno f (List.mem_of_getElem? hf) h.symm)
  rwa [if_pos hp, if_pos hp] at hvoid

/-- Settles O37: the search examines the table once round, and where a switch is due it goes on in the new table. -/
theorem stepTickConvertsTheNextDueEntry : Obligations.StepTickConvertsTheNextDueEntry := by
  refine ⟨fun s => exec_paceTick_stopped, fun s tick n ht hm hn => ⟨exec_paceTick_missed ht hm, fun hq hp => ⟨?found, ?void⟩,
    fun hq hc hpos hp hno => ⟨?switchFound, ?switchVoid⟩⟩⟩
  case found =>
    intro k e hk hc hno he hdue
    rw [exec_paceTick_search ht hm hq, ← hn]
    exact congrArg Host.Outcome.next (stepSearch_converts (s := ticked tick s) hn hp hk (by omega) hc hno he hdue)
  case void =>
    intro hlen hc hno
    rw [exec_paceTick_search ht hm hq, ← hn]
    exact congrArg Host.Outcome.next (stepSearch_void (s := ticked tick s) hn hlen hp (by omega) hc hno)
  case switchFound =>
    intro j e he hphase hfirst
    have hlen : 0 < s.sct.working.length := Nat.zero_lt_of_lt (List.getElem?_eq_some_iff.mp he).1
    rw [exec_paceTick_search ht hm hq, ← hn]
    exact congrArg Host.Outcome.next ((stepSearch_crosses (s := ticked tick s) hn hc hpos hp hlen hno).trans
      (stepSearch_fresh_converts (s := switched (ticked tick s)) rfl rfl rfl (Nat.le_add_right_of_le (Nat.le_add_left _ _))
        he hphase hfirst))
  case switchVoid =>
    intro hnone
    refine ⟨_, rfl, ?_⟩
    rw [exec_paceTick_search ht hm hq, ← hn]
    refine congrArg Host.Outcome.next ?_
    by_cases hw : s.sct.working = []
    · refine (stepSearch_crosses_empty (s := ticked tick s) hn hc hpos hp hw hno).trans ?_
      rw [hw]
      rfl
    · have hlen : 0 < s.sct.working.length := List.length_pos_iff.mpr hw
      exact (stepSearch_crosses (s := ticked tick s) hn hc hpos hp hlen hno).trans
        (stepSearch_fresh_void (s := switched (ticked tick s)) rfl hlen rfl rfl (Nat.le_add_right_of_le (Nat.le_add_left _ _))
          hnone)

end Sys2Proof.Machine

/-! SUPPORT. The firings of a record in their order (R64, R65), and the route of a record from the completion to the pacing that
follows: placed, evaluated, counted (R113). -/

namespace Sys2Proof.Machine

/-! ## The order of firings (R65) -/

section
variable {f g : Firing} {l : List Firing} {channel i : Nat} {x : Seen} {rules : List Rule}

/-- The firing `a` is dealt with before `b`. -/
def Before (a b : Firing) : Prop := b.priority < a.priority ∨ (a.priority = b.priority ∧ a.rule < b.rule)

theorem insertFiring_nil (f : Firing) : insertFiring f [] = [f] := rfl

theorem insertFiring_cons (f g : Firing) (gs : List Firing) :
    insertFiring f (g :: gs) = if g.priority < f.priority then f :: g :: gs else g :: insertFiring f gs := rfl

theorem mem_insertFiring : g ∈ insertFiring f l ↔ g = f ∨ g ∈ l := by
  induction l with
  | nil => simp [insertFiring_nil]
  | cons y ys ih =>
    rw [insertFiring_cons]
    split
    · simp
    · rw [List.mem_cons, ih, List.mem_cons]
      exact or_left_comm

/-- A firing of a higher index than those of its priority comes to its place. -/
theorem insertFiring_ordered (hl : l.Pairwise Before) (hf : ∀ g ∈ l, g.priority = f.priority → g.rule < f.rule) :
    (insertFiring f l).Pairwise Before := by
  induction l with
  | nil => exact List.pairwise_singleton _ _
  | cons y ys ih =>
    obtain ⟨hy, hys⟩ := List.pairwise_cons.mp hl
    rw [insertFiring_cons]
    split
    · next hlt =>
      refine List.pairwise_cons.mpr ⟨fun z hz => .inl ?_, hl⟩
      rcases List.mem_cons.mp hz with rfl | hz
      · exact hlt
      · rcases hy z hz with h | ⟨h, -⟩ <;> omega
    · next hge =>
      refine List.pairwise_cons.mpr ⟨fun z hz => ?_, ih hys fun z hz => hf z (List.mem_cons_of_mem _ hz)⟩
      rcases mem_insertFiring.mp hz with rfl | hz
      · rcases Nat.lt_or_eq_of_le (Nat.not_lt.mp hge) with h | h
        · exact .inl h
        · exact .inr ⟨h.symm, hf y List.mem_cons_self h.symm⟩
      · exact hy z hz

theorem mem_foldl_insertFiring (fs acc : List Firing) :
    g ∈ fs.foldl (fun acc f => insertFiring f acc) acc ↔ g ∈ fs ∨ g ∈ acc := by
  induction fs generalizing acc with
  | nil => simp
  | cons f fs ih =>
    rw [List.foldl_cons, ih, mem_insertFiring, List.mem_cons, or_left_comm, or_assoc]

theorem mem_orderFirings {fs : List Firing} : g ∈ orderFirings fs ↔ g ∈ fs :=
  (mem_foldl_insertFiring fs []).trans (by simp)

/-- Within a priority the firings of a list come in ascending rule index. -/
def Ascending (fs : List Firing) : Prop := fs.Pairwise fun a b => a.priority = b.priority → a.rule < b.rule

theorem foldl_insertFiring_ordered {fs acc : List Firing} (hacc : acc.Pairwise Before) (hfs : Ascending (acc ++ fs)) :
    (fs.foldl (fun acc f => insertFiring f acc) acc).Pairwise Before := by
  induction fs generalizing acc with
  | nil => exact hacc
  | cons f fs ih =>
    obtain ⟨hleft, hright, hcross⟩ := List.pairwise_append.mp hfs
    obtain ⟨hf, hrest⟩ := List.pairwise_cons.mp hright
    have hordered := insertFiring_ordered hacc fun g hg => hcross g hg f List.mem_cons_self
    refine ih hordered (List.pairwise_append.mpr ⟨?_, hrest, fun a ha b hb => ?_⟩)
    · refine hordered.imp fun {a b} hab he => ?_
      rcases hab with h | ⟨-, h⟩
      · omega
      · exact h
    · rcases mem_insertFiring.mp ha with rfl | ha
      · exact hf b hb
      · exact hcross a ha b (List.mem_cons_of_mem _ hb)

theorem orderFirings_ordered {fs : List Firing} (h : Ascending fs) : (orderFirings fs).Pairwise Before :=
  foldl_insertFiring_ordered List.Pairwise.nil h

theorem ruleFirings_nil : ruleFirings channel x i [] = [] := rfl

theorem ruleFirings_cons (r : Rule) : ruleFirings channel x i (r :: rules) =
    if sees channel r && fires x r then ⟨i, r.fields.priority, r.fields.action⟩ :: ruleFirings channel x (i + 1) rules
    else ruleFirings channel x (i + 1) rules := rfl

/-- The firings of the rules from index `i` on: those of the rules that see the record and fire on it. -/
theorem mem_ruleFirings : g ∈ ruleFirings channel x i rules ↔
    ∃ k r, g.rule = i + k ∧ rules[k]? = some r ∧ sees channel r = true ∧ fires x r = true ∧
      g = ⟨g.rule, r.fields.priority, r.fields.action⟩ := by
  induction rules generalizing i with
  | nil => simp [ruleFirings_nil]
  | cons y ys ih =>
    have hrest : (∃ k r, g.rule = i + k ∧ (y :: ys)[k]? = some r ∧ sees channel r = true ∧ fires x r = true ∧
          g = ⟨g.rule, r.fields.priority, r.fields.action⟩) ↔
        (g.rule = i ∧ sees channel y = true ∧ fires x y = true ∧ g = ⟨g.rule, y.fields.priority, y.fields.action⟩) ∨
          g ∈ ruleFirings channel x (i + 1) ys := by
      rw [ih]
      constructor
      · rintro ⟨k, r, hk, hr, h⟩
        cases k with
        | zero =>
          cases hr
          exact .inl ⟨hk, h⟩
        | succ k => exact .inr ⟨k, r, by omega, hr, h⟩
      · rintro (⟨hk, h⟩ | ⟨k, r, hk, hr, h⟩)
        · exact ⟨0, y, hk, rfl, h⟩
        · exact ⟨k + 1, r, by omega, hr, h⟩
    rw [hrest, ruleFirings_cons]
    split
    · next hy =>
      obtain ⟨hsees, hfires⟩ := Bool.and_eq_true_iff.mp hy
      rw [List.mem_cons]
      refine or_congr_left ⟨fun h => ?_, fun ⟨hi, _, _, h⟩ => hi ▸ h⟩
      subst h
      exact ⟨rfl, hsees, hfires, rfl⟩
    · next hy =>
      refine ⟨.inr, fun h => h.resolve_left ?_⟩
      rintro ⟨-, hsees, hfires, -⟩
      exact hy (by simp [hsees, hfires])

theorem ruleFirings_ascending : (ruleFirings channel x i rules).Pairwise fun a b => a.rule < b.rule := by
  induction rules generalizing i with
  | nil => exact List.Pairwise.nil
  | cons y ys ih =>
    rw [ruleFirings_cons]
    split
    · refine List.pairwise_cons.mpr ⟨fun g hg => ?_, ih⟩
      obtain ⟨k, r, hk, -⟩ := mem_ruleFirings.mp hg
      change i < g.rule
      omega
    · exact ih

/-- FORCE and the firings of the rules, before they are ordered. -/
theorem mem_firingsOf {force : Bool} : g ∈ firingsOf channel x force rules ↔
    (force = true ∧ g = ⟨16, 16, .capture⟩) ∨
      ∃ r, rules[g.rule]? = some r ∧ sees channel r = true ∧ fires x r = true ∧
        g = ⟨g.rule, r.fields.priority, r.fields.action⟩ := by
  rw [firingsOf, mem_orderFirings, List.mem_append, mem_ruleFirings]
  refine or_congr (by cases force <;> simp) ⟨fun ⟨k, r, hk, hr, h⟩ => ⟨r, ?_, h⟩,
    fun ⟨r, hr, h⟩ => ⟨_, r, (Nat.zero_add _).symm, hr, h⟩⟩
  rwa [show g.rule = k by omega]

theorem firingsOf_ordered (force : Bool) (hp : ∀ r ∈ rules, r.fields.priority ≤ 15) :
    (firingsOf channel x force rules).Pairwise Before := by
  have hrules : Ascending (ruleFirings channel x 0 rules) := by
    refine List.Pairwise.imp ?_ ruleFirings_ascending
    exact fun h _ => h
  refine orderFirings_ordered (List.pairwise_append.mpr ⟨by cases force <;> simp, hrules, fun a ha b hb he => ?_⟩)
  obtain ⟨k, r, -, hr, -, -, hb⟩ := mem_ruleFirings.mp hb
  have hprio : b.priority = r.fields.priority := congrArg Firing.priority hb
  have hforce : a.priority = 16 := by
    cases force
    · cases ha
    · rw [List.mem_singleton.mp ha]
  have hle := hp r (List.mem_of_getElem? hr)
  omega

theorem firingsOf_nil (h : ∀ r ∈ rules, sees channel r = true → fires x r = false) :
    firingsOf channel x false rules = [] := by
  rw [List.eq_nil_iff_forall_not_mem]
  intro g hg
  rcases mem_firingsOf.mp hg with ⟨h, -⟩ | ⟨r, hr, hs, hf, -⟩
  · cases h
  · rw [h r (List.mem_of_getElem? hr) hs] at hf
    cases hf

end

/-! ## The route of an answer (R113, R118) -/

section
variable {s t u w : State} {q : Request} {e : ScanEntry} {v : Int} {o : Bool} {d : Descriptor} {page slot : Nat}

theorem signed16_eq (hv : -32768 ≤ v ∧ v ≤ 32767) : signed16 v = v := by
  rw [signed16, BitVec.toInt_ofInt]
  exact Int.bmod_eq_of_le (by omega) (by omega)

/-- A matching answer is routed from the state in which its request is answered. -/
theorem Answered.exec_eq (h : Answered q e v s) : exec (.converterAnswer v o q.tag) s =
    .next (continuePacing q.entry e.hold
      (if e.discard then answered s
        else storeRecord e.channel (answerRecord q e v o s) (handed (answered s)))) := by
  have hpower : ¬ s.power = .startUp := fun hp => by simp [h.ready] at hp
  have hentry : (s.setCvp (answeredPort s.cvp)).sct.active[q.entry]? = some e := h.entry
  change execConverterAnswer v o q.tag s = _
  rw [execConverterAnswer, if_neg hpower]
  simp only [h.flight, if_true, route, hentry, signed16_eq h.value]
  rfl

/-- The record of an answer is stored, and then pacing goes on. -/
theorem Answered.exec_stored (h : Answered q e v s) (hd : e.discard = false)
    (hx : storeRecord e.channel (answerRecord q e v o s) (handed (answered s)) = t) :
    exec (.converterAnswer v o q.tag) s = .next (continuePacing q.entry e.hold t) := by
  rw [h.exec_eq, hd, ← hx]
  rfl

theorem exec_lateAnswer {g : Nat} (hp : s.power = .ready) (h : ∀ q, s.cvp.inFlight = some q → q.tag ≠ g) :
    exec (.converterAnswer v o g) s = .next (lateAnswer s) := by
  have hpower : ¬ s.power = .startUp := fun h => by simp [hp] at h
  change execConverterAnswer v o g s = _
  rw [execConverterAnswer, if_neg hpower]
  cases hq : s.cvp.inFlight with
  | none => rfl
  | some q => simp only [h q hq, if_false]

/-- Settles O39: what is not stored leaves only pacing to go on. -/
theorem lateAndDiscardedAnswersMakeNoRecord : Obligations.LateAndDiscardedAnswersMakeNoRecord := by
  refine ⟨fun v o g s hp h => exec_lateAnswer hp h, fun q e v o s h hd => ⟨_, ?_, continuePacing_goesOn _ _ _⟩⟩
  rw [h.exec_eq, hd]
  rfl

/-! ## Placed, evaluated, counted (R8, R13, R31, R52) -/

/-- The firings of the record that the answer `v` completes for the entry `e` (R59, R64). -/
def answerFirings (e : ScanEntry) (v : Int) (s : State) : List Firing :=
  firingsOf e.channel (seen v s) s.aqs.forcePending s.tgm.rules.toList

theorem answerFirings_nil (h : NothingFires e.channel v s) : answerFirings e v s = [] := by
  change firingsOf e.channel (seen v s) s.aqs.forcePending s.tgm.rules.toList = []
  rw [h.1]
  exact firingsOf_nil h.2

/-- A record that is placed has its firings dealt with, and then it is counted. -/
theorem storeRecord_stored {c : Nat} {r : Record} {p : Placement} {x : State} (hr : r.err = false) (hp : p ≠ .refused)
    (h : placeRecord r x = (p, w)) (ha : w.aqs.forcePending = s.aqs.forcePending ∧ w.aqs.convTick = s.aqs.convTick)
    (ht : w.tgm = s.tgm) (hl : w.trgin = s.trgin) :
    storeRecord c r x =
      afterEvaluation p
        (dealFirings ⟨r, s.aqs.convTick, triggerPlace p⟩ (firingsOf c (seen r.value s) s.aqs.forcePending s.tgm.rules.toList)
          .first (evaluated c r.value w)).1
        (dealFirings ⟨r, s.aqs.convTick, triggerPlace p⟩ (firingsOf c (seen r.value s) s.aqs.forcePending s.tgm.rules.toList)
          .first (evaluated c r.value w)).2 := by
  simp only [storeRecord, h, hp, hr, if_false, Bool.false_eq_true]
  exact evaluateStored_deals ha ht hl rfl

theorem placeRecord_ring {r : Record} (hf : fillingSegment s = none) (h : RingPlaced page slot s w) :
    placeRecord r s = (.ring, writeSlot page slot r w) := by
  simp only [placeRecord, hf, h.place r]

theorem placeRecord_unplaced {r : Record} (hf : fillingSegment s = none) (hr : s.sst.ring = []) (hp : s.sst.pool = []) :
    placeRecord r s = (.unplaced, s) := by
  simp only [placeRecord, hf, placeInRing_unplaced hr hp]

theorem placeRecord_segment {r : Record} (hf : fillingSegment s = some d) (h : SegmentPlaced d page slot s w) :
    placeRecord r s = (.segment, writeSlot page slot r w) := by
  simp only [placeRecord, hf, h.place r]

/-- What the firings of a record make of the state in which they are dealt with. -/
def dealt (q : Request) (e : ScanEntry) (v : Int) (o : Bool) (s : State) (place : TriggerPlace) (x : State) :
    CaptureContext × State :=
  dealFirings ⟨answerRecord q e v o s, s.aqs.convTick, place⟩ (answerFirings e v s) .first x

theorem dealt_eq (q : Request) (e : ScanEntry) (v : Int) (o : Bool) (s : State) (place : TriggerPlace) (x : State) :
    dealt q e v o s place x =
      dealFirings ⟨answerRecord q e v o s, s.aqs.convTick, place⟩ (answerFirings e v s) .first x := rfl

/-- A record in the ring: a segment opened on it makes its close check. -/
theorem storeRecord_ring (hf : fillingSegment s = none) (hp : RingPlaced page slot (handed (answered s)) w) :
    storeRecord e.channel (answerRecord q e v o s) (handed (answered s)) =
      (let x := dealt q e v o s .ring (evaluated e.channel v (writeSlot page slot (answerRecord q e v o s) w))
        if x.1 = .opened then closeCheck x.2 else x.2) := by
  obtain ⟨haqs, htgm, hline, -⟩ := hp.keeps
  have hmarks : w.aqs.forcePending = s.aqs.forcePending ∧ w.aqs.convTick = s.aqs.convTick := by
    rw [haqs]
    exact ⟨rfl, rfl⟩
  rw [storeRecord_stored (s := s) rfl (nofun : Placement.ring ≠ .refused)
    (placeRecord_ring (s := handed (answered s)) hf hp) hmarks htgm hline]
  rfl

/-- An unplaced record: it is lost, unless a segment opened on it, which makes its close check. -/
theorem storeRecord_unplaced (hf : fillingSegment s = none) (hr : s.sst.ring = []) (hp : s.sst.pool = []) :
    storeRecord e.channel (answerRecord q e v o s) (handed (answered s)) =
      (let x := dealt q e v o s .unplaced (evaluated e.channel v (handed (answered s)))
        if x.1 = .opened then closeCheck x.2 else countLoss x.2) := by
  rw [storeRecord_stored (s := s) rfl (nofun : Placement.unplaced ≠ .refused)
    (placeRecord_unplaced (s := handed (answered s)) hf hr hp) ⟨rfl, rfl⟩ rfl rfl]
  rfl

/-- A record in the FILLING segment is counted, and the segment makes its close check. -/
theorem storeRecord_segment (hf : fillingSegment s = some d) (hp : SegmentPlaced d page slot (handed (answered s)) w) :
    storeRecord e.channel (answerRecord q e v o s) (handed (answered s)) =
      countRecord false
        (dealt q e v o s .ring (evaluated e.channel v (writeSlot page slot (answerRecord q e v o s) w))).2 := by
  obtain ⟨haqs, htgm, hline, -⟩ := hp.keeps
  have hmarks : w.aqs.forcePending = s.aqs.forcePending ∧ w.aqs.convTick = s.aqs.convTick := by
    rw [haqs]
    exact ⟨rfl, rfl⟩
  rw [storeRecord_stored (s := s) rfl (nofun : Placement.segment ≠ .refused)
    (placeRecord_segment (s := handed (answered s)) hf hp) hmarks htgm hline]
  rfl

/-- A slot written before the evaluation, in the words of SlotWritten and SameButSlots. -/
theorem evaluated_written {r : Record} {c : Nat} (h : ∀ a, slotRecord w a = slotRecord s a) :
    SlotWritten page slot r s (evaluated c v (writeSlot page slot r w)) ∧
      SameButSlots (evaluated c v (writeSlot page slot r w)) (evaluated c v w) :=
  ⟨(writeSlot_written h).1, rfl⟩

/-- The record placed in the FILLING segment is one more taken (R31). -/
def counted (s : State) : State := { s with sgm := withFilling (fun y => { y with postTaken := y.postTaken + 1 }) s.sgm }

theorem countRecord_eq (s : State) : countRecord false s = closeCheck (counted s) := by
  have hf : countedDescriptor false = fun y => { y with postTaken := y.postTaken + 1 } := by
    funext y
    simp [countedDescriptor]
  rw [countRecord, hf]
  rfl

theorem countRecord_checked (s : State) : CloseChecked (counted s) (countRecord false s) := by
  rw [countRecord_eq]
  exact closeCheck_checked _

theorem checked_of_opened {ctx : CaptureContext} (h : ctx = .opened) (s t : State) :
    CloseChecked s (if ctx = .opened then closeCheck s else t) := by
  rw [if_pos h]
  exact closeCheck_checked s

/-- Settles O48: the firings in their order, and the route of a record by its place. -/
theorem firingsAreOrderedByPriority : Obligations.FiringsAreOrderedByPriority := by
  refine ⟨fun channel x force rules hp => ⟨firingsOf_ordered force hp, fun g => mem_firingsOf⟩, ?_⟩
  rintro q e v o s r fs h hd rfl rfl
  refine ⟨fun hf page slot w hp => ?ring, fun hf hr hp => ?unplaced, fun d page slot w hf hp => ?segment⟩
  case ring =>
    obtain ⟨hslot, hsame⟩ := evaluated_written (r := answerRecord q e v o s) (c := e.channel) (v := v) hp.slots
    refine ⟨_, _, _, _, _, hslot, hsame, rfl, fun hctx => if_neg hctx, fun hctx => ?_, h.exec_stored hd (storeRecord_ring hf hp),
      continuePacing_goesOn _ _ _⟩
    exact checked_of_opened hctx _ _
  case unplaced =>
    refine ⟨_, _, _, _, rfl, fun hctx => if_neg hctx, fun hctx => ?_, h.exec_stored hd (storeRecord_unplaced hf hr hp),
      continuePacing_goesOn _ _ _⟩
    exact checked_of_opened hctx _ _
  case segment =>
    obtain ⟨hslot, hsame⟩ := evaluated_written (r := answerRecord q e v o s) (c := e.channel) (v := v) hp.slots
    exact ⟨_, _, _, _, _, hslot, hsame, rfl, countRecord_checked _,
      h.exec_stored hd (storeRecord_segment hf hp), continuePacing_goesOn _ _ _⟩

end

end Sys2Proof.Machine

/-! SUPPORT. A record on which nothing fires: in the ring, in the FILLING segment, or refused a page; and the ERR record of a
timeout (R8, R13, R14, R34, R37, R119, R122). -/

namespace Sys2Proof.Machine

variable {s t u w x : State} {q : Request} {e : ScanEntry} {v : Int} {o : Bool} {d : Descriptor} {page slot priority : Nat}
  {r : Record}

/-! ## Quiet records -/

theorem dealt_quiet (h : NothingFires e.channel v s) (place : TriggerPlace) (x : State) :
    dealt q e v o s place x = (.first, x) := by
  rw [dealt_eq, answerFirings_nil h]
  rfl

theorem storeRecord_ring_quiet (hn : NothingFires e.channel v s) (hf : fillingSegment s = none)
    (hp : RingPlaced page slot (handed (answered s)) w) :
    storeRecord e.channel (answerRecord q e v o s) (handed (answered s)) =
      evaluated e.channel v (writeSlot page slot (answerRecord q e v o s) w) := by
  rw [storeRecord_ring hf hp, dealt_quiet hn]
  rfl

theorem storeRecord_unplaced_quiet (hn : NothingFires e.channel v s) (hf : fillingSegment s = none) (hr : s.sst.ring = [])
    (hp : s.sst.pool = []) :
    storeRecord e.channel (answerRecord q e v o s) (handed (answered s)) =
      countLoss (evaluated e.channel v (handed (answered s))) := by
  rw [storeRecord_unplaced hf hr hp, dealt_quiet hn]
  rfl

/-- Settles O40: each case of R8 is a place of the record in the ring. -/
theorem recordGoesToTheRing : Obligations.RecordGoesToTheRing := by
  intro q e v o s h hd hf hn
  have hplaced : ∀ page slot w, RingPlaced page slot (handed (answered s)) w →
      let u := storeRecord e.channel (answerRecord q e v o s) (handed (answered s))
      SlotWritten page slot (answerRecord q e v o s) s u ∧ SameButSlots u (evaluated e.channel v w) := fun page slot w hp => by
    simp only [storeRecord_ring_quiet hn hf hp]
    exact evaluated_written hp.slots
  refine ⟨_, _, h.exec_stored hd rfl, continuePacing_goesOn _ _ _, fun page fill older hr hfill hlt => ?room,
    fun page rest hr hl hp => ?pool, fun page rest hr hfill hl => ?recycle, fun hr hp => ?unplaced⟩
  case room => exact hplaced page fill _ (.inl ⟨older, hr, hfill, hlt, rfl⟩)
  case pool =>
    exact hplaced page 0 _ (.inr (.inl ⟨rfl, hr, hl, by
      change s.sst.pool.head? = _
      rw [hp]
      rfl, rfl⟩))
  case recycle => exact hplaced page 0 _ (.inr (.inr ⟨rfl, hfill, hl, rest, hr, rfl⟩))
  case unplaced => exact storeRecord_unplaced_quiet hn hf hr hp

/-! ## Gains seen past the rules and the sequencer -/

/-- A displacement does not read the rules or the sequencer. -/
theorem Displaced.past {forPage : Bool} (h : Displaced priority forPage s u) (g : Tgm) (a : Aqs) :
    Displaced priority forPage { s with tgm := g, aqs := a } { u with tgm := g, aqs := a } := by
  obtain ⟨before, d, after, ht, hd, hb, hu, hs⟩ := h
  obtain ⟨hpower, htrgin, hons, -, hsct, -, hcvp, hlki, hcmp, hpending⟩ := hu.others
  exact ⟨before, d, after, ht, hd, hb, ⟨hu.segments, hu.store, hu.reports, hpower, htrgin, hons, rfl, hsct, rfl, hcvp, hlki, hcmp,
    hpending⟩, hs⟩

/-- A page gained does not depend on the rules or the sequencer. -/
theorem PageGained.past (h : PageGained priority page s u) (g : Tgm) (a : Aqs) :
    PageGained priority page { s with tgm := g, aqs := a } { u with tgm := g, aqs := a } := by
  obtain ⟨v, ⟨hp, rfl⟩ | ⟨hp, hx, hd⟩, hh, rfl⟩ := h
  · exact ⟨_, .inl ⟨hp, rfl⟩, hh, rfl⟩
  · exact ⟨_, .inr ⟨hp, hx, hd.past g a⟩, hh, rfl⟩

/-- What a page gained after the evaluation is before it. -/
theorem PageGained.before_evaluation {c : Nat} (h : PageGained priority page (evaluated c v s) u) :
    ∃ y, PageGained priority page s y ∧ u = evaluated c v y := by
  obtain ⟨haqs, htgm, hline, -⟩ := h.keeps
  refine ⟨{ u with tgm := s.tgm, aqs := s.aqs }, h.past s.tgm s.aqs, ?_⟩
  cases u
  subst haqs htgm hline
  rfl

/-! ## Changes of the FILLING segment -/

/-- Two changes of the FILLING segment, the first of which leaves it FILLING, are one. -/
theorem withFilling_twice {f g : Descriptor → Descriptor} (hf : ∀ d, isFilling (f d) = isFilling d) (x : Sgm) :
    withFilling g (withFilling f x) = withFilling (g ∘ f) x := by
  have htable : ∀ l : List Descriptor, modifyFirst isFilling g (modifyFirst isFilling f l) = modifyFirst isFilling (g ∘ f) l := by
    intro l
    induction l with
    | nil => rfl
    | cons y ys ih =>
      cases hy : isFilling y with
      | true => simp [modifyFirst, hy, hf]
      | false => simp [modifyFirst, hy, ih]
  simp only [withFilling, htable]

/-- What is found as the FILLING segment after a change that leaves it FILLING. -/
theorem fillingSegment_withFilling {f : Descriptor → Descriptor} (hf : ∀ d, isFilling (f d) = isFilling d)
    (h : fillingSegment s = some d) (ht : t.sgm = withFilling f s.sgm) : fillingSegment t = some (f d) := by
  have hd : isFilling d = true := List.find?_some h
  rw [fillingSegment, ht]
  exact find_modifyFirst h ((hf d).trans hd)

theorem withClosed_false (g : Sgm) : withClosed false g = withFilling (fun x => { x with state := .complete }) g := by
  have hf : (fun x : Descriptor => { x with
      state := .complete, flags := { x.flags with truncated := x.flags.truncated || false } }) =
      fun x => { x with state := .complete } := by
    funext x
    simp
  rw [withClosed, hf]

theorem withClosed_true (g : Sgm) :
    withClosed true g = withFilling (fun x => { x with state := .complete, flags := { x.flags with truncated := true } }) g := by
  have hf : (fun x : Descriptor => { x with
      state := .complete, flags := { x.flags with truncated := x.flags.truncated || true } }) =
      fun x => { x with state := .complete, flags := { x.flags with truncated := true } } := by
    funext x
    simp
  rw [withClosed, hf]

/-! ## Slots past a close -/

theorem slotRecord_congr (hs : t.sst.slots = s.sst.slots) (hp : t.powerOns = s.powerOns) (a : Nat) :
    slotRecord t a = slotRecord s a := by simp only [slotRecord, hs, hp]

theorem SlotWritten.congr (h : SlotWritten page slot r s t) (hu : ∀ a, slotRecord u a = slotRecord t a) :
    SlotWritten page slot r s u := fun a => (hu a).trans (h a)

/-- An entry into IDLE or HALTED with a slot written is one without, but for the slots. -/
theorem Entered.past_slot {st : AcqState} {reason : AcqReason} (h : Entered st reason (writeSlot page slot r s) u) :
    (∃ z, Entered st reason s z ∧ SameButSlots u z) ∧ ∀ a, slotRecord u a = slotRecord (writeSlot page slot r s) a := by
  obtain ⟨hpower, htrgin, hons, htgm, hlki, hcmp, hpending⟩ := h.others
  refine ⟨⟨{ u with sst := { u.sst with slots := s.sst.slots } }, ⟨h.sequencer, h.converter, h.segments, ?_, h.scanTable,
    h.reports, hpower, htrgin, hons, htgm, hlki, hcmp, hpending⟩, rfl⟩, slotRecord_congr (by rw [h.store]; rfl) hons⟩
  rw [h.store]
  rfl

/-! ## Records in the FILLING segment -/

theorem storeRecord_segment_quiet (hn : NothingFires e.channel v s) (hf : fillingSegment s = some d)
    (hp : SegmentPlaced d page slot (handed (answered s)) w) :
    storeRecord e.channel (answerRecord q e v o s) (handed (answered s)) =
      closeCheck (writeSlot page slot (answerRecord q e v o s) (counted (evaluated e.channel v w))) := by
  rw [storeRecord_segment hf hp, dealt_quiet hn, countRecord_eq]
  rfl

/-- A place in the FILLING segment before the evaluation, from one after it: the state `w` has the record placed, evaluated and
counted, but for its slot. -/
theorem segmentPlaced_of_evaluated {place : Nat} (hplace : place = placeIn d) (hpage : place / 32 = d.pages.length → place % 32 = 0)
    (hw : (d.pages[place / 32]? = some page ∧ w = counted (evaluated e.channel v s)) ∨
      (place / 32 = d.pages.length ∧ ∃ y, PageGained d.primaryPriority page (evaluated e.channel v s) y ∧
        w = { y with
          sgm := withFilling (fun x => { x with postTaken := x.postTaken + 1, pages := x.pages ++ [page] }) y.sgm })) :
    ∃ x, SegmentPlaced d page (place % 32) s x ∧ counted (evaluated e.channel v x) = w := by
  subst hplace
  rcases hw with ⟨hp, rfl⟩ | ⟨hp, y, hy, rfl⟩
  · exact ⟨s, .inl ⟨hp, rfl, rfl⟩, rfl⟩
  · obtain ⟨y, hgained, rfl⟩ := hy.before_evaluation
    exact ⟨_, .inr ⟨hp.ge, hpage hp, y, hgained, rfl⟩, congrArg (fun g => { evaluated e.channel v y with sgm := g })
      (withFilling_twice (f := fun x => { x with pages := x.pages ++ [page] }) (fun _ => rfl) y.sgm)⟩

theorem slotRecord_closeCheck (s : State) (a : Nat) : slotRecord (closeCheck s) a = slotRecord s a :=
  slotRecord_congr (closeCheck_calm s).slots (closeCheck_inner (s := s)).powerOns a

/-- Settles O41: the record placed, evaluated and counted, the close check says what becomes of the segment. -/
theorem recordGoesToTheFillingSegment : Obligations.RecordGoesToTheFillingSegment := by
  intro q e v o s w d page place h hd hacq hf hok hpages hn hplace hw
  have hpage : place / 32 = d.pages.length → place % 32 = 0 := by
    obtain ⟨-, hlen⟩ := windowed_of_ok hok
    omega
  obtain ⟨x, hplaced, rfl⟩ := segmentPlaced_of_evaluated (s := handed (answered s)) hplace hpage hw
  obtain ⟨haqs, -, -, -, -, hsettings⟩ := hplaced.keeps
  have hstate : x.aqs.state = s.aqs.state := by
    rw [haqs]
    rfl
  have hsettings : x.sgm.settings = s.sgm.settings := hsettings
  obtain ⟨pages, hne, hfound⟩ := hplaced.filling hf
  obtain ⟨hwritten, hsame⟩ := writeSlot_written (page := page) (slot := place % 32) (r := answerRecord q e v o s)
    (w := counted (evaluated e.channel v x)) hplaced.slots
  have hfound' := fillingSegment_withFilling (f := fun y => { y with postTaken := y.postTaken + 1 }) (fun _ => rfl) hfound
    (t := writeSlot page (place % 32) (answerRecord q e v o s) (counted (evaluated e.channel v x))) rfl
  have hcheck := closeCheck_checked (writeSlot page (place % 32) (answerRecord q e v o s) (counted (evaluated e.channel v x)))
  refine ⟨_, _, h.exec_stored hd (storeRecord_segment_quiet hn hf hplaced), continuePacing_goesOn _ _ _,
    hwritten.congr (slotRecord_closeCheck _), ?_, ?_, ?_⟩
  · intro hlt
    rw [hcheck.fills _ hfound' hne (Nat.ne_of_lt hlt)]
    exact hsame
  · intro hdone hrun hmode
    have hcloses := hcheck.done _ hfound' hne hdone
    rw [hcloses.goesOn (hstate.trans hrun) ((congrArg CaptureSettings.captureMode hsettings).trans hmode), withClosed_false,
      ← hsettings]
    rfl
  · intro hdone hends
    have hcloses := hcheck.done _ hfound' hne hdone
    have hentered : Entered .idle (if s.aqs.state = .draining then .drained else .singleDone)
        (writeSlot page (place % 32) (answerRecord q e v o s) { counted (evaluated e.channel v x) with
          sgm := withFilling (fun y => { y with state := .complete }) (counted (evaluated e.channel v x)).sgm })
        (closeCheck (writeSlot page (place % 32) (answerRecord q e v o s) (counted (evaluated e.channel v x)))) := by
      rw [← withClosed_false]
      by_cases hdrain : s.aqs.state = .draining
      · rw [if_pos hdrain]
        exact hcloses.drained (hstate.trans hdrain)
      · rw [if_neg hdrain]
        exact hcloses.single (hstate.trans (hacq.resolve_right hdrain))
          ((congrArg CaptureSettings.captureMode hsettings).trans (hends.resolve_left hdrain))
    exact hentered.past_slot.1

/-! ## Want of a page (R14, R37, R38) -/

theorem placeRecord_refused (hf : fillingSegment s = some d) (hp : d.pages.length ≤ placeIn d / 32)
    (hn : NoPageFor d.primaryPriority s) : placeRecord r s = (.refused, starve s) := by
  have hposition : nextPosition d = placeIn d := (Nat.add_assoc _ _ _).symm
  simp only [placeRecord, hf, placeInSegment, hposition, List.getElem?_eq_none hp, hn.take]

theorem storeRecord_refused {c : Nat} (hf : fillingSegment s = some d) (hp : d.pages.length ≤ placeIn d / 32)
    (hn : NoPageFor d.primaryPriority s) : storeRecord c r s = starve s := by
  simp only [storeRecord, placeRecord_refused hf hp hn, if_true]

theorem starve_closes (h : s.sgm.settings.exhaustion ≠ .halt) : Closes true (countLoss s) (starve s) := by
  rw [starve, if_neg h]
  exact closeSegment_closes true _

theorem starve_halts (h : s.sgm.settings.exhaustion = .halt) (ha : acquiring s = true) (h1 : fillCount s ≤ 1) :
    Entered .halted .starved { countLoss s with sgm := withHaltEnd s.sgm } (starve s) := by
  rw [starve, if_pos h]
  exact starvedHalt_entered (s := countLoss s) ha h1

/-- An entry into IDLE or HALTED ends the run. -/
theorem Entered.not_acquiring {st : AcqState} {reason : AcqReason} (h : Entered st reason s u) (hst : st = .idle ∨ st = .halted) :
    acquiring u = false := by
  refine Machine.not_acquiring ?_
  rw [h.sequencer]
  exact hst

theorem continuePacing_ended {index : Nat} {hold : Bool} (h : acquiring s = false) : continuePacing index hold s = s :=
  (continuePacing_goesOn index hold s).ended h

/-- Settles O42: the store refuses the record, and the segment closes as the policy has it. -/
theorem starvedSegmentCloses : Obligations.StarvedSegmentCloses := by
  rintro q e v o s w d h hd hacq hrun hf hplace hn rfl
  have hexec := h.exec_stored (o := o) hd (storeRecord_refused (s := handed (answered s)) hf hplace.ge hn)
  refine ⟨fun hx hst hm => ?goesOn, fun hx hends => ?idle, fun hx => ?halts⟩
  case goesOn =>
    have hcloses := (starve_closes (s := handed (answered s)) hx).goesOn hst hm
    rw [withClosed_true] at hcloses
    refine ⟨_, hexec, ?_⟩
    rw [hcloses]
    exact continuePacing_goesOn _ _ _
  case idle =>
    have hcloses := starve_closes (s := handed (answered s)) hx
    have hentered : Entered .idle (if s.aqs.state = .draining then .drained else .singleDone)
        { countLoss (handed (answered s)) with sgm := withClosed true s.sgm } (starve (handed (answered s))) := by
      by_cases hdrain : s.aqs.state = .draining
      · rw [if_pos hdrain]
        exact hcloses.drained hdrain
      · rw [if_neg hdrain]
        exact hcloses.single (hacq.resolve_right hdrain) (hends.resolve_left hdrain)
    rw [continuePacing_ended (hentered.not_acquiring (.inl rfl))] at hexec
    rw [withClosed_true] at hentered
    exact ⟨_, hexec, hentered⟩
  case halts =>
    have hentered := starve_halts (s := handed (answered s)) hx ((acquiring_iff _).mpr hacq) (runShape_iff.mp hrun).1
    rw [continuePacing_ended (hentered.not_acquiring (.inr rfl))] at hexec
    exact ⟨_, hexec, hentered⟩

/-! ## The route of a timeout (R119, R122) -/

/-- What follows the ERR record: the converter fault at the threshold, and then pacing. -/
def afterTimeout (q : Request) (e : ScanEntry) (s x : State) : State :=
  continuePacing q.entry e.hold (if s.cvp.threshold ≤ s.cvp.consecutive + 1 then converterFault q x else x)

theorem afterTimeout_eq (q : Request) (e : ScanEntry) (s x : State) : afterTimeout q e s x =
    continuePacing q.entry e.hold (if s.cvp.threshold ≤ s.cvp.consecutive + 1 then converterFault q x else x) := rfl

theorem afterTimeout_ends (q : Request) (e : ScanEntry) (s x : State) : TimeoutEnds q e s x (afterTimeout q e s x) where
  below h := by
    rw [afterTimeout_eq, if_neg (by omega)]
    exact continuePacing_goesOn _ _ _
  atThreshold h := by
    have hfault := converterFault_faulted q x
    have hended : acquiring (converterFault q x) = false := by
      cases ha : acquiring x with
      | true => exact (hfault.halts ha).not_acquiring (.inr rfl)
      | false =>
        rw [hfault.ended ha]
        exact ha
    rw [afterTimeout_eq, if_pos h, continuePacing_ended hended]
    exact hfault

theorem exec_conversionTimeout_eq {tm : Nat} (hq : s.cvp.inFlight = some q) (ht : s.cvp.timer = some tm)
    (he : s.sct.active[q.entry]? = some e) : exec .conversionTimeout s =
      .next (afterTimeout q e s
        (if e.discard then timedOut s else storeRecord e.channel (errRecord q e s) (handed (timedOut s)))) := by
  have hentry : (s.setCvp (timedOutPort s.cvp)).sct.active[q.entry]? = some e := he
  change execConversionTimeout s = _
  simp only [execConversionTimeout, hq, ht, route, hentry, afterTimeout_eq]
  by_cases h : s.cvp.threshold ≤ s.cvp.consecutive + 1
  · rw [if_pos h, show decide (s.cvp.threshold ≤ nextConsecutive s.cvp) = true from decide_eq_true h]
    rfl
  · rw [if_neg h, show decide (s.cvp.threshold ≤ nextConsecutive s.cvp) = false from decide_eq_false h]
    rfl

theorem exec_conversionTimeout_stored {tm : Nat} (hq : s.cvp.inFlight = some q) (ht : s.cvp.timer = some tm)
    (he : s.sct.active[q.entry]? = some e) (hd : e.discard = false)
    (hx : storeRecord e.channel (errRecord q e s) (handed (timedOut s)) = x) :
    exec .conversionTimeout s = .next (afterTimeout q e s x) := by
  rw [exec_conversionTimeout_eq hq ht he, hd, ← hx]
  rfl

theorem exec_conversionTimeout_none (h : s.cvp.inFlight = none ∨ s.cvp.timer = none) :
    exec .conversionTimeout s = .next s := by
  change execConversionTimeout s = _
  unfold execConversionTimeout
  split
  · next hq ht => rcases h with h | h <;> simp_all
  · rfl

/-- An ERR record is not evaluated. -/
theorem storeRecord_err {c : Nat} {p : Placement} (hr : r.err = true) (hp : p ≠ .refused) (h : placeRecord r s = (p, w)) :
    storeRecord c r s = afterErr p w := by
  simp only [storeRecord, h, hp, hr, if_false, if_true]

/-- The ERR record placed in the FILLING segment is one more taken, and one more with ERR (R31). -/
def countedErr (s : State) : State :=
  { s with sgm := withFilling (fun x => { x with
      postTaken := x.postTaken + 1, errCount := x.errCount + 1, flags := { x.flags with errsamp := true } }) s.sgm }

theorem countRecord_err (s : State) : countRecord true s = closeCheck (countedErr s) := by
  have hf : countedDescriptor true = fun x => { x with
      postTaken := x.postTaken + 1, errCount := x.errCount + 1, flags := { x.flags with errsamp := true } } := by
    funext x
    simp [countedDescriptor]
  rw [countRecord, hf]
  rfl

/-- Settles O44: the ERR record by its place, and then the fault or pacing. -/
theorem timeoutMakesAnErrRecordOrHalts : Obligations.TimeoutMakesAnErrRecordOrHalts := by
  refine ⟨fun q e tm s hq ht he => ?_, fun s => exec_conversionTimeout_none⟩
  refine ⟨fun hd => ?discarded, fun hd hf page slot w hp => ?ring, fun hd hf hr hp => ?unplaced, fun d hd hf =>
    ⟨fun page slot w v hp hv => ?placed, fun hp hn w hw => ?starved⟩⟩
  case discarded =>
    refine ⟨_, ?_, afterTimeout_ends q e s (timedOut s)⟩
    rw [exec_conversionTimeout_eq hq ht he, hd]
    rfl
  case ring =>
    obtain ⟨hwritten, hsame⟩ := writeSlot_written (page := page) (slot := slot) (r := errRecord q e s) hp.slots
    have hstored := storeRecord_err (c := e.channel) (p := .ring) rfl nofun
      (placeRecord_ring (s := handed (timedOut s)) (r := errRecord q e s) hf hp)
    exact ⟨_, _, exec_conversionTimeout_stored hq ht he hd hstored, hwritten, hsame, afterTimeout_ends _ _ _ _⟩
  case unplaced =>
    have hstored := storeRecord_err (c := e.channel) (p := .unplaced) rfl nofun
      (placeRecord_unplaced (s := handed (timedOut s)) (r := errRecord q e s) hf hr hp)
    exact ⟨_, exec_conversionTimeout_stored hq ht he hd hstored, afterTimeout_ends _ _ _ _⟩
  case placed =>
    subst hv
    obtain ⟨hwritten, hsame⟩ := writeSlot_written (page := page) (slot := slot) (r := errRecord q e s) (w := countedErr w)
      hp.slots
    have hstored := storeRecord_err (c := e.channel) (p := .segment) rfl nofun
      (placeRecord_segment (s := handed (timedOut s)) (r := errRecord q e s) hf hp)
    have hexec := exec_conversionTimeout_stored hq ht he hd hstored
    have hcheck := closeCheck_checked (writeSlot page slot (errRecord q e s) (countedErr w))
    rw [show afterErr .segment (writeSlot page slot (errRecord q e s) w) =
      closeCheck (writeSlot page slot (errRecord q e s) (countedErr w)) from countRecord_err _] at hexec
    obtain ⟨pages, hne, hfound⟩ := hp.filling hf
    have hfound' := fillingSegment_withFilling (f := fun x => { x with
      postTaken := x.postTaken + 1, errCount := x.errCount + 1, flags := { x.flags with errsamp := true } }) (fun _ => rfl) hfound
      (t := writeSlot page slot (errRecord q e s) (countedErr w)) rfl
    constructor
    · intro hopen
      rw [hcheck.fills _ hfound' hne hopen] at hexec
      exact ⟨_, _, hexec, hwritten, hsame, afterTimeout_ends _ _ _ _⟩
    · intro hdone
      exact ⟨_, _, _, hwritten, hsame, hcheck.done _ hfound' hne hdone, hexec, afterTimeout_ends _ _ _ _⟩
  case starved =>
    subst hw
    have hexec := exec_conversionTimeout_stored hq ht he hd (storeRecord_refused (s := handed (timedOut s)) hf hp hn)
    exact ⟨fun hx => ⟨_, _, starve_closes (s := handed (timedOut s)) hx, hexec, afterTimeout_ends _ _ _ _⟩,
      fun hx ha hrun => ⟨_, _, starve_halts (s := handed (timedOut s)) hx ha (runShape_iff.mp hrun).1, hexec,
        afterTimeout_ends _ _ _ _⟩⟩

end Sys2Proof.Machine

/-! SUPPORT. Capture firings (R27 to R33, R38): each outcome with the whole state it leaves, and the segments that single
firings open. -/

namespace Sys2Proof.Machine

variable {s t u y z : State} {d : Descriptor} {f : Descriptor → Descriptor} {rule priority page : Nat} {x : TriggerInfo}
  {ctx : CaptureContext}

/-! ## Retriggers (R32, R33) -/

theorem captureFiring_draining (h : s.aqs.state = .draining) :
    captureFiring rule priority x ctx s = (⟨.draining, none, ctx⟩, s) := by
  simp only [captureFiring, h, if_true]

theorem captureFiring_filling (h : s.aqs.state ≠ .draining) (hd : fillingSegment s = some d) :
    captureFiring rule priority x ctx s =
      (⟨(retrigger rule (firingOffset ctx d) s).1, some d.number, ctx⟩, (retrigger rule (firingOffset ctx d) s).2) := by
  simp only [captureFiring, h, if_false, hd]

theorem listSecondary_eq (e : Secondary) (d : Descriptor) : listSecondary e d = { d with
    secondary := if d.secondary.length < 4 then d.secondary ++ [e] else d.secondary
    secondaryOverflow := if d.secondary.length < 4 then d.secondaryOverflow else min 255 (d.secondaryOverflow + 1) } := by
  unfold listSecondary
  by_cases h : d.secondary.length < 4
  · rw [if_pos h, if_pos h, if_pos (show d.secondary.length < Config.secondaryEntries from h)]
  · rw [if_neg h, if_neg h, if_neg (show ¬ d.secondary.length < Config.secondaryEntries from h)]
    rfl

theorem retrigger_count (hd : fillingSegment s = some d) (h : s.sgm.settings.retrigger = .count) (offset : Nat) :
    retrigger rule offset s =
      (.secondary, { s with sgm := withFilling (fun _ => listSecondary ⟨rule, offset, .secondary⟩ d) s.sgm }) := by
  simp only [retrigger, h, updateFilling_eq hd rfl]

theorem retrigger_extend (hd : fillingSegment s = some d) (h : s.sgm.settings.retrigger = .extend) (offset : Nat) :
    retrigger rule offset s =
      (.extended, { s with
        sgm := withFilling (fun _ => listSecondary ⟨rule, offset, .extended⟩
          (extendWindow offset s.sgm.settings.postRequested d)) s.sgm }) := by
  simp only [retrigger, h, updateFilling_eq hd rfl]

/-! ## Refusals (R28, R30, R36) -/

theorem captureFiring_shared {outcome : FiringOutcome} (h : s.aqs.state ≠ .draining) (hf : fillingSegment s = none) :
    captureFiring rule priority x (.refused outcome) s = shareRefusal outcome s := by
  simp only [captureFiring, h, if_false, hf]

theorem captureFiring_heldOff (h : s.aqs.state ≠ .draining) (hf : fillingSegment s = none) (hh : 0 < s.sgm.holdoff) :
    captureFiring rule priority x .first s = (⟨.heldOff, none, .refused .heldOff⟩, s) := by
  simp only [captureFiring, h, if_false, hf, hh, if_true]

theorem captureFiring_open (h : s.aqs.state ≠ .draining) (hf : fillingSegment s = none) (hh : s.sgm.holdoff = 0) :
    captureFiring rule priority x .first s = openOrRefuse rule priority x s := by
  simp only [captureFiring, h, if_false, hf, hh, Nat.lt_irrefl]

theorem descriptorSlot_none (hl : 32 ≤ s.sgm.table.length)
    (h : s.sgm.settings.exhaustion ≠ .displace ∨ ∀ d ∈ s.sgm.table, ¬ MayBeDisplaced priority false s d) :
    descriptorSlot priority s = none := by
  rw [descriptorSlot, if_neg (show ¬ s.sgm.table.length < Config.descriptors from Nat.not_lt.mpr hl)]
  split
  · next hx => exact displaceOne_none (h.resolve_left fun hne => hne hx)
  · rfl

/-! ## Openings (R15, R16, R28, R29, R38) -/

/-- What a gained descriptor slot leaves for the open. -/
structure OpensFrom (s y : State) : Prop where
  sequencer : y.aqs = s.aqs
  scanTable : y.sct = s.sct
  settings : y.sgm.settings = s.sgm.settings
  next : y.sgm.nextNumber = s.sgm.nextNumber
  ring : y.sst.ring = s.sst.ring ∧ y.sst.ringFill = s.sst.ringFill
  slots : ∀ a, slotRecord y a = slotRecord s a
  filling : fillingSegment y = fillingSegment s

theorem DescriptorGained.opensFrom (h : DescriptorGained priority s y) : OpensFrom s y := by
  rcases h with ⟨-, rfl⟩ | ⟨-, -, hd⟩
  · exact ⟨rfl, rfl, rfl, rfl, ⟨rfl, rfl⟩, fun _ => rfl, rfl⟩
  · have hfilling := hd.filling
    obtain ⟨before, d, after, -, -, -, hu, hs⟩ := hd
    obtain ⟨-, -, hons, -, hsct, haqs, -⟩ := hu.others
    exact ⟨haqs, hsct, by rw [hs], by rw [hs], by rw [hu.store]; exact ⟨rfl, rfl⟩, slotRecord_congr (by rw [hu.store]; rfl) hons,
      hfilling⟩

/-- A change of the FILLING segment reaches the one that has just joined the table. -/
theorem modifyFirst_fresh {l : List Descriptor} (hl : l.find? isFilling = none) (hd : d.state = .filling) :
    modifyFirst isFilling f (l ++ [d]) = l ++ [f d] := by
  induction l with
  | nil => simp [modifyFirst, isFilling, hd]
  | cons y ys ih =>
    rw [List.find?_cons] at hl
    cases hy : isFilling y with
    | true => simp [hy] at hl
    | false =>
      rw [hy] at hl
      simp [modifyFirst, hy, ih hl]

/-- The segment manager with one more segment in its table (R23, R29). -/
def withOpened (d : Descriptor) (g : Sgm) : Sgm := { g with table := g.table ++ [d], nextNumber := (d.number + 1) % 65536 }

theorem withOpened_eq (d : Descriptor) (g : Sgm) :
    withOpened d g = { g with table := g.table ++ [d], nextNumber := (d.number + 1) % 65536 } := rfl

theorem updateFilling_fresh (hf : fillingSegment s = none) (hd : d.state = .filling) (hn : (f d).number = d.number) :
    updateFilling f (joinTable d s) = { s with sgm := withOpened (f d) s.sgm } := by
  have ht : modifyFirst isFilling f (s.sgm.table ++ [d]) = s.sgm.table ++ [f d] := modifyFirst_fresh hf hd
  simp only [updateFilling, joinTable, State.setSgm, ht, withOpened_eq, hn]
  rfl

theorem ringCount_eq {older : List Nat} {newest fill : Nat} (hr : s.sst.ring = older ++ [newest])
    (hfill : s.sst.ringFill = some fill) : ringCount s.sst = 32 * older.length + fill := by
  simp [ringCount, hr, hfill]

/-- The handover of the ring to a segment that has just joined the table (R15). -/
theorem handover_fresh {n p first errors : Nat} (hf : fillingSegment s = none) (hd : d.state = .filling)
    (hn : ringCount s.sst = n) (hp : p = min s.sgm.settings.preRequested (min n s.aqs.sinceSwitch - 1)) (hfirst : first = n - 1 - p)
    (herrors : errors = ((List.range (p + 1)).filter (fun i =>
      (slotRecord s (s.sst.ring.getD ((first + i) / 32) 0 * 32 + (first + i) % 32)).err)).length) :
    handover (joinTable d s) = { s with
      sgm := withOpened (openedDescriptor p 1 errors (s.sst.ring.drop (first / 32)) (first % 32) false false d) s.sgm
      sst := withReturn s.sgm.settings.lowWatermark (s.sst.ring.take (first / 32))
        { s.sst with ring := [], ringFill := none } } := by
  have hpre : handoverPre (joinTable d s) = p := by
    rw [hp, ← hn]
    rfl
  have hat : handoverFirst (joinTable d s) = first := by
    rw [handoverFirst, hpre, hfirst, ← hn]
    rfl
  have herr : countErr (joinTable d s) first (p + 1) = errors := by
    rw [herrors]
    rfl
  simp only [handover, hpre, hat, herr]
  rw [updateFilling_fresh hf hd rfl, returnPages_eq]
  rfl

/-- The first page of a segment on an unplaced record (R16). -/
theorem firstPage_fresh {r : Record} (hf : fillingSegment s = none) (hd : d.state = .filling) (hg : PageGained priority page s z) :
    firstPage priority r (joinTable d s) =
      writeSlot page 0 r { z with sgm := withOpened (openedDescriptor 0 1 0 [page] 0 false false d) z.sgm } := by
  simp only [firstPage, (hg.join d).take]
  rw [updateFilling_fresh (hg.filling.trans hf) hd rfl]

theorem NoPageFor.join (h : NoPageFor priority s) (hd : d.state = .filling) : NoPageFor priority (joinTable d s) := by
  refine ⟨h.1, h.2.imp_right fun hno y hy hmay => ?_⟩
  rcases List.mem_append.mp hy with hy | hy
  · exact hno y hy hmay
  · obtain ⟨hst, -⟩ := hmay
    rw [List.mem_singleton.mp hy, hd] at hst
    cases hst

/-- A segment whose trigger record is lost (R38). -/
theorem firstPage_fresh_lost {r : Record} (hf : fillingSegment s = none) (hd : d.state = .filling) (hn : NoPageFor priority s) :
    firstPage priority r (joinTable d s) = { s with
      sgm := withOpened (openedDescriptor 0 0 0 [] 0 true (decide (s.sgm.settings.exhaustion = .halt)) d) s.sgm
      sst := { s.sst with historyLoss := min 65535 (s.sst.historyLoss + 1) } } := by
  simp only [firstPage, (hn.join hd).take]
  exact updateFilling_fresh (s := countLoss s) hf hd rfl

/-- The descriptor of a segment that a firing opens, before its pages are known (R24). -/
def freshFor (rule priority number : Nat) (x : TriggerInfo) (s : State) : Descriptor :=
  { number := number, run := s.aqs.run, primaryRule := rule, primaryPriority := priority, triggerTick := x.tick,
    triggerEntry := x.record.entry, generation := s.sct.generation, preRequested := s.sgm.settings.preRequested, preTaken := 0,
    postRequested := s.sgm.settings.postRequested, postTaken := 0, maxLength := s.sgm.settings.maxLength, state := .filling,
    flags := noFlags, errCount := 0, secondary := [], secondaryOverflow := 0, pages := [], firstOffset := 0 }

theorem freshFor_eq (rule priority number : Nat) (x : TriggerInfo) (s : State) : freshFor rule priority number x s =
  { number := number, run := s.aqs.run, primaryRule := rule, primaryPriority := priority, triggerTick := x.tick,
    triggerEntry := x.record.entry, generation := s.sct.generation, preRequested := s.sgm.settings.preRequested, preTaken := 0,
    postRequested := s.sgm.settings.postRequested, postTaken := 0, maxLength := s.sgm.settings.maxLength, state := .filling,
    flags := noFlags, errCount := 0, secondary := [], secondaryOverflow := 0, pages := [], firstOffset := 0 } := rfl

theorem OpensFrom.freshDescriptor_eq {number : Nat} (h : OpensFrom s y) (hn : nextSegmentNumber y = number) :
    freshDescriptor rule priority x y = freshFor rule priority number x s := by
  simp only [freshDescriptor, freshFor_eq, hn, h.sequencer, h.scanTable, h.settings]

/-- A capture firing that gains a descriptor opens a segment. -/
theorem captureFiring_opens {number : Nat} (h : s.aqs.state ≠ .draining) (hf : fillingSegment s = none) (hh : s.sgm.holdoff = 0)
    (hg : DescriptorGained priority s y) (hnext : y.sgm.nextNumber < 65536) (hfree : FirstFree y number) :
    captureFiring rule priority x .first s = (⟨.opened, some number, .opened⟩, openSegment rule priority x y) := by
  rw [captureFiring_open h hf hh, openOrRefuse, hg.slot]
  simp only [hfree.next hnext]

/-- The pulse of an open (R47). -/
theorem startPulse_eq (s : State) : startPulse s =
    { s with sgm := { s.sgm with trgout := true, pulseTimer := some s.sgm.settings.pulseWidth } } := rfl

/-- The opening of a segment on the ring, whole. -/
theorem openSegment_ring {number n p first errors fill newest : Nat} {older : List Nat} (h : OpensFrom s y)
    (hf : fillingSegment s = none) (hnumber : nextSegmentNumber y = number) (hplace : x.place = .ring)
    (hr : s.sst.ring = older ++ [newest]) (hfill : s.sst.ringFill = some fill) (hn : n = 32 * older.length + fill)
    (hp : p = min s.sgm.settings.preRequested (min n s.aqs.sinceSwitch - 1)) (hfirst : first = n - 1 - p)
    (herrors : errors = ((List.range (p + 1)).filter (fun i =>
      (slotRecord s (s.sst.ring.getD ((first + i) / 32) 0 * 32 + (first + i) % 32)).err)).length) :
    openSegment rule priority x y = { y with
      sgm := { y.sgm with
        table := y.sgm.table ++ [{ freshFor rule priority number x s with
          preTaken := p, postTaken := 1,
          flags := { noFlags with shortPre := decide (p < s.sgm.settings.preRequested), errsamp := decide (0 < errors) },
          errCount := errors, pages := s.sst.ring.drop (first / 32), firstOffset := first % 32 }],
        nextNumber := (number + 1) % 65536, trgout := true, pulseTimer := some s.sgm.settings.pulseWidth },
      sst := withReturn s.sgm.settings.lowWatermark (s.sst.ring.take (first / 32))
        { y.sst with ring := [], ringFill := none } } := by
  have hhandover := handover_fresh (s := y) (d := freshFor rule priority number x s) (n := n) (p := p) (first := first)
    (errors := errors) (h.filling.trans hf) rfl
    (by rw [ringCount_eq (h.ring.1.trans hr) (h.ring.2.trans hfill), hn])
    (by rw [h.settings, h.sequencer, hp]) hfirst (by simp only [h.slots, h.ring.1, herrors])
  simp only [openSegment, hplace, h.freshDescriptor_eq hnumber, hhandover, startPulse_eq]
  simp only [freshFor_eq, h.ring.1, ← h.settings]
  rfl

/-- The opening of a segment on an unplaced record for which a page is had, whole. -/
theorem openSegment_page {number : Nat} (h : OpensFrom s y) (hf : fillingSegment s = none) (hnumber : nextSegmentNumber y = number)
    (hplace : x.place = .unplaced) (hg : PageGained priority page y z) :
    openSegment rule priority x y = writeSlot page 0 x.record { z with
      sgm := { z.sgm with
        table := z.sgm.table ++ [{ freshFor rule priority number x s with
          flags := { noFlags with shortPre := decide (0 < s.sgm.settings.preRequested) }, postTaken := 1, pages := [page] }],
        nextNumber := (number + 1) % 65536, trgout := true, pulseTimer := some s.sgm.settings.pulseWidth } } := by
  have hpulse := hg.keeps.2.2.2.2.2
  simp only [openSegment, hplace, h.freshDescriptor_eq hnumber,
    firstPage_fresh (h.filling.trans hf) (d := freshFor rule priority number x s) rfl hg, startPulse_eq]
  simp only [freshFor_eq, ← h.settings, ← hpulse]
  rfl

/-- `y` with a segment opened whose trigger record is lost, the firing made in `s` (R38). -/
def withLostOpening (rule priority number : Nat) (x : TriggerInfo) (s y : State) : State :=
  { y with
    sgm := { y.sgm with
      table := y.sgm.table ++ [{ freshFor rule priority number x s with
        flags := { noFlags with
          shortPre := decide (0 < s.sgm.settings.preRequested), truncated := true,
          haltend := decide (s.sgm.settings.exhaustion = .halt) } }],
      nextNumber := (number + 1) % 65536, trgout := true, pulseTimer := some s.sgm.settings.pulseWidth },
    sst := { y.sst with historyLoss := min 65535 (y.sst.historyLoss + 1) } }

theorem openSegment_lost {number : Nat} (h : OpensFrom s y) (hf : fillingSegment s = none) (hnumber : nextSegmentNumber y = number)
    (hplace : x.place = .unplaced) (hn : NoPageFor priority y) :
    openSegment rule priority x y = withLostOpening rule priority number x s y := by
  simp only [openSegment, hplace, h.freshDescriptor_eq hnumber,
    firstPage_fresh_lost (h.filling.trans hf) (d := freshFor rule priority number x s) rfl hn, startPulse_eq]
  simp only [freshFor_eq, withLostOpening, ← h.settings]
  rfl

/-- Settles O49: the branches of a capture firing one by one. -/
theorem captureFiringOutcomes : Obligations.CaptureFiringOutcomes := by
  refine ⟨fun rule priority x ctx s => ⟨captureFiring_draining, fun hst d hd offset ho => ⟨fun hm => ?count, fun hm => ?extend⟩,
    fun hst hf => ⟨fun hctx => ?heldOffAgain, fun hctx => ?noDescriptorAgain, fun hctx hh => ?heldOff,
      fun hctx hh hl hx => ?noDescriptor, fun hctx hh y number d hg hnext hfree hd => ?opened⟩⟩,
    fun x ctx s => ⟨rfl, fun f fs => ⟨fun ha => dealFirings_note ha fs ctx s, fun ha a u hau => dealFirings_capture ha hau fs⟩⟩⟩
  case count =>
    subst ho
    rw [captureFiring_filling hst hd, retrigger_count hd hm, listSecondary_eq]
    rfl
  case extend =>
    subst ho
    rw [captureFiring_filling hst hd, retrigger_extend hd hm, listSecondary_eq]
    rfl
  case heldOffAgain =>
    subst hctx
    rw [captureFiring_shared hst hf]
    rfl
  case noDescriptorAgain =>
    subst hctx
    rw [captureFiring_shared hst hf]
    rfl
  case heldOff =>
    subst hctx
    exact captureFiring_heldOff hst hf hh
  case noDescriptor =>
    subst hctx
    rw [captureFiring_open hst hf hh, openOrRefuse, descriptorSlot_none hl hx]
    rfl
  case opened =>
    subst hctx
    subst hd
    have hopens := hg.opensFrom
    have hnumber := hfree.next hnext
    refine ⟨_, captureFiring_opens hst hf hh hg hnext hfree, fun hplace older newest fill n p f errors hr hfill hn hp hfirst herr =>
      openSegment_ring hopens hf hnumber hplace hr hfill hn hp hfirst herr, fun hplace page z hpage => ?_, fun hplace hpage =>
      openSegment_lost hopens hf hnumber hplace hpage⟩
    rw [openSegment_page hopens hf hnumber hplace hpage]
    exact writeSlot_written fun a => (hpage.slots a).trans (hopens.slots a)

end Sys2Proof.Machine

/-! SUPPORT. A single capture firing that opens a segment on its record: on the ring, on a page had, or on a lost record
(R15, R16, R38). -/

namespace Sys2Proof.Machine

variable {s t u w y z : State} {q : Request} {e : ScanEntry} {v : Int} {o : Bool} {d : Descriptor} {page rule priority number : Nat}
  {place : TriggerPlace}

/-- What the firings of an answer know of its record. -/
def answerInfo (q : Request) (e : ScanEntry) (v : Int) (o : Bool) (s : State) (place : TriggerPlace) : TriggerInfo :=
  ⟨answerRecord q e v o s, s.aqs.convTick, place⟩

/-- The TRIGGER report of a segment opened on the record of an answer is queued (R66). -/
def withOpenReport (q : Request) (v : Int) (rule number : Nat) (s u : State) : State :=
  { u with rpe := withEvent (.trigger rule s.aqs.convTick q.entry v .opened (some number)) u.rpe }

/-- A single capture firing that opens a segment. -/
theorem dealt_opens {x : State} (hs : answerFirings e v s = [⟨rule, priority, .capture⟩])
    (h : captureFiring rule priority (answerInfo q e v o s place) .first x = (⟨.opened, some number, .opened⟩, u)) :
    dealt q e v o s place x = (.opened, withOpenReport q v rule number s u) := by
  rw [dealt_eq, hs]
  exact dealFirings_capture (f := ⟨rule, priority, .capture⟩) rfl h []

/-- The FILLING segment is the one that has just joined the table. -/
theorem fillingSegment_joined (hf : fillingSegment s = none) (hd : d.state = .filling) (ht : t.sgm.table = s.sgm.table ++ [d]) :
    fillingSegment t = some d := by
  rw [fillingSegment, ht]
  exact find?_append_fresh hf hd

/-- A segment that has just joined the table passes its close check while its window goes on. -/
theorem closeCheck_goesOn (hf : fillingSegment s = none) (ht : t.sgm.table = s.sgm.table ++ [d]) (hd : d.state = .filling)
    (hp : d.pages ≠ []) (hpost : d.postTaken < d.postRequested) : closeCheck t = t :=
  (closeCheck_checked t).fills d (fillingSegment_joined hf hd ht) hp (Nat.ne_of_lt hpost)

/-- `s` with the record of an answer in the next slot of the ring's newest page, and evaluated (R8, R52). -/
def evaluatedInRing (q : Request) (e : ScanEntry) (v : Int) (o : Bool) (page fill : Nat) (s : State) : State :=
  evaluated e.channel v (writeSlot page fill (answerRecord q e v o s)
    { handed (answered s) with sst := { s.sst with ringFill := some (fill + 1) } })

/-- A single firing on a record in the ring's newest page opens a segment there, and the segment makes its close check. -/
theorem storeRecord_opens_ring {fill : Nat} {older : List Nat} (hf : fillingSegment s = none) (hrun : s.aqs.state = .running)
    (hh : s.sgm.holdoff = 0) (hl : s.sgm.table.length < 32) (hnext : s.sgm.nextNumber < 65536) (hfree : FirstFree s number)
    (hs : answerFirings e v s = [⟨rule, priority, .capture⟩]) (hr : s.sst.ring = older ++ [page])
    (hfill : s.sst.ringFill = some fill) (hlt : fill < 32) :
    storeRecord e.channel (answerRecord q e v o s) (handed (answered s)) =
      closeCheck (withOpenReport q v rule number s
        (openSegment rule priority (answerInfo q e v o s .ring) (evaluatedInRing q e v o page fill s))) := by
  have hplaced : RingPlaced page fill (handed (answered s)) _ := .inl ⟨older, hr, hfill, hlt, rfl⟩
  have hgained : DescriptorGained priority (evaluatedInRing q e v o page fill s) (evaluatedInRing q e v o page fill s) :=
    .inl ⟨hl, rfl⟩
  have hdraining : (evaluatedInRing q e v o page fill s).aqs.state ≠ .draining := fun hc => by
    have hstate : s.aqs.state = .draining := hc
    simp [hrun] at hstate
  have hdealt := dealt_opens (q := q) (o := o) (place := .ring) hs
    (captureFiring_opens (s := evaluatedInRing q e v o page fill s) hdraining hf hh hgained hnext hfree)
  have hstored := storeRecord_ring (q := q) (e := e) (v := v) (o := o) hf hplaced
  refine hstored.trans ?_
  change (if (dealt q e v o s .ring (evaluatedInRing q e v o page fill s)).1 = .opened
    then closeCheck (dealt q e v o s .ring (evaluatedInRing q e v o page fill s)).2 else _) = _
  rw [hdealt, if_pos rfl]

/-- Settles O43: the record placed, the firing hands the ring over to the new segment, whose window goes on. -/
theorem firingOpensASegmentOnTheRing : Obligations.FiringOpensASegmentOnTheRing := by
  intro q e v o s rule priority number fill n p f page older h hd hrun hf hh hl hnext hfree hfirings hr hfill hlt hpost hn hp hfirst
  have hnumber : nextSegmentNumber (evaluatedInRing q e v o page fill s) = number := FirstFree.next (s := s) hfree hnext
  have hopen := openSegment_ring (rule := rule) (priority := priority) (x := answerInfo q e v o s .ring) (n := n) (p := p)
    (first := f) (errors := _) (s := evaluatedInRing q e v o page fill s)
    (DescriptorGained.opensFrom (priority := priority) (.inl ⟨hl, rfl⟩)) hf hnumber rfl hr rfl hn hp hfirst rfl
  have hstored := storeRecord_opens_ring (q := q) (o := o) hf hrun hh hl hnext hfree hfirings hr hfill hlt
  have hpages : s.sst.ring.drop (f / 32) ≠ [] := by
    simp only [ne_eq, List.drop_eq_nil_iff, hr, List.length_append, List.length_singleton]
    omega
  rw [hopen] at hstored
  have hslots : ∀ a, slotRecord s a = slotRecord { handed (answered s) with sst := { s.sst with ringFill := some (fill + 1) } } a :=
    fun _ => rfl
  exact ⟨_, _, _, h.exec_stored hd (hstored.trans (closeCheck_goesOn (s := s) hf rfl rfl hpages hpost)),
    continuePacing_goesOn _ _ _, (writeSlot_written hslots).1, rfl, rfl⟩

/-- A single firing on an unplaced record opens a segment in the descriptor gained, and the segment makes its close check. -/
theorem storeRecord_opens_unplaced (hf : fillingSegment s = none) (hrun : s.aqs.state = .running) (hh : s.sgm.holdoff = 0)
    (hr : s.sst.ring = []) (hp : s.sst.pool = []) (hs : answerFirings e v s = [⟨rule, priority, .capture⟩])
    (hg : DescriptorGained priority (evaluated e.channel v (handed (answered s))) y) (hnext : y.sgm.nextNumber < 65536)
    (hfree : FirstFree y number) :
    storeRecord e.channel (answerRecord q e v o s) (handed (answered s)) =
      closeCheck (withOpenReport q v rule number s (openSegment rule priority (answerInfo q e v o s .unplaced) y)) := by
  have hdraining : (evaluated e.channel v (handed (answered s))).aqs.state ≠ .draining := fun hc => by
    have hstate : s.aqs.state = .draining := hc
    simp [hrun] at hstate
  have hdealt := dealt_opens (q := q) (o := o) (place := .unplaced) hs
    (captureFiring_opens (s := evaluated e.channel v (handed (answered s))) hdraining hf hh hg hnext hfree)
  rw [storeRecord_unplaced hf hr hp, hdealt]
  exact if_pos rfl

/-- The segment that has just joined the table closes for the loss of its trigger record. -/
theorem withFilling_joined {f : Descriptor → Descriptor} {g g' : Sgm} (hf : g.table.find? isFilling = none)
    (ht : g'.table = g.table ++ [d]) (hd : d.state = .filling) : withFilling f g' = { g' with table := g.table ++ [f d] } := by
  rw [withFilling, ht, modifyFirst_fresh hf hd]

/-- Settles O60: the segment opens on a page had, or closes at once for the loss of its trigger record. -/
theorem unplacedTriggerRecordOpensASegment : Obligations.UnplacedTriggerRecordOpensASegment := by
  rintro q e v o s y rule priority number d h hd hrun hf hh hnext hr hp hfirings hg hfree rfl
  have hopens := hg.opensFrom
  have hnext : y.sgm.nextNumber < 65536 := hopens.next ▸ hnext
  have hfilling : fillingSegment y = none := hopens.filling.trans hf
  have hstored := storeRecord_opens_unplaced (q := q) (o := o) hf hrun hh hr hp hfirings hg hnext hfree
  refine ⟨fun page z hz hpost => ?page, fun hlost w hw => ?lost⟩
  case page =>
    have hslots : ∀ a, slotRecord z a = slotRecord s a := fun a => (hz.slots a).trans (hopens.slots a)
    rw [openSegment_page hopens hf (hfree.next hnext) rfl hz] at hstored
    have hclosed := hstored.trans (closeCheck_goesOn (s := z) (hz.filling.trans hfilling) rfl rfl (List.cons_ne_nil _ _) hpost)
    exact ⟨_, _, h.exec_stored hd hclosed, continuePacing_goesOn _ _ _, (writeSlot_written hslots).1, rfl⟩
  case lost =>
    rw [openSegment_lost hopens hf (hfree.next hnext) rfl hlost] at hstored
    have hcheck := closeCheck_checked (withOpenReport q v rule number s
      (withLostOpening rule priority number (answerInfo q e v o s .unplaced) (evaluated e.channel v (handed (answered s))) y))
    have hfound := fillingSegment_joined (s := y) (t := withOpenReport q v rule number s
      (withLostOpening rule priority number (answerInfo q e v o s .unplaced) (evaluated e.channel v (handed (answered s))) y))
      hfilling rfl rfl
    have hstate : y.aqs.state = .running := by
      rw [hopens.sequencer]
      exact hrun
    have hexhaustion : y.sgm.settings.exhaustion = s.sgm.settings.exhaustion := by
      rw [hopens.settings]
      rfl
    have hmode : y.sgm.settings.captureMode = s.sgm.settings.captureMode := by
      rw [hopens.settings]
      rfl
    have hexec := h.exec_stored hd hstored
    refine ⟨_, hexec, fun hx hm => ?goesOn, fun hx hm => ?single, fun hx => ?halts⟩
    case goesOn =>
      have hcloses := (hcheck.lost _ hfound rfl (fun he => hx (hexhaustion.symm.trans he))).goesOn hstate (hmode.trans hm)
      rw [withClosed_true, withFilling_joined (g := y.sgm) hfilling rfl rfl] at hcloses
      have hholdoff : y.sgm.settings.holdoff = s.sgm.settings.holdoff := by
        rw [hopens.settings]
        rfl
      rw [hcloses, hw, ← hholdoff]
      exact continuePacing_goesOn _ _ _
    case single =>
      have hentered := (hcheck.lost _ hfound rfl (fun he => hx (hexhaustion.symm.trans he))).single hstate (hmode.trans hm)
      rw [withClosed_true, withFilling_joined (g := y.sgm) hfilling rfl rfl] at hentered
      rw [continuePacing_ended (hentered.not_acquiring (.inl rfl)), hw]
      exact hentered
    case halts =>
      have hone : ((withOpenReport q v rule number s (withLostOpening rule priority number (answerInfo q e v o s .unplaced)
          (evaluated e.channel v (handed (answered s))) y)).sgm.table.filter isFilling).length ≤ 1 := by
        have hnone : y.sgm.table.filter isFilling = [] := List.length_eq_zero_iff.mp (fillingSegment_none_iff.mp hfilling)
        change ((y.sgm.table ++ [_]).filter isFilling).length ≤ 1
        rw [List.filter_append, hnone]
        exact List.length_filter_le _ _
      have hentered := hcheck.lostHalt _ hfound rfl (hexhaustion.trans hx) ((acquiring_iff _).mpr (.inl hstate)) hone
      rw [withHaltEnd, withFilling_joined (g := y.sgm) hfilling rfl rfl] at hentered
      rw [continuePacing_ended (hentered.not_acquiring (.inr rfl)), hw, hx]
      exact hentered

end Sys2Proof.Machine
